-- ==== Sys2Proof/Word.lean ====
section
/-! DEFINITION. The two word types of PCORE: the byte of a byte string and the 32-bit register word (rule R6, R11). -/

namespace Sys2Proof

/-- A byte: 8 bits, value 0 to 255 (rule R6). -/
abbrev Byte := BitVec 8

/-- A 32-bit word: a register of REG, a word of a descriptor, a command word (rules R11, R61, R72). -/
abbrev Word := BitVec 32

/-- A byte string; also a value-string, a title or a label, which are byte strings holding text (rule R6). -/
abbrev Bytes := List Byte

end Sys2Proof
end

