-- ==== Sys2Proof/Config.lean ====
section
/-! DEFINITION. The implementation parameters of rule R5: the fixed values and the default capacities, and the open
parameters (the block cipher, the CRC table beyond entry 0, the unit strings, the text of floats) as constants that
nothing can evaluate, with only the laws the spec gives them. -/

namespace Sys2Proof.Config

/-! ## Capacities (rule R5, U5): the spec's defaults -/

/-- `FRAME_MAX`: capacity of FRAME and of TEMP in bytes. DESIGN CHOICE of the instance: the spec's default. -/
def frameMax : Nat := 4096
/-- `PLAN_MAX`: capacity of PLAN in descriptors. -/
def planMax : Nat := 256
/-- `TBL_MAX`: capacity of TBL in bytes. -/
def tblMax : Nat := 65536
/-- `OUT_MAX`: capacity of OUT in bytes. -/
def outMax : Nat := 65536
/-- `CBUF_MAX`: capacity of CBUF in bytes. -/
def cbufMax : Nat := 4096
/-- `ERRBUF_MAX`: capacity of each of ERR_EXP and ERR_ACT in bytes. -/
def errbufMax : Nat := 256
/-- `KEYBUF_MAX` and `IVBUF_MAX`, fixed at 32 (rule R5). -/
def keybufMax : Nat := 32

/-! ## The block primitive (rule R136, U1) -/

/-- A block primitive: `E k` and `D k` are inverse permutations of the 128-bit blocks for every 128-bit key `k`.
The field defaults only show that such a pair exists; the constant `blockCipher` is any such pair. -/
structure BlockCipher where
  /-- `E(k, b)`. -/
  E : BitVec 128 → BitVec 128 → BitVec 128 := fun _ b => b
  /-- `D(k, c)`. -/
  D : BitVec 128 → BitVec 128 → BitVec 128 := fun _ c => c
  /-- `D(k, E(k, b)) = b`. -/
  D_E : ∀ k b, D k (E k b) = b := by intros; rfl
  /-- `E(k, D(k, c)) = c`. -/
  E_D : ∀ k c, E k (D k c) = c := by intros; rfl
deriving Inhabited

/-- `BLOCK_CIPHER = (E, D)`, OPEN: the source never names the cipher. -/
opaque blockCipher : BlockCipher

/-! ## The CRC table (rules R121 to R123, U2) -/

/-- The parameters of a CRC-16: `(poly, init, refin, refout, xorout)`. -/
structure CrcParams where
  poly : BitVec 16
  init : BitVec 16
  refin : Bool
  refout : Bool
  xorout : BitVec 16
deriving DecidableEq, Repr

/-- CRC-16/Modbus, the one required algorithm (rule R122). -/
def crcModbus : CrcParams := ⟨0x8005, 0xFFFF, true, true, 0x0000⟩

/-- `CRC_TABLE` at the selectors 1 to 15, OPEN (rule R75). -/
opaque crcTableOther : BitVec 4 → Option CrcParams

/-- `CRC_TABLE`: entry 0 is CRC-16/Modbus and always defined (rule R123). -/
def crcTable (alg : BitVec 4) : Option CrcParams :=
  if alg = 0 then some crcModbus else crcTableOther alg

/-! ## The unit strings (rule R68, U3) -/

/-- `SYMBOL_TAG`, a partial map from symbol ids to display strings, OPEN. -/
opaque symbolTag : BitVec 8 → Option Bytes

/-! ## The text of floats (rule R183, U4) -/

/-- Is the 32-bit pattern a NaN: exponent all ones, fraction not 0 (rule R96, IEEE-754 binary32)? -/
def isNan32 (p : BitVec 32) : Bool := p.extractLsb' 23 8 == 0xFF#8 && p.extractLsb' 0 23 != 0#23

/-- Is the 64-bit pattern a NaN: exponent all ones, fraction not 0 (rule R96, IEEE-754 binary64)? -/
def isNan64 (p : BitVec 64) : Bool := p.extractLsb' 52 11 == 0x7FF#11 && p.extractLsb' 0 52 != 0#52

/-- The text form the defaults of `FloatText` show to exist: a pattern as the list of its binary digits. -/
def digitText (n : Nat) (p : BitVec n) : Bytes := (Nat.digits 2 p.toNat).map (BitVec.ofNat 8)

/-- The inverse of `digitText`. -/
def digitParse (n : Nat) (s : Bytes) : Option (BitVec n) := some (BitVec.ofNat n (Nat.ofDigits 2 (s.map BitVec.toNat)))

theorem digitParse_digitText (n : Nat) (p : BitVec n) : digitParse n (digitText n p) = some p := by
  have h : ((Nat.digits 2 p.toNat).map (BitVec.ofNat 8)).map BitVec.toNat = Nat.digits 2 p.toNat := by
    rw [List.map_map]
    conv_rhs => rw [← List.map_id (Nat.digits 2 p.toNat)]
    refine List.map_congr_left fun x hx => ?_
    have := Nat.digits_lt_base (by decide : 1 < 2) hx
    simp
    omega
  simp [digitParse, digitText, h, Nat.ofDigits_digits]

/-- A text form for `n`-bit patterns: a total `RENDER` and a partial `PARSE` with the round trip that rule R183
demands, exact for every pattern that is not a NaN and up to some NaN for NaN patterns. The field defaults only show
that such a pair exists. -/
structure FloatText (n : Nat) (nan : BitVec n → Bool) where
  /-- `FLOAT_RENDER` or `DOUBLE_RENDER`. -/
  render : BitVec n → Bytes := digitText n
  /-- `FLOAT_PARSE` or `DOUBLE_PARSE`. -/
  parse : Bytes → Option (BitVec n) := digitParse n
  /-- `PARSE(RENDER(p)) = p` for every `p` that is not a NaN. -/
  parse_render : ∀ p, nan p = false → parse (render p) = some p := by
    intro p _; exact digitParse_digitText _ p
  /-- For a NaN the round trip gives some NaN. -/
  parse_render_nan : ∀ p, nan p = true → ∃ q, parse (render p) = some q ∧ nan q = true := by
    intro p h; exact ⟨p, digitParse_digitText _ p, h⟩
deriving Inhabited

/-- `FLOAT_RENDER` and `FLOAT_PARSE`, OPEN. -/
opaque floatText : FloatText 32 isNan32

/-- `DOUBLE_RENDER` and `DOUBLE_PARSE`, OPEN. -/
opaque doubleText : FloatText 64 isNan64

/-! ## Values the spec calls unspecified -/

/-- The value a host read of an unspecified location returns (U8, "any value"): a free value, drawn by a counter. -/
opaque anyWord : Nat → Word

end Sys2Proof.Config
end

