-- ==== Sys2Proof/Syntax.lean ====
section
/-! DEFINITION. The instructions of PCORE: the fourteen descriptor instructions of a field plan and the eleven
command rows written to `CMD` (rules R60, R61, R72; one constructor per row of spec/opcode_table.json). -/

namespace Sys2Proof

/-- The translator a descriptor selects, its `KIND` field (rule R63). -/
inductive Kind where
  | convert   -- KIND = 1
  | compare   -- KIND = 2
  | enum      -- KIND = 3
deriving DecidableEq, Repr

/-- The twelve field types, the `FTYPE` field (rule R64), in the order of their codes 0 to 11. -/
inductive FType where
  | bcd | u8 | u16 | u32 | u64 | i8 | i16 | i32 | i64 | float | double | ascii
deriving DecidableEq, Repr

/-- Every field of the eight descriptor words but `KIND` and `FTYPE`, which select the constructor (rule R61).
The reserved bits are operands too: a descriptor whose reserved bits are not 0 decodes, and is found illegal when it
is executed (rule R71 no. 10). -/
structure Desc where
  /-- W0[8]: reverse the field's bytes before interpretation (rule R44). -/
  swap : Bool
  /-- W0[9]: a scale is present in W4 (rule R67). -/
  scaleEn : Bool
  /-- W0[10]: a unit symbol is attached (rule R68). -/
  symEn : Bool
  /-- W0[12:11]: the direction mask (rule R65). -/
  dir : BitVec 2
  /-- W0[13]: encode only, the field is required (rule R245). -/
  req : Bool
  /-- W0[14]: encode only, W6 points to a default value-string (rule R69). -/
  defEn : Bool
  /-- W0[15]: reserved, must be 0. -/
  rsv0 : Bool
  /-- W0[31:16]: the PlaceHolder's tag. -/
  tag : BitVec 16
  /-- W1[15:0]: the PlaceHolder's ordinal, carried and never compared (rule R17). -/
  pos : BitVec 16
  /-- W1[31:16]: reserved, must be 0. -/
  rsv1 : BitVec 16
  /-- W2: first byte of the field (rule R66). -/
  startIndex : Word
  /-- W3: one past the last byte of the field (rule R66). -/
  endIndex : Word
  /-- W4[7:0]: decimal exponent of the scale (rule R67). -/
  scaleE : BitVec 8
  /-- W4[31:8]: mantissa of the scale (rule R67). -/
  scaleM : BitVec 24
  /-- W5[15:0]: offset of the title in TBL. -/
  titleOff : BitVec 16
  /-- W5[23:16]: length of the title. -/
  titleLen : BitVec 8
  /-- W5[31:24]: symbol id (rule R68). -/
  symbol : BitVec 8
  /-- W6[15:0]: offset of the auxiliary object in TBL (rule R69). -/
  auxOff : BitVec 16
  /-- W6[31:16]: its length in bytes, or its entry count for ENUM (rule R69). -/
  auxLen : BitVec 16
  /-- W7: reserved, must be 0. -/
  rsv7 : Word
deriving DecidableEq, Repr

/-- The instructions. A descriptor instruction carries the descriptor's operands; a command whose `ARG` is ignored
carries those 24 bits all the same, so that the encoding drops nothing (rule R72). -/
inductive Instr where
  -- descriptors: CONVERT by field type (rule R201), COMPARE (R202), ENUM (R203)
  | convertBcd (d : Desc)
  | convertU8 (d : Desc)
  | convertU16 (d : Desc)
  | convertU32 (d : Desc)
  | convertU64 (d : Desc)
  | convertI8 (d : Desc)
  | convertI16 (d : Desc)
  | convertI32 (d : Desc)
  | convertI64 (d : Desc)
  | convertFloat (d : Desc)
  | convertDouble (d : Desc)
  | convertAscii (d : Desc)
  | compare (d : Desc)
  | enum (d : Desc)
  -- commands
  | nop (arg : BitVec 24)
  | newCapsule (arg : BitVec 24)
  | decode (arg : BitVec 24)
  | writeFieldRaw
  | writeFieldEnc
  | encodePlan (arg : BitVec 24)
  | finalize (arg : BitVec 24)
  | crcCalc (arg : BitVec 24)
  | crcCompare (arg : BitVec 24)
  | encrypt (arg : BitVec 24)
  | decrypt (arg : BitVec 24)
deriving DecidableEq, Repr

/-- What a descriptor instruction selects: its kind, its field type (`bcd`, code 0, for COMPARE and ENUM, rule R64)
and its operands; `none` for a command. -/
def Instr.descriptor? : Instr → Option (Kind × FType × Desc)
  | .convertBcd d => some (.convert, .bcd, d)
  | .convertU8 d => some (.convert, .u8, d)
  | .convertU16 d => some (.convert, .u16, d)
  | .convertU32 d => some (.convert, .u32, d)
  | .convertU64 d => some (.convert, .u64, d)
  | .convertI8 d => some (.convert, .i8, d)
  | .convertI16 d => some (.convert, .i16, d)
  | .convertI32 d => some (.convert, .i32, d)
  | .convertI64 d => some (.convert, .i64, d)
  | .convertFloat d => some (.convert, .float, d)
  | .convertDouble d => some (.convert, .double, d)
  | .convertAscii d => some (.convert, .ascii, d)
  | .compare d => some (.compare, .bcd, d)
  | .enum d => some (.enum, .bcd, d)
  | .nop _ => none
  | .newCapsule _ => none
  | .decode _ => none
  | .writeFieldRaw => none
  | .writeFieldEnc => none
  | .encodePlan _ => none
  | .finalize _ => none
  | .crcCalc _ => none
  | .crcCompare _ => none
  | .encrypt _ => none
  | .decrypt _ => none

/-- Is the instruction a descriptor (fetched from PLAN or WD0 to WD7) and not a command (written to `CMD`)? Rule R60. -/
def Instr.isDescriptor (i : Instr) : Bool := i.descriptor?.isSome

end Sys2Proof
end

