-- ==== Sys2Proof/WellFormed.lean ====
section
/-! DEFINITION. The static checks on an instruction: the conditions of rule R71 that depend on the descriptor's own
words alone (no. 4 to 6 and 8 to 12; no. 1 to 3 are no instruction at all, no. 7 depends on the parameter
`SYMBOL_TAG`, no. 13 on the contents of TBL). Commands have no ill-formed operand. -/

namespace Sys2Proof.WellFormed

/-- Is the type one of the eight integer types, FTYPE 1 to 8 (rule R64: "scale allowed")? -/
def isIntType : FType → Bool
  | .bcd | .float | .double | .ascii => false
  | .u8 | .u16 | .u32 | .u64 | .i8 | .i16 | .i32 | .i64 => true

/-- Not no. 4: a scale only on CONVERT of an integer type. -/
def scaleAllowed (k : Kind) (ft : FType) (d : Desc) : Bool := !d.scaleEn || (k == .convert && isIntType ft)
/-- Not no. 5: `SCALE_E` at most 9. -/
def scaleExponentLegal (d : Desc) : Bool := !d.scaleEn || d.scaleE.toNat ≤ 9
/-- Not no. 6: a symbol only on CONVERT. -/
def symbolAllowed (k : Kind) (d : Desc) : Bool := !d.symEn || k == .convert
/-- Not no. 8: the direction mask is not 0. -/
def directionLegal (d : Desc) : Bool := d.dir != 0
/-- Not no. 9: a default only on CONVERT. -/
def defaultAllowed (k : Kind) (d : Desc) : Bool := !d.defEn || k == .convert
/-- Not no. 10: the reserved bits are 0. -/
def reservedClear (d : Desc) : Bool := !d.rsv0 && d.rsv1 == 0 && d.rsv7 == 0
/-- Not no. 11: the title lies in TBL. -/
def titleInTbl (d : Desc) : Bool := d.titleOff.toNat + d.titleLen.toNat ≤ Config.tblMax
/-- Not no. 12: where the kind uses AUX as a byte string, it lies in TBL. -/
def auxInTbl (k : Kind) (d : Desc) : Bool :=
  !(k == .compare || (k == .convert && d.defEn)) || d.auxOff.toNat + d.auxLen.toNat ≤ Config.tblMax

/-- All static checks on a descriptor. -/
def descriptor (k : Kind) (ft : FType) (d : Desc) : Bool :=
  scaleAllowed k ft d && scaleExponentLegal d && symbolAllowed k d && directionLegal d && defaultAllowed k d &&
    reservedClear d && titleInTbl d && auxInTbl k d

/-- An instruction is well-formed: its static checks hold. -/
def instr (i : Instr) : Bool :=
  match i.descriptor? with
  | some (k, ft, d) => descriptor k ft d
  | none => true

end Sys2Proof.WellFormed
end

