-- ==== Sys2Proof/Decode.lean ====
section
/-! DEFINITION. From words to instructions and back (rules R61 to R64, R72). A descriptor is eight words, a command
one word; the same low byte can select either, so the length of the word list, which is where the words stand (PLAN or
WD0 to WD7 against CMD), decides the class (rule R60). Nothing else is decoded as something it is not: what is
reserved is rejected by name. -/

namespace Sys2Proof

/-- The eight words of a descriptor, W0 to W7 (rule R61). -/
structure DescWords where
  w0 : Word
  w1 : Word
  w2 : Word
  w3 : Word
  w4 : Word
  w5 : Word
  w6 : Word
  w7 : Word
deriving DecidableEq, Repr

/-- Why words are no instruction. The first three are the conditions no. 1 to 3 of rule R71. -/
inductive DecodeError where
  /-- `KIND` is not 1, 2 or 3 (rule R63). -/
  | reservedKind (kind : BitVec 4)
  /-- `FTYPE` is 12 to 15 (rule R64). -/
  | reservedFtype (ftype : BitVec 4)
  /-- COMPARE or ENUM with `FTYPE` not 0 (rule R64). -/
  | ftypeWithoutConvert (ftype : BitVec 4)
  /-- `OPC` is not in the table of rule R72. -/
  | reservedOpcode (opc : BitVec 8)
  /-- WRITE_FIELD with an ARG bit other than bit 0 set (rule R72). -/
  | writeFieldArg (arg : BitVec 24)
  /-- Neither one word nor eight. -/
  | length (words : Nat)
deriving DecidableEq, Repr

/-- The number of the condition of rule R71 that a word list rejected as a descriptor violates; 0 for the errors of
the command class. -/
def decodeErrorCondition : DecodeError → Nat
  | .reservedKind _ => 1
  | .reservedFtype _ => 2
  | .ftypeWithoutConvert _ => 3
  | .reservedOpcode _ => 0
  | .writeFieldArg _ => 0
  | .length _ => 0

/-! ## Descriptors -/

/-- `FTYPE` codes (rule R64). -/
def ftypeOf (c : BitVec 4) : Option FType :=
  match c.toNat with
  | 0 => some .bcd
  | 1 => some .u8
  | 2 => some .u16
  | 3 => some .u32
  | 4 => some .u64
  | 5 => some .i8
  | 6 => some .i16
  | 7 => some .i32
  | 8 => some .i64
  | 9 => some .float
  | 10 => some .double
  | 11 => some .ascii
  | _ => none

/-- The code of a field type (rule R64). -/
def ftypeCode : FType → BitVec 4
  | .bcd => 0
  | .u8 => 1
  | .u16 => 2
  | .u32 => 3
  | .u64 => 4
  | .i8 => 5
  | .i16 => 6
  | .i32 => 7
  | .i64 => 8
  | .float => 9
  | .double => 10
  | .ascii => 11

/-- `KIND` codes (rule R63). -/
def kindOf (c : BitVec 4) : Option Kind :=
  match c.toNat with
  | 1 => some .convert
  | 2 => some .compare
  | 3 => some .enum
  | _ => none

/-- The code of a kind (rule R63). -/
def kindCode : Kind → BitVec 4
  | .convert => 1
  | .compare => 2
  | .enum => 3

/-- The operand fields of the eight words (the table of rule R61). -/
def descFields (w : DescWords) : Desc where
  swap := w.w0.getLsbD 8
  scaleEn := w.w0.getLsbD 9
  symEn := w.w0.getLsbD 10
  dir := w.w0.extractLsb' 11 2
  req := w.w0.getLsbD 13
  defEn := w.w0.getLsbD 14
  rsv0 := w.w0.getLsbD 15
  tag := w.w0.extractLsb' 16 16
  pos := w.w1.extractLsb' 0 16
  rsv1 := w.w1.extractLsb' 16 16
  startIndex := w.w2
  endIndex := w.w3
  scaleE := w.w4.extractLsb' 0 8
  scaleM := w.w4.extractLsb' 8 24
  titleOff := w.w5.extractLsb' 0 16
  titleLen := w.w5.extractLsb' 16 8
  symbol := w.w5.extractLsb' 24 8
  auxOff := w.w6.extractLsb' 0 16
  auxLen := w.w6.extractLsb' 16 16
  rsv7 := w.w7

/-- The descriptor instruction a kind and a field type select (rule R208); COMPARE and ENUM have one form. -/
def mkDescriptor (k : Kind) (ft : FType) (d : Desc) : Instr :=
  match k with
  | .compare => .compare d
  | .enum => .enum d
  | .convert =>
    match ft with
    | .bcd => .convertBcd d
    | .u8 => .convertU8 d
    | .u16 => .convertU16 d
    | .u32 => .convertU32 d
    | .u64 => .convertU64 d
    | .i8 => .convertI8 d
    | .i16 => .convertI16 d
    | .i32 => .convertI32 d
    | .i64 => .convertI64 d
    | .float => .convertFloat d
    | .double => .convertDouble d
    | .ascii => .convertAscii d

/-- Decode a descriptor: the three conditions of rule R71 that leave no instruction, in their order, then the form. -/
def decodeDescriptor (w : DescWords) : Except DecodeError Instr :=
  match kindOf (w.w0.extractLsb' 0 4) with
  | none => .error (.reservedKind (w.w0.extractLsb' 0 4))
  | some k =>
    match ftypeOf (w.w0.extractLsb' 4 4) with
    | none => .error (.reservedFtype (w.w0.extractLsb' 4 4))
    | some ft =>
      if k ≠ .convert ∧ ft ≠ .bcd then .error (.ftypeWithoutConvert (w.w0.extractLsb' 4 4))
      else .ok (mkDescriptor k ft (descFields w))

/-! ## Commands -/

/-- Decode a command word: `OPC` in bits 7:0, `ARG` in bits 31:8 (rule R72). -/
def decodeCommand (w : Word) : Except DecodeError Instr :=
  let arg : BitVec 24 := w.extractLsb' 8 24
  match (w.extractLsb' 0 8).toNat with
  | 0x00 => .ok (.nop arg)
  | 0x01 => .ok (.newCapsule arg)
  | 0x02 => .ok (.decode arg)
  | 0x03 =>
    if arg = 0 then .ok .writeFieldRaw
    else if arg = 1 then .ok .writeFieldEnc
    else .error (.writeFieldArg arg)
  | 0x04 => .ok (.encodePlan arg)
  | 0x05 => .ok (.finalize arg)
  | 0x10 => .ok (.crcCalc arg)
  | 0x11 => .ok (.crcCompare arg)
  | 0x20 => .ok (.encrypt arg)
  | 0x21 => .ok (.decrypt arg)
  | _ => .error (.reservedOpcode (w.extractLsb' 0 8))

/-! ## Both classes -/

/-- Decode a list of words: one word is a command, eight words are a descriptor. -/
def decodeWords : List Word → Except DecodeError Instr
  | [w] => decodeCommand w
  | [w0, w1, w2, w3, w4, w5, w6, w7] => decodeDescriptor ⟨w0, w1, w2, w3, w4, w5, w6, w7⟩
  | ws => .error (.length ws.length)

/-! ## The encoder -/

/-- One bit as a one-bit word, for the encoder. -/
def bitOf (b : Bool) : BitVec 1 := BitVec.ofBool b

/-- W0 of a descriptor (rule R61). -/
def encodeW0 (k : Kind) (ft : FType) (d : Desc) : Word :=
  d.tag ++ bitOf d.rsv0 ++ bitOf d.defEn ++ bitOf d.req ++ d.dir ++ bitOf d.symEn ++ bitOf d.scaleEn ++ bitOf d.swap ++
    ftypeCode ft ++ kindCode k

/-- The eight words of a descriptor (rule R61). -/
def encodeDescriptor (k : Kind) (ft : FType) (d : Desc) : DescWords where
  w0 := encodeW0 k ft d
  w1 := d.rsv1 ++ d.pos
  w2 := d.startIndex
  w3 := d.endIndex
  w4 := d.scaleM ++ d.scaleE
  w5 := d.symbol ++ d.titleLen ++ d.titleOff
  w6 := d.auxLen ++ d.auxOff
  w7 := d.rsv7

/-- The words of a descriptor as a list, W0 first. -/
def descWordList (w : DescWords) : List Word := [w.w0, w.w1, w.w2, w.w3, w.w4, w.w5, w.w6, w.w7]

/-- A command word from its `OPC` and `ARG` (rule R72). -/
def commandWord (opc : BitVec 8) (arg : BitVec 24) : Word := arg ++ opc

/-- The words of an instruction. -/
def encode : Instr → List Word
  | .convertBcd d => descWordList (encodeDescriptor .convert .bcd d)
  | .convertU8 d => descWordList (encodeDescriptor .convert .u8 d)
  | .convertU16 d => descWordList (encodeDescriptor .convert .u16 d)
  | .convertU32 d => descWordList (encodeDescriptor .convert .u32 d)
  | .convertU64 d => descWordList (encodeDescriptor .convert .u64 d)
  | .convertI8 d => descWordList (encodeDescriptor .convert .i8 d)
  | .convertI16 d => descWordList (encodeDescriptor .convert .i16 d)
  | .convertI32 d => descWordList (encodeDescriptor .convert .i32 d)
  | .convertI64 d => descWordList (encodeDescriptor .convert .i64 d)
  | .convertFloat d => descWordList (encodeDescriptor .convert .float d)
  | .convertDouble d => descWordList (encodeDescriptor .convert .double d)
  | .convertAscii d => descWordList (encodeDescriptor .convert .ascii d)
  | .compare d => descWordList (encodeDescriptor .compare .bcd d)
  | .enum d => descWordList (encodeDescriptor .enum .bcd d)
  | .nop arg => [commandWord 0x00 arg]
  | .newCapsule arg => [commandWord 0x01 arg]
  | .decode arg => [commandWord 0x02 arg]
  | .writeFieldRaw => [commandWord 0x03 0]
  | .writeFieldEnc => [commandWord 0x03 1]
  | .encodePlan arg => [commandWord 0x04 arg]
  | .finalize arg => [commandWord 0x05 arg]
  | .crcCalc arg => [commandWord 0x10 arg]
  | .crcCompare arg => [commandWord 0x11 arg]
  | .encrypt arg => [commandWord 0x20 arg]
  | .decrypt arg => [commandWord 0x21 arg]

/-! ## The host's question: one number per row of the opcode table -/

/-- The descriptor words a number stands for: bits 31:0 are W0, bits 63:32 are W1, and so on to bits 255:224. -/
def tableDescWords (w : Nat) : DescWords :=
  let word (k : Nat) : Word := BitVec.ofNat 32 (w >>> (32 * k))
  ⟨word 0, word 1, word 2, word 3, word 4, word 5, word 6, word 7⟩

/-- Is a table word to be read as a descriptor? A descriptor has eight words, so a number wider than one word is one.
One word alone does not tell its class, since the two classes share their low byte (rule R60; log 10): it is read as a
descriptor where its direction mask, bits 12:11, is not 0, as every legal descriptor's is (rule R71 no. 8), or where it
is the low byte of ENUM given as 8 bits (WRITE_FIELD has 32), and as a command where it is not. -/
def tableWordIsDescriptor (nbits w : Nat) : Bool :=
  32 < nbits || w / 2048 % 4 != 0 || (nbits ≤ 8 && w % 256 == 3)

/-- The instruction the decoder reads from a row's bits, numbered as spec/opcode_table.json numbers them. A word of
the chosen class that is none of its instructions is tried in the other class. -/
def decodeTableWord (nbits w : Nat) : Option Instr :=
  let asDescriptor := (decodeWords (descWordList (tableDescWords w))).toOption
  let asCommand := if 32 < nbits then none else (decodeWords [BitVec.ofNat 32 w]).toOption
  if tableWordIsDescriptor nbits w then asDescriptor.or asCommand else asCommand.or asDescriptor

end Sys2Proof
end

