-- ==== Sys2Proof/Machine/State.lean ====
section
/-! DEFINITION. The state of PCORE as plain data: the status flags and codes (rule R13), the error record (R14), the
registers of REG (R11), the memories as byte cells over the flat address map (R25, R40), the host moves to come
(R265), and the reset state (R31, R311). -/

namespace Sys2Proof.Machine

/-! ## State codes of STATUS (rule R13) -/

/-- `STATUS.MAIN`. `reading`, `finalizing`, `encoding` and `engine` name the transient states inside a command; no
state with BUSY clear that a run reaches holds one. -/
inductive MainState where
  | idle         -- code 0
  | reading      -- code 1
  | accum        -- code 2
  | finalizing   -- code 3
  | done         -- code 4
  | failed       -- code 5
  | encoding     -- code 6
  | engine       -- code 7
deriving DecidableEq, Repr

/-- `STATUS.RSTATE`, the frame reader's state (rule R215). -/
inductive ReaderState where
  | idle             -- code 0
  | expectHead       -- code 1
  | extractFields    -- code 2
  | expectChecksum   -- code 3
  | expectTail       -- code 4
  | done             -- code 5
  | failed           -- code 6
deriving DecidableEq, Repr

/-- The fields of STATUS, each its own (rule R13); the word the host reads is `statusWord`. -/
structure Status where
  busy : Bool
  done : Bool
  err : Bool
  success : Bool
  crcSwapped : Bool
  cmdRej : Bool
  main : MainState
  rstate : ReaderState
  failFrom : ReaderState
deriving DecidableEq, Repr

/-! ## Errors (rules R285 to R288) -/

/-- The errors of the taxonomy, one name per kind and sub-code (rules R286, R287). -/
inductive ErrCause where
  | invalidHead
  | invalidTail
  | crcMismatch
  | fieldLength             -- ValidationFailed.FIELD_LENGTH
  | compareMismatch         -- ValidationFailed.COMPARE_MISMATCH
  | lengthFieldMismatch     -- ValidationFailed.LENGTH_FIELD_MISMATCH
  | valueOutOfRange         -- ValidationFailed.VALUE_OUT_OF_RANGE
  | badNumber               -- ValidationFailed.BAD_NUMBER
  | notMachineCode
  | notHex
  | notBcd
  | notAscii
  | range                   -- InvalidRange.RANGE
  | bufferOverflow          -- InvalidRange.BUFFER_OVERFLOW
  | replaceEmpty            -- InvalidRange.REPLACE_EMPTY
  | padTooLong              -- PaddingError.PAD_TOO_LONG
  | blockZero               -- PaddingError.BLOCK_ZERO
  | alreadyLonger           -- PaddingError.ALREADY_LONGER
  | badIvLength             -- CryptoError.BAD_IV_LENGTH
  | badCiphertextLength     -- CryptoError.BAD_CIPHERTEXT_LENGTH
  | badPadding              -- CryptoError.BAD_PADDING
  | invalidKeyLength
  | unsupportedMode
  | inputTooShort
  | requiredMissing         -- CommonError.REQUIRED_MISSING
  | badConfig               -- CommonError.BAD_CONFIG
  | illegalDescriptor       -- CommonError.ILLEGAL_DESCRIPTOR
  | zeroScale               -- CommonError.ZERO_SCALE
  | unsupportedCrcAlg       -- CommonError.UNSUPPORTED_CRC_ALG
  | bothDeviceIdsAbsent     -- CommonError.BOTH_DEVICE_IDS_ABSENT, never raised (rule R304)
deriving DecidableEq, Repr

/-- What a `raise` carries (rule R285): the cause, the field type it names (rule R189), the two numbers and the two
byte sequences; a member a rule does not name is 0 or empty. -/
structure Err where
  cause : ErrCause
  ft : Option FType := none
  expNum : Word := 0
  actNum : Word := 0
  expBytes : Bytes := []
  actBytes : Bytes := []
deriving DecidableEq, Repr

/-- The registers of the error record (rule R14); the byte sequences stand in the memories ERR_EXP and ERR_ACT. -/
structure ErrRecord where
  /-- ERR_KIND: kind 7:0, sub-code 15:8, FT 19:16, FT_V 24. -/
  kind : Word
  /-- ERR_INDEX. -/
  index : Word
  /-- ERR_EXP_LEN. -/
  expLen : Word
  /-- ERR_ACT_LEN. -/
  actLen : Word
  /-- ERR_EXP_NUM. -/
  expNum : Word
  /-- ERR_ACT_NUM. -/
  actNum : Word
deriving DecidableEq, Repr

/-! ## Registers only the host writes (rule R11, access RW) -/

/-- The RW registers no command writes (rules R15 to R23). -/
structure Regs where
  capCtrl : Word
  cipherSlot : Word
  planLen : Word
  headIdx : Word
  headTag : Word
  tailIdx : Word
  tailTag : Word
  lenCtrl : Word
  lenfStart : Word
  lenfEnd : Word
  lenrStart : Word
  lenrEnd : Word
  crcCtrl : Word
  crcIndex : Word
  crcrStart : Word
  crcrEnd : Word
  payStart : Word
  payEnd : Word
  ciphCtrl : Word
  keyLen : Word
  ivLen : Word
  valsPtr : Word
  wvPtr : Word
  wsPtr : Word
  cand : Word
  /-- WD0 to WD7, the write descriptor. -/
  wd : DescWords
deriving DecidableEq, Repr

/-! ## Memory (rules R25, R40) -/

/-- The memories as one list of (address, byte) cells over the flat byte-address map. An unlisted address holds no
value (rules R31, R50). -/
abbrev Memory := List Host.Cell

/-- The memory spaces besides REG (rule R25). -/
inductive Space where
  | keybuf | ivbuf | errExp | errAct | plan | tbl | frame | temp | out | cbuf
deriving DecidableEq, Repr

/-! ## The host's moves (rule R265) -/

/-- The width of a host access (rule R41). -/
inductive Width where
  | byte | half | word
deriving DecidableEq, Repr

/-- One move of the host (rule R265): a read, a write (of a register, of `CMD`, of a memory location), a reset. -/
inductive HostMove where
  /-- Read the location of this width at this address of the map. -/
  | read (width : Width) (addr : Word)
  /-- Write the location of this width at this address of the map; a byte write uses the low byte of the value. -/
  | write (width : Width) (addr : Word) (value : Word)
  /-- Assert and release reset (rule R310). -/
  | reset
deriving DecidableEq, Repr

/-! ## The state -/

/-- The machine. -/
structure State where
  /-- STATUS (rule R13). -/
  status : Status
  /-- The error record (rule R14). -/
  err : ErrRecord
  /-- The registers only the host writes. -/
  regs : Regs
  /-- FRAME_LEN (rule R15): written by the host in Idle and by the writer. -/
  frameLen : Word
  /-- TEMP_LEN (rule R15). -/
  tempLen : Word
  /-- OUT_COUNT (rule R15). -/
  outCount : Word
  /-- OUT_BYTES (rule R15). -/
  outBytes : Word
  /-- PLAN_PC, the program counter (rule R17). -/
  planPc : Word
  /-- CBUF_LEN (rule R23): written by the host and by ENCRYPT and DECRYPT. -/
  cbufLen : Word
  /-- CRC_VALUE (rule R23). -/
  crcValue : Word
  /-- CRC_BYTES (rule R23). -/
  crcBytes : Word
  /-- The memories (rule R25). -/
  mem : Memory
  /-- Hidden state of a running command (rule R29 (c)): it takes its descriptor from WD0 to WD7 (WRITE_FIELD), not
  from PLAN. DESIGN CHOICE, log 9: the model's own field. -/
  fromWd : Bool
  /-- The host moves to come, the next one first. DESIGN CHOICE, log 8: the model's own field. -/
  inputs : List HostMove
  /-- What the last host read returned. DESIGN CHOICE, log 11: the model's own field. -/
  hostData : Word
  /-- How many free values host reads have drawn. DESIGN CHOICE, log 11: the model's own field. -/
  freeCount : Nat
deriving DecidableEq, Repr

/-! ## Why a step can stop -/

/-- Faults. Both are the model's way of giving no value where the spec gives none (rule R325). -/
inductive Fault where
  /-- A command reads a location that nothing has written since reset. Raised by every command that reads a memory;
  demanded by rule R50 and U8 ("fault"). SAFE: the hardware goes on with some value. -/
  | unwritten (space : Space) (offset : Nat)
  /-- A command reads a location beyond those that exist (rule R40). Raised by the same reads; the capacity checks and
  the clamped length registers keep every reachable state from it. SAFE. -/
  | noLocation (space : Space) (offset : Nat)
deriving DecidableEq, Repr

/-- Refusals. -/
inductive Refusal where
  /-- An instruction that has no meaning yet. Raised by `exec`'s arms only. SAFE. -/
  | notModelled (mnemonic : String)
  /-- A host access outside every existing location, of the wrong width, misaligned, or a write to a read-only
  memory: rule R41 and U9 say that a model refuses the move. Raised by the host port. SAFE: the hardware ignores the
  write, or returns an unspecified value. -/
  | hostAccess (width : Width) (addr : Word)
  /-- A host move other than a read of STATUS, a CMD write and reset while BUSY = 1: rules R53, R315 and U10 say that a
  model refuses it. Raised by the host port. SAFE. -/
  | hostWhileBusy
  /-- A descriptor instruction where no command is running one (rule R60: descriptors are executed by the sequencer
  inside a command), or a BUSY state with no command in it. Raised by the descriptor meanings and the sequencer; no
  reachable state does. SAFE, log 16. -/
  | noCommandRunning
deriving DecidableEq, Repr

/-! ## Reset (rules R31, R311) -/

/-- STATUS after reset: 0. -/
def Status.reset : Status := ⟨false, false, false, false, false, false, .idle, .idle, .idle⟩

/-- No error recorded: ERR_KIND 0, ERR_INDEX 0xFFFFFFFF, numbers and lengths 0 (rule R14). -/
def ErrRecord.none : ErrRecord := ⟨0, 0xFFFFFFFF, 0, 0, 0, 0⟩

/-- The RW registers after reset: 0 but for CAP_CTRL = 3 and CIPHER_SLOT = 0xFFFFFFFF (rule R31). -/
def Regs.reset : Regs where
  capCtrl := 3
  cipherSlot := 0xFFFFFFFF
  planLen := 0
  headIdx := 0
  headTag := 0
  tailIdx := 0
  tailTag := 0
  lenCtrl := 0
  lenfStart := 0
  lenfEnd := 0
  lenrStart := 0
  lenrEnd := 0
  crcCtrl := 0
  crcIndex := 0
  crcrStart := 0
  crcrEnd := 0
  payStart := 0
  payEnd := 0
  ciphCtrl := 0
  keyLen := 0
  ivLen := 0
  valsPtr := 0
  wvPtr := 0
  wsPtr := 0
  cand := 0
  wd := ⟨0, 0, 0, 0, 0, 0, 0, 0⟩

/-- The machine right after reset: no location of any memory holds a value, and no host move is pending. -/
def State.reset : State where
  status := Status.reset
  err := ErrRecord.none
  regs := Regs.reset
  frameLen := 0
  tempLen := 0
  outCount := 0
  outBytes := 0
  planPc := 0
  cbufLen := 0
  crcValue := 0
  crcBytes := 0
  mem := []
  fromWd := false
  inputs := []
  hostData := 0
  freeCount := 0

end Sys2Proof.Machine
end

