-- ==== Sys2Proof/Machine/Flags.lean ====
section
/-! DEFINITION. The STATUS word and every update of the status flags (rules R13, R28, R266, R267, R271). PCORE has no
arithmetic condition codes: its flags are the STATUS bits. -/

namespace Sys2Proof.Machine

/-- MAIN codes (rule R13). -/
def mainCode : MainState → BitVec 4
  | .idle => 0
  | .reading => 1
  | .accum => 2
  | .finalizing => 3
  | .done => 4
  | .failed => 5
  | .encoding => 6
  | .engine => 7

/-- RSTATE and FAIL_FROM codes (rule R13). -/
def readerCode : ReaderState → BitVec 4
  | .idle => 0
  | .expectHead => 1
  | .extractFields => 2
  | .expectChecksum => 3
  | .expectTail => 4
  | .done => 5
  | .failed => 6

/-- The STATUS word the host reads (rule R13); bits 7:6 and 31:20 are reserved and read 0. -/
def statusWord (t : Status) : Word :=
  (0 : BitVec 12) ++ readerCode t.failFrom ++ readerCode t.rstate ++ mainCode t.main ++ (0 : BitVec 2) ++
    BitVec.ofBool t.cmdRej ++ BitVec.ofBool t.crcSwapped ++ BitVec.ofBool t.success ++ BitVec.ofBool t.err ++
    BitVec.ofBool t.done ++ BitVec.ofBool t.busy

/-- Acceptance of NOP: CMD_REJ cleared, DONE cleared, BUSY set; ERR and the record are kept (rules R266, R271). -/
def flagsAcceptNop (t : Status) : Status := { t with cmdRej := false, done := false, busy := true }

/-- Acceptance of any other command: ERR cleared too (rule R271). -/
def flagsAccept (t : Status) : Status := { t with cmdRej := false, done := false, busy := true, err := false }

/-- Completion: BUSY cleared, DONE set (rule R271). -/
def flagsComplete (t : Status) : Status := { t with busy := false, done := true }

/-- Completion with an error: ERR set as well (rule R271). -/
def flagsCompleteErr (t : Status) : Status := { t with busy := false, done := true, err := true }

/-- Refusal changes CMD_REJ and nothing else (rule R269). -/
def flagsReject (t : Status) : Status := { t with cmdRej := true }

/-- The status part of a failing capsule command (rule R290): RSTATE and FAIL_FROM change if the command is DECODE,
which is the one that runs in the transient state Reading. -/
def flagsFailCapsule (t : Status) : Status :=
  let u := flagsCompleteErr { t with success := false, main := .failed }
  if t.main = .reading then { u with failFrom := t.rstate, rstate := .failed } else u

/-- The status part of NEW_CAPSULE (rule R267). -/
def flagsNewCapsule (t : Status) : Status :=
  { t with busy := false, done := true, err := false, success := false, crcSwapped := false, cmdRej := false,
           main := .idle, rstate := .idle, failFrom := .idle }

/-- The commands as rows of the acceptance matrix (rule R268). -/
inductive CommandRow where
  | nop | newCapsule | decode | writeField | encodePlan | finalize | crc | cipher
deriving DecidableEq, Repr

/-- The acceptance matrix (rule R268), by the main state. NOP and NEW_CAPSULE are accepted in every state; the
transient states of a running command accept nothing else. -/
def accepts (c : CommandRow) (m : MainState) : Bool :=
  match c, m with
  | .nop, _ => true
  | .newCapsule, _ => true
  | .decode, .idle => true
  | .writeField, .idle => true
  | .writeField, .accum => true
  | .encodePlan, .idle => true
  | .encodePlan, .accum => true
  | .finalize, .accum => true
  | .crc, .idle => true
  | .crc, .accum => true
  | .crc, .done => true
  | .cipher, .idle => true
  | .cipher, .accum => true
  | .cipher, .done => true
  | _, _ => false

end Sys2Proof.Machine
end

