-- ==== Sys2Proof/Machine/Numeric.lean ====
section
/-! DEFINITION. The numeric and hex datapath primitives (spec/40_numeric_hex.md, rules R90 to R105), with the byte
string notation of rule R6. The library functions no command calls are here too, with the errors they raise (R304). -/

namespace Sys2Proof.Machine

/-! ## Notation (rule R6) -/

/-- `BE(b)`: the unsigned integer whose big-endian representation is `b`. -/
def be (b : Bytes) : Nat := b.foldl (fun acc x => 256 * acc + x.toNat) 0

/-- `BEn(v, n)`: the `n`-byte string with `BE(BEn(v, n)) = v mod 2^(8n)`. -/
def beN (v : Nat) : Nat → Bytes
  | 0 => []
  | n + 1 => beN (v / 256) n ++ [BitVec.ofNat 8 v]

/-- `sext_N(v)`: the `bits`-bit pattern `v` read as two's complement. -/
def sext (bits v : Nat) : Int := if v < 2 ^ (bits - 1) then (v : Int) else (v : Int) - 2 ^ bits

/-- `S32(w)` (rule R6). -/
def s32 (w : Word) : Int := w.toInt

/-- The pattern `v mod 2^bits` of an integer: two's complement. -/
def wrap (bits : Nat) (v : Int) : Nat := (v % (2 ^ bits : Nat)).toNat

/-- `b[i:j]` (rule R6). -/
def slice (b : Bytes) (i j : Nat) : Bytes := (b.take j).drop i

/-- `XOR(a, b)`; on strings of different length the result has the shorter length, which is `XORP` (rule R137). -/
def xorBytes (a b : Bytes) : Bytes := List.zipWith (· ^^^ ·) a b

/-- A 32-bit member of the error record. -/
def num (n : Nat) : Word := BitVec.ofNat 32 n

/-! ## Hex strings -/

/-- One hexadecimal digit, upper case (rule R90). -/
def hexDigit (n : Nat) : Byte := BitVec.ofNat 8 (if n < 10 then 0x30 + n else 0x37 + n)

/-- `HEX(b)` (rule R90): the high nibble first. -/
def hex : Bytes → Bytes
  | [] => []
  | x :: r => hexDigit (x.toNat / 16) :: hexDigit (x.toNat % 16) :: hex r

/-- The value of a hexadecimal digit of either case, `none` for another character (rule R91). -/
def hexVal (c : Byte) : Option Nat :=
  let n := c.toNat
  if 0x30 ≤ n ∧ n ≤ 0x39 then some (n - 0x30)
  else if 0x41 ≤ n ∧ n ≤ 0x46 then some (n - 0x37)
  else if 0x61 ≤ n ∧ n ≤ 0x66 then some (n - 0x57)
  else none

/-- `UNHEX(s)` as a partial function (rule R91). -/
def unhex? : Bytes → Option Bytes
  | [] => some []
  | [_] => none
  | a :: b :: r =>
    match hexVal a, hexVal b, unhex? r with
    | some x, some y, some t => some (BitVec.ofNat 8 (16 * x + y) :: t)
    | _, _, _ => none

/-- The error of a string that fails a hex-string precondition (rule R288: string length, the string). -/
def stringErr (c : ErrCause) (s : Bytes) : Err := { cause := c, actNum := num s.length, actBytes := s }

/-- `UNHEX(s)`, failing with NotHex (rule R91). -/
def unhex (s : Bytes) : Except Err Bytes :=
  match unhex? s with
  | some b => .ok b
  | none => .error (stringErr .notHex s)

/-- Is the character a decimal digit? -/
def isDigit (c : Byte) : Bool := 0x30 ≤ c.toNat && c.toNat ≤ 0x39

/-- `IS_HEX(s)` (rule R92). -/
def isHex (s : Bytes) : Bool := !s.isEmpty && s.length % 2 == 0 && s.all fun c => (hexVal c).isSome

/-- `IS_BCD(s)` (rule R92). -/
def isBcd (s : Bytes) : Bool := !s.isEmpty && s.length % 2 == 0 && s.all isDigit

/-- `IS_ASCII_HEX(s)` (rule R92). -/
def isAsciiHex (s : Bytes) : Bool := isHex s && ((unhex? s).getD []).all fun b => b.toNat ≤ 0x7F

/-- `IS_MACHINE_CODE(s)` (rule R92). -/
def isMachineCode (s : Bytes) : Bool := isHex s || isBcd s || isAsciiHex s

/-- The shapes a validation can demand (rule R92). -/
inductive HexShape where
  | hex | bcd | asciiHex | machineCode
deriving DecidableEq, Repr

/-- A validation that demands one shape fails with the error of that shape (rule R92). DESIGN CHOICE (log 26): the
NotAscii of the ASCII-hex shape carries the string and its length, as NotHex and NotBcd do; rule R288 states the record
of NotAscii for the Ascii field type only, so the spec leaves this one open. -/
def validateHex (shape : HexShape) (s : Bytes) : Except Err Unit :=
  match shape with
  | .hex => if isHex s then .ok () else .error (stringErr .notHex s)
  | .bcd => if isBcd s then .ok () else .error (stringErr .notBcd s)
  | .asciiHex => if isAsciiHex s then .ok () else .error (stringErr .notAscii s)
  | .machineCode => if isMachineCode s then .ok () else .error (stringErr .notMachineCode s)

/-! ## Integers and digit strings -/

/-- `RESIZE(b, signed, negative, target)` (rule R93): keep the low bytes, or extend. -/
def resize (b : Bytes) (signed negative : Bool) (target : Nat) : Bytes :=
  if target ≤ b.length then b.drop (b.length - target)
  else List.replicate (target - b.length) (if signed && negative then 0xFF else 0x00) ++ b

/-- `INT_TO_HEX(v, native, signed, target)` (rule R93). -/
def intToHex (v : Int) (native : Nat) (signed : Bool) (target : Nat) : Bytes :=
  hex (resize (beN (wrap (8 * native) v) native) signed (v < 0) target)

/-- `HEX_TO_INT(s, native, signed)` (rule R94). -/
def hexToInt (s : Bytes) (native : Nat) (signed : Bool) : Except Err Int :=
  if !isHex s then .error (stringErr .notHex s)
  else if s.length ≠ 2 * native then
    .error { cause := .fieldLength, expNum := num native, actNum := num (s.length / 2) }
  else
    let v := be ((unhex? s).getD [])
    .ok (if signed then sext (8 * native) v else v)

/-- The `n` binary digits of `v`, most significant first. -/
def binDigits (v : Nat) : Nat → Bytes
  | 0 => []
  | n + 1 => binDigits (v / 2) n ++ [if v % 2 = 1 then 0x31 else 0x30]

/-- `INT_TO_BIN(v, native_bits, target_bits)` (rule R95): always padded with '0'. -/
def intToBin (v : Int) (nativeBits targetBits : Nat) : Bytes :=
  let s := binDigits (wrap nativeBits v) nativeBits
  if targetBits ≤ nativeBits then s.drop (nativeBits - targetBits)
  else List.replicate (targetBits - nativeBits) 0x30 ++ s

/-- `BIN_TO_INT(s, signed)` (rule R95), which names no numbers for its error, so they are 0 by rule R285 (DEDUCED,
log 22). -/
def binToInt (s : Bytes) (signed : Bool) : Except Err Int :=
  if [8, 16, 32, 64].contains s.length && s.all (fun c => c == 0x30 || c == 0x31) then
    let v := s.foldl (fun acc c => 2 * acc + (c.toNat - 0x30)) 0
    .ok (if signed then sext s.length v else v)
  else .error { cause := .fieldLength }

/-- `F32_BITS(b)` (rule R96). -/
def f32Bits (b : Bytes) : Except Err (BitVec 32) :=
  if b.length = 4 then .ok (BitVec.ofNat 32 (be b))
  else .error { cause := .fieldLength, expNum := 4, actNum := num b.length, actBytes := b }

/-- `F64_BITS(b)` (rule R96). -/
def f64Bits (b : Bytes) : Except Err (BitVec 64) :=
  if b.length = 8 then .ok (BitVec.ofNat 64 (be b))
  else .error { cause := .fieldLength, expNum := 8, actNum := num b.length, actBytes := b }

/-! ## Byte ranges -/

/-- A start index: negative counts from the end (rules R97, R98). -/
def fromEnd (n : Nat) (i : Int) : Int := if i < 0 then n + i else i

/-- An end index: zero or negative counts from the end (rules R97, R98). -/
def endFromEnd (n : Nat) (e : Int) : Int := if e ≤ 0 then n + e else e

/-- An index clamped to 0 to `n`. -/
def clamp (n : Nat) (i : Int) : Nat := (min (max i 0) n).toNat

/-- `cut_bytes(d, s, e)` (rule R97): clamping, no error. -/
def cutBytes (d : Bytes) (s e : Int) : Bytes :=
  slice d (clamp d.length (fromEnd d.length s)) (clamp d.length (endFromEnd d.length e))

/-- `IDX(n, i)` (rule R98). -/
def idx (n : Nat) (i : Int) : Int := fromEnd n i

/-- `RANGE(n, s, e)` (rule R98): strict. -/
def range (n : Nat) (s e : Int) : Except Err (Nat × Nat) :=
  let s1 := fromEnd n s
  let e1 := endFromEnd n e
  if 0 ≤ s1 ∧ s1 ≤ e1 ∧ e1 ≤ n then .ok (s1.toNat, e1.toNat)
  else .error { cause := .range, expNum := num n, actNum := BitVec.ofInt 32 s }

/-- `SPLICE(o, s, e, r)` (rule R99). -/
def splice (o : Bytes) (s e : Nat) (r : Bytes) : Bytes := o.take s ++ r ++ o.drop e

/-- `replace_bytes(o, start, end, r)` (rule R99). DESIGN CHOICE (log 25): its InvalidRange.RANGE carries `len(o)` and
`start` modulo 2^32, as the RANGE of rule R98 does; rule R99 names no numbers for it. -/
def replaceBytes (o : Bytes) (start stop : Int) (r : Bytes) : Except Err Bytes :=
  if o.isEmpty || r.isEmpty then .error { cause := .replaceEmpty }
  else
    let e1 := fromEnd o.length stop
    if 0 ≤ start ∧ start ≤ e1 ∧ e1 ≤ o.length then .ok (splice o start.toNat e1.toNat r)
    else .error { cause := .range, expNum := num o.length, actNum := BitVec.ofInt 32 start }

/-! ## Padding -/

/-- Where the fill goes (rules R100, R101). -/
def placeFill (b fill : Bytes) (atHead : Bool) : Bytes := if atHead then fill ++ b else b ++ fill

/-- `PAD_BLOCK(b, block, pad, at_head)` (rule R100); `pad = none` is PKCS#7 style. -/
def padBlock (b : Bytes) (block : Nat) (pad : Option Byte) (atHead : Bool) : Except Err Bytes :=
  if block = 0 then .error { cause := .blockZero }
  else
    match pad with
    | none =>
      let p := block - b.length % block
      if 255 < p then .error { cause := .padTooLong, expNum := 255, actNum := num p }
      else .ok (placeFill b (List.replicate p (BitVec.ofNat 8 p)) atHead)
    | some x => .ok (placeFill b (List.replicate ((block - b.length % block) % block) x) atHead)

/-- `pad_hex_to_block_size(s, block, pad)` (rule R100). -/
def padHexToBlockSize (s : Bytes) (block : Nat) (pad : Option Byte) : Except Err Bytes :=
  match unhex s with
  | .error e => .error e
  | .ok b => (padBlock b block pad false).map hex

/-- `PAD_LENGTH(b, total, pad, at_head)` (rule R101), which names no numbers for its PAD_TOO_LONG, so they are 0 by rule
R285 (DEDUCED, log 22). -/
def padLength (b : Bytes) (total : Nat) (pad : Option Byte) (atHead : Bool) : Except Err Bytes :=
  if total < b.length then .error { cause := .alreadyLonger, expNum := num total, actNum := num b.length }
  else
    let p := total - b.length
    match pad with
    | none =>
      if 255 < p then .error { cause := .padTooLong }
      else .ok (placeFill b (List.replicate p (BitVec.ofNat 8 p)) atHead)
    | some x => .ok (placeFill b (List.replicate p x) atHead)

/-! ## The two reversals -/

/-- `REV(b)` (rule R102): byte-order reversal, what a field's swap flag applies. -/
def rev (b : Bytes) : Bytes := b.reverse

/-- `BITREV8(b)` (rule R103): bit-order reversal within each byte. No rule applies it (U14). -/
def bitrev8 (b : Bytes) : Bytes := b.map BitVec.reverse

end Sys2Proof.Machine
end

