-- ==== Sys2Proof/Machine/Ops.lean ====
section
/-! DEFINITION. The named operations over memory and registers, acceptance and completion of a command (rule R271),
and taking an error with the return from it beside it (rules R285, R290, R292, R294). -/

namespace Sys2Proof.Machine

/-- Why a computation inside a command ends early: a `raise` (rule R285), or a fault of the model. -/
inductive Stop where
  | raise (e : Err)
  | fault (f : Fault)
deriving DecidableEq, Repr

/-- A computation inside a command that may end early. -/
abbrev Res (α : Type) := Except Stop α

/-- What a step of this machine answers. -/
abbrev Out := Host.Outcome State Fault Refusal

/-- `raise Kind.SUB(info)` (rule R6). -/
def raise {α : Type} (e : Err) : Res α := .error (.raise e)

/-- A pure function of the datapath inside a command. -/
def liftE {α : Type} : Except Err α → Res α
  | .ok a => .ok a
  | .error e => .error (.raise e)

/-! ## Memory: the address map (rule R40) -/

/-- Base address of a space's window (rule R40). -/
def spaceBase : Space → Nat
  | .keybuf => 0x100
  | .ivbuf => 0x120
  | .errExp => 0x200
  | .errAct => 0x300
  | .plan => 0x10000
  | .tbl => 0x20000
  | .frame => 0x30000
  | .temp => 0x40000
  | .out => 0x50000
  | .cbuf => 0x60000

/-- How many bytes of a space exist (rules R5, R40). -/
def spaceSize : Space → Nat
  | .keybuf => Config.keybufMax
  | .ivbuf => Config.keybufMax
  | .errExp => Config.errbufMax
  | .errAct => Config.errbufMax
  | .plan => Config.planMax * 32
  | .tbl => Config.tblMax
  | .frame => Config.frameMax
  | .temp => Config.frameMax
  | .out => Config.outMax
  | .cbuf => Config.cbufMax

/-- All spaces (rule R25). -/
def allSpaces : List Space := [.keybuf, .ivbuf, .errExp, .errAct, .plan, .tbl, .frame, .temp, .out, .cbuf]

/-- The space and offset of an address of an existing location, if it is one (rule R40). -/
def locate (addr : Nat) : Option (Space × Nat) :=
  (allSpaces.find? fun sp => spaceBase sp ≤ addr && addr < spaceBase sp + spaceSize sp).map
    fun sp => (sp, addr - spaceBase sp)

/-! ## Memory: cells -/

/-- The byte at an address; `none` where nothing has written it (rule R50). -/
def memGet : Memory → Nat → Option Byte
  | [], _ => none
  | (a, v) :: r, x => if a = x then some v else memGet r x

/-- Write one byte, keeping the addresses strictly rising. -/
def memSet : Memory → Nat → Byte → Memory
  | [], x, w => [(x, w)]
  | (a, v) :: r, x, w =>
    if x < a then (x, w) :: (a, v) :: r
    else if x = a then (x, w) :: r
    else (a, v) :: memSet r x w

/-- Write a byte string from an address up. -/
def memSetMany (m : Memory) (x : Nat) : Bytes → Memory
  | [] => m
  | b :: r => memSetMany (memSet m x b) (x + 1) r

/-- The canonical form: addresses strictly rising, each that of an existing location. An unlisted address holds no
value, so no entry can equal what an unlisted address reads as. -/
abbrev Memory.wf (m : Memory) : Prop :=
  m.Pairwise (fun c d => c.1 < d.1) ∧ ∀ c ∈ m, (locate c.1).isSome = true

/-! ## Memory: byte strings of a space -/

/-- One byte of a space, as the block reads it inside a command: a location nothing has written faults (rule R50, U8). -/
def readByte (s : State) (sp : Space) (off : Nat) : Res Byte :=
  if spaceSize sp ≤ off then .error (.fault (.noLocation sp off))
  else
    match memGet s.mem (spaceBase sp + off) with
    | some b => .ok b
    | none => .error (.fault (.unwritten sp off))

/-- `SPACE[off : off+len]` (rule R6). -/
def readBytes (s : State) (sp : Space) (off : Nat) : Nat → Res Bytes
  | 0 => .ok []
  | n + 1 => do
    let b ← readByte s sp off
    let r ← readBytes s sp (off + 1) n
    return b :: r

/-- `SPACE[off : off+len(b)] <- b` (rule R6). Callers check the capacity first (rule R49); the cut at the space's
end never bites after such a check. -/
def writeBytes (s : State) (sp : Space) (off : Nat) (b : Bytes) : State :=
  { s with mem := memSetMany s.mem (spaceBase sp + off) (b.take (spaceSize sp - off)) }

/-- The four bytes of a PLAN word, least significant first (DESIGN CHOICE, log 7: rule R41 makes the order invisible). -/
def wordBytes (w : Word) : Bytes := [w.extractLsb' 0 8, w.extractLsb' 8 8, w.extractLsb' 16 8, w.extractLsb' 24 8]

/-- The word of four bytes, least significant first; 0 for a list of another length, which `readBytes` of four never gives. -/
def bytesWord : Bytes → Word
  | [a, b, c, d] => d ++ c ++ b ++ a
  | _ => 0

/-- A word of PLAN, at byte offset `off` (rule R40). -/
def readPlanWord (s : State) (off : Nat) : Res Word := do
  let b ← readBytes s .plan off 4
  return bytesWord b

/-- `PLAN[k]`: the eight words of descriptor `k` (rules R40, R55). DESIGN CHOICE (log 27): the descriptor is fetched whole,
so a word nothing has written faults (U8: read by a command) even where the descriptor ignores it (W4 with SCALE_EN = 0
by rule R67, W6 with AUX unused by rule R69, or all but W0 of one that does not apply), although rule R50 speaks of the
locations the result depends on. -/
def fetchPlan (s : State) (k : Nat) : Res DescWords := do
  let w0 ← readPlanWord s (32 * k)
  let w1 ← readPlanWord s (32 * k + 4)
  let w2 ← readPlanWord s (32 * k + 8)
  let w3 ← readPlanWord s (32 * k + 12)
  let w4 ← readPlanWord s (32 * k + 16)
  let w5 ← readPlanWord s (32 * k + 20)
  let w6 ← readPlanWord s (32 * k + 24)
  let w7 ← readPlanWord s (32 * k + 28)
  return ⟨w0, w1, w2, w3, w4, w5, w6, w7⟩

/-- Store the eight words of descriptor `k` in PLAN. -/
def storePlan (s : State) (k : Nat) (w : DescWords) : State :=
  writeBytes s .plan (32 * k) ((descWordList w).flatMap wordBytes)

/-! ## The error record (rules R14, R285 to R288) -/

/-- The kind code of an error, ERR_KIND[7:0] (rule R286). -/
def errKindCode : ErrCause → BitVec 8
  | .invalidHead => 1
  | .invalidTail => 2
  | .crcMismatch => 3
  | .fieldLength | .compareMismatch | .lengthFieldMismatch | .valueOutOfRange | .badNumber => 4
  | .notMachineCode => 5
  | .notHex => 6
  | .notBcd => 7
  | .notAscii => 8
  | .range | .bufferOverflow | .replaceEmpty => 9
  | .padTooLong | .blockZero | .alreadyLonger => 10
  | .badIvLength | .badCiphertextLength | .badPadding => 11
  | .invalidKeyLength => 12
  | .unsupportedMode => 13
  | .inputTooShort => 14
  | .requiredMissing | .badConfig | .illegalDescriptor | .zeroScale | .unsupportedCrcAlg | .bothDeviceIdsAbsent => 15

/-- The sub-code of an error, ERR_KIND[15:8] (rule R287). -/
def errSubCode : ErrCause → BitVec 8
  | .invalidHead | .invalidTail | .crcMismatch | .notMachineCode | .notHex | .notBcd | .notAscii => 0
  | .invalidKeyLength | .unsupportedMode | .inputTooShort => 0
  | .fieldLength | .range | .padTooLong | .badIvLength | .requiredMissing => 1
  | .compareMismatch | .bufferOverflow | .blockZero | .badCiphertextLength | .badConfig => 2
  | .lengthFieldMismatch | .replaceEmpty | .alreadyLonger | .badPadding | .illegalDescriptor => 3
  | .valueOutOfRange | .zeroScale => 4
  | .badNumber | .unsupportedCrcAlg => 5
  | .bothDeviceIdsAbsent => 6

/-- The ERR_KIND word of an error: kind, sub-code, FT and FT_V (rules R14, R189). -/
def errKindWord (e : Err) : Word :=
  match e.ft with
  | some t => (0 : BitVec 7) ++ (1 : BitVec 1) ++ (0 : BitVec 4) ++ ftypeCode t ++ errSubCode e.cause ++ errKindCode e.cause
  | none => (0 : BitVec 16) ++ errSubCode e.cause ++ errKindCode e.cause

/-- `ERR_INDEX` where the error did not arise under a plan descriptor (rule R14). -/
def noIndex : Word := 0xFFFFFFFF

/-- Write the error record: the registers, and the byte sequences cut to their first ERRBUF_MAX bytes (rules R14, R285). -/
def recordError (e : Err) (index : Word) (s : State) : State :=
  let x := e.expBytes.take Config.errbufMax
  let a := e.actBytes.take Config.errbufMax
  let s1 := writeBytes (writeBytes s .errExp 0 x) .errAct 0 a
  { s1 with err := { kind := errKindWord e, index := index, expLen := num x.length, actLen := num a.length,
                     expNum := e.expNum, actNum := e.actNum } }

/-- Taking an error in a capsule command (rule R290): the record, then the flags and MAIN, and RSTATE and FAIL_FROM if
the command is DECODE. Nothing else is saved and nothing is rolled back (rule R291). -/
def failCapsule (e : Err) (index : Word) (s : State) : State :=
  let s1 := recordError e index s
  { s1 with status := flagsFailCapsule s1.status, fromWd := false }

/-- Taking an error in an engine command (rule R292): the record, ERR and DONE; the capsule is left alone. -/
def failEngine (e : Err) (s : State) : State :=
  let s1 := recordError e noIndex s
  { s1 with status := flagsCompleteErr s1.status }

/-- The return from an error (rule R294): NEW_CAPSULE's effect (rule R267), which discards the capsule and resumes at
Idle; nothing is restored, because nothing was saved. -/
def freshCapsule (s : State) : State :=
  { s with frameLen := 0, tempLen := 0, outCount := 0, outBytes := 0, planPc := 0, err := ErrRecord.none,
           status := flagsNewCapsule s.status, fromWd := false }

/-! ## The life of a command (rules R269, R271) -/

/-- Acceptance of a command other than NOP: the flags, and the error record cleared (rule R271). -/
def acceptCommand (s : State) : State := { s with status := flagsAccept s.status, err := ErrRecord.none }

/-- Completion without an error (rule R271). -/
def completeCommand (s : State) : State := { s with status := flagsComplete s.status }

/-- Refusal of a CMD write: CMD_REJ and nothing else (rule R269). -/
def rejectCommand (s : State) : State := { s with status := flagsReject s.status }

/-- Is a command accepted here? The acceptance matrix, then BUSY (rule R269 (b), (c)). -/
def commandAccepted (c : CommandRow) (s : State) : Bool := accepts c s.status.main && !s.status.busy

/-- Run one part of a procedure from `s`: go on with its result, or take its error with `onErr` from `s` as it stands
before that part (rule R285: nothing after the `raise` runs), or stop with its fault. -/
def attempt {α : Type} (part : Res α) (onErr : Err → State) (next : α → Out) : Out :=
  match part with
  | .ok a => next a
  | .error (.raise e) => .next (onErr e)
  | .error (.fault f) => .fault f

end Sys2Proof.Machine
end

