-- ==== Sys2Proof/Machine/CapsuleCommands.lean ====
section
/-! DEFINITION. NOP (R266) and NEW_CAPSULE (R267). -/

namespace Sys2Proof.Machine

/-- NOP (rule R266): CMD_REJ cleared, DONE set; ERR and the error record are kept. -/
def execNop (_arg : BitVec 24) (s : State) : Out :=
  if commandAccepted .nop s then .next (completeCommand { s with status := flagsAcceptNop s.status })
  else .next (rejectCommand s)

/-- NEW_CAPSULE (rule R267): the fresh capsule, the only way out of Done and Failed. -/
def execNewCapsule (_arg : BitVec 24) (s : State) : Out :=
  if commandAccepted .newCapsule s then .next (freshCapsule s)
  else .next (rejectCommand s)

end Sys2Proof.Machine
end

