-- ==== Sys2Proof/Machine/FieldTypes.lean ====
section
/-! DEFINITION. The field type system (spec/43_field_types.md, rules R170 to R190): decimal rendering and parsing,
`FT_DECODE` and `FT_ENCODE` of the twelve field types. Exact integers throughout; no binary floating point. -/

namespace Sys2Proof.Machine

/-! ## Types and scale (rules R64, R67, R171) -/

/-- Native width in bytes and signedness of the eight integer types (rule R64); `none` for the other four. -/
def intType : FType → Option (Nat × Bool)
  | .bcd => none
  | .u8 => some (1, false)
  | .u16 => some (2, false)
  | .u32 => some (4, false)
  | .u64 => some (8, false)
  | .i8 => some (1, true)
  | .i16 => some (2, true)
  | .i32 => some (4, true)
  | .i64 => some (8, true)
  | .float => none
  | .double => none
  | .ascii => none

/-- A scale `m * 10^(-e)` (rule R67). -/
structure Scale where
  m : Nat
  e : Nat
deriving DecidableEq, Repr

/-- The effective scale: 1 where the scale is absent (rule R171). -/
def effectiveScale : Option Scale → Scale
  | none => ⟨1, 0⟩
  | some sc => sc

/-- A zero scale, with the scale present (rule R171). -/
def zeroScale (sc : Option Scale) : Bool := sc.any fun x => x.m == 0

/-! ## Decimal arithmetic (rules R172, R173) -/

/-- `ROUND_HA(a / b)` for `b > 0`: round half away from zero (rule R172). -/
def roundHA (a : Int) (b : Nat) : Int := a.sign * ((2 * a.natAbs + b) / (2 * b) : Nat)

/-- The decimal digits of `n`, most significant first, `fuel` at least their number. -/
def decDigits : Nat → Nat → Bytes
  | 0, _ => []
  | f + 1, n => (if n < 10 then [] else decDigits f (n / 10)) ++ [BitVec.ofNat 8 (0x30 + n % 10)]

/-- `decimal(n)`: the shortest decimal numeral (rule R172). -/
def decimal (n : Nat) : Bytes := decDigits (n.log2 + 1) n

/-- The `k`-digit zero-padded decimal of `n` (rule R172). -/
def decPadded (n : Nat) : Nat → Bytes
  | 0 => []
  | k + 1 => decPadded (n / 10) k ++ [BitVec.ofNat 8 (0x30 + n % 10)]

/-- A string with every trailing '0' removed (rule R172). -/
def stripZeros (s : Bytes) : Bytes := (s.reverse.dropWhile (· == 0x30)).reverse

/-- `DEC_RENDER(a * 10^(-e))` (rule R172). -/
def decRender (a : Int) (e : Nat) : Bytes :=
  let v := roundHA (a * 10 ^ 6) (10 ^ e)
  if v = 0 then [0x30]
  else
    let f := stripZeros (decPadded (v.natAbs % 10 ^ 6) 6)
    (if v < 0 then [0x2D] else []) ++ decimal (v.natAbs / 10 ^ 6) ++ (if f.isEmpty then [] else 0x2E :: f)

/-- The number a string of digits denotes. -/
def digitsValue (s : Bytes) : Nat := s.foldl (fun acc c => 10 * acc + (c.toNat - 0x30)) 0

/-- `DEC_PARSE(s)` without its error: `(a, e)` for the number `a * 10^(-e)`, where `s` matches the grammar
`-?[0-9]+(\.[0-9]+)?` (rule R173). -/
def decParse? (s : Bytes) : Option (Int × Nat) :=
  let neg := s.head? == some 0x2D
  let r := if neg then s.tail else s
  let ip := r.takeWhile isDigit
  let rest := r.dropWhile isDigit
  let signed (n : Nat) : Int := if neg then -(n : Int) else n
  if ip.isEmpty then none
  else
    match rest with
    | [] => some (signed (digitsValue ip), 0)
    | c :: fp =>
      if c = 0x2E ∧ fp.isEmpty = false ∧ fp.all isDigit = true then some (signed (digitsValue (ip ++ fp)), fp.length)
      else none

/-- `DEC_PARSE(s)`, raising ValidationFailed.BAD_NUMBER (rules R173, R189). -/
def decParse (s : Bytes) : Except Err (Int × Nat) :=
  match decParse? s with
  | some q => .ok q
  | none => .error (stringErr .badNumber s)

/-! ## Decode (rules R174 to R186) -/

/-- The length error of a field whose byte count does not match its type (rules R174, R183, R189). -/
def lengthErr (w : Nat) (b : Bytes) : Err :=
  { cause := .fieldLength, expNum := num w, actNum := num b.length, actBytes := b }

/-- Generic integer decode (rule R174): length, then zero scale, then the exact product rendered. -/
def intDecode (w : Nat) (sg : Bool) (sc : Option Scale) (b : Bytes) : Except Err Bytes :=
  if b.length ≠ w then .error (lengthErr w b)
  else if zeroScale sc then .error { cause := .zeroScale }
  else
    let raw : Int := if sg then sext (8 * w) (be b) else be b
    .ok (decRender (raw * (effectiveScale sc).m) (effectiveScale sc).e)

/-- The index of the first byte above 0x7F (rule R185). -/
def firstNonAscii (b : Bytes) : Option Nat := b.findIdx? fun x => 0x7F < x.toNat

/-- Ascii in both directions: the identity on bytes at most 0x7F (rule R185). -/
def asciiCheck (b : Bytes) : Except Err Bytes :=
  match firstNonAscii b with
  | none => .ok b
  | some i => .error { cause := .notAscii, actNum := num i, actBytes := b }

/-- `FT_DECODE` of one type, before the error is given its field type. -/
def ftDecodeRaw (ft : FType) (sc : Option Scale) (b : Bytes) : Except Err Bytes :=
  match ft with
  | .bcd => .ok (hex b)
  | .u8 => intDecode 1 false sc b
  | .u16 => intDecode 2 false sc b
  | .u32 => intDecode 4 false sc b
  | .u64 => intDecode 8 false sc b
  | .i8 => intDecode 1 true sc b
  | .i16 => intDecode 2 true sc b
  | .i32 => intDecode 4 true sc b
  | .i64 => intDecode 8 true sc b
  | .float => (f32Bits b).map Config.floatText.render
  | .double => (f64Bits b).map Config.doubleText.render
  | .ascii => asciiCheck b

/-- "Every decode/encode error names the field type" (rule R189). -/
def nameType {α : Type} (ft : FType) : Except Err α → Except Err α
  | .ok a => .ok a
  | .error e => .error { e with ft := some ft }

/-- `FT_DECODE(ft, scale, b)` (rule R170). -/
def ftDecode (ft : FType) (sc : Option Scale) (b : Bytes) : Except Err Bytes := nameType ft (ftDecodeRaw ft sc b)

/-! ## Encode (rules R183 to R188) -/

/-- The lowest raw value of an integer type (rule R187). -/
def intLo (w : Nat) (sg : Bool) : Int := if sg then -(2 ^ (8 * w - 1) : Nat) else 0

/-- The highest raw value of an integer type (rule R187). -/
def intHi (w : Nat) (sg : Bool) : Int := if sg then (2 ^ (8 * w - 1) : Nat) - 1 else (2 ^ (8 * w) : Nat) - 1

/-- The raw integer of generic integer encode (rule R187): zero scale, number, one rounding, range. -/
def intEncodeRaw (w : Nat) (sg : Bool) (sc : Option Scale) (s : Bytes) : Except Err Int :=
  if zeroScale sc then .error { cause := .zeroScale }
  else
    match decParse s with
    | .error e => .error e
    | .ok (a, e) =>
      let raw := roundHA (a * 10 ^ (effectiveScale sc).e) (10 ^ e * (effectiveScale sc).m)
      if raw < intLo w sg ∨ intHi w sg < raw then
        .error { cause := .valueOutOfRange, expNum := num w, actNum := if intHi w sg < raw then 1 else 0, actBytes := s }
      else .ok raw

/-- The `w` bytes of a raw integer: two's complement, big-endian (rule R187). -/
def intBytes (w : Nat) (raw : Int) : Bytes := beN (wrap (8 * w) raw) w

/-- Generic integer encode to the native width (rule R187). -/
def intEncode (w : Nat) (sg : Bool) (sc : Option Scale) (s : Bytes) : Except Err Bytes :=
  (intEncodeRaw w sg sc s).map (intBytes w)

/-- `FT_ENCODE` of one type, before the error is given its field type. -/
def ftEncodeRaw (ft : FType) (sc : Option Scale) (s : Bytes) : Except Err Bytes :=
  match ft with
  | .bcd => if isMachineCode s then .ok ((unhex? s).getD []) else .error (stringErr .notMachineCode s)
  | .u8 => intEncode 1 false sc s
  | .u16 => intEncode 2 false sc s
  | .u32 => intEncode 4 false sc s
  | .u64 => intEncode 8 false sc s
  | .i8 => intEncode 1 true sc s
  | .i16 => intEncode 2 true sc s
  | .i32 => intEncode 4 true sc s
  | .i64 => intEncode 8 true sc s
  | .float =>
    match Config.floatText.parse s with
    | some p => .ok (beN p.toNat 4)
    | none => .error (stringErr .badNumber s)
  | .double =>
    match Config.doubleText.parse s with
    | some p => .ok (beN p.toNat 8)
    | none => .error (stringErr .badNumber s)
  | .ascii => asciiCheck s

/-- `FT_ENCODE(ft, scale, s)` (rule R170). -/
def ftEncode (ft : FType) (sc : Option Scale) (s : Bytes) : Except Err Bytes := nameType ft (ftEncodeRaw ft sc s)

/-- The encoded bytes fitted to the field's capacity: integers by rule R188 (capacity 0 means native; the raw value of
a signed type is negative exactly when the top bit of its native bytes is set), the other types only where the lengths
agree (rule R204). -/
def fitCapacity (ft : FType) (cap : Nat) (b : Bytes) : Except Err Bytes :=
  match intType ft with
  | some (w, sg) => .ok (if cap = 0 ∨ cap = w then b else resize b sg (b.headD 0).msb cap)
  | none =>
    if cap ≠ 0 ∧ b.length ≠ cap then
      .error { cause := .fieldLength, ft := some ft, expNum := num cap, actNum := num b.length }
    else .ok b

/-- `FT_ENCODE` and the fit to the capacity, the CONVERT arm of rule R204. -/
def convertEncode (ft : FType) (sc : Option Scale) (cap : Nat) (s : Bytes) : Except Err Bytes :=
  match ftEncode ft sc s with
  | .error e => .error e
  | .ok b => fitCapacity ft cap b

end Sys2Proof.Machine
end

