-- ==== Sys2Proof/Machine/Operands.lean ====
section
/-! DEFINITION. The operand forms: fields of the configuration registers, TBL pointers and tables, ranges of the
frame, and a descriptor's operands with its legality and direction (rules R15 to R22, R58, R65 to R71, R76, R77, R98,
R207). -/

namespace Sys2Proof.Machine

/-! ## Fields of registers -/

/-- `CAP_CTRL.DIR` (rule R15). -/
def capDir (r : Regs) : BitVec 2 := r.capCtrl.extractLsb' 0 2
/-- The cipher step runs exactly when `S32(CIPHER_SLOT) >= 0` (rule R16). -/
def cipherOn (r : Regs) : Bool := 0 ≤ s32 r.cipherSlot
/-- `LEN_CTRL.LEN_EN` (rule R19). -/
def lenEn (r : Regs) : Bool := r.lenCtrl.getLsbD 0
/-- `LEN_CTRL.LEN_SWAP` (rule R19). -/
def lenSwap (r : Regs) : Bool := r.lenCtrl.getLsbD 1
/-- `CRC_CTRL.CRC_EN` (rule R20). -/
def crcEn (r : Regs) : Bool := r.crcCtrl.getLsbD 0
/-- `CRC_CTRL.CRC_LE` (rule R20). -/
def crcLe (r : Regs) : Bool := r.crcCtrl.getLsbD 1
/-- `CRC_CTRL.CRC_ALG` (rule R20). -/
def crcAlg (r : Regs) : BitVec 4 := r.crcCtrl.extractLsb' 4 4
/-- `CIPH_CTRL.MODE` (rule R21). -/
def cipherMode (r : Regs) : BitVec 8 := r.ciphCtrl.extractLsb' 0 8

/-! ## TBL pointers (rules R18, R22, R58) -/

/-- A pointer: an offset in TBL and a length in bytes or entries. -/
structure Ptr where
  off : Nat
  len : Nat
deriving DecidableEq, Repr

/-- HEAD_TAG and TAIL_TAG: `OFF` 15:0, `LEN` 23:16 (rule R18). -/
def tagPtr (w : Word) : Ptr := ⟨(w.extractLsb' 0 16).toNat, (w.extractLsb' 16 8).toNat⟩
/-- WV_PTR, WS_PTR, VALS_PTR: `OFF` 15:0, `LEN` or `COUNT` 31:16 (rule R22). -/
def valPtr (w : Word) : Ptr := ⟨(w.extractLsb' 0 16).toNat, (w.extractLsb' 16 16).toNat⟩
/-- A descriptor's title (rule R61). -/
def titlePtr (d : Desc) : Ptr := ⟨d.titleOff.toNat, d.titleLen.toNat⟩
/-- A descriptor's auxiliary object (rule R69). -/
def auxPtr (d : Desc) : Ptr := ⟨d.auxOff.toNat, d.auxLen.toNat⟩

/-- Does the pointer run past TBL (rule R58)? -/
def ptrOutside (p : Ptr) : Bool := Config.tblMax < p.off + p.len

/-- `TBLSTR(p)` (rule R6): the whole string is read where the procedure reads it (DESIGN CHOICE, log 27). -/
def tblStr (s : State) (p : Ptr) : Res Bytes := readBytes s .tbl p.off p.len

/-! ## Tables in TBL -/

/-- Where an entry of an enum table stands (rule R76). The bytes are read when they are compared or copied, so that an
entry the result does not depend on need not be written (rule R50, log 6). -/
structure EnumEntry where
  pat : Ptr
  label : Ptr
deriving DecidableEq, Repr

/-- Parse `n` entries of an enum table from offset `p` (rule R76); `none` where it runs past TBL_MAX. -/
def parseEnum (s : State) (p : Nat) : Nat → Res (Option (List EnumEntry))
  | 0 => .ok (some [])
  | n + 1 =>
    if Config.tblMax ≤ p then .ok none
    else do
      let pl := (← readByte s .tbl p).toNat
      if Config.tblMax ≤ p + 1 + pl then return none
      else
        let ll := (← readByte s .tbl (p + 1 + pl)).toNat
        if Config.tblMax < p + 2 + pl + ll then return none
        else
          match ← parseEnum s (p + 2 + pl + ll) n with
          | none => return none
          | some r => return some (⟨⟨p + 1, pl⟩, ⟨p + 2 + pl, ll⟩⟩ :: r)

/-- The enum table of a descriptor (rules R69, R76). -/
def enumTable (s : State) (d : Desc) : Res (Option (List EnumEntry)) := parseEnum s d.auxOff.toNat d.auxLen.toNat

/-- The bytes at `p` equal `b`; another length needs no reading. -/
def tblEq (s : State) (p : Ptr) (b : Bytes) : Res Bool :=
  if p.len ≠ b.length then .ok false
  else do
    let t ← tblStr s p
    return t == b

/-- The label of the first entry whose pattern is `b` (rule R203). -/
def enumLabel (s : State) (b : Bytes) : List EnumEntry → Res (Option Bytes)
  | [] => .ok none
  | e :: r => do
    if ← tblEq s e.pat b then
      let l ← tblStr s e.label
      return some l
    else enumLabel s b r

/-- The pattern of the first entry whose label is `v` (rule R206). -/
def enumPattern (s : State) (v : Bytes) : List EnumEntry → Res (Option Bytes)
  | [] => .ok none
  | e :: r => do
    if ← tblEq s e.label v then
      let l ← tblStr s e.pat
      return some l
    else enumPattern s v r

/-- An entry of the value table: its tag and where its value-string stands (rule R77). -/
structure ValueEntry where
  tag : Nat
  value : Ptr
deriving DecidableEq, Repr

/-- Parse `n` entries of the value table from offset `p` (rule R77); `none` where it runs past TBL_MAX. -/
def parseValues (s : State) (p : Nat) : Nat → Res (Option (List ValueEntry))
  | 0 => .ok (some [])
  | n + 1 =>
    if Config.tblMax < p + 4 then .ok none
    else do
      let t ← readBytes s .tbl p 2
      let l ← readBytes s .tbl (p + 2) 2
      if Config.tblMax < p + 4 + be l then return none
      else
        match ← parseValues s (p + 4 + be l) n with
        | none => return none
        | some r => return some (⟨be t, ⟨p + 4, be l⟩⟩ :: r)

/-- The value table of ENCODE_PLAN (rules R22, R77). -/
def valueTable (s : State) : Res (Option (List ValueEntry)) :=
  parseValues s (valPtr s.regs.valsPtr).off (valPtr s.regs.valsPtr).len

/-- `LOOKUP(tag)`: the first entry with that tag (rule R77). -/
def lookupValue (s : State) (tag : Nat) (t : List ValueEntry) : Res (Option Bytes) :=
  match t.find? fun e => e.tag == tag with
  | none => .ok none
  | some e => do
    let v ← tblStr s e.value
    return some v

/-! ## Ranges of the frame (rule R98) -/

/-- `RANGE` on a pair of registers, for a buffer of `n` bytes. -/
def regRange (n : Nat) (s e : Word) : Res (Nat × Nat) := liftE (range n (s32 s) (s32 e))

/-- The index of the first of the two checksum bytes (rules R20, R221, R249). -/
def crcFieldIndex (s : State) : Res Nat :=
  let n := s.frameLen.toNat
  let ci := idx n (s32 s.regs.crcIndex)
  if ci < 0 ∨ (n : Int) < ci + 2 then raise { cause := .range, expNum := s.frameLen, actNum := s.regs.crcIndex }
  else .ok ci.toNat

/-- The length field and the count of its counted range (rules R220, R248). -/
structure LengthField where
  start : Nat
  stop : Nat
  count : Nat
deriving DecidableEq, Repr

/-- Resolve the length field and the counted range, in the order of rules R220 and R248. -/
def lengthField (s : State) : Res LengthField := do
  let n := s.frameLen.toNat
  let (ls, le) ← regRange n s.regs.lenfStart s.regs.lenfEnd
  if le - ls < 1 ∨ 8 < le - ls then
    raise { cause := .badConfig, expNum := 8, actNum := num (le - ls) }
  else
    let (rs, re) ← regRange n s.regs.lenrStart s.regs.lenrEnd
    return ⟨ls, le, re - rs⟩

/-! ## The cipher engine's operands (rules R21, R135) -/

/-- The key as the engine reads it: not examined with mode NONE (rule R138). -/
def cipherKey (s : State) : Res Bytes :=
  if cipherMode s.regs = 0 then .ok [] else readBytes s .keybuf 0 s.regs.keyLen.toNat

/-- The IV as the engine reads it: not examined with mode NONE or ECB (rules R138, R142). -/
def cipherIv (s : State) : Res Bytes :=
  if (cipherMode s.regs).toNat ≤ 1 then .ok [] else readBytes s .ivbuf 0 s.regs.ivLen.toNat

/-! ## Descriptor operands -/

/-- `scale(d)` (rules R67, R201). -/
def descScale (d : Desc) : Option Scale := if d.scaleEn then some ⟨d.scaleM.toNat, d.scaleE.toNat⟩ else none

/-- `capacity(d)` (rule R61), for a descriptor with `END_INDEX >= START_INDEX`. -/
def capacity (d : Desc) : Nat := d.endIndex.toNat - d.startIndex.toNat

/-- `APPLIES(d)` (rule R207). -/
def applies (d : Desc) (r : Regs) : Bool := d.dir &&& capDir r != 0

/-- The first of the conditions of rule R71 no. 4 to 12 that holds (no. 1 to 3 leave no instruction). -/
def illegalWords (k : Kind) (ft : FType) (d : Desc) : Option Nat :=
  if d.scaleEn && !(k == .convert && (intType ft).isSome) then some 4
  else if d.scaleEn && 9 < d.scaleE.toNat then some 5
  else if d.symEn && k != .convert then some 6
  else if d.symEn && (Config.symbolTag d.symbol).isNone then some 7
  else if d.dir == 0 then some 8
  else if d.defEn && k != .convert then some 9
  else if d.rsv0 || d.rsv1 != 0 || d.rsv7 != 0 then some 10
  else if ptrOutside (titlePtr d) then some 11
  else if (k == .compare || (k == .convert && d.defEn)) && ptrOutside (auxPtr d) then some 12
  else none

/-- The number of the first condition of rule R71 that makes the descriptor illegal, `none` for `LEGAL(d)`; no. 13
parses the enum table. -/
def illegalCondition (s : State) (k : Kind) (ft : FType) (d : Desc) : Res (Option Nat) :=
  match illegalWords k ft d with
  | some n => .ok (some n)
  | none =>
    if k == .enum then do
      match ← enumTable s d with
      | none => return some 13
      | some _ => return none
    else .ok none

/-- CommonError.ILLEGAL_DESCRIPTOR with the number of the condition (rule R71). -/
def illegalErr (n : Nat) : Err := { cause := .illegalDescriptor, actNum := num n }

end Sys2Proof.Machine
end

