-- ==== Sys2Proof/Machine/Translators.lean ====
section
/-! DEFINITION. The Rawfield and its record in OUT (rules R27, R78), the translators in both directions (rules R200 to
R206), and the execution of one descriptor by the sequencer, which every descriptor instruction shares (rules R219,
R242, R244, R245). -/

namespace Sys2Proof.Machine

/-- One decoded or encoded field (rule R27); its `hex` is `HEX(bytes)` and is not stored. -/
structure Rawfield where
  tag : BitVec 16
  pos : BitVec 16
  bytes : Bytes
  title : Bytes
  value : Bytes
deriving DecidableEq, Repr

/-- The `hex` of a Rawfield (rules R26, R27). -/
def rawfieldHex (rf : Rawfield) : Bytes := hex rf.bytes

/-! ## OUT (rule R78) -/

/-- A Rawfield serialised: the 10-byte header, then bytes, value and title (rule R78). -/
def outRecord (rf : Rawfield) : Bytes :=
  beN rf.tag.toNat 2 ++ beN rf.pos.toNat 2 ++ beN rf.bytes.length 2 ++ beN rf.value.length 2 ++
    [BitVec.ofNat 8 rf.title.length, 0] ++ rf.bytes ++ rf.value ++ rf.title

/-- The bytes a record needs (rule R78). -/
def outNeed (rf : Rawfield) : Nat := 10 + rf.bytes.length + rf.value.length + rf.title.length

/-- Does the record fit OUT and its own 16-bit length fields (rule R78)? -/
abbrev outFits (rf : Rawfield) (s : State) : Prop :=
  rf.bytes.length ≤ 65535 ∧ rf.value.length ≤ 65535 ∧ s.outBytes.toNat + outNeed rf ≤ Config.outMax

/-- OUT with the record appended (rule R78). -/
def outAppended (rf : Rawfield) (s : State) : State :=
  { writeBytes s .out s.outBytes.toNat (outRecord rf) with
    outBytes := num (s.outBytes.toNat + outNeed rf), outCount := s.outCount + 1 }

/-- The error of a record that does not fit (rules R49, R78). -/
def outOverflow (rf : Rawfield) (s : State) : Err :=
  { cause := .bufferOverflow, expNum := num Config.outMax, actNum := num (s.outBytes.toNat + outNeed rf) }

/-- `APPEND_OUT(rf)`: the capacity is checked before anything is written (rule R78). -/
def appendOut (rf : Rawfield) (s : State) : Res State :=
  if outFits rf s then .ok (outAppended rf s) else raise (outOverflow rf s)

/-- FRAME with the bytes appended (rule R243). -/
def frameAppended (fb : Bytes) (s : State) : State :=
  { writeBytes s .frame s.frameLen.toNat fb with frameLen := num (s.frameLen.toNat + fb.length) }

/-- The error of bytes that do not fit FRAME (rules R49, R243). -/
def frameOverflow (fb : Bytes) (s : State) : Err :=
  { cause := .bufferOverflow, expNum := num Config.frameMax, actNum := num (s.frameLen.toNat + fb.length) }

/-- `APPEND_FRAME(fb, rf)`: both capacity checks precede both writes (rule R243). -/
def appendFrame (fb : Bytes) (rf : Rawfield) (s : State) : Res State :=
  if Config.frameMax < s.frameLen.toNat + fb.length then raise (frameOverflow fb s)
  else (appendOut rf s).map (frameAppended fb)

/-! ## Decode direction (rules R200 to R203) -/

/-- The swap (rule R200): byte-order reversal, never bit reversal. -/
def swapBytes (d : Desc) (b : Bytes) : Bytes := if d.swap then rev b else b

/-- CONVERT (rule R201): the decoded value, and one space and the symbol's string where one is attached. Legality
(rule R71 no. 7) has established that the symbol has a string. -/
def convertValue (ft : FType) (d : Desc) (b : Bytes) : Except Err Bytes :=
  (ftDecode ft (descScale d) b).map fun v =>
    if d.symEn then v ++ 0x20 :: (Config.symbolTag d.symbol).getD [] else v

/-- COMPARE (rule R202). -/
def compareValue (s : State) (d : Desc) (b : Bytes) : Res Bytes := do
  let target ← tblStr s (auxPtr d)
  if b ≠ target then
    raise { cause := .compareMismatch, expBytes := target, actBytes := b,
            expNum := num target.length, actNum := num b.length }
  else return hex b

/-- ENUM (rule R203): the first matching label, else the raw hex; never an error. -/
def enumValue (s : State) (d : Desc) (b : Bytes) : Res Bytes := do
  match ← enumTable s d with
  | none => return hex b
  | some t =>
    match ← enumLabel s b t with
    | some l => return l
    | none => return hex b

/-- The value of a field by kind (rules R201 to R203). -/
def decodeValue (s : State) (k : Kind) (ft : FType) (d : Desc) (b : Bytes) : Res Bytes :=
  match k with
  | .convert => liftE (convertValue ft d b)
  | .compare => compareValue s d b
  | .enum => enumValue s d b

/-- `TRANSLATE(d, raw)` (rule R200): `bytes` is the slice as it stands, `value` is computed after the swap. -/
def translate (s : State) (k : Kind) (ft : FType) (d : Desc) (raw : Bytes) : Res Rawfield := do
  let v ← decodeValue s k ft d (swapBytes d raw)
  let title ← tblStr s (titlePtr d)
  return { tag := d.tag, pos := d.pos, bytes := raw, title := title, value := v }

/-! ## Encode direction (rules R204 to R206) -/

/-- The capacity check of COMPARE and ENUM on encode (rules R205, R206). -/
def checkCapacity (d : Desc) (b : Bytes) : Res Bytes :=
  if capacity d ≠ 0 ∧ b.length ≠ capacity d then
    raise { cause := .fieldLength, expNum := num (capacity d), actNum := num b.length }
  else .ok b

/-- COMPARE on encode emits its target (rule R205). -/
def compareEncode (s : State) (d : Desc) : Res (Bytes × Bytes) := do
  let target ← tblStr s (auxPtr d)
  let b ← checkCapacity d target
  return (b, hex target)

/-- ENUM on encode: the first entry with that label, else the string as hex (rule R206). -/
def enumEncode (s : State) (d : Desc) (v : Bytes) : Res (Bytes × Bytes) := do
  let found ← match ← enumTable s d with
    | none => pure none
    | some t => enumPattern s v t
  match found with
  | some p =>
    let b ← checkCapacity d p
    return (b, v)
  | none =>
    if isMachineCode v then
      let b ← checkCapacity d ((unhex? v).getD [])
      return (b, v)
    else raise (stringErr .notMachineCode v)

/-- The bytes before the swap and the recorded value, by kind (rule R204). -/
def encodeValue (s : State) (k : Kind) (ft : FType) (d : Desc) (v : Bytes) : Res (Bytes × Bytes) :=
  match k with
  | .convert => liftE ((convertEncode ft (descScale d) (capacity d) v).map fun b => (b, v))
  | .compare => compareEncode s d
  | .enum => enumEncode s d v

/-- `ENCODE_FIELD(d, s)` (rule R204): the swap is applied last; the recorded value has no symbol suffix. -/
def encodeField (s : State) (k : Kind) (ft : FType) (d : Desc) (v : Bytes) : Res (Bytes × Rawfield) :=
  if d.endIndex.toNat < d.startIndex.toNat then
    raise { cause := .range, expNum := d.startIndex, actNum := d.endIndex }
  else do
    let (b, value) ← encodeValue s k ft d v
    let fb := swapBytes d b
    let title ← tblStr s (titlePtr d)
    return (fb, { tag := d.tag, pos := d.pos, bytes := fb, title := title, value := value })

/-- `VALUE_FOR(d)` (rule R245); `none` is "omit". -/
def valueFor (s : State) (k : Kind) (d : Desc) : Res (Option Bytes) :=
  if k == .compare then .ok (some [])
  else do
    let found ← match ← valueTable s with
      | none => raise { cause := .badConfig }
      | some t => lookupValue s d.tag.toNat t
    match found with
    | some v => return some v
    | none =>
      if d.defEn then
        let v ← tblStr s (auxPtr d)
        return some v
      else if d.req then raise { cause := .requiredMissing, actNum := num d.tag.toNat }
      else return none

/-- The value-string the running command supplies: WV_PTR's in WRITE_FIELD, which COMPARE ignores (rules R204, R242),
and that of rule R245 in ENCODE_PLAN. -/
def suppliedValue (s : State) (k : Kind) (d : Desc) : Res (Option Bytes) :=
  if s.fromWd then
    if k == .compare then .ok (some [])
    else do
      let v ← tblStr s (valPtr s.regs.wvPtr)
      return some v
  else valueFor s k d

/-! ## One descriptor, executed by the sequencer -/

/-- ExtractFields for one descriptor, steps 1 to 6 of rule R219. -/
def extractField (s : State) (k : Kind) (ft : FType) (d : Desc) : Res State := do
  match ← illegalCondition s k ft d with
  | some n => raise (illegalErr n)
  | none =>
    if !applies d s.regs then return s
    else if d.endIndex.toNat < d.startIndex.toNat ∨ s.tempLen.toNat < d.endIndex.toNat then
      raise { cause := .range, expNum := s.tempLen, actNum := d.endIndex }
    else
      let raw ← readBytes s .temp d.startIndex.toNat (capacity d)
      let rf ← translate s k ft d raw
      appendOut rf s

/-- One descriptor on encode: the body of the loop of rule R244, and of rule R242. -/
def emitField (s : State) (k : Kind) (ft : FType) (d : Desc) : Res State := do
  match ← illegalCondition s k ft d with
  | some n => raise (illegalErr n)
  | none =>
    if !applies d s.regs then return s
    else
      match ← suppliedValue s k d with
      | none => return s
      | some v =>
        let (fb, rf) ← encodeField s k ft d v
        appendFrame fb rf s

/-- `ERR_INDEX` of an error under the running descriptor: PLAN_PC, or none for the write descriptor (rules R14, R285). -/
def descIndex (s : State) : Word := if s.fromWd then noIndex else s.planPc

/-- WRITE_FIELD and ENCODE_PLAN complete in Accum (rule R270). -/
def completeWriter (s : State) : State :=
  { s with status := { flagsComplete s.status with main := .accum }, fromWd := false }

/-- After a descriptor was executed or skipped: PLAN_PC + 1 in a plan (rules R17, R219, R244), the end of the command
for the one write descriptor (rule R242). -/
def advance (s : State) : State := if s.fromWd then completeWriter s else { s with planPc := s.planPc + 1 }

/-- Execute one descriptor in the direction of the running command: decode inside DECODE (rule R219), encode inside
ENCODE_PLAN and WRITE_FIELD (rules R242, R244). An error fails the capsule with the descriptor's index, the descriptor
itself having had no effect (rule R291). -/
def runDescriptor (k : Kind) (ft : FType) (d : Desc) (s : State) : Out :=
  if s.status.busy = false then .refused .noCommandRunning
  else
    match s.status.main with
    | .reading => attempt (extractField s k ft d) (fun e => failCapsule e (descIndex s) s) fun s1 => .next (advance s1)
    | .encoding => attempt (emitField s k ft d) (fun e => failCapsule e (descIndex s) s) fun s1 => .next (advance s1)
    | .idle | .accum | .finalizing | .done | .failed | .engine => .refused .noCommandRunning

end Sys2Proof.Machine
end

