-- ==== Sys2Proof/Machine/Descriptors.lean ====
section
/-! DEFINITION. The meanings of the fourteen descriptor instructions (rule R208), one definition each over the shared
execution of a descriptor. -/

namespace Sys2Proof.Machine

/-- CONVERT.BCD (rules R186, R201, R204). -/
def execConvertBcd (d : Desc) (s : State) : Out := runDescriptor .convert .bcd d s
/-- CONVERT.U8 (rules R174, R175, R187, R188, R201, R204). -/
def execConvertU8 (d : Desc) (s : State) : Out := runDescriptor .convert .u8 d s
/-- CONVERT.U16 (rules R174, R176, R187, R188, R201, R204). -/
def execConvertU16 (d : Desc) (s : State) : Out := runDescriptor .convert .u16 d s
/-- CONVERT.U32 (rules R174, R177, R187, R188, R201, R204). -/
def execConvertU32 (d : Desc) (s : State) : Out := runDescriptor .convert .u32 d s
/-- CONVERT.U64 (rules R174, R178, R187, R188, R201, R204). -/
def execConvertU64 (d : Desc) (s : State) : Out := runDescriptor .convert .u64 d s
/-- CONVERT.I8 (rules R174, R179, R187, R188, R201, R204). -/
def execConvertI8 (d : Desc) (s : State) : Out := runDescriptor .convert .i8 d s
/-- CONVERT.I16 (rules R174, R180, R187, R188, R201, R204). -/
def execConvertI16 (d : Desc) (s : State) : Out := runDescriptor .convert .i16 d s
/-- CONVERT.I32 (rules R174, R181, R187, R188, R201, R204). -/
def execConvertI32 (d : Desc) (s : State) : Out := runDescriptor .convert .i32 d s
/-- CONVERT.I64 (rules R174, R182, R187, R188, R201, R204). -/
def execConvertI64 (d : Desc) (s : State) : Out := runDescriptor .convert .i64 d s
/-- CONVERT.FLOAT (rules R183, R201, R204). -/
def execConvertFloat (d : Desc) (s : State) : Out := runDescriptor .convert .float d s
/-- CONVERT.DOUBLE (rules R184, R201, R204). -/
def execConvertDouble (d : Desc) (s : State) : Out := runDescriptor .convert .double d s
/-- CONVERT.ASCII (rules R185, R201, R204). -/
def execConvertAscii (d : Desc) (s : State) : Out := runDescriptor .convert .ascii d s
/-- COMPARE (rules R202, R205). -/
def execCompare (d : Desc) (s : State) : Out := runDescriptor .compare .bcd d s
/-- ENUM (rules R203, R206). -/
def execEnum (d : Desc) (s : State) : Out := runDescriptor .enum .bcd d s

/-- The meaning of a descriptor instruction; a command is none (it is never fetched as one, rule R60). The sequencer
inside a command runs this; `exec` has the same arms, and Laws/Sequencer.lean proves that the two agree. -/
def execDescriptor (i : Instr) (s : State) : Out :=
  match i with
  | .convertBcd d => execConvertBcd d s
  | .convertU8 d => execConvertU8 d s
  | .convertU16 d => execConvertU16 d s
  | .convertU32 d => execConvertU32 d s
  | .convertU64 d => execConvertU64 d s
  | .convertI8 d => execConvertI8 d s
  | .convertI16 d => execConvertI16 d s
  | .convertI32 d => execConvertI32 d s
  | .convertI64 d => execConvertI64 d s
  | .convertFloat d => execConvertFloat d s
  | .convertDouble d => execConvertDouble d s
  | .convertAscii d => execConvertAscii d s
  | .compare d => execCompare d s
  | .enum d => execEnum d s
  | .nop _ => .refused .noCommandRunning
  | .newCapsule _ => .refused .noCommandRunning
  | .decode _ => .refused .noCommandRunning
  | .writeFieldRaw => .refused .noCommandRunning
  | .writeFieldEnc => .refused .noCommandRunning
  | .encodePlan _ => .refused .noCommandRunning
  | .finalize _ => .refused .noCommandRunning
  | .crcCalc _ => .refused .noCommandRunning
  | .crcCompare _ => .refused .noCommandRunning
  | .encrypt _ => .refused .noCommandRunning
  | .decrypt _ => .refused .noCommandRunning

end Sys2Proof.Machine
end

