-- ==== Sys2Proof/Machine/Cipher.lean ====
section
/-! DEFINITION. The cipher_engine's functions (spec/42_cipher_engine.md, rules R135 to R152), over any block
primitive. They keep no state and change no key or IV. -/

namespace Sys2Proof.Machine

/-- `E(k, b)` on 16-byte strings (rule R136). -/
def blockEnc (bc : Config.BlockCipher) (key b : Bytes) : Bytes :=
  beN (bc.E (BitVec.ofNat 128 (be key)) (BitVec.ofNat 128 (be b))).toNat 16

/-- `D(k, c)` on 16-byte strings (rule R136). -/
def blockDec (bc : Config.BlockCipher) (key c : Bytes) : Bytes :=
  beN (bc.D (BitVec.ofNat 128 (be key)) (BitVec.ofNat 128 (be c))).toNat 16

/-- `BLOCKS(x)` with `fuel` at least the number of blocks (rule R137). -/
def blocksFuel : Nat → Bytes → List Bytes
  | 0, _ => []
  | n + 1, x => if x.isEmpty then [] else x.take 16 :: blocksFuel n (x.drop 16)

/-- `BLOCKS(x)`: consecutive 16-byte strings, the last possibly shorter (rule R137). -/
def blocks (x : Bytes) : List Bytes := blocksFuel x.length x

/-! ## Preconditions (rule R138) -/

/-- `CHECK(mode, key, iv, data, dec)`, which looks at lengths only (rule R138). -/
def cipherCheck (mode : BitVec 8) (keyLen ivLen dataLen : Nat) (dec : Bool) : Except Err Unit :=
  if 6 < mode.toNat then .error { cause := .unsupportedMode, actNum := num mode.toNat }
  else if mode = 0 then .ok ()
  else if keyLen ≠ 16 then .error { cause := .invalidKeyLength, expNum := 16, actNum := num keyLen }
  else if mode ≠ 1 ∧ ivLen ≠ 16 then .error { cause := .badIvLength, expNum := 16, actNum := num ivLen }
  else if mode = 6 ∧ dataLen < 16 then .error { cause := .inputTooShort, expNum := 16, actNum := num dataLen }
  else if dec = true ∧ (mode = 1 ∨ mode = 2) ∧ (dataLen = 0 ∨ dataLen % 16 ≠ 0) then
    .error { cause := .badCiphertextLength, expNum := 16, actNum := num dataLen }
  else .ok ()

/-! ## Padding (rules R139, R140) -/

/-- `PKCS7_PAD(x)` (rule R139); `padBlock` with block 16 and no pad byte cannot fail. -/
def pkcs7Pad (x : Bytes) : Bytes :=
  match padBlock x 16 none false with
  | .ok r => r
  | .error _ => x

/-- `PKCS7_UNPAD(x)` for a positive multiple of 16 bytes (rule R140). -/
def pkcs7Unpad (x : Bytes) : Except Err Bytes :=
  let p := ((x.getLast?).getD 0).toNat
  if p = 0 ∨ 16 < p ∨ x.drop (x.length - p) ≠ List.replicate p (BitVec.ofNat 8 p) then
    .error { cause := .badPadding, actNum := num p }
  else .ok (x.take (x.length - p))

/-! ## The modes (rules R141 to R151) -/

/-- ECB over whole blocks (rules R142, R143). -/
def ecbMap (f : Bytes → Bytes) (x : Bytes) : Bytes := (blocks x).flatMap f

/-- CBC chaining, encrypt (rule R144). -/
def cbcEncBlocks (bc : Config.BlockCipher) (key : Bytes) : Bytes → List Bytes → Bytes
  | _, [] => []
  | prev, x :: r =>
    let c := blockEnc bc key (xorBytes x prev)
    c ++ cbcEncBlocks bc key c r

/-- `CBC_RAW_ENC(key, iv, x)` (rule R144). -/
def cbcRawEnc (bc : Config.BlockCipher) (key iv x : Bytes) : Bytes := cbcEncBlocks bc key iv (blocks x)

/-- CBC chaining, decrypt (rule R145). -/
def cbcDecBlocks (bc : Config.BlockCipher) (key : Bytes) : Bytes → List Bytes → Bytes
  | _, [] => []
  | prev, c :: r => xorBytes (blockDec bc key c) prev ++ cbcDecBlocks bc key c r

/-- `CBC_RAW_DEC(key, iv, data)` (rule R145). -/
def cbcRawDec (bc : Config.BlockCipher) (key iv x : Bytes) : Bytes := cbcDecBlocks bc key iv (blocks x)

/-- CFB with full-block feedback, encrypt (rule R146). -/
def cfbEncBlocks (bc : Config.BlockCipher) (key : Bytes) : Bytes → List Bytes → Bytes
  | _, [] => []
  | s, p :: r =>
    let c := xorBytes p (blockEnc bc key s)
    c ++ cfbEncBlocks bc key c r

/-- CFB, decrypt: only `E` is used (rule R147). -/
def cfbDecBlocks (bc : Config.BlockCipher) (key : Bytes) : Bytes → List Bytes → Bytes
  | _, [] => []
  | s, c :: r => xorBytes c (blockEnc bc key s) ++ cfbDecBlocks bc key c r

/-- OFB, both directions (rule R148). -/
def ofbBlocks (bc : Config.BlockCipher) (key : Bytes) : Bytes → List Bytes → Bytes
  | _, [] => []
  | s, x :: r =>
    let s1 := blockEnc bc key s
    xorBytes x s1 ++ ofbBlocks bc key s1 r

/-- CTR, both directions, from the counter value on (rule R149): the whole 128 bits count and wrap. -/
def ctrBlocks (bc : Config.BlockCipher) (key : Bytes) : Nat → List Bytes → Bytes
  | _, [] => []
  | ctr, x :: r => xorBytes x (blockEnc bc key (beN (ctr % 2 ^ 128) 16)) ++ ctrBlocks bc key (ctr + 1) r

/-- CTS, encrypt (rule R150), for 16 bytes or more. -/
def ctsEnc (bc : Config.BlockCipher) (key iv data : Bytes) : Bytes :=
  let n := data.length
  let d := n % 16
  if d = 0 then cbcRawEnc bc key iv data
  else
    let c := cbcRawEnc bc key iv (data.take (n - d))
    let cn1 := c.drop (c.length - 16)
    let cn := blockEnc bc key (xorBytes (data.drop (n - d) ++ List.replicate (16 - d) 0) cn1)
    c.take (c.length - 16) ++ cn ++ cn1.take d

/-- CTS, decrypt (rule R151), for 16 bytes or more. -/
def ctsDec (bc : Config.BlockCipher) (key iv data : Bytes) : Bytes :=
  let n := data.length
  let d := n % 16
  if d = 0 then cbcRawDec bc key iv data
  else
    let head := data.take (n - 16 - d)
    let x := slice data (n - 16 - d) (n - d)
    let y := data.drop (n - d)
    let dn := blockDec bc key x
    let cn1 := y ++ dn.drop d
    let pn := xorBytes (dn.take d) y
    let prev := if head.isEmpty then iv else head.drop (head.length - 16)
    let pn1 := xorBytes (blockDec bc key cn1) prev
    cbcRawDec bc key iv head ++ pn1 ++ pn

/-- `ENC(mode, key, iv, data)` (rules R135, R138, R141 to R150; mode numbers of rule R74). -/
def cipherEnc (bc : Config.BlockCipher) (mode : BitVec 8) (key iv data : Bytes) : Except Err Bytes :=
  match cipherCheck mode key.length iv.length data.length false with
  | .error e => .error e
  | .ok () =>
    match mode.toNat with
    | 1 => .ok (ecbMap (blockEnc bc key) (pkcs7Pad data))
    | 2 => .ok (cbcRawEnc bc key iv (pkcs7Pad data))
    | 3 => .ok (cfbEncBlocks bc key iv (blocks data))
    | 4 => .ok (ofbBlocks bc key iv (blocks data))
    | 5 => .ok (ctrBlocks bc key (be iv) (blocks data))
    | 6 => .ok (ctsEnc bc key iv data)
    | _ => .ok data

/-- `DEC(mode, key, iv, data)` (rules R135, R138, R140, R141, R143, R145, R147 to R149, R151). -/
def cipherDec (bc : Config.BlockCipher) (mode : BitVec 8) (key iv data : Bytes) : Except Err Bytes :=
  match cipherCheck mode key.length iv.length data.length true with
  | .error e => .error e
  | .ok () =>
    match mode.toNat with
    | 1 => pkcs7Unpad (ecbMap (blockDec bc key) data)
    | 2 => pkcs7Unpad (cbcRawDec bc key iv data)
    | 3 => .ok (cfbDecBlocks bc key iv (blocks data))
    | 4 => .ok (ofbBlocks bc key iv (blocks data))
    | 5 => .ok (ctrBlocks bc key (be iv) (blocks data))
    | 6 => .ok (ctsDec bc key iv data)
    | _ => .ok data

end Sys2Proof.Machine
end

