-- ==== Sys2Proof/Machine/Crc.lean ====
section
/-! DEFINITION. The crc_engine's functions (spec/41_crc_engine.md, rules R120 to R126). They keep no state. -/

namespace Sys2Proof.Machine

/-- One of the eight steps for a byte (rule R121). -/
def crcBit (poly c : BitVec 16) : BitVec 16 := if c.getLsbD 15 then (c <<< 1) ^^^ poly else c <<< 1

/-- `crcBit` repeated. -/
def crcBits (poly : BitVec 16) : Nat → BitVec 16 → BitVec 16
  | 0, c => c
  | n + 1, c => crcBits poly n (crcBit poly c)

/-- One byte into the accumulator (rule R121). -/
def crcByte (p : Config.CrcParams) (c : BitVec 16) (b : Byte) : BitVec 16 :=
  let x := if p.refin then b.reverse else b
  crcBits p.poly 8 (c ^^^ (x ++ (0 : BitVec 8)))

/-- `CRC16P(P, b)` (rule R121). -/
def crc16P (p : Config.CrcParams) (b : Bytes) : BitVec 16 :=
  let c := b.foldl (crcByte p) p.init
  (if p.refout then c.reverse else c) ^^^ p.xorout

/-- The parameters `CRC_ALG` selects, or CommonError.UNSUPPORTED_CRC_ALG before any data is read (rule R123). -/
def crcSelect (alg : BitVec 4) : Except Err Config.CrcParams :=
  match Config.crcTable alg with
  | some p => .ok p
  | none => .error { cause := .unsupportedCrcAlg, actNum := num alg.toNat }

/-- `CRC16(alg, b)` (rule R123). -/
def crc16 (alg : BitVec 4) (b : Bytes) : Except Err (BitVec 16) := (crcSelect alg).map fun p => crc16P p b

/-- The two bytes of a checksum: big-endian, or byte-swapped where `le` (rule R124). -/
def crcRender (c : BitVec 16) (le : Bool) : Bytes := if le then rev (beN c.toNat 2) else beN c.toNat 2

/-- `CRC_EMIT(alg, b, le)`: the value, its two bytes and their hex (rule R124). -/
def crcEmit (alg : BitVec 4) (b : Bytes) (le : Bool) : Except Err (BitVec 16 × Bytes × Bytes) :=
  (crc16 alg b).map fun c => (c, crcRender c le, hex (crcRender c le))

/-- `CRC_HEX(alg, s)` (rule R125). -/
def crcHex (alg : BitVec 4) (s : Bytes) : Except Err Bytes :=
  if isHex s then (crc16 alg ((unhex? s).getD [])).map fun c => hex (beN c.toNat 2)
  else .error (stringErr .notHex s)

/-- `CRC_COMPARE(cand, c)`: is the match only in the byte-swapped order, or CrcMismatch (rule R126)? -/
def crcCompareBytes (cand : Bytes) (c : BitVec 16) : Except Err Bool :=
  let comp := beN c.toNat 2
  if cand = comp then .ok false
  else if rev cand = comp then .ok true
  else .error { cause := .crcMismatch, expBytes := comp, actBytes := cand, expNum := num c.toNat, actNum := num (be cand) }

end Sys2Proof.Machine
end

