-- ==== Sys2Proof/Machine/EngineCommands.lean ====
section
/-! DEFINITION. The engine commands over CBUF: CRC_CALC (R127), CRC_COMPARE (R128), ENCRYPT (R153), DECRYPT (R154). An
error leaves the capsule alone (R292). -/

namespace Sys2Proof.Machine

/-- The CRC of `CBUF[0:CBUF_LEN]`; the selector is looked up before any byte is read (rules R123, R127). -/
def crcOfCbuf (s : State) : Res (BitVec 16) := do
  let p ← liftE (crcSelect (crcAlg s.regs))
  let data ← readBytes s .cbuf 0 s.cbufLen.toNat
  return crc16P p data

/-- `CRC_VALUE <- c ; CRC_BYTES <- bytes2`, bits 31:16 zero (rules R127, R128). -/
def setCrcResult (c : BitVec 16) (bytes2 : Bytes) (s : State) : State :=
  { s with crcValue := num c.toNat, crcBytes := num (be bytes2) }

/-- CRC_CALC (rule R127). -/
def execCrcCalc (_arg : BitVec 24) (s : State) : Out :=
  if commandAccepted .crc s then
    let s1 := acceptCommand s
    attempt (crcOfCbuf s1) (fun e => failEngine e s1) fun c =>
      .next (completeCommand (setCrcResult c (crcRender c (crcLe s1.regs)) s1))
  else .next (rejectCommand s)

/-- The candidate of CRC_COMPARE: `[CAND[15:8], CAND[7:0]]` (rules R23, R128). -/
def candidate (r : Regs) : Bytes := [r.cand.extractLsb' 8 8, r.cand.extractLsb' 0 8]

/-- CRC_COMPARE (rule R128): CRC_VALUE and CRC_BYTES are written before the comparison, and stay on a mismatch. -/
def execCrcCompare (_arg : BitVec 24) (s : State) : Out :=
  if commandAccepted .crc s then
    let s0 := acceptCommand s
    let s1 := { s0 with status := { s0.status with crcSwapped := false } }
    attempt (crcOfCbuf s1) (fun e => failEngine e s1) fun c =>
      let s2 := setCrcResult c (crcRender c false) s1
      attempt (liftE (crcCompareBytes (candidate s2.regs) c)) (fun e => failEngine e s2) fun swapped =>
        .next (completeCommand { s2 with status := { s2.status with crcSwapped := swapped } })
  else .next (rejectCommand s)

/-- The engine over CBUF in one direction; the preconditions come before any byte is read (rules R138, R153, R154). -/
def cipherCbuf (s : State) (dec : Bool) : Res Bytes := do
  liftE (cipherCheck (cipherMode s.regs) s.regs.keyLen.toNat s.regs.ivLen.toNat s.cbufLen.toNat dec)
  let key ← cipherKey s
  let iv ← cipherIv s
  let data ← readBytes s .cbuf 0 s.cbufLen.toNat
  if dec then liftE (cipherDec Config.blockCipher (cipherMode s.regs) key iv data)
  else liftE (cipherEnc Config.blockCipher (cipherMode s.regs) key iv data)

/-- CBUF holding `r` (rules R153, R154). -/
def cbufFilled (r : Bytes) (s : State) : State := { writeBytes s .cbuf 0 r with cbufLen := num r.length }

/-- `CBUF[0:len(r)] <- r ; CBUF_LEN <- len(r)`, within the capacity (rules R49, R153, R154). -/
def fillCbuf (r : Bytes) (s : State) : Res State :=
  if Config.cbufMax < r.length then
    raise { cause := .bufferOverflow, expNum := num Config.cbufMax, actNum := num r.length }
  else .ok (cbufFilled r s)

/-- ENCRYPT and DECRYPT over CBUF. -/
def cipherCommand (dec : Bool) (s : State) : Out :=
  if commandAccepted .cipher s then
    let s1 := acceptCommand s
    attempt (do let r ← cipherCbuf s1 dec; fillCbuf r s1) (fun e => failEngine e s1) fun s2 => .next (completeCommand s2)
  else .next (rejectCommand s)

/-- ENCRYPT (rule R153); CIPHER_SLOT is not consulted. -/
def execEncrypt (_arg : BitVec 24) (s : State) : Out := cipherCommand false s

/-- DECRYPT (rule R154); CIPHER_SLOT is not consulted. -/
def execDecrypt (_arg : BitVec 24) (s : State) : Out := cipherCommand true s

end Sys2Proof.Machine
end

