-- ==== Sys2Proof/Machine/Reader.lean ====
section
/-! DEFINITION. The frame_reader's states around the plan (spec/45_frame_reader.md): ExpectHead (R217), the decryption
on entry to ExtractFields (R218), ExpectChecksum (R220, R221), ExpectTail (R222), Done (R223). -/

namespace Sys2Proof.Machine

/-- `RSTATE <- r`. -/
def setReader (r : ReaderState) (s : State) : State := { s with status := { s.status with rstate := r } }

/-- `TAGCHECK(idxreg, ptr, Kind)` (rule R217): the compared bytes are clipped to the frame. -/
def tagCheck (s : State) (idxReg tagReg : Word) (c : ErrCause) : Res Unit :=
  let p := tagPtr tagReg
  if p.len = 0 ∨ ptrOutside p = true then raise { cause := .badConfig }
  else do
    let tag ← tblStr s p
    let n := s.frameLen.toNat
    let h := idx n (s32 idxReg)
    let lo := clamp n h
    let hi := max lo (clamp n (h + p.len))
    let actual ← readBytes s .frame lo (hi - lo)
    if actual ≠ tag then
      raise { cause := c, expBytes := tag, actBytes := actual, expNum := num p.len, actNum := num actual.length }
    else return ()

/-- ExpectHead (rule R217): the configuration, then the head tag. -/
def checkHead (s : State) : Res Unit :=
  if capDir s.regs = 0 ∨ Config.planMax < s.regs.planLen.toNat then raise { cause := .badConfig }
  else tagCheck s s.regs.headIdx s.regs.headTag .invalidHead

/-- TEMP holding `b` (rule R218). -/
def tempFilled (b : Bytes) (s : State) : State := { writeBytes s .temp 0 b with tempLen := num b.length }

/-- `TEMP[0 : len(b)] <- b ; TEMP_LEN <- len(b)`, within the capacity (rules R49, R218). -/
def fillTemp (b : Bytes) (s : State) : Res State :=
  if Config.frameMax < b.length then
    raise { cause := .bufferOverflow, expNum := num Config.frameMax, actNum := num b.length }
  else .ok (tempFilled b s)

/-- `DEC` over a range of FRAME; the preconditions come before any byte is read (rules R138, R218). -/
def decryptFrame (s : State) (ps pe : Nat) : Res Bytes := do
  liftE (cipherCheck (cipherMode s.regs) s.regs.keyLen.toNat s.regs.ivLen.toNat (pe - ps) true)
  let key ← cipherKey s
  let iv ← cipherIv s
  let data ← readBytes s .frame ps (pe - ps)
  liftE (cipherDec Config.blockCipher (cipherMode s.regs) key iv data)

/-- Entry to ExtractFields (rule R218): the frame with its payload decrypted, or as it is, into TEMP. -/
def loadTemp (s : State) : Res State :=
  let n := s.frameLen.toNat
  if cipherOn s.regs then do
    let (ps, pe) ← regRange n s.regs.payStart s.regs.payEnd
    let pt ← decryptFrame s ps pe
    let before ← readBytes s .frame 0 ps
    let after ← readBytes s .frame pe (n - pe)
    fillTemp (before ++ pt ++ after) s
  else do
    let b ← readBytes s .frame 0 n
    fillTemp b s

/-- ExpectChecksum, first part: the length field, if enabled (rule R220). -/
def checkLength (s : State) : Res Unit :=
  if lenEn s.regs then do
    let f ← lengthField s
    let stored ← readBytes s .frame f.start (f.stop - f.start)
    let v := be (if lenSwap s.regs then rev stored else stored)
    if v ≠ f.count then
      raise { cause := .lengthFieldMismatch, expNum := num f.count, actNum := num v, actBytes := stored }
    else return ()
  else .ok ()

/-- ExpectChecksum, second part: the checksum, if enabled (rule R221). The result is the CRC_SWAPPED flag. -/
def checkCrc (s : State) : Res Bool :=
  if crcEn s.regs then do
    let (cs, ce) ← regRange s.frameLen.toNat s.regs.crcrStart s.regs.crcrEnd
    let ci ← crcFieldIndex s
    let p ← liftE (crcSelect (crcAlg s.regs))
    let data ← readBytes s .frame cs (ce - cs)
    let cand ← readBytes s .frame ci 2
    liftE (crcCompareBytes cand (crc16P p data))
  else .ok s.status.crcSwapped

/-- `STATUS.CRC_SWAPPED <- b`. -/
def setCrcSwapped (b : Bool) (s : State) : State := { s with status := { s.status with crcSwapped := b } }

/-- Done (rule R223). -/
def readerDone (s : State) : State :=
  { s with status := { flagsComplete s.status with rstate := .done, main := .done, success := true } }

/-- The reader after the last descriptor: ExpectChecksum, ExpectTail, Done (rules R220 to R223, R225). -/
def finishDecode (s : State) : Out :=
  let s1 := setReader .expectChecksum s
  attempt (checkLength s1) (fun e => failCapsule e noIndex s1) fun _ =>
    attempt (checkCrc s1) (fun e => failCapsule e noIndex s1) fun swapped =>
      let s2 := setReader .expectTail (setCrcSwapped swapped s1)
      attempt (tagCheck s2 s2.regs.tailIdx s2.regs.tailTag .invalidTail) (fun e => failCapsule e noIndex s2) fun _ =>
        .next (readerDone s2)

end Sys2Proof.Machine
end

