-- ==== Sys2Proof/Machine/Sequencer.lean ====
section
/-! DEFINITION. The sequencer (rules R17, R55, R215, R219, R244): one step of a running command, and the command run to
its end. A step is given the meaning of a decoded instruction as an argument: inside a command that is
`execDescriptor`, at the level of the machine's step it is `exec`. -/

namespace Sys2Proof.Machine

/-- Execute the descriptor these words hold: the first three conditions of legality leave no instruction and fail the
capsule (rule R71), every other word list is an instruction. -/
def runWords (run : Instr → State → Out) (w : DescWords) (s : State) : Out :=
  match decodeWords (descWordList w) with
  | .ok i => run i s
  | .error e => .next (failCapsule (illegalErr (decodeErrorCondition e)) (descIndex s) s)

/-- The end of the plan: ExpectChecksum and on in DECODE (rule R215), completion in ENCODE_PLAN (rule R244). -/
def endOfPlan (s : State) : Out := if s.status.main = .reading then finishDecode s else .next (completeWriter s)

/-- One step of the running command: fetch the descriptor at PLAN[PLAN_PC] and execute it (rules R55, R219, R244), or
the write descriptor (rule R242), or end the plan when PLAN_PC = PLAN_LEN. -/
def seqStep (run : Instr → State → Out) (s : State) : Out :=
  if s.status.busy = false then .refused .noCommandRunning
  else
    match s.status.main with
    | .idle | .accum | .finalizing | .done | .failed | .engine => .refused .noCommandRunning
    | .reading | .encoding =>
      if s.fromWd then runWords run s.regs.wd s
      else if s.planPc.toNat < s.regs.planLen.toNat then
        match fetchPlan s s.planPc.toNat with
        | .ok w => runWords run w s
        | .error (.raise e) => .next (failCapsule e (descIndex s) s)
        | .error (.fault f) => .fault f
      else endOfPlan s

/-- Run the command until BUSY falls, at most `fuel` steps (rule R324: PLAN_LEN + 1 steps suffice). -/
def runSeq (run : Instr → State → Out) : Nat → State → Out
  | 0, s => .next s
  | n + 1, s =>
    if s.status.busy then
      match seqStep run s with
      | .next s1 => runSeq run n s1
      | .fault f => .fault f
      | .refused r => .refused r
    else .next s

/-- The steps a plan from PLAN_PC on takes, its end included. -/
def planFuel (s : State) : Nat := s.regs.planLen.toNat + 1

end Sys2Proof.Machine
end

