-- ==== Sys2Proof/Machine/ReaderCommands.lean ====
section
/-! DEFINITION. DECODE (rules R216, R225). -/

namespace Sys2Proof.Machine

/-- DECODE accepted (rules R216, R271): flags and error record cleared, PLAN_PC 0, RSTATE ExpectHead; MAIN shows the
transient Reading while the command runs (rule R270). -/
def beginDecode (s : State) : State :=
  let s1 := acceptCommand s
  { s1 with planPc := 0, fromWd := false,
            status := { s1.status with crcSwapped := false, rstate := .expectHead, main := .reading } }

/-- DECODE up to its first descriptor: head check, then TEMP (rules R217, R218); `k` runs the plan. -/
def decodeWith (k : State → Out) (s : State) : Out :=
  let s1 := beginDecode s
  attempt (checkHead s1) (fun e => failCapsule e noIndex s1) fun _ =>
    let s2 := setReader .extractFields s1
    attempt (loadTemp s2) (fun e => failCapsule e noIndex s2) k

/-- DECODE (rules R216, R225): refused but in Idle; the whole procedure is one transition (rules R4, R323). -/
def execDecode (_arg : BitVec 24) (s : State) : Out :=
  if commandAccepted .decode s then decodeWith (fun s1 => runSeq execDescriptor (planFuel s1) s1) s
  else .next (rejectCommand s)

end Sys2Proof.Machine
end

