-- ==== Sys2Proof/Machine/Writer.lean ====
section
/-! DEFINITION. The frame_writer's commands (spec/46_frame_writer.md): WRITE_FIELD in its two forms (R241, R242),
ENCODE_PLAN (R244) and FINALIZE (R246 to R250). -/

namespace Sys2Proof.Machine

/-- A writer command accepted (rules R240, R271): an outbound frame starts empty on the transition from Idle. -/
def beginWriter (s : State) : State :=
  let s1 := acceptCommand s
  { s1 with frameLen := if s.status.main = .idle then 0 else s.frameLen,
            status := { s1.status with main := .encoding }, fromWd := false }

/-! ## WRITE_FIELD -/

/-- The body of the raw form (rule R241): of the write descriptor only TAG, POS and the title are read. -/
def rawField (s : State) : Res State :=
  let d := descFields s.regs.wd
  let wv := valPtr s.regs.wvPtr
  let ws := valPtr s.regs.wsPtr
  if ptrOutside wv = true ∨ ptrOutside ws = true ∨ ptrOutside (titlePtr d) = true then raise { cause := .badConfig }
  else do
    let b ← tblStr s wv
    let v ← tblStr s ws
    let title ← tblStr s (titlePtr d)
    appendFrame b { tag := d.tag, pos := d.pos, bytes := b, title := title, value := v } s

/-- WRITE_FIELD, raw form (rule R241). -/
def execWriteFieldRaw (s : State) : Out :=
  if commandAccepted .writeField s then
    let s1 := beginWriter s
    attempt (rawField s1) (fun e => failCapsule e noIndex s1) fun s2 => .next (completeWriter s2)
  else .next (rejectCommand s)

/-- The configuration check of the encode form (rule R242). -/
def checkWriteField (s : State) : Res Unit :=
  if capDir s.regs = 0 ∨ ptrOutside (valPtr s.regs.wvPtr) = true then raise { cause := .badConfig } else .ok ()

/-- WRITE_FIELD, encode form (rule R242): the write descriptor WD0 to WD7 executed once. -/
def execWriteFieldEnc (s : State) : Out :=
  if commandAccepted .writeField s then
    let s1 := beginWriter s
    attempt (checkWriteField s1) (fun e => failCapsule e noIndex s1) fun _ =>
      runSeq execDescriptor 1 { s1 with fromWd := true }
  else .next (rejectCommand s)

/-! ## ENCODE_PLAN -/

/-- The checks before the first descriptor (rule R244): configuration, then the whole value table parsed. -/
def checkEncodePlan (s : State) : Res Unit :=
  if capDir s.regs = 0 ∨ Config.planMax < s.regs.planLen.toNat then raise { cause := .badConfig }
  else do
    match ← valueTable s with
    | none => raise { cause := .badConfig }
    | some _ => return ()

/-- ENCODE_PLAN up to its first descriptor; `k` runs the plan. -/
def encodePlanWith (k : State → Out) (s : State) : Out :=
  let s1 := { beginWriter s with planPc := 0 }
  attempt (checkEncodePlan s1) (fun e => failCapsule e noIndex s1) fun _ => k s1

/-- ENCODE_PLAN (rule R244). -/
def execEncodePlan (_arg : BitVec 24) (s : State) : Out :=
  if commandAccepted .encodePlan s then encodePlanWith (fun s1 => runSeq execDescriptor (planFuel s1) s1) s
  else .next (rejectCommand s)

/-! ## FINALIZE -/

/-- `ENC` over a range of FRAME; the preconditions come before any byte is read (rules R138, R247). -/
def encryptFrame (s : State) (ps pe : Nat) : Res Bytes := do
  liftE (cipherCheck (cipherMode s.regs) s.regs.keyLen.toNat s.regs.ivLen.toNat (pe - ps) false)
  let key ← cipherKey s
  let iv ← cipherIv s
  let data ← readBytes s .frame ps (pe - ps)
  liftE (cipherEnc Config.blockCipher (cipherMode s.regs) key iv data)

/-- FINALIZE step 1: encrypt the payload sub-range (rule R247). What stands after the payload moves with it. -/
def encryptPayload (s : State) : Res State :=
  let n := s.frameLen.toNat
  if cipherOn s.regs then do
    let (ps, pe) ← regRange n s.regs.payStart s.regs.payEnd
    let ct ← encryptFrame s ps pe
    let n2 := n - (pe - ps) + ct.length
    if Config.frameMax < n2 then
      raise { cause := .bufferOverflow, expNum := num Config.frameMax, actNum := num n2 }
    else
      let after ← readBytes s .frame pe (n - pe)
      return { writeBytes s .frame ps (ct ++ after) with frameLen := num n2 }
  else .ok s

/-- FINALIZE step 2: the length field (rule R248); a count that does not fit loses its high bytes silently. -/
def writeLength (s : State) : Res State :=
  if lenEn s.regs then do
    let f ← lengthField s
    let lb := resize (beN f.count 8) false false (f.stop - f.start)
    return writeBytes s .frame f.start (if lenSwap s.regs then rev lb else lb)
  else .ok s

/-- FINALIZE step 3: the checksum (rule R249). -/
def writeCrc (s : State) : Res State :=
  if crcEn s.regs then do
    let (cs, ce) ← regRange s.frameLen.toNat s.regs.crcrStart s.regs.crcrEnd
    let ci ← crcFieldIndex s
    let p ← liftE (crcSelect (crcAlg s.regs))
    let data ← readBytes s .frame cs (ce - cs)
    return writeBytes s .frame ci (crcRender (crc16P p data) (crcLe s.regs))
  else .ok s

/-- FINALIZE completion (rule R250). -/
def finalizeDone (s : State) : State :=
  { s with status := { flagsComplete s.status with success := true, main := .done } }

/-- FINALIZE (rule R246): each step on the result of the one before; a step that fails leaves the ones before it done
(rule R253). -/
def execFinalize (_arg : BitVec 24) (s : State) : Out :=
  if commandAccepted .finalize s then
    let s1 := acceptCommand s
    attempt (encryptPayload s1) (fun e => failCapsule e noIndex s1) fun s2 =>
      attempt (writeLength s2) (fun e => failCapsule e noIndex s2) fun s3 =>
        attempt (writeCrc s3) (fun e => failCapsule e noIndex s3) fun s4 => .next (finalizeDone s4)
  else .next (rejectCommand s)

end Sys2Proof.Machine
end

