-- ==== Sys2Proof/Machine/Dispatch.lean ====
section
/-! DEFINITION. What each instruction does: one arm per constructor. -/

namespace Sys2Proof.Machine

def exec (i : Instr) (s : State) : Host.Outcome State Fault Refusal :=
  match i with
  -- descriptors (rule R208)
  | .convertBcd d => Sys2Proof.Machine.execConvertBcd d s
  | .convertU8 d => Sys2Proof.Machine.execConvertU8 d s
  | .convertU16 d => Sys2Proof.Machine.execConvertU16 d s
  | .convertU32 d => Sys2Proof.Machine.execConvertU32 d s
  | .convertU64 d => Sys2Proof.Machine.execConvertU64 d s
  | .convertI8 d => Sys2Proof.Machine.execConvertI8 d s
  | .convertI16 d => Sys2Proof.Machine.execConvertI16 d s
  | .convertI32 d => Sys2Proof.Machine.execConvertI32 d s
  | .convertI64 d => Sys2Proof.Machine.execConvertI64 d s
  | .convertFloat d => Sys2Proof.Machine.execConvertFloat d s
  | .convertDouble d => Sys2Proof.Machine.execConvertDouble d s
  | .convertAscii d => Sys2Proof.Machine.execConvertAscii d s
  | .compare d => Sys2Proof.Machine.execCompare d s
  | .enum d => Sys2Proof.Machine.execEnum d s
  -- commands (rule R272)
  | .nop arg => Sys2Proof.Machine.execNop arg s
  | .newCapsule arg => Sys2Proof.Machine.execNewCapsule arg s
  | .decode arg => Sys2Proof.Machine.execDecode arg s
  | .writeFieldRaw => Sys2Proof.Machine.execWriteFieldRaw s
  | .writeFieldEnc => Sys2Proof.Machine.execWriteFieldEnc s
  | .encodePlan arg => Sys2Proof.Machine.execEncodePlan arg s
  | .finalize arg => Sys2Proof.Machine.execFinalize arg s
  | .crcCalc arg => Sys2Proof.Machine.execCrcCalc arg s
  | .crcCompare arg => Sys2Proof.Machine.execCrcCompare arg s
  | .encrypt arg => Sys2Proof.Machine.execEncrypt arg s
  | .decrypt arg => Sys2Proof.Machine.execDecrypt arg s

end Sys2Proof.Machine
end

