-- ==== Sys2Proof/Machine/HostPort.lean ====
section
/-! DEFINITION. The host port: the register map (rule R11), the windows of the address map (R40, R41), and the host's
moves (R265). -/

namespace Sys2Proof.Machine

/-! ## The register map (rule R11) -/

/-- Read the register at a word-aligned offset of REG; CMD and what is not listed read 0 (rules R11, R12). -/
def readReg (s : State) (off : Nat) : Word :=
  match off with
  | 0x004 => statusWord s.status
  | 0x008 => s.err.kind
  | 0x00C => s.err.index
  | 0x010 => s.err.expLen
  | 0x014 => s.err.actLen
  | 0x018 => s.err.expNum
  | 0x01C => s.err.actNum
  | 0x020 => s.frameLen
  | 0x024 => s.tempLen
  | 0x028 => s.outCount
  | 0x02C => s.outBytes
  | 0x030 => s.regs.capCtrl
  | 0x034 => s.regs.cipherSlot
  | 0x038 => s.regs.planLen
  | 0x03C => s.planPc
  | 0x040 => s.regs.headIdx
  | 0x044 => s.regs.headTag
  | 0x048 => s.regs.tailIdx
  | 0x04C => s.regs.tailTag
  | 0x050 => s.regs.lenCtrl
  | 0x054 => s.regs.lenfStart
  | 0x058 => s.regs.lenfEnd
  | 0x05C => s.regs.lenrStart
  | 0x060 => s.regs.lenrEnd
  | 0x064 => s.regs.crcCtrl
  | 0x068 => s.regs.crcIndex
  | 0x06C => s.regs.crcrStart
  | 0x070 => s.regs.crcrEnd
  | 0x074 => s.regs.payStart
  | 0x078 => s.regs.payEnd
  | 0x07C => s.regs.ciphCtrl
  | 0x080 => s.regs.keyLen
  | 0x084 => s.regs.ivLen
  | 0x088 => s.regs.valsPtr
  | 0x08C => s.regs.wvPtr
  | 0x090 => s.regs.wsPtr
  | 0x094 => s.cbufLen
  | 0x098 => s.crcValue
  | 0x09C => s.crcBytes
  | 0x0A0 => s.regs.cand
  | 0x0C0 => s.regs.wd.w0
  | 0x0C4 => s.regs.wd.w1
  | 0x0C8 => s.regs.wd.w2
  | 0x0CC => s.regs.wd.w3
  | 0x0D0 => s.regs.wd.w4
  | 0x0D4 => s.regs.wd.w5
  | 0x0D8 => s.regs.wd.w6
  | 0x0DC => s.regs.wd.w7
  | _ => 0

/-- A value above the limit stores the limit (rules R15, R21, R23). -/
def atMost (limit : Nat) (v : Word) : Word := if limit < v.toNat then num limit else v

/-- Write an RW register other than FRAME_LEN and CBUF_LEN; reserved bits ignore the write (rules R11, R32). -/
def writeRegs (r : Regs) (off : Nat) (v : Word) : Regs :=
  match off with
  | 0x030 => { r with capCtrl := v &&& 0x3 }
  | 0x034 => { r with cipherSlot := v }
  | 0x038 => { r with planLen := v }
  | 0x040 => { r with headIdx := v }
  | 0x044 => { r with headTag := v &&& 0x00FFFFFF }
  | 0x048 => { r with tailIdx := v }
  | 0x04C => { r with tailTag := v &&& 0x00FFFFFF }
  | 0x050 => { r with lenCtrl := v &&& 0x3 }
  | 0x054 => { r with lenfStart := v }
  | 0x058 => { r with lenfEnd := v }
  | 0x05C => { r with lenrStart := v }
  | 0x060 => { r with lenrEnd := v }
  | 0x064 => { r with crcCtrl := v &&& 0xF3 }
  | 0x068 => { r with crcIndex := v }
  | 0x06C => { r with crcrStart := v }
  | 0x070 => { r with crcrEnd := v }
  | 0x074 => { r with payStart := v }
  | 0x078 => { r with payEnd := v }
  | 0x07C => { r with ciphCtrl := v &&& 0xFF }
  | 0x080 => { r with keyLen := atMost Config.keybufMax v }
  | 0x084 => { r with ivLen := atMost Config.keybufMax v }
  | 0x088 => { r with valsPtr := v }
  | 0x08C => { r with wvPtr := v }
  | 0x090 => { r with wsPtr := v }
  | 0x0A0 => { r with cand := v &&& 0xFFFF }
  | 0x0C0 => { r with wd := { r.wd with w0 := v } }
  | 0x0C4 => { r with wd := { r.wd with w1 := v } }
  | 0x0C8 => { r with wd := { r.wd with w2 := v } }
  | 0x0CC => { r with wd := { r.wd with w3 := v } }
  | 0x0D0 => { r with wd := { r.wd with w4 := v } }
  | 0x0D4 => { r with wd := { r.wd with w5 := v } }
  | 0x0D8 => { r with wd := { r.wd with w6 := v } }
  | 0x0DC => { r with wd := { r.wd with w7 := v } }
  | _ => r

/-- Write the register at a word-aligned offset of REG, `CMD` apart: FRAME_LEN only while MAIN = Idle, read-only and
reserved registers ignore the write (rules R11, R15, R23, R265). -/
def writeReg (s : State) (off : Nat) (v : Word) : State :=
  match off with
  | 0x020 => if s.status.main = .idle then { s with frameLen := atMost Config.frameMax v } else s
  | 0x094 => { s with cbufLen := atMost Config.cbufMax v }
  | _ => { s with regs := writeRegs s.regs off v }

/-! ## Locations of the map (rules R40, R41) -/

/-- What a host access designates. -/
inductive Target where
  /-- The register at this offset of REG. -/
  | reg (off : Nat)
  /-- The byte at this offset of a byte space. -/
  | byte (sp : Space) (off : Nat)
  /-- The word at this byte offset of PLAN. -/
  | planWord (off : Nat)
deriving DecidableEq, Repr

/-- The location an access of this width designates; `none` outside every existing location, for another width than the
location's, and for a misaligned word (rules R40, R41). -/
def hostTarget (w : Width) (addr : Word) : Option Target :=
  let a := addr.toNat
  match w with
  | .half => none
  | .word =>
    if a % 4 ≠ 0 then none
    else if a < 0x100 then some (.reg a)
    else
      match locate a with
      | some (.plan, off) => some (.planWord off)
      | _ => none
  | .byte =>
    match locate a with
    | some (.plan, _) => none
    | some (sp, off) => some (.byte sp off)
    | none => none

/-- How many bytes of a space hold a value for the host: beyond it a read is unspecified (rule R50, U8, U13). -/
def validLength (s : State) : Space → Nat
  | .keybuf => spaceSize .keybuf
  | .ivbuf => spaceSize .ivbuf
  | .errExp => s.err.expLen.toNat
  | .errAct => s.err.actLen.toNat
  | .plan => spaceSize .plan
  | .tbl => spaceSize .tbl
  | .frame => s.frameLen.toNat
  | .temp => s.tempLen.toNat
  | .out => s.outBytes.toNat
  | .cbuf => s.cbufLen.toNat

/-- May the host write this byte space (rules R25, R40, R265 (c))? FRAME too, though only in Idle. -/
def hostWritable : Space → Bool
  | .keybuf | .ivbuf | .tbl | .frame | .cbuf => true
  | .errExp | .errAct | .plan | .temp | .out => false

/-! ## Moves (rule R265) -/

/-- A read of a location the spec gives no value returns a free value (U8: "any value"; log 11). -/
def hostAny (s : State) : State := { s with hostData := Config.anyWord s.freeCount, freeCount := s.freeCount + 1 }

/-- The low byte of a word, zero-extended: what a byte read puts on the host's side. -/
def byteData (b : Byte) : Word := b.setWidth 32

/-- A read of an unspecified byte: the low byte of a free value. -/
def hostAnyByte (s : State) : State :=
  { s with hostData := byteData ((Config.anyWord s.freeCount).setWidth 8), freeCount := s.freeCount + 1 }

/-- A read (rule R265 (a)); it changes nothing of the block (rule R51). -/
def hostRead (s : State) : Target → State
  | .reg off => { s with hostData := readReg s off }
  | .byte sp off =>
    if validLength s sp ≤ off then hostAnyByte s
    else
      match readByte s sp off with
      | .ok b => { s with hostData := byteData b }
      | .error _ => hostAnyByte s
  | .planWord off =>
    match readPlanWord s off with
    | .ok w => { s with hostData := w }
    | .error _ => hostAny s

/-- Present a command (rules R12, R269, R271): a reserved encoding is refused by the block, any other is executed. -/
def presentCommand (run : Instr → State → Out) (w : Word) (s : State) : Out :=
  match decodeWords [w] with
  | .ok i => run i s
  | .error _ => .next (rejectCommand s)

/-- A write (rule R265 (b), (c), (d)). -/
def hostWrite (run : Instr → State → Out) (width : Width) (addr value : Word) (s : State) : Out :=
  match hostTarget width addr with
  | none => .refused (.hostAccess width addr)
  | some (.reg off) => if off = 0 then presentCommand run value s else .next (writeReg s off value)
  | some (.planWord off) => .next (writeBytes s .plan off (wordBytes value))
  | some (.byte sp off) =>
    if hostWritable sp = false then .refused (.hostAccess width addr)
    else if sp = .frame ∧ s.status.main ≠ .idle then .next s
    else .next (writeBytes s sp off [value.extractLsb' 0 8])

/-- Reset (rules R31, R310, R311): the reset state; no memory location holds a value (log 17). The host's own side, its
coming moves and what it read, is no state of the block and stays. -/
def hostReset (s : State) : State :=
  { State.reset with inputs := s.inputs, hostData := s.hostData, freeCount := s.freeCount }

/-- One move of the host. While BUSY = 1 it may read STATUS and reset, and a CMD write is refused with CMD_REJ (rules
R53, R269 (c), R315); the machine's step makes no move then. -/
def hostMove (run : Instr → State → Out) (m : HostMove) (s : State) : Out :=
  match m with
  | .reset => .next (hostReset s)
  | .read width addr =>
    if s.status.busy = true ∧ hostTarget width addr ≠ some (.reg 4) then .refused .hostWhileBusy
    else
      match hostTarget width addr with
      | none => .refused (.hostAccess width addr)
      | some t => .next (hostRead s t)
  | .write width addr value =>
    if s.status.busy then
      (if hostTarget width addr = some (.reg 0) then .next (rejectCommand s) else .refused .hostWhileBusy)
    else hostWrite run width addr value s

/-- The machine between commands: the host's next move, or nothing (rule R265: the block never acts on its own). -/
def hostTurn (run : Instr → State → Out) (s : State) : Out :=
  match s.inputs with
  | [] => .next s
  | m :: rest => hostMove run m { s with inputs := rest }

end Sys2Proof.Machine
end

