-- ==== Sys2Proof/Machine/Step.lean ====
section
/-! DEFINITION. One step of the machine. Between commands (BUSY = 0) it is the host's next move, a CMD write running its
command to completion in that one transition (rules R4, R271, R323). A state with BUSY = 1, which no step from a state
with BUSY = 0 reaches, is a command under way as an implementation with latency holds it (rules R13, R271): there a step
is one step of the sequencer, the descriptor at PLAN[PLAN_PC] fetched and executed (log 9). -/

namespace Sys2Proof.Machine

/-- The machine's step. -/
def step (s : State) : Host.Outcome State Fault Refusal :=
  if s.status.busy then seqStep exec s else hostTurn exec s

/-- `s` with an instruction where `step` fetches its next one. A command is fetched from the CMD register: the host's
next move is that CMD write. A descriptor is fetched by the running sequencer from PLAN[PLAN_PC]: the words are stored
there, PLAN_LEN takes the descriptor in, and DECODE is under way in ExtractFields (log 10). -/
def State.withFetchWord (s : State) (nbits w : Nat) : State :=
  match (decodeTableWord nbits w).map Instr.isDescriptor with
  | some true =>
    let s1 := storePlan s s.planPc.toNat (tableDescWords w)
    { s1 with
      regs := { s1.regs with planLen := num (s.planPc.toNat + 1) },
      status := { s1.status with busy := true, main := .reading, rstate := .extractFields },
      fromWd := false }
  | _ =>
    { s with status := { s.status with busy := false }, inputs := .write .word 0 (BitVec.ofNat 32 w) :: s.inputs }

end Sys2Proof.Machine
end

