-- ==== Sys2Proof/Safety.lean ====
section
/-! DEFINITION. What counts as a safe state and a safe run, in the terms the statements use: the invariant that every
host-visible state meets (rules R13, R14, R15, R17, R21, R23, R32, R49, R268, R270), the log in OUT read back as the
capsule's field list with the accumulation invariant (rules R26, R78, R243), a fully written machine (rule R325), and
the plan run as one pure function (rules R219, R225, R244). -/

namespace Sys2Proof.Safety

open Sys2Proof.Machine

/-! ## The state a host sees -/

/-- STATUS between two commands (rules R13, R215, R270). -/
structure StatusInv (t : Status) : Prop where
  /-- No command is running. -/
  idle : t.busy = false
  /-- MAIN shows none of the transient codes. -/
  main : t.main = .idle ∨ t.main = .accum ∨ t.main = .done ∨ t.main = .failed
  /-- SUCCESS is set exactly in Done. -/
  success : t.success = true ↔ t.main = .done
  /-- Failed implies ERR. -/
  failed : t.main = .failed → t.err = true
  /-- RSTATE shows none of the states inside DECODE. -/
  rstate : t.rstate = .idle ∨ t.rstate = .done ∨ t.rstate = .failed
  /-- The reader is Done only in a capsule that is Done. -/
  readerDone : t.rstate = .done → t.main = .done
  /-- The reader is Failed only in a capsule that is Failed. -/
  readerFailed : t.rstate = .failed → t.main = .failed
  /-- FAIL_FROM is 0 exactly where the reader has not failed. -/
  failFrom : t.failFrom ≠ .idle ↔ t.rstate = .failed
  /-- FAIL_FROM names a state of the source's list before Done. -/
  failFromState : t.failFrom ≠ .done ∧ t.failFrom ≠ .failed

/-- The error record between two commands (rules R14, R271, R286). -/
structure ErrInv (err : Bool) (e : ErrRecord) : Prop where
  /-- Without ERR no error is recorded. -/
  none : err = false → e = ErrRecord.none
  /-- With ERR the kind is one of the fifteen. -/
  kind : err = true → 1 ≤ (e.kind.extractLsb' 0 8).toNat ∧ (e.kind.extractLsb' 0 8).toNat ≤ 15
  /-- The reserved bits of ERR_KIND are 0. -/
  reserved : e.kind &&& 0xFEF00000 = 0
  /-- The stored byte sequences fit their buffers. -/
  lengths : e.expLen.toNat ≤ Config.errbufMax ∧ e.actLen.toNat ≤ Config.errbufMax

/-- The reserved bits of the RW registers are 0, KEY_LEN and IV_LEN within their buffers (rules R15, R18 to R21, R32). -/
structure RegsInv (r : Regs) : Prop where
  capCtrl : r.capCtrl &&& 0xFFFFFFFC = 0
  headTag : r.headTag &&& 0xFF000000 = 0
  tailTag : r.tailTag &&& 0xFF000000 = 0
  lenCtrl : r.lenCtrl &&& 0xFFFFFFFC = 0
  crcCtrl : r.crcCtrl &&& 0xFFFFFF0C = 0
  ciphCtrl : r.ciphCtrl &&& 0xFFFFFF00 = 0
  cand : r.cand &&& 0xFFFF0000 = 0
  keyLen : r.keyLen.toNat ≤ Config.keybufMax
  ivLen : r.ivLen.toNat ≤ Config.keybufMax

/-- The first `n` bytes of a space hold a value. -/
def Written (s : State) (sp : Space) (n : Nat) : Prop := ∀ i, i < n → ∃ b, readByte s sp i = .ok b

/-- The lengths and counts: within the capacities (rule R49), and of valid bytes that hold a value. -/
structure LengthsInv (s : State) : Prop where
  frame : s.frameLen.toNat ≤ Config.frameMax
  temp : s.tempLen.toNat ≤ Config.frameMax
  out : s.outBytes.toNat ≤ Config.outMax
  cbuf : s.cbufLen.toNat ≤ Config.cbufMax
  planPc : s.planPc.toNat ≤ Config.planMax
  crcValue : s.crcValue.toNat < 65536
  crcBytes : s.crcBytes.toNat < 65536
  tempWritten : Written s .temp s.tempLen.toNat
  outWritten : Written s .out s.outBytes.toNat
  expWritten : Written s .errExp s.err.expLen.toNat
  actWritten : Written s .errAct s.err.actLen.toNat

/-- The invariant of every state a host sees. -/
structure Inv (s : State) : Prop where
  status : StatusInv s.status
  err : ErrInv s.status.err s.err
  regs : RegsInv s.regs
  lengths : LengthsInv s
  /-- The memory is in its canonical form. -/
  memory : Memory.wf s.mem
  /-- An Idle capsule is empty (rules R267, R311). -/
  empty : s.status.main = .idle → s.tempLen = 0 ∧ s.outCount = 0 ∧ s.outBytes = 0 ∧ s.planPc = 0
  /-- No command is under way. -/
  fromWd : s.fromWd = false

/-! ## The capsule's field list (rules R26, R27, R78) -/

/-- The record at an offset of OUT and the offset after it (the table of rule R78). -/
def readRecord (s : State) (off : Nat) : Res (Rawfield × Nat) := do
  let h ← readBytes s .out off 10
  let bl := be (slice h 4 6)
  let vl := be (slice h 6 8)
  let tl := be (slice h 8 9)
  let bytes ← readBytes s .out (off + 10) bl
  let value ← readBytes s .out (off + 10 + bl) vl
  let title ← readBytes s .out (off + 10 + bl + vl) tl
  return ({ tag := BitVec.ofNat 16 (be (slice h 0 2)), pos := BitVec.ofNat 16 (be (slice h 2 4)),
            bytes := bytes, title := title, value := value }, off + 10 + bl + vl + tl)

/-- `n` records from an offset on, and the offset after them. -/
def readRecords (s : State) (off : Nat) : Nat → Res (List Rawfield × Nat)
  | 0 => .ok ([], off)
  | n + 1 => do
    let (r, o) ← readRecord s off
    let (l, e) ← readRecords s o n
    return (r :: l, e)

/-- `field_details`: the `OUT_COUNT` records of OUT, if they end exactly at `OUT_BYTES`. -/
def IsLog (s : State) (l : List Rawfield) : Prop :=
  readRecords s 0 s.outCount.toNat = .ok (l, s.outBytes.toNat)

/-- OUT always reads back as a list of records, and during accumulation their bytes in order are the frame (rule R243,
"the accumulation invariant"). -/
structure LogInv (s : State) : Prop where
  log : ∃ l, IsLog s l
  accumulation : s.status.main = .accum →
    ∀ l, IsLog s l → readBytes s .frame 0 s.frameLen.toNat = .ok (l.flatMap Rawfield.bytes)

/-! ## A fully written machine (rule R325) -/

/-- Every existing location of every memory holds a value. -/
def FullyWritten (s : State) : Prop := ∀ sp, Written s sp (spaceSize sp)

/-! ## The plan as one function (rules R219, R244) -/

/-- Execute or skip `n` descriptors from PLAN_PC on, each by `body`, counting PLAN_PC up; the first error ends it. -/
def planFold (body : State → Kind → FType → Desc → Res State) : Nat → State → Res State
  | 0, s => .ok s
  | n + 1, s => do
    let w ← fetchPlan s s.planPc.toNat
    match (decodeWords (descWordList w)).toOption.bind Instr.descriptor? with
    | none => raise (illegalErr 0)
    | some (k, ft, d) =>
      let s1 ← body s k ft d
      planFold body n { s1 with planPc := s1.planPc + 1 }

/-! ## Runs -/

/-- Nothing but a stop or a state that meets `P`. -/
def Keeps (P : State → Prop) (o : Out) : Prop := ∀ t, o = .next t → P t

/-- A command ends in a next state, never in a fault or a refusal of the model. -/
def Completes (o : Out) : Prop := ∃ t, o = .next t

/-- `n` steps of the machine, one after the other. -/
def steps : Nat → State → Out
  | 0, s => .next s
  | n + 1, s =>
    match step s with
    | .next s1 => steps n s1
    | .fault f => .fault f
    | .refused r => .refused r

/-- A state after a command that ended without an error, its own results apart: BUSY, ERR and CMD_REJ 0, DONE 1, no
error recorded (rule R271). -/
def completed (s : State) : State :=
  { s with status := { s.status with busy := false, done := true, err := false, cmdRej := false }, err := ErrRecord.none }

/-- The main states in which a command is accepted (the matrix of rule R268); none for a descriptor. -/
def acceptedStates : Instr → List MainState
  | .nop _ => [.idle, .accum, .done, .failed]
  | .newCapsule _ => [.idle, .accum, .done, .failed]
  | .decode _ => [.idle]
  | .writeFieldRaw => [.idle, .accum]
  | .writeFieldEnc => [.idle, .accum]
  | .encodePlan _ => [.idle, .accum]
  | .finalize _ => [.accum]
  | .crcCalc _ => [.idle, .accum, .done]
  | .crcCompare _ => [.idle, .accum, .done]
  | .encrypt _ => [.idle, .accum, .done]
  | .decrypt _ => [.idle, .accum, .done]
  | .convertBcd _ => []
  | .convertU8 _ => []
  | .convertU16 _ => []
  | .convertU32 _ => []
  | .convertU64 _ => []
  | .convertI8 _ => []
  | .convertI16 _ => []
  | .convertI32 _ => []
  | .convertI64 _ => []
  | .convertFloat _ => []
  | .convertDouble _ => []
  | .convertAscii _ => []
  | .compare _ => []
  | .enum _ => []

/-- A command is accepted: none is running, and the matrix has it (rules R268, R269). -/
structure Accepted (i : Instr) (s : State) : Prop where
  busy : s.status.busy = false
  main : s.status.main ∈ acceptedStates i

/-- A decode command is executing a descriptor of the plan: BUSY, inside ExtractFields (rule R219). -/
structure Decoding (s : State) : Prop where
  busy : s.status.busy = true
  main : s.status.main = .reading
  plan : s.fromWd = false

/-- A writer command is executing a descriptor: BUSY, Encoding (rules R242, R244). -/
structure Encoding (s : State) : Prop where
  busy : s.status.busy = true
  main : s.status.main = .encoding

/-- The descriptor is legal by its own words and its symbol, if it has one, has a string (rule R71 no. 1 to 12), and it
applies to the capsule (rule R207). -/
structure Runs (s : State) (k : Kind) (ft : FType) (d : Desc) : Prop where
  legal : WellFormed.descriptor k ft d = true
  symbol : d.symEn = true → (Config.symbolTag d.symbol).isSome = true
  applies : d.dir &&& capDir s.regs ≠ 0

/-- A decode command is about to cut the field of a descriptor that runs: its range lies in TEMP, its bytes are `raw`,
and its title is `title` (rules R61, R219). -/
structure DecodeReady (s : State) (k : Kind) (ft : FType) (d : Desc) (raw title : Bytes) : Prop where
  decoding : Decoding s
  runs : Runs s k ft d
  order : d.startIndex.toNat ≤ d.endIndex.toNat
  inside : d.endIndex.toNat ≤ s.tempLen.toNat
  raw : readBytes s .temp d.startIndex.toNat (d.endIndex.toNat - d.startIndex.toNat) = .ok raw
  title : readBytes s .tbl d.titleOff.toNat d.titleLen.toNat = .ok title

/-- A writer command is about to encode a descriptor that runs, with the value-string `v` (rules R204, R242, R244). -/
structure EncodeReady (s : State) (k : Kind) (ft : FType) (d : Desc) (v title : Bytes) : Prop where
  encoding : Encoding s
  runs : Runs s k ft d
  value : suppliedValue s k d = .ok (some v)
  order : d.startIndex.toNat ≤ d.endIndex.toNat
  title : readBytes s .tbl d.titleOff.toNat d.titleLen.toNat = .ok title

/-- A running command has reached the descriptor words `w`: those of PLAN[PLAN_PC] below PLAN_LEN, or the write
descriptor (rules R17, R55, R242). -/
structure AtDescriptor (s : State) (w : DescWords) : Prop where
  busy : s.status.busy = true
  main : s.status.main = .reading ∨ s.status.main = .encoding
  source : (s.fromWd = false ∧ s.planPc.toNat < s.regs.planLen.toNat ∧ fetchPlan s s.planPc.toNat = .ok w) ∨
    (s.fromWd = true ∧ w = s.regs.wd)

/-- FINALIZE's enables: is a cipher, a length field, a checksum configured (rules R16, R19, R20)? -/
structure FinalizeSteps (r : Regs) (cipher len crc : Bool) : Prop where
  cipher : cipher = true ↔ 0 ≤ r.cipherSlot.toInt
  len : r.lenCtrl.getLsbD 0 = len
  crc : r.crcCtrl.getLsbD 0 = crc

/-- A state after FINALIZE ended without an error, its bytes apart (rule R250). -/
def finalized (s : State) : State :=
  { completed s with status := { (completed s).status with main := .done, success := true } }

/-- The key and the IV the cipher engine reads: neither with mode NONE, no IV with ECB (rules R21, R138, R142). -/
structure CipherOperands (s : State) (key iv : Bytes) : Prop where
  key : cipherMode s.regs ≠ 0 → readBytes s .keybuf 0 s.regs.keyLen.toNat = .ok key
  iv : 1 < (cipherMode s.regs).toNat → readBytes s .ivbuf 0 s.regs.ivLen.toNat = .ok iv

/-- The error buffers a state's record uses. -/
def InErrorBuffers (t : State) (sp : Space) (x : Nat) : Prop :=
  (sp = .errExp ∧ x < t.err.expLen.toNat) ∨ (sp = .errAct ∧ x < t.err.actLen.toNat)

/-- The bytes of a field as the translator interprets them, or as the frame receives them (rules R44, R102). -/
def swapped (d : Desc) (b : Bytes) : Bytes := if d.swap then b.reverse else b

/-- The suffix of a decoded value: one space and the unit string where a symbol is attached (rule R201). -/
def unitSuffix (d : Desc) : Bytes := if d.symEn then 0x20 :: (Config.symbolTag d.symbol).getD [] else []

/-- The scale of a descriptor as its mantissa and exponent, 1 where it is absent (rules R67, R171). -/
def scaleOf (d : Desc) : Nat × Nat := if d.scaleEn then (d.scaleM.toNat, d.scaleE.toNat) else (1, 0)

/-- The record of a field (rule R27). -/
def fieldRecord (d : Desc) (bytes title value : Bytes) : Rawfield :=
  { tag := d.tag, pos := d.pos, bytes := bytes, title := title, value := value }

/-- The eight integer types with their width in bytes and signedness (rule R64). -/
def integerTypes : List (FType × Nat × Bool) :=
  [(.u8, 1, false), (.u16, 2, false), (.u32, 4, false), (.u64, 8, false),
   (.i8, 1, true), (.i16, 2, true), (.i32, 4, true), (.i64, 8, true)]

/-- The integer that `b` stands for in a type (rules R43, R105). -/
def integerOf (signed : Bool) (b : Bytes) : Int := if signed then sext (8 * b.length) (be b) else be b

/-- An enum table as it stands in TBL (rule R76). -/
def enumImage (entries : List (Bytes × Bytes)) : Bytes :=
  entries.flatMap fun e => BitVec.ofNat 8 e.1.length :: e.1 ++ BitVec.ofNat 8 e.2.length :: e.2

/-- A value table as it stands in TBL (rule R77). -/
def valueImage (entries : List (BitVec 16 × Bytes)) : Bytes :=
  entries.flatMap fun e => beN e.1.toNat 2 ++ beN e.2.length 2 ++ e.2

/-- `TBL[off : off + len(b)]` holds `b` and lies inside TBL. -/
structure InTbl (s : State) (off : Nat) (b : Bytes) : Prop where
  inside : off + b.length ≤ Config.tblMax
  bytes : readBytes s .tbl off b.length = .ok b

/-- The enum table of a descriptor is `entries` (rules R69, R76). -/
structure HasEnum (s : State) (d : Desc) (entries : List (Bytes × Bytes)) : Prop where
  count : entries.length = d.auxLen.toNat
  lengths : ∀ e ∈ entries, e.1.length < 256 ∧ e.2.length < 256
  table : InTbl s d.auxOff.toNat (enumImage entries)

/-- The text a field type gives the bytes of a field after the swap, where it gives one (rules R174 to R186). -/
inductive DecodedText (d : Desc) : FType → Bytes → Bytes → Prop where
  | integer (ft : FType) (w : Nat) (signed : Bool) (b : Bytes) : (ft, w, signed) ∈ integerTypes → b.length = w →
      (d.scaleEn = true → d.scaleM ≠ 0) →
      DecodedText d ft b (decRender (integerOf signed b * (scaleOf d).1) (scaleOf d).2)
  | bcd (b : Bytes) : DecodedText d .bcd b (hex b)
  | ascii (b : Bytes) : (∀ x ∈ b, x.toNat ≤ 0x7F) → DecodedText d .ascii b b
  | float (b : Bytes) : b.length = 4 → DecodedText d .float b (Config.floatText.render (BitVec.ofNat 32 (be b)))
  | double (b : Bytes) : b.length = 8 → DecodedText d .double b (Config.doubleText.render (BitVec.ofNat 64 (be b)))

/-- The value of a field whose bytes are `raw`, where the descriptor gives one (rules R200 to R203). -/
inductive DecodedValue (s : State) (d : Desc) (raw : Bytes) : Kind → FType → Bytes → Prop where
  | convert (ft : FType) (text : Bytes) : DecodedText d ft (swapped d raw) text →
      DecodedValue s d raw .convert ft (text ++ unitSuffix d)
  | compare : readBytes s .tbl d.auxOff.toNat d.auxLen.toNat = .ok (swapped d raw) →
      DecodedValue s d raw .compare .bcd (hex (swapped d raw))
  | label (entries : List (Bytes × Bytes)) (e : Bytes × Bytes) : HasEnum s d entries →
      entries.find? (·.1 == swapped d raw) = some e → DecodedValue s d raw .enum .bcd e.2
  | noLabel (entries : List (Bytes × Bytes)) : HasEnum s d entries →
      entries.find? (·.1 == swapped d raw) = none → DecodedValue s d raw .enum .bcd (hex (swapped d raw))

/-- The capacity of a descriptor's field; 0 means as many bytes as there are (rules R61, R188, R204). -/
def fieldCapacity (d : Desc) : Nat := d.endIndex.toNat - d.startIndex.toNat

/-- The bytes fit the capacity (rules R204 to R206). -/
def FitsCapacity (d : Desc) (b : Bytes) : Prop := fieldCapacity d = 0 ∨ b.length = fieldCapacity d

/-- The bytes of a value-string before the swap, and the value the record holds, where the descriptor gives them (rules
R185 to R188, R204 to R206). FLOAT and DOUBLE are apart: which strings their parsers accept is the parameter's (U4). -/
inductive EncodedBytes (s : State) (d : Desc) (v : Bytes) : Kind → FType → Bytes → Bytes → Prop where
  | integer (ft : FType) (w : Nat) (signed : Bool) (a raw : Int) (e cap : Nat) : (ft, w, signed) ∈ integerTypes →
      decParse? v = some (a, e) → (scaleOf d).1 ≠ 0 →
      raw = roundHA (a * 10 ^ (scaleOf d).2) (10 ^ e * (scaleOf d).1) →
      (if signed then -(2 ^ (8 * w - 1)) ≤ raw ∧ raw < 2 ^ (8 * w - 1) else 0 ≤ raw ∧ raw < 2 ^ (8 * w)) →
      (cap = if fieldCapacity d = 0 then w else fieldCapacity d) →
      EncodedBytes s d v .convert ft (beN (raw % 2 ^ (8 * cap)).toNat cap) v
  | bcd (b : Bytes) : v ≠ [] → unhex? v = some b → FitsCapacity d b → EncodedBytes s d v .convert .bcd b v
  | ascii : (∀ c ∈ v, c.toNat ≤ 0x7F) → FitsCapacity d v → EncodedBytes s d v .convert .ascii v v
  | compare (target : Bytes) : readBytes s .tbl d.auxOff.toNat d.auxLen.toNat = .ok target → FitsCapacity d target →
      EncodedBytes s d v .compare .bcd target (hex target)
  | pattern (entries : List (Bytes × Bytes)) (e : Bytes × Bytes) : HasEnum s d entries →
      entries.find? (·.2 == v) = some e → FitsCapacity d e.1 → EncodedBytes s d v .enum .bcd e.1 v
  | noPattern (entries : List (Bytes × Bytes)) (b : Bytes) : HasEnum s d entries → entries.find? (·.2 == v) = none →
      v ≠ [] → unhex? v = some b → FitsCapacity d b → EncodedBytes s d v .enum .bcd b v

/-- The value table of ENCODE_PLAN is `entries` (rules R22, R77). -/
structure HasValues (s : State) (entries : List (BitVec 16 × Bytes)) : Prop where
  count : entries.length = (valPtr s.regs.valsPtr).len
  lengths : ∀ e ∈ entries, e.2.length < 65536
  table : InTbl s (valPtr s.regs.valsPtr).off (valueImage entries)

/-- Two states agree on every byte of every memory but those of one range of one space. -/
def SameOutside (s t : State) (sp : Space) (off len : Nat) : Prop :=
  ∀ sp' x, ¬ (sp' = sp ∧ off ≤ x ∧ x < off + len) → readByte t sp' x = readByte s sp' x

/-- Two states agree on every byte of every memory. -/
def SameMemory (s t : State) : Prop := ∀ sp x, readByte t sp x = readByte s sp x

/-- What no instruction writes: the RW registers and the host's side (rules R227 (f), R24, R265). -/
def SameHostState (s t : State) : Prop :=
  t.regs = s.regs ∧ t.inputs = s.inputs ∧ t.hostData = s.hostData ∧ t.freeCount = s.freeCount

end Sys2Proof.Safety
end

