-- ==== Sys2Proof/Certificates/Slice0/Obligations.lean ====
section
/-! DEFINITION. The statements for the provers. Each says what an instruction or the machine does; `Safety.lean` has the
terms they use. A docstring names the rules of spec/, or the log entry where the statement rests on the model's choice. -/

open Sys2Proof Sys2Proof.Machine Sys2Proof.Safety

/-! ## Reset and the invariants -/

/-- R31: the reset move leaves every register at its reset value and no memory location with a value. -/
def Obligations.ResetLeavesRegistersAndNoMemory : Prop :=
  ∀ (s : State) (rest : List HostMove), s.status.busy = false → s.inputs = .reset :: rest →
    ∃ t, step s = .next t ∧
      (∀ off, readReg t off = if off = 0x00C ∨ off = 0x034 then 0xFFFFFFFF else if off = 0x030 then 3 else 0) ∧
      ∀ sp x b, readByte t sp x ≠ .ok b

/-- The two invariants hold right after reset. -/
def Obligations.InvariantsHoldAtReset : Prop := Inv State.reset ∧ LogInv State.reset

/-- Every step from a state the host can see leads to one: flags, record, registers, lengths and memory stay legal. -/
def Obligations.EveryStepKeepsTheInvariant : Prop :=
  ∀ s t : State, Inv s → step s = .next t → Inv t

/-- R78, R243: OUT always reads back as a list of records, and during accumulation their bytes are the frame; a record
that is appended reads back as itself, after the ones before it. -/
def Obligations.EveryStepKeepsTheFieldList : Prop :=
  (∀ s t : State, Inv s → LogInv s → step s = .next t → LogInv t) ∧
  ∀ (s : State) (rf : Rawfield) (l : List Rawfield), IsLog s l → outFits rf s → rf.title.length ≤ 255 →
    IsLog (outAppended rf s) (l ++ [rf])

/-- R324, R325: with every location written, every command ends in a next state, never in a stop of the model. -/
def Obligations.CommandsCompleteOnWrittenMemory : Prop :=
  ∀ (i : Instr) (s : State), i.isDescriptor = false → Inv s → FullyWritten s → Completes (exec i s)

/-! ## Encoding -/

/-- R61 to R64, R72: decoding the words of any instruction gives it back, every operand at every value. -/
def Obligations.DecodeOfEncodeIsIdentity : Prop := ∀ i : Instr, decodeWords (encode i) = .ok i

/-- Words that decode are the words of the instruction they decode to: no bit is dropped. -/
def Obligations.EncodeOfDecodeIsIdentity : Prop :=
  ∀ (ws : List Word) (i : Instr), decodeWords ws = .ok i → encode i = ws

/-- A few words written out from R61 and R72: the W0 of `convert.i16 swap scale dir=both tag=0x1234`, and commands. -/
def Obligations.OpcodeWordsDecode : Prop :=
  decodeWords [0x12341B61, 0x00000007, 4, 6, 0x00000101, 0x02030405, 0x00060008, 0] =
      .ok (.convertI16
        { swap := true, scaleEn := true, symEn := false, dir := 3, req := false, defEn := false, rsv0 := false,
          tag := 0x1234, pos := 7, rsv1 := 0, startIndex := 4, endIndex := 6, scaleE := 1, scaleM := 1,
          titleOff := 0x0405, titleLen := 3, symbol := 2, auxOff := 8, auxLen := 6, rsv7 := 0 }) ∧
    decodeWords [0x00000103] = .ok .writeFieldEnc ∧ decodeWords [0x00000021] = .ok (.decrypt 0) ∧
    decodeWords [0xABCDEF10] = .ok (.crcCalc 0xABCDEF)

/-- R72, R269 (a), R303: a reserved OPC, or WRITE_FIELD with another ARG bit than bit 0, changes CMD_REJ and nothing
else. -/
def Obligations.ReservedCommandWordsAreRefused : Prop :=
  ∀ (s : State) (w : Word) (rest : List HostMove), s.status.busy = false → s.inputs = .write .word 0 w :: rest →
    (w.extractLsb' 0 8 ∉ ([0x00, 0x01, 0x02, 0x03, 0x04, 0x05, 0x10, 0x11, 0x20, 0x21] : List (BitVec 8)) ∨
      (w.extractLsb' 0 8 = 0x03#8 ∧ w.extractLsb' 9 23 ≠ 0#23)) →
    step s = .next { s with inputs := rest, status := { s.status with cmdRej := true } }

/-! ## The step runs the decoded instruction -/

/-- R12, R271: a CMD write runs the command its word decodes to. -/
def Obligations.CmdWriteRunsItsCommand : Prop :=
  ∀ (s : State) (w : Word) (i : Instr) (rest : List HostMove), s.status.busy = false →
    s.inputs = .write .word 0 w :: rest → decodeWords [w] = .ok i → step s = exec i { s with inputs := rest }

/-- R17, R55, R219, R244: with a command under way, a step runs the descriptor at PLAN[PLAN_PC], or the write
descriptor; at PLAN_LEN it ends the plan. (That a step shows this at all is the model's choice, log 9.) -/
def Obligations.SequencerStepRunsItsDescriptor : Prop :=
  (∀ (s : State) (w : DescWords) (i : Instr), AtDescriptor s w → decodeWords (descWordList w) = .ok i →
    step s = exec i s) ∧
  ∀ s : State, s.status.busy = true → s.fromWd = false → s.regs.planLen.toNat ≤ s.planPc.toNat →
    (s.status.main = .reading → step s = finishDecode s) ∧
    (s.status.main = .encoding → step s = .next (completeWriter s))

/-- R4, R323: a plan command as one transition is what the machine's own steps, one descriptor each, come to.
(Those steps inside a command are the model's choice, log 9.) -/
def Obligations.AtomicCommandsAreIteratedSteps : Prop :=
  ∀ (a : BitVec 24) (s : State), s.inputs = [] →
    (Accepted (.decode a) s → exec (.decode a) s = decodeWith (steps (s.regs.planLen.toNat + 1)) s) ∧
    (Accepted (.encodePlan a) s → exec (.encodePlan a) s = encodePlanWith (steps (s.regs.planLen.toNat + 1)) s) ∧
    (Accepted .writeFieldEnc s → checkWriteField (beginWriter s) = .ok () →
      exec .writeFieldEnc s = steps 1 { beginWriter s with fromWd := true })

/-! ## DECODE -/

/-- R219, R223, R225: DECODE is its head check, TEMP filled, the plan executed in ascending order, the length, checksum
and tail checks, and Done with PLAN_PC = PLAN_LEN. -/
def Obligations.DecodeRunsThePlanInOrder : Prop :=
  ∀ (a : BitVec 24) (s s2 s3 : State) (swap : Bool), Accepted (.decode a) s → checkHead (beginDecode s) = .ok () →
    loadTemp (setReader .extractFields (beginDecode s)) = .ok s2 →
    planFold extractField s.regs.planLen.toNat s2 = .ok s3 →
    checkLength (setReader .expectChecksum s3) = .ok () → checkCrc (setReader .expectChecksum s3) = .ok swap →
    tagCheck s3 s.regs.tailIdx s.regs.tailTag .invalidTail = .ok () →
    exec (.decode a) s =
        .next (readerDone (setReader .expectTail (setCrcSwapped swap (setReader .expectChecksum s3)))) ∧
      s3.planPc = s.regs.planLen

/-- R216 to R218, R222, R223: DECODE with no plan, length or checksum: a frame whose head and tail tags match is copied
to TEMP, its payload range replaced by its decryption where a cipher is configured, and the capsule is Done. -/
def Obligations.DecodeWithEmptyPlanFillsTemp : Prop :=
  ∀ (a : BitVec 24) (s : State) (frame head tail : Bytes) (h t : Nat), Accepted (.decode a) s → capDir s.regs ≠ 0 →
    s.regs.planLen = 0 → readBytes s .frame 0 s.frameLen.toNat = .ok frame →
    InTbl s (tagPtr s.regs.headTag).off head → head.length = (tagPtr s.regs.headTag).len → head ≠ [] →
    idx frame.length s.regs.headIdx.toInt = (h : Int) → slice frame h (h + head.length) = head →
    InTbl s (tagPtr s.regs.tailTag).off tail → tail.length = (tagPtr s.regs.tailTag).len → tail ≠ [] →
    idx frame.length s.regs.tailIdx.toInt = (t : Int) → slice frame t (t + tail.length) = tail →
    (let done (temp : Bytes) : State :=
       { completed (writeBytes s .temp 0 temp) with
         tempLen := num temp.length, planPc := 0, fromWd := false,
         status := { (completed s).status with crcSwapped := false, rstate := .done, main := .done, success := true } }
     (FinalizeSteps s.regs false false false → exec (.decode a) s = .next (done frame)) ∧
     ∀ (key iv pt : Bytes) (p q : Nat), FinalizeSteps s.regs true false false →
       range frame.length s.regs.payStart.toInt s.regs.payEnd.toInt = .ok (p, q) → CipherOperands s key iv →
       cipherDec Config.blockCipher (cipherMode s.regs) key iv (slice frame p q) = .ok pt →
       exec (.decode a) s = .next (done (frame.take p ++ pt ++ frame.drop q)))

/-- R217, R218, R220 to R222, R224, R290: a frame that does not carry the head tag, whose payload does not decrypt, whose
length field or checksum disagrees, or that does not carry the tail tag, fails the capsule from the state that saw it,
with the numbers and bytes of its error; a head mismatch writes nothing of TEMP or OUT. (Old bytes of the error buffers
beyond the new lengths stay: the model's choice, log 20.) -/
def Obligations.ReaderErrorsRejectTheFrame : Prop :=
  ∀ (a : BitVec 24) (s : State) (frame : Bytes), Accepted (.decode a) s → capDir s.regs ≠ 0 →
    s.regs.planLen.toNat ≤ Config.planMax → readBytes s .frame 0 s.frameLen.toNat = .ok frame →
    (let n := frame.length
     let found (index : Word) (len : Nat) : Bytes :=
       let h := idx n index.toInt
       let lo := (min (max h 0) n).toNat
       slice frame lo (max lo (min (max (h + len) 0) n).toNat)
     let isTag (w : Word) (tag : Bytes) : Prop :=
       InTbl s (tagPtr w).off tag ∧ tag.length = (tagPtr w).len ∧ tag ≠ []
     let failedFrom (r : ReaderState) (swap : Bool) : Status :=
       { (completed s).status with
         err := true, success := false, crcSwapped := swap, main := .failed, rstate := .failed, failFrom := r }
     let fails (r : ReaderState) (swap : Bool) (e : Err) (u : State) : Prop :=
       exec (.decode a) s = .next (failCapsule e 0xFFFFFFFF (setReader r u)) ∧
         (failCapsule e 0xFFFFFFFF (setReader r u)).status = failedFrom r swap
     (∀ tag, isTag s.regs.headTag tag →
       (let actual := found s.regs.headIdx tag.length
        actual ≠ tag → ∃ t, exec (.decode a) s = .next t ∧ t.status = failedFrom .expectHead false ∧
          t.err = { kind := 1, index := 0xFFFFFFFF, expLen := num tag.length, actLen := num actual.length,
                    expNum := num tag.length, actNum := num actual.length } ∧
          readBytes t .errExp 0 tag.length = .ok tag ∧ readBytes t .errAct 0 actual.length = .ok actual ∧
          t.planPc = 0 ∧ t.tempLen = s.tempLen ∧ t.outCount = s.outCount ∧ t.outBytes = s.outBytes ∧
          ∀ sp x, ¬ InErrorBuffers t sp x → readByte t sp x = readByte s sp x)) ∧
     (checkHead (beginDecode s) = .ok () →
       (∀ key iv p q e, 0 ≤ s.regs.cipherSlot.toInt →
         range n s.regs.payStart.toInt s.regs.payEnd.toInt = .ok (p, q) → CipherOperands s key iv →
         cipherDec Config.blockCipher (cipherMode s.regs) key iv (slice frame p q) = .error e →
         fails .extractFields false e (beginDecode s)) ∧
       ∀ s2 s3, loadTemp (setReader .extractFields (beginDecode s)) = .ok s2 →
         planFold extractField s.regs.planLen.toNat s2 = .ok s3 →
         (∀ i j p q, s.regs.lenCtrl.getLsbD 0 = true →
           range n s.regs.lenfStart.toInt s.regs.lenfEnd.toInt = .ok (i, j) → 1 ≤ j - i → j - i ≤ 8 →
           range n s.regs.lenrStart.toInt s.regs.lenrEnd.toInt = .ok (p, q) →
           (let stored := slice frame i j
            let v := be (if s.regs.lenCtrl.getLsbD 1 then stored.reverse else stored)
            v ≠ q - p → fails .expectChecksum false
              { cause := .lengthFieldMismatch, expNum := num (q - p), actNum := num v, actBytes := stored } s3)) ∧
         (∀ i p q, checkLength (setReader .expectChecksum s3) = .ok () → s.regs.crcCtrl.getLsbD 0 = true →
           range n s.regs.crcrStart.toInt s.regs.crcrEnd.toInt = .ok (p, q) →
           idx n s.regs.crcIndex.toInt = ((i : Nat) : Int) → i + 2 ≤ n →
           match Config.crcTable (s.regs.crcCtrl.extractLsb' 4 4) with
           | some params =>
             let c := (crc16P params (slice frame p q)).toNat
             let cand := slice frame i (i + 2)
             cand ≠ beN c 2 → cand.reverse ≠ beN c 2 → fails .expectChecksum false
               { cause := .crcMismatch, expNum := num c, actNum := num (be cand), expBytes := beN c 2, actBytes := cand } s3
           | none => fails .expectChecksum false
               { cause := .unsupportedCrcAlg, actNum := (s.regs.crcCtrl.extractLsb' 4 4 : BitVec 4).setWidth 32 } s3) ∧
         ∀ swap tag, checkLength (setReader .expectChecksum s3) = .ok () →
           checkCrc (setReader .expectChecksum s3) = .ok swap → isTag s.regs.tailTag tag →
           (let actual := found s.regs.tailIdx tag.length
            actual ≠ tag → fails .expectTail swap
              { cause := .invalidTail, expBytes := tag, actBytes := actual, expNum := num tag.length,
                actNum := num actual.length } (setCrcSwapped swap s3))))

/-- R291: an error under descriptor `k` leaves PLAN_PC = ERR_INDEX = k, the descriptors before `k` done, and `k` with no
effect, in DECODE and in ENCODE_PLAN. (Error buffers beyond the recorded lengths: the model's choice, log 20.) -/
def Obligations.PlanErrorsArePrecise : Prop :=
  ∀ (a : BitVec 24) (s t : State), t.status.main = .failed → t.err.index ≠ 0xFFFFFFFF →
    (Accepted (.decode a) s → exec (.decode a) s = .next t →
      t.planPc = t.err.index ∧ t.planPc.toNat < s.regs.planLen.toNat ∧
        ∃ s2 s3, loadTemp (setReader .extractFields (beginDecode s)) = .ok s2 ∧
          planFold extractField t.planPc.toNat s2 = .ok s3 ∧ t.outCount = s3.outCount ∧ t.outBytes = s3.outBytes ∧
          ∀ sp x, ¬ InErrorBuffers t sp x → readByte t sp x = readByte s3 sp x) ∧
    (Accepted (.encodePlan a) s → exec (.encodePlan a) s = .next t →
      t.planPc = t.err.index ∧ t.planPc.toNat < s.regs.planLen.toNat ∧
        ∃ s3, planFold emitField t.planPc.toNat { beginWriter s with planPc := 0 } = .ok s3 ∧
          t.outCount = s3.outCount ∧ t.outBytes = s3.outBytes ∧ t.frameLen = s3.frameLen ∧
          ∀ sp x, ¬ InErrorBuffers t sp x → readByte t sp x = readByte s3 sp x)

/-! ## Capsule commands without operands -/

/-- R266: NOP clears CMD_REJ, sets DONE and keeps ERR and the record. -/
def Obligations.NopKeepsTheErrorRecord : Prop :=
  ∀ (a : BitVec 24) (s : State), Accepted (.nop a) s →
    exec (.nop a) s = .next { s with status := { s.status with cmdRej := false, done := true } }

/-- R267: NEW_CAPSULE gives the fresh capsule and changes nothing else. -/
def Obligations.NewCapsuleIsFresh : Prop :=
  ∀ (a : BitVec 24) (s : State), Accepted (.newCapsule a) s →
    ∃ t, exec (.newCapsule a) s = .next t ∧
      t.frameLen = 0 ∧ t.tempLen = 0 ∧ t.outCount = 0 ∧ t.outBytes = 0 ∧ t.planPc = 0 ∧
      t.status = { busy := false, done := true, err := false, success := false, crcSwapped := false, cmdRej := false,
                   main := .idle, rstate := .idle, failFrom := .idle } ∧
      t.err = { kind := 0, index := 0xFFFFFFFF, expLen := 0, actLen := 0, expNum := 0, actNum := 0 } ∧
      t.regs = s.regs ∧ t.cbufLen = s.cbufLen ∧ t.crcValue = s.crcValue ∧ t.crcBytes = s.crcBytes ∧ t.mem = s.mem ∧
      SameHostState s t

/-! ## crc_engine -/

/-- R127: CRC_CALC writes the CRC of CBUF to CRC_VALUE and its two bytes, in the order CRC_LE selects, to CRC_BYTES; an
undefined selector raises UNSUPPORTED_CRC_ALG and writes neither. -/
def Obligations.CrcCalcWritesTheChecksum : Prop :=
  ∀ (a : BitVec 24) (s : State) (data : Bytes), Accepted (.crcCalc a) s →
    readBytes s .cbuf 0 s.cbufLen.toNat = .ok data →
    exec (.crcCalc a) s = .next
      (match Config.crcTable (s.regs.crcCtrl.extractLsb' 4 4) with
       | some p =>
         let c := crc16P p data
         { completed s with
           crcValue := c.setWidth 32,
           crcBytes := if s.regs.crcCtrl.getLsbD 1 then (c.extractLsb' 0 8 ++ c.extractLsb' 8 8 : BitVec 16).setWidth 32
             else c.setWidth 32 }
       | none =>
         failEngine { cause := .unsupportedCrcAlg, actNum := (s.regs.crcCtrl.extractLsb' 4 4 : BitVec 4).setWidth 32 }
           (completed s))

/-- R123, R128: CRC_COMPARE writes the CRC in big-endian order, then compares the candidate in either byte order; a
mismatch raises CrcMismatch with both, the capsule untouched; an undefined selector raises UNSUPPORTED_CRC_ALG and writes
neither. -/
def Obligations.CrcCompareChecksTheCandidate : Prop :=
  ∀ (a : BitVec 24) (s : State) (data : Bytes), Accepted (.crcCompare a) s →
    readBytes s .cbuf 0 s.cbufLen.toNat = .ok data →
    (let cand : BitVec 16 := s.regs.cand.extractLsb' 0 16
     let flipped : BitVec 16 := cand.extractLsb' 0 8 ++ cand.extractLsb' 8 8
     let flagged (swap : Bool) : State :=
       { completed s with status := { (completed s).status with crcSwapped := swap } }
     match Config.crcTable (s.regs.crcCtrl.extractLsb' 4 4) with
     | some p =>
       let c := crc16P p data
       let done (swap : Bool) : State := { flagged swap with crcValue := c.setWidth 32, crcBytes := c.setWidth 32 }
       (cand = c → exec (.crcCompare a) s = .next (done false)) ∧
       (cand ≠ c → flipped = c → exec (.crcCompare a) s = .next (done true)) ∧
       (cand ≠ c → flipped ≠ c → exec (.crcCompare a) s = .next
         (failEngine { cause := .crcMismatch, expNum := c.setWidth 32, actNum := cand.setWidth 32,
                       expBytes := [c.extractLsb' 8 8, c.extractLsb' 0 8],
                       actBytes := [cand.extractLsb' 8 8, cand.extractLsb' 0 8] } (done false)))
     | none => exec (.crcCompare a) s = .next
         (failEngine { cause := .unsupportedCrcAlg, actNum := (s.regs.crcCtrl.extractLsb' 4 4 : BitVec 4).setWidth 32 }
           (flagged false)))

/-- R129: flipping any single bit of the data changes the checksum (for an odd polynomial, as Modbus has); both orders
of the computed bytes are accepted; and what the writer emits in either order is accepted. -/
def Obligations.CrcEngineProperties : Prop :=
  (∀ (p : Config.CrcParams) (b : Bytes) (k j : Nat) (hk : k < b.length), p.poly.getLsbD 0 = true → j < 8 →
    crc16P p (b.set k (b[k] ^^^ (1#8 <<< j))) ≠ crc16P p b) ∧
  (∀ c : BitVec 16, (∃ swap, crcCompareBytes (beN c.toNat 2) c = .ok swap) ∧
    ∃ swap, crcCompareBytes (beN c.toNat 2).reverse c = .ok swap) ∧
  ∀ (alg : BitVec 4) (b : Bytes) (le : Bool) (c : BitVec 16) (two four : Bytes), crcEmit alg b le = .ok (c, two, four) →
    crc16 alg b = .ok c ∧ ∃ swap, crcCompareBytes two c = .ok swap

/-- R227 (b): a stored checksum that was accepted is not accepted with one of its two bytes changed. -/
def Obligations.CorruptedChecksumByteIsCaught : Prop :=
  ∀ (x y x' y' : Byte) (c : BitVec 16) (swap : Bool), crcCompareBytes [x, y] c = .ok swap →
    (x' ≠ x ∧ y' = y) ∨ (x' = x ∧ y' ≠ y) →
    ∃ e, crcCompareBytes [x', y'] c = .error e ∧ e.cause = .crcMismatch ∧ e.actBytes = [x', y'] ∧
      e.expBytes = beN c.toNat 2

/-! ## cipher_engine -/

/-- R49, R152, R153: ENCRYPT replaces CBUF by the encryption, whose length is that of R152's table, in every mode; a result
longer than CBUF raises BUFFER_OVERFLOW with the capacity and that length, CBUF untouched. -/
def Obligations.EncryptReplacesTheBuffer : Prop :=
  ∀ (a : BitVec 24) (s : State) (key iv data : Bytes), Accepted (.encrypt a) s → CipherOperands s key iv →
    readBytes s .cbuf 0 s.cbufLen.toNat = .ok data →
    (let m := (cipherMode s.regs).toNat
     let n := if m = 1 ∨ m = 2 then 16 * (data.length / 16 + 1) else data.length
     m ≤ 6 → (m ≠ 0 → s.regs.keyLen = 16) → (1 < m → s.regs.ivLen = 16) → (m = 6 → 16 ≤ data.length) →
     (n ≤ Config.cbufMax →
       ∃ r, cipherEnc Config.blockCipher (cipherMode s.regs) key iv data = .ok r ∧ r.length = n ∧
         exec (.encrypt a) s = .next { completed (writeBytes s .cbuf 0 r) with cbufLen := num n }) ∧
     (Config.cbufMax < n → exec (.encrypt a) s = .next
       (failEngine { cause := .bufferOverflow, expNum := num Config.cbufMax, actNum := num n } (completed s))))

/-- R138, R140, R154: DECRYPT replaces CBUF by the decryption, or raises what the decryption raises (a precondition or
BAD_PADDING) with CBUF unchanged. -/
def Obligations.DecryptReplacesTheBuffer : Prop :=
  ∀ (a : BitVec 24) (s : State) (key iv data : Bytes), Accepted (.decrypt a) s → CipherOperands s key iv →
    readBytes s .cbuf 0 s.cbufLen.toNat = .ok data →
    (∀ r, cipherDec Config.blockCipher (cipherMode s.regs) key iv data = .ok r → r.length ≤ data.length ∧
      exec (.decrypt a) s = .next { completed (writeBytes s .cbuf 0 r) with cbufLen := num r.length }) ∧
    (∀ e, cipherDec Config.blockCipher (cipherMode s.regs) key iv data = .error e →
      exec (.decrypt a) s = .next (failEngine e (completed s))) ∧
    ∀ x : Bytes, x ≠ [] → x.length % 16 = 0 →
      (let p := (x.getLastD 0).toNat
       (1 ≤ p → p ≤ 16 → x.drop (x.length - p) = List.replicate p (BitVec.ofNat 8 p) →
         pkcs7Unpad x = .ok (x.take (x.length - p))) ∧
       (p = 0 ∨ 16 < p ∨ x.drop (x.length - p) ≠ List.replicate p (BitVec.ofNat 8 p) →
         pkcs7Unpad x = .error { cause := .badPadding, actNum := num p }))

/-- R156, R150: in every mode decryption undoes encryption, for every key and IV of 16 bytes and every data the mode
accepts; for whole blocks CTS is CBC without the padding block. -/
def Obligations.CipherRoundTrip : Prop :=
  ∀ (bc : Config.BlockCipher) (m : BitVec 8) (key iv data : Bytes), m.toNat ≤ 6 → key.length = 16 → iv.length = 16 →
    (m.toNat = 6 → 16 ≤ data.length) →
    ∃ c, cipherEnc bc m key iv data = .ok c ∧ cipherDec bc m key iv c = .ok data ∧
      (m.toNat = 6 → data.length % 16 = 0 → ∃ cbc, cipherEnc bc 2 key iv data = .ok cbc ∧ c = cbc.take data.length)

/-- R138, R289, R292: the cipher preconditions in their order; the first that fails is the command's error, found before
any byte is read (that last point is the model's reading, log 6). -/
def Obligations.CipherPreconditionsInOrder : Prop :=
  ∀ (a : BitVec 24) (dec : Bool) (s : State),
    (let i : Instr := if dec then .decrypt a else .encrypt a
     let m := (cipherMode s.regs).toNat
     let kl := s.regs.keyLen
     let il := s.regs.ivLen
     let n := s.cbufLen
     let fails (e : Err) : Prop := exec i s = .next (failEngine e (completed s))
     Accepted i s →
     (6 < m → fails { cause := .unsupportedMode, actNum := num m }) ∧
     (1 ≤ m → m ≤ 6 → kl ≠ 16 → fails { cause := .invalidKeyLength, expNum := 16, actNum := kl }) ∧
     (2 ≤ m → m ≤ 6 → kl = 16 → il ≠ 16 → fails { cause := .badIvLength, expNum := 16, actNum := il }) ∧
     (m = 6 → kl = 16 → il = 16 → n.toNat < 16 → fails { cause := .inputTooShort, expNum := 16, actNum := n }) ∧
     (m = 1 ∨ (m = 2 ∧ il = 16) → kl = 16 → dec = true → n = 0 ∨ n.toNat % 16 ≠ 0 →
       fails { cause := .badCiphertextLength, expNum := 16, actNum := n }))

/-! ## Descriptors on decode -/

/-- R174 to R182, R200, R201, R219: the eight integer forms give the exact product of the integer and the scale, rendered
in decimal, with the unit's suffix, and append one record. -/
def Obligations.ConvertIntegerDecodes : Prop :=
  ∀ (i : Instr) (ft : FType) (w : Nat) (signed : Bool) (d : Desc) (s : State) (raw title : Bytes),
    (ft, w, signed) ∈ integerTypes → i.descriptor? = some (.convert, ft, d) → DecodeReady s .convert ft d raw title →
    raw.length = w → (d.scaleEn = true → d.scaleM ≠ 0) →
    (let value := decRender (integerOf signed (swapped d raw) * (scaleOf d).1) (scaleOf d).2 ++ unitSuffix d
     let rf := fieldRecord d raw title value
     outFits rf s → exec i s = .next { outAppended rf s with planPc := s.planPc + 1 })

/-- R185, R186, R201: BCD renders any field as upper-case hex; ASCII copies bytes of at most 0x7F. -/
def Obligations.ConvertTextDecodes : Prop :=
  ∀ (d : Desc) (s : State) (raw title : Bytes),
    (DecodeReady s .convert .bcd d raw title →
      (let rf := fieldRecord d raw title (hex (swapped d raw) ++ unitSuffix d)
       outFits rf s → exec (.convertBcd d) s = .next { outAppended rf s with planPc := s.planPc + 1 })) ∧
    (DecodeReady s .convert .ascii d raw title → (∀ b ∈ raw, b.toNat ≤ 0x7F) →
      (let rf := fieldRecord d raw title (swapped d raw ++ unitSuffix d)
       outFits rf s → exec (.convertAscii d) s = .next { outAppended rf s with planPc := s.planPc + 1 }))

/-- R183, R184, R201: FLOAT and DOUBLE give the text of the pattern their four or eight bytes are, big-endian. The text's
length is the parameter's (U4), so whether the record fits OUT is part of the answer. -/
def Obligations.ConvertFloatDecodes : Prop :=
  ∀ (d : Desc) (s : State) (raw title : Bytes),
    (DecodeReady s .convert .float d raw title → raw.length = 4 →
      (let rf := fieldRecord d raw title
         (Config.floatText.render (BitVec.ofNat 32 (be (swapped d raw))) ++ unitSuffix d)
       exec (.convertFloat d) s = .next
         (if outFits rf s then { outAppended rf s with planPc := s.planPc + 1 }
          else failCapsule (outOverflow rf s) s.planPc s))) ∧
    (DecodeReady s .convert .double d raw title → raw.length = 8 →
      (let rf := fieldRecord d raw title
         (Config.doubleText.render (BitVec.ofNat 64 (be (swapped d raw))) ++ unitSuffix d)
       exec (.convertDouble d) s = .next
         (if outFits rf s then { outAppended rf s with planPc := s.planPc + 1 }
          else failCapsule (outOverflow rf s) s.planPc s)))

/-- R202: COMPARE gives the hex of the bytes where they equal the target, and COMPARE_MISMATCH with both strings where
they do not. -/
def Obligations.CompareDecodes : Prop :=
  ∀ (d : Desc) (s : State) (raw title target : Bytes), DecodeReady s .compare .bcd d raw title →
    readBytes s .tbl d.auxOff.toNat d.auxLen.toNat = .ok target →
    (let rf := fieldRecord d raw title (hex target)
     (swapped d raw = target → outFits rf s →
       exec (.compare d) s = .next { outAppended rf s with planPc := s.planPc + 1 }) ∧
     (swapped d raw ≠ target → exec (.compare d) s = .next
       (failCapsule { cause := .compareMismatch, expBytes := target, actBytes := swapped d raw,
                      expNum := num target.length, actNum := num raw.length } s.planPc s)))

/-- R203, R295: ENUM gives the label of the first entry whose pattern the bytes equal, and their hex where there is none;
it never raises. -/
def Obligations.EnumDecodes : Prop :=
  ∀ (d : Desc) (s : State) (raw title : Bytes) (entries : List (Bytes × Bytes)),
    DecodeReady s .enum .bcd d raw title → HasEnum s d entries →
    (let value := match entries.find? fun e => e.1 == swapped d raw with
       | some e => e.2
       | none => hex (swapped d raw)
     let rf := fieldRecord d raw title value
     outFits rf s → exec (.enum d) s = .next { outAppended rf s with planPc := s.planPc + 1 })

/-- R219, R174, R183 to R185, R78, R189, R289: the errors of a descriptor on decode, each with its numbers and the field
type it names: the slice, the field's length, a zero scale, a byte that is not ASCII, and in every form a record that
does not fit OUT. (That FIELD_LENGTH and NotAscii record the bytes after the swap is the model's reading, log 13.) -/
def Obligations.DescriptorErrorsOnDecode : Prop :=
  ∀ (i : Instr) (k : Kind) (ft : FType) (d : Desc) (s : State) (raw title : Bytes), i.descriptor? = some (k, ft, d) →
    (let fails (e : Err) : Prop := exec i s = .next (failCapsule e s.planPc s)
     (Decoding s → illegalCondition s k ft d = .ok none → d.dir &&& capDir s.regs ≠ 0 →
       d.endIndex.toNat < d.startIndex.toNat ∨ s.tempLen.toNat < d.endIndex.toNat →
       fails { cause := .range, expNum := s.tempLen, actNum := d.endIndex }) ∧
     (DecodeReady s k ft d raw title → k = .convert → ∀ w signed, (ft, w, signed) ∈ integerTypes →
       (raw.length ≠ w → fails { cause := .fieldLength, ft := some ft, expNum := num w, actNum := num raw.length,
                                 actBytes := swapped d raw }) ∧
       (raw.length = w → d.scaleEn = true → d.scaleM = 0 → fails { cause := .zeroScale, ft := some ft })) ∧
     (DecodeReady s k ft d raw title → k = .convert → ∀ w, (ft, w) ∈ [(FType.float, 4), (FType.double, 8)] →
       raw.length ≠ w → fails { cause := .fieldLength, ft := some ft, expNum := num w, actNum := num raw.length,
                                actBytes := swapped d raw }) ∧
     (DecodeReady s k ft d raw title → k = .convert → ft = .ascii → ∀ j, (swapped d raw).findIdx? (0x7F < ·.toNat) = some j →
       fails { cause := .notAscii, ft := some .ascii, actNum := num j, actBytes := swapped d raw }) ∧
     ∀ v, DecodeReady s k ft d raw title → DecodedValue s d raw k ft v →
       (let rf := fieldRecord d raw title v
        ¬ outFits rf s → fails
          { cause := .bufferOverflow, expNum := num Config.outMax,
            actNum := num (s.outBytes.toNat + (10 + raw.length + v.length + title.length)) }))

/-! ## Descriptors on encode -/

/-- R187, R188, R204, R243: the eight integer forms parse the value-string, divide it by the scale with one rounding,
half away from zero, and append the bytes of the result at the field's capacity, swapped last, with one record. -/
def Obligations.ConvertIntegerEncodes : Prop :=
  ∀ (i : Instr) (ft : FType) (w : Nat) (signed : Bool) (d : Desc) (s : State) (v title : Bytes) (a : Int) (e : Nat),
    (ft, w, signed) ∈ integerTypes → i.descriptor? = some (.convert, ft, d) → EncodeReady s .convert ft d v title →
    decParse? v = some (a, e) → (scaleOf d).1 ≠ 0 →
    (let raw := roundHA (a * 10 ^ (scaleOf d).2) (10 ^ e * (scaleOf d).1)
     let cap := if d.endIndex = d.startIndex then w else d.endIndex.toNat - d.startIndex.toNat
     let fb := swapped d (beN (raw % 2 ^ (8 * cap)).toNat cap)
     let rf := fieldRecord d fb title v
     (if signed then -(2 ^ (8 * w - 1)) ≤ raw ∧ raw < 2 ^ (8 * w - 1) else 0 ≤ raw ∧ raw < 2 ^ (8 * w)) →
     s.frameLen.toNat + fb.length ≤ Config.frameMax → outFits rf s →
     exec i s = .next (advance (frameAppended fb (outAppended rf s))))

/-- R185, R186, R204: BCD appends the bytes of a hex string of either case, ASCII the characters themselves, where they
have the field's capacity. -/
def Obligations.ConvertTextEncodes : Prop :=
  ∀ (d : Desc) (s : State) (v b title : Bytes),
    (let fb := swapped d b
     let rf := fieldRecord d fb title v
     d.endIndex = d.startIndex ∨ b.length = d.endIndex.toNat - d.startIndex.toNat →
     s.frameLen.toNat + fb.length ≤ Config.frameMax → outFits rf s →
     (EncodeReady s .convert .bcd d v title → b ≠ [] → unhex? v = some b →
       exec (.convertBcd d) s = .next (advance (frameAppended fb (outAppended rf s)))) ∧
     (EncodeReady s .convert .ascii d v title → v = b → (∀ c ∈ b, c.toNat ≤ 0x7F) →
       exec (.convertAscii d) s = .next (advance (frameAppended fb (outAppended rf s)))))

/-- R183, R184, R204: FLOAT and DOUBLE append the pattern their parser gives, four or eight bytes big-endian, or raise
BAD_NUMBER where it gives none (the parser is the parameter, U4). -/
def Obligations.ConvertFloatEncodes : Prop :=
  ∀ (d : Desc) (s : State) (v title : Bytes),
    (let record (fb : Bytes) := fieldRecord d fb title v
     let bad (ft : FType) : Err := { cause := .badNumber, ft := some ft, actNum := num v.length, actBytes := v }
     (EncodeReady s .convert .float d v title → d.endIndex = d.startIndex ∨ d.endIndex.toNat - d.startIndex.toNat = 4 →
       s.frameLen.toNat + 4 ≤ Config.frameMax → outFits (record [0, 0, 0, 0]) s →
       exec (.convertFloat d) s = .next (match Config.floatText.parse v with
         | some p => advance (frameAppended (swapped d (beN p.toNat 4)) (outAppended (record (swapped d (beN p.toNat 4))) s))
         | none => failCapsule (bad .float) (descIndex s) s)) ∧
     (EncodeReady s .convert .double d v title → d.endIndex = d.startIndex ∨ d.endIndex.toNat - d.startIndex.toNat = 8 →
       s.frameLen.toNat + 8 ≤ Config.frameMax → outFits (record [0, 0, 0, 0, 0, 0, 0, 0]) s →
       exec (.convertDouble d) s = .next (match Config.doubleText.parse v with
         | some p => advance (frameAppended (swapped d (beN p.toNat 8)) (outAppended (record (swapped d (beN p.toNat 8))) s))
         | none => failCapsule (bad .double) (descIndex s) s)))

/-- R205: COMPARE on encode emits its target, swapped, and needs no value; a target that is not the capacity is
FIELD_LENGTH, with FT_V clear (the model's reading, log 14). -/
def Obligations.CompareEncodes : Prop :=
  ∀ (d : Desc) (s : State) (title target : Bytes), EncodeReady s .compare .bcd d [] title →
    readBytes s .tbl d.auxOff.toNat d.auxLen.toNat = .ok target →
    (let cap := d.endIndex.toNat - d.startIndex.toNat
     let fb := swapped d target
     let rf := fieldRecord d fb title (hex target)
     (cap = 0 ∨ target.length = cap → s.frameLen.toNat + fb.length ≤ Config.frameMax → outFits rf s →
       exec (.compare d) s = .next (advance (frameAppended fb (outAppended rf s)))) ∧
     (cap ≠ 0 → target.length ≠ cap → exec (.compare d) s = .next
       (failCapsule { cause := .fieldLength, expNum := num cap, actNum := num target.length } (descIndex s) s)))

/-- R206: ENUM on encode emits the pattern of the first entry with that label, else the bytes of a hex string, else
raises NotMachineCode; bytes that are not the capacity are FIELD_LENGTH; with FT_V clear (the model's reading, log 14). -/
def Obligations.EnumEncodes : Prop :=
  ∀ (d : Desc) (s : State) (v title : Bytes) (entries : List (Bytes × Bytes)), EncodeReady s .enum .bcd d v title →
    HasEnum s d entries →
    (let cap := d.endIndex.toNat - d.startIndex.toNat
     let found : Option Bytes := match entries.find? fun e => e.2 == v with
       | some e => some e.1
       | none => if v = [] then none else unhex? v
     (∀ b, found = some b → cap = 0 ∨ b.length = cap →
       (let fb := swapped d b
        let rf := fieldRecord d fb title v
        s.frameLen.toNat + fb.length ≤ Config.frameMax → outFits rf s →
        exec (.enum d) s = .next (advance (frameAppended fb (outAppended rf s))))) ∧
     (∀ b, found = some b → cap ≠ 0 → b.length ≠ cap → exec (.enum d) s = .next
       (failCapsule { cause := .fieldLength, expNum := num cap, actNum := num b.length } (descIndex s) s)) ∧
     (found = none → exec (.enum d) s = .next
       (failCapsule { cause := .notMachineCode, actNum := num v.length, actBytes := v } (descIndex s) s)))

/-- R173, R183 to R189, R204, R243, R78: the errors of a descriptor on encode, each with its numbers and the field type
it names: an inverted field, what the field types raise, bytes that are not the capacity, and in every form bytes that do
not fit FRAME, then a record that does not fit OUT. For FLOAT and DOUBLE each comes after the parser, which is the
parameter (U4). (CompareEncodes and EnumEncodes have the two forms' FIELD_LENGTH and NotMachineCode.) -/
def Obligations.DescriptorErrorsOnEncode : Prop :=
  ∀ (i : Instr) (k : Kind) (ft : FType) (d : Desc) (s : State) (v title : Bytes), i.descriptor? = some (k, ft, d) →
    (let fails (e : Err) : Prop := exec i s = .next (failCapsule e (descIndex s) s)
     let cap := d.endIndex.toNat - d.startIndex.toNat
     let badNumber : Err := { cause := .badNumber, ft := some ft, actNum := num v.length, actBytes := v }
     let fieldLength (n : Nat) : Err := { cause := .fieldLength, ft := some ft, expNum := num cap, actNum := num n }
     let overflow (max need : Nat) : Err := { cause := .bufferOverflow, expNum := num max, actNum := num need }
     let outNeeded (bytes value : Nat) : Nat := s.outBytes.toNat + (10 + bytes + value + title.length)
     (Encoding s → Runs s k ft d → (k = .enum → ∃ entries, HasEnum s d entries) →
       suppliedValue s k d = .ok (some v) → d.endIndex.toNat < d.startIndex.toNat →
       fails { cause := .range, expNum := d.startIndex, actNum := d.endIndex }) ∧
     (EncodeReady s k ft d v title → k = .convert →
       (∀ w signed, (ft, w, signed) ∈ integerTypes →
         (d.scaleEn = true → d.scaleM = 0 → fails { cause := .zeroScale, ft := some ft }) ∧
         ((scaleOf d).1 ≠ 0 → decParse? v = none → fails badNumber) ∧
         (∀ a e, (scaleOf d).1 ≠ 0 → decParse? v = some (a, e) →
           (let raw := roundHA (a * 10 ^ (scaleOf d).2) (10 ^ e * (scaleOf d).1)
            let hi : Int := if signed then 2 ^ (8 * w - 1) else 2 ^ (8 * w)
            let lo : Int := if signed then -(2 ^ (8 * w - 1)) else 0
            raw < lo ∨ hi ≤ raw → fails { cause := .valueOutOfRange, ft := some ft, expNum := num w,
                                          actNum := if hi ≤ raw then 1 else 0, actBytes := v }))) ∧
       (ft = .bcd →
         (v = [] ∨ unhex? v = none →
           fails { cause := .notMachineCode, ft := some .bcd, actNum := num v.length, actBytes := v }) ∧
         (∀ b, v ≠ [] → unhex? v = some b → cap ≠ 0 → b.length ≠ cap → fails (fieldLength b.length))) ∧
       (ft = .ascii →
         (∀ j, v.findIdx? (0x7F < ·.toNat) = some j →
           fails { cause := .notAscii, ft := some .ascii, actNum := num j, actBytes := v }) ∧
         ((∀ c ∈ v, c.toNat ≤ 0x7F) → cap ≠ 0 → v.length ≠ cap → fails (fieldLength v.length))) ∧
       (∀ w parsed, (ft, w, parsed) ∈ [(FType.float, 4, (Config.floatText.parse v).isSome),
           (FType.double, 8, (Config.doubleText.parse v).isSome)] →
         (let first (e : Err) : Err := if parsed then e else badNumber
          (cap ≠ 0 → cap ≠ w → fails (first (fieldLength w))) ∧
          (cap = 0 ∨ cap = w → Config.frameMax < s.frameLen.toNat + w →
            fails (first (overflow Config.frameMax (s.frameLen.toNat + w)))) ∧
          (cap = 0 ∨ cap = w → s.frameLen.toNat + w ≤ Config.frameMax →
            ¬ outFits (fieldRecord d (List.replicate w 0) title v) s →
            fails (first (overflow Config.outMax (outNeeded w v.length))))))) ∧
     ∀ b value, EncodeReady s k ft d v title → EncodedBytes s d v k ft b value →
       (Config.frameMax < s.frameLen.toNat + b.length →
         fails (overflow Config.frameMax (s.frameLen.toNat + b.length))) ∧
       (s.frameLen.toNat + b.length ≤ Config.frameMax → ¬ outFits (fieldRecord d (swapped d b) title value) s →
         fails (overflow Config.outMax (outNeeded b.length value.length))))

/-- R245, R77, R242: the value a descriptor encodes: WV_PTR's in WRITE_FIELD; in a plan the first entry of the value
table with its tag, else its default, else REQUIRED_MISSING if it is required, else none; COMPARE needs none. -/
def Obligations.SuppliedValueRule : Prop :=
  ∀ (s : State) (k : Kind) (d : Desc),
    suppliedValue s .compare d = .ok (some []) ∧
    (∀ v, s.fromWd = true → k ≠ .compare →
      readBytes s .tbl (s.regs.wvPtr.extractLsb' 0 16).toNat (s.regs.wvPtr.extractLsb' 16 16).toNat = .ok v →
      suppliedValue s k d = .ok (some v)) ∧
    (∀ entries, s.fromWd = false → k ≠ .compare → HasValues s entries →
      suppliedValue s k d = match entries.find? fun e => e.1 == d.tag with
        | some e => .ok (some e.2)
        | none =>
          if d.defEn then (readBytes s .tbl d.auxOff.toNat d.auxLen.toNat).map some
          else if d.req then .error (.raise { cause := .requiredMissing, actNum := d.tag.setWidth 32 })
          else .ok none)

/-! ## What becomes of a descriptor before its translator -/

/-- R207, R245: a legal descriptor that does not apply, and one with no value to encode, only advances; one whose value
lookup raises fails the capsule. -/
def Obligations.FilteredDescriptorIsSkipped : Prop :=
  ∀ (i : Instr) (k : Kind) (ft : FType) (d : Desc) (s : State), i.descriptor? = some (k, ft, d) →
    illegalCondition s k ft d = .ok none →
    (Decoding s ∨ Encoding s → d.dir &&& capDir s.regs = 0 → exec i s = .next (advance s)) ∧
    (Encoding s → d.dir &&& capDir s.regs ≠ 0 → suppliedValue s k d = .ok none → exec i s = .next (advance s)) ∧
    (∀ e, Encoding s → d.dir &&& capDir s.regs ≠ 0 → suppliedValue s k d = .error (.raise e) →
      exec i s = .next (failCapsule e (descIndex s) s))

/-- R71 no. 4 to 13: executing an illegal descriptor fails the capsule with the number of the first condition that
holds, before the direction test. -/
def Obligations.IllegalDescriptorNamesItsCondition : Prop :=
  ∀ (i : Instr) (k : Kind) (ft : FType) (d : Desc) (s : State), i.descriptor? = some (k, ft, d) → Decoding s ∨ Encoding s →
    (let isInt : Bool := integerTypes.any fun p => p.1 == ft
     let conditions : List (Nat × Bool) :=
       [(4, d.scaleEn && (k != .convert || !isInt)), (5, d.scaleEn && 9 < d.scaleE.toNat), (6, d.symEn && k != .convert),
        (7, d.symEn && (Config.symbolTag d.symbol).isNone), (8, d.dir == 0), (9, d.defEn && k != .convert),
        (10, d.rsv0 || d.rsv1 != 0 || d.rsv7 != 0), (11, 65536 < d.titleOff.toNat + d.titleLen.toNat),
        (12, (k == .compare || (k == .convert && d.defEn)) && 65536 < d.auxOff.toNat + d.auxLen.toNat)]
     let fails (n : Nat) : Prop :=
       exec i s = .next (failCapsule { cause := .illegalDescriptor, actNum := num n } (descIndex s) s)
     (∀ p, conditions.find? (·.2) = some p → fails p.1) ∧
     (conditions.find? (·.2) = none → k = .enum → enumTable s d = .ok none → fails 13))

/-- R63, R64, R71 no. 1 to 3: words with a reserved KIND or FTYPE, or an FTYPE without CONVERT, are no instruction;
reaching them fails the capsule with the number of the first condition that holds. -/
def Obligations.ReservedDescriptorWordsFail : Prop :=
  ∀ (s : State) (w : DescWords) (n : Nat), AtDescriptor s w →
    (let kind := (w.w0.extractLsb' 0 4).toNat
     let ftype := (w.w0.extractLsb' 4 4).toNat
     ((kind = 0 ∨ 3 < kind) ∧ n = 1) ∨ ((1 ≤ kind ∧ kind ≤ 3) ∧ 12 ≤ ftype ∧ n = 2) ∨
       ((2 ≤ kind ∧ kind ≤ 3) ∧ (1 ≤ ftype ∧ ftype ≤ 11) ∧ n = 3)) →
    step s = .next (failCapsule { cause := .illegalDescriptor, actNum := num n } (descIndex s) s)

/-! ## The writer's commands -/

/-- R240, R241, R243: WRITE_FIELD raw appends the bytes of WV_PTR to the frame, an empty one from Idle, and a record with
the string of WS_PTR; a pointer past TBL is BAD_CONFIG. -/
def Obligations.WriteFieldRawAppends : Prop :=
  ∀ s : State, Accepted .writeFieldRaw s →
    (let d := descFields s.regs.wd
     let wv := valPtr s.regs.wvPtr
     let ws := valPtr s.regs.wsPtr
     let start : Word := if s.status.main = .idle then 0 else s.frameLen
     (∀ b v title : Bytes, InTbl s wv.off b → b.length = wv.len → InTbl s ws.off v → v.length = ws.len →
       InTbl s d.titleOff.toNat title → title.length = d.titleLen.toNat →
       (let rf := fieldRecord d b title v
        start.toNat + b.length ≤ Config.frameMax → outFits rf s →
        exec .writeFieldRaw s = .next
          { completed (frameAppended b (outAppended rf { s with frameLen := start })) with
            status := { (completed s).status with main := .accum }, fromWd := false })) ∧
     (65536 < wv.off + wv.len ∨ 65536 < ws.off + ws.len ∨ 65536 < d.titleOff.toNat + d.titleLen.toNat →
       exec .writeFieldRaw s = .next (failCapsule { cause := .badConfig } 0xFFFFFFFF (beginWriter s))))

/-- R242: WRITE_FIELD encode executes the write descriptor once on the accepted state, and completes in Accum; DIR = 0 or
a value pointer past TBL is BAD_CONFIG. -/
def Obligations.WriteFieldEncRunsTheWriteDescriptor : Prop :=
  ∀ s : State, Accepted .writeFieldEnc s →
    (let ready : State := { beginWriter s with fromWd := true }
     let outside := 65536 < (valPtr s.regs.wvPtr).off + (valPtr s.regs.wvPtr).len
     (∀ (i : Instr) (k : Kind) (ft : FType) (d : Desc), decodeWords (descWordList s.regs.wd) = .ok i →
       i.descriptor? = some (k, ft, d) → capDir s.regs ≠ 0 → ¬ outside →
       exec .writeFieldEnc s = exec i ready ∧
         ∀ t, emitField ready k ft d = .ok t → exec .writeFieldEnc s = .next
           { completed t with status := { (completed s).status with main := .accum }, fromWd := false }) ∧
     (capDir s.regs = 0 ∨ outside →
       exec .writeFieldEnc s = .next (failCapsule { cause := .badConfig } 0xFFFFFFFF (beginWriter s))))

/-- R244: ENCODE_PLAN executes its descriptors in ascending order and completes in Accum with PLAN_PC = PLAN_LEN. -/
def Obligations.EncodePlanRunsInOrder : Prop :=
  ∀ (a : BitVec 24) (s t : State) (entries : List (BitVec 16 × Bytes)), Accepted (.encodePlan a) s → capDir s.regs ≠ 0 →
    s.regs.planLen.toNat ≤ Config.planMax → HasValues s entries →
    planFold emitField s.regs.planLen.toNat { beginWriter s with planPc := 0 } = .ok t →
    t.planPc = s.regs.planLen ∧
      exec (.encodePlan a) s = .next
        { completed t with status := { (completed s).status with main := .accum }, fromWd := false }

/-- R246, R248 to R250: FINALIZE with no cipher, length field or checksum changes no byte; with a length field it writes the
byte count of the counted range there, losing high bytes that do not fit; with a checksum it writes that of the protected
range at CRC_INDEX; each in the order its control selects; with both, the checksum is that of the frame with its length
field written. -/
def Obligations.FinalizeStoresLengthAndChecksum : Prop :=
  ∀ (a : BitVec 24) (s : State), Accepted (.finalize a) s →
    (let n := s.frameLen.toNat
     let lengthAt (i j p q : Nat) : Prop :=
       range n s.regs.lenfStart.toInt s.regs.lenfEnd.toInt = .ok (i, j) ∧ 1 ≤ j - i ∧ j - i ≤ 8 ∧
         range n s.regs.lenrStart.toInt s.regs.lenrEnd.toInt = .ok (p, q)
     let crcAt (i p q : Nat) : Prop :=
       range n s.regs.crcrStart.toInt s.regs.crcrEnd.toInt = .ok (p, q) ∧
         idx n s.regs.crcIndex.toInt = (i : Int) ∧ i + 2 ≤ n
     let withLength (i j p q : Nat) : State :=
       let bytes := beN (q - p) (j - i)
       writeBytes s .frame i (if s.regs.lenCtrl.getLsbD 1 then bytes.reverse else bytes)
     let withCrc (params : Config.CrcParams) (i : Nat) (data : Bytes) (u : State) : State :=
       let c := crc16P params data
       writeBytes u .frame i
         (if s.regs.crcCtrl.getLsbD 1 then [c.extractLsb' 0 8, c.extractLsb' 8 8]
          else [c.extractLsb' 8 8, c.extractLsb' 0 8])
     (FinalizeSteps s.regs false false false → exec (.finalize a) s = .next (finalized s)) ∧
     (∀ i j p q, FinalizeSteps s.regs false true false → lengthAt i j p q →
       exec (.finalize a) s = .next (finalized (withLength i j p q))) ∧
     (∀ params i p q data, FinalizeSteps s.regs false false true → crcAt i p q →
       Config.crcTable (s.regs.crcCtrl.extractLsb' 4 4) = some params → readBytes s .frame p (q - p) = .ok data →
       exec (.finalize a) s = .next (finalized (withCrc params i data s))) ∧
     (∀ params i j p q ci cp cq data, FinalizeSteps s.regs false true true → lengthAt i j p q → crcAt ci cp cq →
       Config.crcTable (s.regs.crcCtrl.extractLsb' 4 4) = some params →
       readBytes (withLength i j p q) .frame cp (cq - cp) = .ok data →
       exec (.finalize a) s = .next (finalized (withCrc params ci data (withLength i j p q)))))

/-- R247: FINALIZE replaces the payload range of the frame by its encryption, and what follows moves with it. -/
def Obligations.FinalizeEncryptsThePayload : Prop :=
  ∀ (a : BitVec 24) (s : State) (frame key iv ct : Bytes) (p q : Nat), Accepted (.finalize a) s →
    FinalizeSteps s.regs true false false → readBytes s .frame 0 s.frameLen.toNat = .ok frame →
    range frame.length s.regs.payStart.toInt s.regs.payEnd.toInt = .ok (p, q) → CipherOperands s key iv →
    ((cipherMode s.regs ≠ 0 → s.regs.keyLen = 16) ∧ (1 < (cipherMode s.regs).toNat → s.regs.ivLen = 16)) →
    cipherEnc Config.blockCipher (cipherMode s.regs) key iv (slice frame p q) = .ok ct →
    (let frame' := frame.take p ++ ct ++ frame.drop q
     frame'.length ≤ Config.frameMax →
     ∃ t, exec (.finalize a) s = .next t ∧ t = { finalized s with mem := t.mem, frameLen := num frame'.length } ∧
       readBytes t .frame 0 frame'.length = .ok frame' ∧
       ∀ sp x, ¬ (sp = .frame ∧ p ≤ x ∧ x < frame'.length) → readByte t sp x = readByte s sp x)

/-- R254, from R220, R221, R246 to R249: a finalized frame passes the reader's checksum check where the checksum field
lies outside the protected range, and its length check where the count fits the field. -/
def Obligations.FinalizedFrameIsAccepted : Prop :=
  ∀ (a : BitVec 24) (s t : State), Inv s → Accepted (.finalize a) s → exec (.finalize a) s = .next t →
    t.status.err = false →
    (∀ ci p q, crcEn t.regs = true → crcFieldIndex t = .ok ci →
      range t.frameLen.toNat t.regs.crcrStart.toInt t.regs.crcrEnd.toInt = .ok (p, q) → ci + 2 ≤ p ∨ q ≤ ci →
      ∃ swap, checkCrc t = .ok swap ∧ (swap = true → crcLe t.regs = true)) ∧
    (∀ f, lenEn t.regs = true → lengthField t = .ok f → f.count < 256 ^ (f.stop - f.start) →
      (crcEn t.regs = true → ∀ ci, crcFieldIndex t = .ok ci → ci + 2 ≤ f.start ∨ f.stop ≤ ci) →
      checkLength t = .ok ())

/-! ## Acceptance, refusal, the main state -/

/-- R268, R269 (b), R271: the acceptance matrix; an accepted command ends with BUSY 0, DONE 1, CMD_REJ 0, and with the
record cleared unless it raised or is NOP; a refused one changes CMD_REJ and nothing else. -/
def Obligations.AcceptanceMatrix : Prop :=
  ∀ (i : Instr) (s : State), i.isDescriptor = false → s.status.busy = false →
    s.status.main ∈ [MainState.idle, .accum, .done, .failed] →
    (s.status.main ∈ acceptedStates i → ∀ t, exec i s = .next t →
      t.status.busy = false ∧ t.status.done = true ∧ t.status.cmdRej = false ∧
        (t.status.err = false → (∀ a, i ≠ .nop a) → t.err = ErrRecord.none) ∧
        (∀ a, i = .nop a → t.status.err = s.status.err ∧ t.err = s.err)) ∧
    (s.status.main ∉ acceptedStates i → exec i s = .next { s with status := { s.status with cmdRej := true } })

/-- R270: how MAIN changes, by command and by whether it raised. -/
def Obligations.MainStateTransitions : Prop :=
  ∀ (i : Instr) (s t : State), Accepted i s → exec i s = .next t →
    t.status.main = match i with
      | .newCapsule _ => .idle
      | .decode _ => if t.status.err then .failed else .done
      | .writeFieldRaw => if t.status.err then .failed else .accum
      | .writeFieldEnc => if t.status.err then .failed else .accum
      | .encodePlan _ => if t.status.err then .failed else .accum
      | .finalize _ => if t.status.err then .failed else .done
      | _ => s.status.main

/-! ## The host port -/

/-- R51, R265 (a): a read changes nothing of the block, and returns the register or the byte it designates. -/
def Obligations.HostReadsHaveNoEffect : Prop :=
  ∀ (s : State) (width : Width) (addr : Word) (rest : List HostMove), s.status.busy = false →
    s.inputs = .read width addr :: rest →
    (∀ t, step s = .next t → ∃ v n, t = { s with inputs := rest, hostData := v, freeCount := n }) ∧
    (width = .word → addr.toNat % 4 = 0 → addr.toNat < 0x100 →
      step s = .next { s with inputs := rest, hostData := readReg s addr.toNat }) ∧
    (∀ sp x b, width = .byte → sp ≠ .plan → addr.toNat = spaceBase sp + x → x < spaceSize sp → x < validLength s sp →
      readByte s sp x = .ok b → step s = .next { s with inputs := rest, hostData := b.setWidth 32 })

/-- R11, R15, R21, R23, R32: a register write reads back without its reserved bits, or cut to its limit, and changes no
other register and no memory; read-only and reserved registers ignore it. -/
def Obligations.RegisterWritesReadBack : Prop :=
  ∀ (s : State) (addr v : Word) (rest : List HostMove), s.status.busy = false → s.inputs = .write .word addr v :: rest →
    addr.toNat % 4 = 0 → addr.toNat < 0x100 → addr ≠ 0 →
    (let masks : List (Nat × Word) :=
       [(0x030, 0x3), (0x044, 0xFFFFFF), (0x04C, 0xFFFFFF), (0x050, 0x3), (0x064, 0xF3), (0x07C, 0xFF), (0x0A0, 0xFFFF)]
     let whole : List Nat :=
       [0x034, 0x038, 0x040, 0x048, 0x054, 0x058, 0x05C, 0x060, 0x068, 0x06C, 0x070, 0x074, 0x078, 0x088, 0x08C, 0x090,
        0x0C0, 0x0C4, 0x0C8, 0x0CC, 0x0D0, 0x0D4, 0x0D8, 0x0DC]
     let limits : List (Nat × Nat) := [(0x080, 32), (0x084, 32), (0x094, 4096)]
     ∃ t, step s = .next t ∧ t.mem = s.mem ∧ t.inputs = rest ∧ t.status = s.status ∧
       (∀ off, off ≠ addr.toNat → readReg t off = readReg s off) ∧
       (∀ p ∈ masks, addr.toNat = p.1 → readReg t addr.toNat = v &&& p.2) ∧
       (addr.toNat ∈ whole → readReg t addr.toNat = v) ∧
       (∀ p ∈ limits, addr.toNat = p.1 → (readReg t addr.toNat).toNat = min v.toNat p.2) ∧
       (addr.toNat = 0x020 → (readReg t 0x020).toNat =
         if s.status.main = .idle then min v.toNat 4096 else s.frameLen.toNat) ∧
       (addr.toNat ∉ masks.map (·.1) ++ whole ++ limits.map (·.1) ++ [0x020] → t = { s with inputs := rest }))

/-- R25, R40, R41, R265 (c): a byte write reaches exactly its byte, a PLAN write its word; FRAME is writable in Idle only;
another width, a misaligned word, and a write to a space the host cannot write are refused by the model (U9, log 12). -/
def Obligations.HostMemoryWrites : Prop :=
  ∀ (s : State) (width : Width) (addr v : Word) (rest : List HostMove), s.status.busy = false →
    s.inputs = .write width addr v :: rest →
    (∀ sp x, width = .byte → addr.toNat = spaceBase sp + x → x < spaceSize sp →
      (sp ∈ [Space.keybuf, .ivbuf, .tbl, .cbuf] ∨ (sp = .frame ∧ s.status.main = .idle) →
        ∃ t, step s = .next t ∧ t = { s with inputs := rest, mem := t.mem } ∧ readByte t sp x = .ok (v.extractLsb' 0 8) ∧
          ∀ sp' y, ¬ (sp' = sp ∧ y = x) → readByte t sp' y = readByte s sp' y) ∧
      (sp = .frame ∧ s.status.main ≠ .idle → step s = .next { s with inputs := rest }) ∧
      (sp ∈ [Space.errExp, .errAct, .temp, .out, .plan] → step s = .refused (.hostAccess .byte addr))) ∧
    (∀ x, width = .word → addr.toNat = spaceBase .plan + x → x < spaceSize .plan → x % 4 = 0 →
      ∃ t, step s = .next t ∧ t = { s with inputs := rest, mem := t.mem } ∧ readPlanWord t x = .ok v ∧
        SameOutside s t .plan x 4) ∧
    (width = .half ∨ (width = .word ∧ addr.toNat % 4 ≠ 0) → step s = .refused (.hostAccess width addr))

/-! ## Frames -/

/-- R127, R128, R153, R154, R292: an engine command leaves the capsule alone, even when it fails; outside its destination
and the error record it changes nothing. (Error buffers beyond the recorded lengths: the model's choice, log 20.) -/
def Obligations.EngineCommandFrames : Prop :=
  ∀ (a : BitVec 24) (i : Instr) (s t : State), i ∈ [Instr.crcCalc a, .crcCompare a, .encrypt a, .decrypt a] →
    exec i s = .next t →
    SameHostState s t ∧ t.frameLen = s.frameLen ∧ t.tempLen = s.tempLen ∧ t.outCount = s.outCount ∧
      t.outBytes = s.outBytes ∧ t.planPc = s.planPc ∧ t.fromWd = s.fromWd ∧ t.status.main = s.status.main ∧
      t.status.rstate = s.status.rstate ∧ t.status.failFrom = s.status.failFrom ∧ t.status.success = s.status.success ∧
      t.status.busy = s.status.busy ∧
      (i ∈ [Instr.crcCalc a, .crcCompare a] → t.cbufLen = s.cbufLen ∧
        ∀ sp x, ¬ InErrorBuffers t sp x → readByte t sp x = readByte s sp x) ∧
      (i ∈ [Instr.encrypt a, .decrypt a] → t.crcValue = s.crcValue ∧ t.crcBytes = s.crcBytes ∧
        t.status.crcSwapped = s.status.crcSwapped ∧
        ∀ sp x, ¬ InErrorBuffers t sp x → ¬ (sp = .cbuf ∧ x < t.cbufLen.toNat) → readByte t sp x = readByte s sp x) ∧
      (t.status.err = true → t.cbufLen = s.cbufLen ∧ ∀ x, readByte t .cbuf x = readByte s .cbuf x) ∧
      (t.status.err = true → i = .crcCalc a → t.crcValue = s.crcValue ∧ t.crcBytes = s.crcBytes)

/-- R208, R219, R243, R291: a descriptor changes only what it appends, at the ends of OUT and FRAME, and PLAN_PC; one that
fails changes only the error record and the flags. (Error buffers beyond the recorded lengths: the model's choice,
log 20.) -/
def Obligations.DescriptorFrames : Prop :=
  ∀ (i : Instr) (s t : State), i.isDescriptor = true → Decoding s ∨ Encoding s → exec i s = .next t →
    SameHostState s t ∧ t.tempLen = s.tempLen ∧ t.cbufLen = s.cbufLen ∧ t.crcValue = s.crcValue ∧
      t.crcBytes = s.crcBytes ∧
      (t.status.main = .failed → t.frameLen = s.frameLen ∧ t.outCount = s.outCount ∧ t.outBytes = s.outBytes ∧
        t.planPc = s.planPc ∧ t.err.index = descIndex s ∧ t.status.err = true ∧
        ∀ sp x, ¬ InErrorBuffers t sp x → readByte t sp x = readByte s sp x) ∧
      (t.status.main ≠ .failed → t.err = s.err ∧ t.status.err = s.status.err ∧
        t.status.success = s.status.success ∧ t.status.crcSwapped = s.status.crcSwapped ∧
        t.status.rstate = s.status.rstate ∧ t.status.failFrom = s.status.failFrom ∧
        t.planPc = (if s.fromWd then s.planPc else s.planPc + 1) ∧
        s.outBytes.toNat ≤ t.outBytes.toNat ∧ s.frameLen.toNat ≤ t.frameLen.toNat ∧
        (Decoding s → t.status = s.status ∧ t.frameLen = s.frameLen) ∧
        ∀ sp x, ¬ (sp = .out ∧ s.outBytes.toNat ≤ x ∧ x < t.outBytes.toNat) →
          ¬ (sp = .frame ∧ s.frameLen.toNat ≤ x ∧ x < t.frameLen.toNat) → readByte t sp x = readByte s sp x)

/-- R227 (f), R241 to R244, R246, R252: what the capsule commands write. DECODE: TEMP, the end of OUT. WRITE_FIELD and
ENCODE_PLAN: the ends of OUT and FRAME. FINALIZE: FRAME. Each: the error record. None: a configuration register. (Error buffers
beyond the recorded lengths: the model's choice, log 20.) -/
def Obligations.CapsuleCommandFrames : Prop :=
  ∀ (a : BitVec 24) (i : Instr) (s t : State), exec i s = .next t →
    (let start := if s.status.main = .idle then 0 else s.frameLen.toNat
     let outWritten (sp : Space) (x : Nat) : Prop := sp = .out ∧ s.outBytes.toNat ≤ x ∧ x < t.outBytes.toNat
     let same (written : Space → Nat → Prop) : Prop :=
       SameHostState s t ∧ t.cbufLen = s.cbufLen ∧ t.crcValue = s.crcValue ∧ t.crcBytes = s.crcBytes ∧
         ∀ sp x, ¬ written sp x → ¬ InErrorBuffers t sp x → readByte t sp x = readByte s sp x
     (i = .decode a → t.frameLen = s.frameLen ∧
       same fun sp x => (sp = .temp ∧ x < t.tempLen.toNat) ∨ outWritten sp x) ∧
     (i ∈ [Instr.writeFieldRaw, .writeFieldEnc, .encodePlan a] → t.tempLen = s.tempLen ∧
       t.status.rstate = s.status.rstate ∧ t.status.crcSwapped = s.status.crcSwapped ∧
       same fun sp x => (sp = .frame ∧ start ≤ x ∧ x < t.frameLen.toNat) ∨ outWritten sp x) ∧
     (i = .finalize a → t.tempLen = s.tempLen ∧ t.outCount = s.outCount ∧ t.outBytes = s.outBytes ∧
       t.planPc = s.planPc ∧ t.status.rstate = s.status.rstate ∧ t.status.crcSwapped = s.status.crcSwapped ∧
       same fun sp x => sp = .frame ∧ x < t.frameLen.toNat))

/-! ## The error record and the number formats -/

/-- R14, R285 to R287, R290, R292: taking an error: the record in the registers and buffers, ERR and DONE; in a capsule
command MAIN = Failed, SUCCESS 0 and, inside DECODE, FAIL_FROM too; in an engine command the capsule's flags stay. Nothing
of the lengths, the plan counter or the configuration changes. (Error buffers beyond the recorded lengths: the model's
choice, log 20.) -/
def Obligations.ErrorRecordHoldsTheError : Prop :=
  ∀ (e : Err) (s : State),
    (let expLen := min e.expBytes.length 256
     let actLen := min e.actBytes.length 256
     let recorded (index : Word) (t : State) : Prop :=
       readReg t 0x00C = index ∧ (readReg t 0x010).toNat = expLen ∧ (readReg t 0x014).toNat = actLen ∧
         readReg t 0x018 = e.expNum ∧ readReg t 0x01C = e.actNum ∧
         (readReg t 0x008).getLsbD 24 = e.ft.isSome ∧
         (∀ ft, e.ft = some ft → (readReg t 0x008).extractLsb' 16 4 = ftypeCode ft) ∧
         (e.ft = none → (readReg t 0x008).extractLsb' 16 16 = 0) ∧
         readBytes t .errExp 0 expLen = .ok (e.expBytes.take 256) ∧
         readBytes t .errAct 0 actLen = .ok (e.actBytes.take 256) ∧
         (∀ off, 0x020 ≤ off → readReg t off = readReg s off) ∧
         (∀ sp x, ¬ InErrorBuffers t sp x → readByte t sp x = readByte s sp x) ∧
         ∀ kind sub : BitVec 8,
           (e.cause, kind, sub) ∈ ([(.invalidHead, 1, 0), (.invalidTail, 2, 0), (.crcMismatch, 3, 0),
             (.fieldLength, 4, 1), (.compareMismatch, 4, 2), (.lengthFieldMismatch, 4, 3), (.valueOutOfRange, 4, 4),
             (.badNumber, 4, 5), (.notMachineCode, 5, 0), (.notHex, 6, 0), (.notBcd, 7, 0), (.notAscii, 8, 0),
             (.range, 9, 1), (.bufferOverflow, 9, 2), (.replaceEmpty, 9, 3), (.padTooLong, 10, 1), (.blockZero, 10, 2),
             (.alreadyLonger, 10, 3), (.badIvLength, 11, 1), (.badCiphertextLength, 11, 2), (.badPadding, 11, 3),
             (.invalidKeyLength, 12, 0), (.unsupportedMode, 13, 0), (.inputTooShort, 14, 0), (.requiredMissing, 15, 1),
             (.badConfig, 15, 2), (.illegalDescriptor, 15, 3), (.zeroScale, 15, 4), (.unsupportedCrcAlg, 15, 5),
             (.bothDeviceIdsAbsent, 15, 6)] : List (ErrCause × BitVec 8 × BitVec 8)) →
           (readReg t 0x008).extractLsb' 0 16 = (sub ++ kind : BitVec 16)
     (∀ index : Word,
       (let t := failCapsule e index s
        recorded index t ∧
          t.status.err = true ∧ t.status.done = true ∧ t.status.busy = false ∧ t.status.success = false ∧
          t.status.main = .failed ∧ t.status.crcSwapped = s.status.crcSwapped ∧ t.status.cmdRej = s.status.cmdRej ∧
          (s.status.main = .reading → t.status.failFrom = s.status.rstate ∧ t.status.rstate = .failed) ∧
          (s.status.main ≠ .reading → t.status.failFrom = s.status.failFrom ∧ t.status.rstate = s.status.rstate))) ∧
     recorded 0xFFFFFFFF (failEngine e s) ∧
     (failEngine e s).status = { s.status with busy := false, done := true, err := true } ∧
     (failEngine e s).fromWd = s.fromWd ∧ SameHostState s (failEngine e s))

/-- R172, R173: rounding is half away from zero; every rendered number parses back to its value rounded to six digits,
with no trailing zero in its fraction. -/
def Obligations.RenderedNumbersParseBack : Prop :=
  (∀ (a : Int) (b : Nat), 0 < b → roundHA a b = a.sign * ⌊|(a : ℚ) / b| + 1 / 2⌋) ∧
  ∀ (a : Int) (e : Nat), ∃ a' e', decParse? (decRender a e) = some (a', e') ∧ e' ≤ 6 ∧
    a' * 10 ^ (6 - e') = roundHA (a * 10 ^ 6) (10 ^ e) ∧ (0 < e' → a' % 10 ≠ 0)

/-- R190 (a): an integer field of the native width, with no scale or one of at most six decimals, encodes back to the
bytes it was decoded from. -/
def Obligations.IntegerFieldsRoundTrip : Prop :=
  ∀ (ft : FType) (w : Nat) (signed : Bool) (sc : Option Scale) (b : Bytes), (ft, w, signed) ∈ integerTypes →
    b.length = w → (∀ x, sc = some x → x.m ≠ 0 ∧ x.e ≤ 6) →
    ∃ v, ftDecode ft sc b = .ok v ∧ ftEncode ft sc v = .ok b

/-- R94, R95: an integer of the type's range comes back from its hex and its binary form. -/
def Obligations.HexAndBinaryFormsRoundTrip : Prop :=
  ∀ (w : Nat) (signed : Bool) (v : Int), w ∈ [1, 2, 4, 8] →
    (if signed then -(2 ^ (8 * w - 1)) ≤ v ∧ v < 2 ^ (8 * w - 1) else 0 ≤ v ∧ v < 2 ^ (8 * w)) →
    hexToInt (intToHex v w signed w) w signed = .ok v ∧ binToInt (intToBin v (8 * w) (8 * w)) signed = .ok v
end

