-- ==== Sys2Proof/Laws/Numeric.lean ====
section
/-! SUPPORT. The small lemmas of the numeric datapath: lengths and inverse laws of the byte and hex representations. -/

namespace Sys2Proof.Machine

@[simp] theorem beN_length (v n : Nat) : (beN v n).length = n := by
  induction n generalizing v with
  | zero => rfl
  | succ n ih => simp [beN, ih]

@[simp] theorem be_nil : be [] = 0 := rfl

/-- `BE(b ++ [x]) = 256*BE(b) + x` (rule R6). -/
theorem be_concat (b : Bytes) (x : Byte) : be (b ++ [x]) = 256 * be b + x.toNat := by
  simp [be, List.foldl_append]

/-- `BE(BEn(v, n)) = v mod 2^(8n)` (rule R6). -/
theorem be_beN (v n : Nat) : be (beN v n) = v % 2 ^ (8 * n) := by
  induction n generalizing v with
  | zero => simp [beN, Nat.mod_one]
  | succ n ih =>
    rw [beN, be_concat, ih, BitVec.toNat_ofNat, show 8 * (n + 1) = 8 + 8 * n by ring, Nat.pow_add, Nat.mod_mul]
    norm_num
    omega

theorem be_lt (b : Bytes) : be b < 2 ^ (8 * b.length) := by
  induction b using List.reverseRecOn with
  | nil => simp
  | append_singleton b x ih =>
    rw [be_concat, List.length_append, List.length_singleton, show 8 * (b.length + 1) = 8 * b.length + 8 by ring,
      Nat.pow_add]
    have := x.isLt
    omega

/-- `BEn(BE(b), len(b)) = b`. -/
theorem beN_be (b : Bytes) : beN (be b) b.length = b := by
  induction b using List.reverseRecOn with
  | nil => rfl
  | append_singleton b x ih =>
    rw [List.length_append, List.length_singleton, beN, be_concat]
    have h1 : (256 * be b + x.toNat) / 256 = be b := by
      have := x.isLt
      omega
    rw [h1, ih]
    congr 2
    apply BitVec.eq_of_toNat_eq
    have := x.isLt
    simp
    omega

@[simp] theorem hex_length (b : Bytes) : (hex b).length = 2 * b.length := by
  induction b with
  | nil => rfl
  | cons x r ih => simp [hex, ih]; ring

theorem hexVal_hexDigit : ∀ n : Fin 16, hexVal (hexDigit n) = some n.val := by decide

/-- `UNHEX(HEX(b)) = b` (rules R90, R91). -/
theorem unhex_hex (b : Bytes) : unhex? (hex b) = some b := by
  induction b with
  | nil => rfl
  | cons x r ih =>
    have hx := x.isLt
    have h1 := hexVal_hexDigit ⟨x.toNat / 16, by omega⟩
    have h2 := hexVal_hexDigit ⟨x.toNat % 16, by omega⟩
    simp only at h1 h2
    simp only [hex, unhex?, h1, h2, ih]
    congr 2
    apply BitVec.eq_of_toNat_eq
    simp
    omega

@[simp] theorem rev_rev (b : Bytes) : rev (rev b) = b := List.reverse_reverse b

@[simp] theorem rev_length (b : Bytes) : (rev b).length = b.length := List.length_reverse

@[simp] theorem xorBytes_length (a b : Bytes) : (xorBytes a b).length = min a.length b.length := List.length_zipWith

/-- What `RANGE` answers: an ordered pair within the buffer, or InvalidRange.RANGE (rule R98). -/
theorem range_cases (n : Nat) (s e : Int) :
    (∃ a b, range n s e = .ok (a, b) ∧ a ≤ b ∧ b ≤ n) ∨
      range n s e = .error { cause := .range, expNum := num n, actNum := BitVec.ofInt 32 s } := by
  simp only [range]
  split
  · exact .inl ⟨_, _, rfl, by omega, by omega⟩
  · exact .inr rfl

end Sys2Proof.Machine
end

