-- ==== Sys2Proof/Laws/Cipher.lean ====
section
/-! SUPPORT. The block functions and the splitting into blocks (rules R136, R137). -/

namespace Sys2Proof.Machine

theorem blockEnc_length (bc : Config.BlockCipher) (key b : Bytes) : (blockEnc bc key b).length = 16 := beN_length _ _

theorem blockDec_length (bc : Config.BlockCipher) (key b : Bytes) : (blockDec bc key b).length = 16 := beN_length _ _

theorem be_beN_block (w : BitVec 128) : BitVec.ofNat 128 (be (beN w.toNat 16)) = w := by
  rw [be_beN]
  apply BitVec.eq_of_toNat_eq
  simp only [BitVec.toNat_ofNat]
  have := w.isLt
  omega

theorem beN_be_block {b : Bytes} (h : b.length = 16) : beN (BitVec.ofNat 128 (be b)).toNat 16 = b := by
  have hl := be_lt b
  rw [h] at hl
  rw [BitVec.toNat_ofNat, Nat.mod_eq_of_lt (by simpa using hl)]
  have := beN_be b
  rwa [h] at this

/-- `D(k, E(k, b)) = b` on 16-byte strings (rule R136). -/
theorem blockDec_blockEnc (bc : Config.BlockCipher) (key : Bytes) {b : Bytes} (h : b.length = 16) :
    blockDec bc key (blockEnc bc key b) = b := by
  unfold blockDec blockEnc
  rw [be_beN_block, bc.D_E, beN_be_block h]

/-- `E(k, D(k, c)) = c` on 16-byte strings (rule R136). -/
theorem blockEnc_blockDec (bc : Config.BlockCipher) (key : Bytes) {b : Bytes} (h : b.length = 16) :
    blockEnc bc key (blockDec bc key b) = b := by
  unfold blockDec blockEnc
  rw [be_beN_block, bc.E_D, beN_be_block h]

/-- The splitting does not depend on the fuel, once there is enough of it. -/
theorem blocksFuel_eq (x : Bytes) : ∀ n, x.length ≤ n → blocksFuel n x = blocks x := by
  have key : ∀ m n (y : Bytes), y.length ≤ m → y.length ≤ n → blocksFuel m y = blocksFuel n y := by
    intro m
    induction m with
    | zero =>
      intro n y hm hn
      have : y = [] := List.length_eq_zero_iff.mp (Nat.le_zero.mp hm)
      subst this
      cases n <;> simp [blocksFuel]
    | succ m ih =>
      intro n y hm hn
      cases n with
      | zero =>
        have : y = [] := List.length_eq_zero_iff.mp (Nat.le_zero.mp hn)
        subst this
        simp [blocksFuel]
      | succ n =>
        simp only [blocksFuel]
        split
        · rfl
        · rename_i he
          have : 0 < y.length := List.length_pos_iff.mpr (by simpa using he)
          rw [ih n (y.drop 16) (by simp; omega) (by simp; omega)]
  intro n h
  exact key n x.length x h le_rfl

@[simp] theorem blocks_nil : blocks [] = [] := rfl

/-- The first block and the rest. -/
theorem blocks_cons {x : Bytes} (h : x ≠ []) : blocks x = x.take 16 :: blocks (x.drop 16) := by
  rw [← blocksFuel_eq x (x.length + 1) (by omega)]
  simp only [blocksFuel]
  rw [if_neg (by simpa using h), blocksFuel_eq _ _ (by simp)]

/-- The blocks joined are the string. -/
theorem blocks_flatten (x : Bytes) : (blocks x).flatten = x := by
  have key : ∀ n (x : Bytes), x.length ≤ n → (blocks x).flatten = x := by
    intro n
    induction n with
    | zero =>
      intro x h
      have : x = [] := List.length_eq_zero_iff.mp (Nat.le_zero.mp h)
      subst this
      rfl
    | succ n ih =>
      intro x h
      by_cases hx : x = []
      · subst hx
        rfl
      · have : 0 < x.length := List.length_pos_iff.mpr hx
        rw [blocks_cons hx, List.flatten_cons, ih (x.drop 16) (by simp; omega), List.take_append_drop]
  exact key x.length x le_rfl

/-- Every block of a whole number of blocks is 16 bytes long. -/
theorem blocks_whole {x : Bytes} (h : x.length % 16 = 0) : ∀ b ∈ blocks x, b.length = 16 := by
  have key : ∀ n (x : Bytes), x.length ≤ n → x.length % 16 = 0 → ∀ b ∈ blocks x, b.length = 16 := by
    intro n
    induction n with
    | zero =>
      intro x h
      have : x = [] := List.length_eq_zero_iff.mp (Nat.le_zero.mp h)
      subst this
      simp
    | succ n ih =>
      intro x h hm b hb
      by_cases hx : x = []
      · subst hx
        simp at hb
      · have hp : 0 < x.length := List.length_pos_iff.mpr hx
        rw [blocks_cons hx, List.mem_cons] at hb
        obtain rfl | hb := hb
        · simp
          omega
        · exact ih (x.drop 16) (by simp; omega) (by simp; omega) b hb
  exact key x.length x le_rfl h

theorem xorBytes_self {a b : Bytes} (h : a.length ≤ b.length) : xorBytes (xorBytes a b) b = a := by
  induction a generalizing b with
  | nil => rfl
  | cons x a ih =>
    cases b with
    | nil => simp at h
    | cons y b =>
      have := ih (b := b) (by simpa using h)
      simp only [xorBytes, List.zipWith_cons_cons] at this ⊢
      rw [this, BitVec.xor_assoc, BitVec.xor_self, BitVec.xor_zero]

end Sys2Proof.Machine
end

