-- ==== Sys2Proof/Laws/State.lean ====
section
/-! SUPPORT. One lemma per field of State for every named update of it, so that no proof unfolds a record update. -/

namespace Sys2Proof.Machine

/-! ## writeBytes -/

@[simp] theorem writeBytes_status (s : State) (sp : Space) (off : Nat) (b : Bytes) :
    (writeBytes s sp off b).status = s.status := rfl
@[simp] theorem writeBytes_err (s : State) (sp : Space) (off : Nat) (b : Bytes) :
    (writeBytes s sp off b).err = s.err := rfl
@[simp] theorem writeBytes_regs (s : State) (sp : Space) (off : Nat) (b : Bytes) :
    (writeBytes s sp off b).regs = s.regs := rfl
@[simp] theorem writeBytes_frameLen (s : State) (sp : Space) (off : Nat) (b : Bytes) :
    (writeBytes s sp off b).frameLen = s.frameLen := rfl
@[simp] theorem writeBytes_tempLen (s : State) (sp : Space) (off : Nat) (b : Bytes) :
    (writeBytes s sp off b).tempLen = s.tempLen := rfl
@[simp] theorem writeBytes_outCount (s : State) (sp : Space) (off : Nat) (b : Bytes) :
    (writeBytes s sp off b).outCount = s.outCount := rfl
@[simp] theorem writeBytes_outBytes (s : State) (sp : Space) (off : Nat) (b : Bytes) :
    (writeBytes s sp off b).outBytes = s.outBytes := rfl
@[simp] theorem writeBytes_planPc (s : State) (sp : Space) (off : Nat) (b : Bytes) :
    (writeBytes s sp off b).planPc = s.planPc := rfl
@[simp] theorem writeBytes_cbufLen (s : State) (sp : Space) (off : Nat) (b : Bytes) :
    (writeBytes s sp off b).cbufLen = s.cbufLen := rfl
@[simp] theorem writeBytes_crcValue (s : State) (sp : Space) (off : Nat) (b : Bytes) :
    (writeBytes s sp off b).crcValue = s.crcValue := rfl
@[simp] theorem writeBytes_crcBytes (s : State) (sp : Space) (off : Nat) (b : Bytes) :
    (writeBytes s sp off b).crcBytes = s.crcBytes := rfl
@[simp] theorem writeBytes_mem (s : State) (sp : Space) (off : Nat) (b : Bytes) :
    (writeBytes s sp off b).mem = memSetMany s.mem (spaceBase sp + off) (b.take (spaceSize sp - off)) := rfl
@[simp] theorem writeBytes_fromWd (s : State) (sp : Space) (off : Nat) (b : Bytes) :
    (writeBytes s sp off b).fromWd = s.fromWd := rfl
@[simp] theorem writeBytes_inputs (s : State) (sp : Space) (off : Nat) (b : Bytes) :
    (writeBytes s sp off b).inputs = s.inputs := rfl
@[simp] theorem writeBytes_hostData (s : State) (sp : Space) (off : Nat) (b : Bytes) :
    (writeBytes s sp off b).hostData = s.hostData := rfl
@[simp] theorem writeBytes_freeCount (s : State) (sp : Space) (off : Nat) (b : Bytes) :
    (writeBytes s sp off b).freeCount = s.freeCount := rfl

/-! ## recordError -/

@[simp] theorem recordError_status (e : Err) (i : Word) (s : State) : (recordError e i s).status = s.status := rfl
@[simp] theorem recordError_err (e : Err) (i : Word) (s : State) :
    (recordError e i s).err = ErrRecord.mk (errKindWord e) i (num (e.expBytes.take Config.errbufMax).length) (num (e.actBytes.take Config.errbufMax).length) e.expNum e.actNum := rfl
@[simp] theorem recordError_regs (e : Err) (i : Word) (s : State) : (recordError e i s).regs = s.regs := rfl
@[simp] theorem recordError_frameLen (e : Err) (i : Word) (s : State) : (recordError e i s).frameLen = s.frameLen := rfl
@[simp] theorem recordError_tempLen (e : Err) (i : Word) (s : State) : (recordError e i s).tempLen = s.tempLen := rfl
@[simp] theorem recordError_outCount (e : Err) (i : Word) (s : State) : (recordError e i s).outCount = s.outCount := rfl
@[simp] theorem recordError_outBytes (e : Err) (i : Word) (s : State) : (recordError e i s).outBytes = s.outBytes := rfl
@[simp] theorem recordError_planPc (e : Err) (i : Word) (s : State) : (recordError e i s).planPc = s.planPc := rfl
@[simp] theorem recordError_cbufLen (e : Err) (i : Word) (s : State) : (recordError e i s).cbufLen = s.cbufLen := rfl
@[simp] theorem recordError_crcValue (e : Err) (i : Word) (s : State) : (recordError e i s).crcValue = s.crcValue := rfl
@[simp] theorem recordError_crcBytes (e : Err) (i : Word) (s : State) : (recordError e i s).crcBytes = s.crcBytes := rfl
@[simp] theorem recordError_mem (e : Err) (i : Word) (s : State) :
    (recordError e i s).mem = (writeBytes (writeBytes s .errExp 0 (e.expBytes.take Config.errbufMax)) .errAct 0 (e.actBytes.take Config.errbufMax)).mem := rfl
@[simp] theorem recordError_fromWd (e : Err) (i : Word) (s : State) : (recordError e i s).fromWd = s.fromWd := rfl
@[simp] theorem recordError_inputs (e : Err) (i : Word) (s : State) : (recordError e i s).inputs = s.inputs := rfl
@[simp] theorem recordError_hostData (e : Err) (i : Word) (s : State) : (recordError e i s).hostData = s.hostData := rfl
@[simp] theorem recordError_freeCount (e : Err) (i : Word) (s : State) :
    (recordError e i s).freeCount = s.freeCount := rfl

/-! ## failCapsule -/

@[simp] theorem failCapsule_status (e : Err) (i : Word) (s : State) :
    (failCapsule e i s).status = flagsFailCapsule s.status := rfl
@[simp] theorem failCapsule_err (e : Err) (i : Word) (s : State) :
    (failCapsule e i s).err = (recordError e i s).err := rfl
@[simp] theorem failCapsule_regs (e : Err) (i : Word) (s : State) : (failCapsule e i s).regs = s.regs := rfl
@[simp] theorem failCapsule_frameLen (e : Err) (i : Word) (s : State) : (failCapsule e i s).frameLen = s.frameLen := rfl
@[simp] theorem failCapsule_tempLen (e : Err) (i : Word) (s : State) : (failCapsule e i s).tempLen = s.tempLen := rfl
@[simp] theorem failCapsule_outCount (e : Err) (i : Word) (s : State) : (failCapsule e i s).outCount = s.outCount := rfl
@[simp] theorem failCapsule_outBytes (e : Err) (i : Word) (s : State) : (failCapsule e i s).outBytes = s.outBytes := rfl
@[simp] theorem failCapsule_planPc (e : Err) (i : Word) (s : State) : (failCapsule e i s).planPc = s.planPc := rfl
@[simp] theorem failCapsule_cbufLen (e : Err) (i : Word) (s : State) : (failCapsule e i s).cbufLen = s.cbufLen := rfl
@[simp] theorem failCapsule_crcValue (e : Err) (i : Word) (s : State) : (failCapsule e i s).crcValue = s.crcValue := rfl
@[simp] theorem failCapsule_crcBytes (e : Err) (i : Word) (s : State) : (failCapsule e i s).crcBytes = s.crcBytes := rfl
@[simp] theorem failCapsule_mem (e : Err) (i : Word) (s : State) :
    (failCapsule e i s).mem = (recordError e i s).mem := rfl
@[simp] theorem failCapsule_fromWd (e : Err) (i : Word) (s : State) : (failCapsule e i s).fromWd = false := rfl
@[simp] theorem failCapsule_inputs (e : Err) (i : Word) (s : State) : (failCapsule e i s).inputs = s.inputs := rfl
@[simp] theorem failCapsule_hostData (e : Err) (i : Word) (s : State) : (failCapsule e i s).hostData = s.hostData := rfl
@[simp] theorem failCapsule_freeCount (e : Err) (i : Word) (s : State) :
    (failCapsule e i s).freeCount = s.freeCount := rfl

/-! ## failEngine -/

@[simp] theorem failEngine_status (e : Err) (s : State) : (failEngine e s).status = flagsCompleteErr s.status := rfl
@[simp] theorem failEngine_err (e : Err) (s : State) : (failEngine e s).err = (recordError e noIndex s).err := rfl
@[simp] theorem failEngine_regs (e : Err) (s : State) : (failEngine e s).regs = s.regs := rfl
@[simp] theorem failEngine_frameLen (e : Err) (s : State) : (failEngine e s).frameLen = s.frameLen := rfl
@[simp] theorem failEngine_tempLen (e : Err) (s : State) : (failEngine e s).tempLen = s.tempLen := rfl
@[simp] theorem failEngine_outCount (e : Err) (s : State) : (failEngine e s).outCount = s.outCount := rfl
@[simp] theorem failEngine_outBytes (e : Err) (s : State) : (failEngine e s).outBytes = s.outBytes := rfl
@[simp] theorem failEngine_planPc (e : Err) (s : State) : (failEngine e s).planPc = s.planPc := rfl
@[simp] theorem failEngine_cbufLen (e : Err) (s : State) : (failEngine e s).cbufLen = s.cbufLen := rfl
@[simp] theorem failEngine_crcValue (e : Err) (s : State) : (failEngine e s).crcValue = s.crcValue := rfl
@[simp] theorem failEngine_crcBytes (e : Err) (s : State) : (failEngine e s).crcBytes = s.crcBytes := rfl
@[simp] theorem failEngine_mem (e : Err) (s : State) : (failEngine e s).mem = (recordError e noIndex s).mem := rfl
@[simp] theorem failEngine_fromWd (e : Err) (s : State) : (failEngine e s).fromWd = s.fromWd := rfl
@[simp] theorem failEngine_inputs (e : Err) (s : State) : (failEngine e s).inputs = s.inputs := rfl
@[simp] theorem failEngine_hostData (e : Err) (s : State) : (failEngine e s).hostData = s.hostData := rfl
@[simp] theorem failEngine_freeCount (e : Err) (s : State) : (failEngine e s).freeCount = s.freeCount := rfl

/-! ## freshCapsule -/

@[simp] theorem freshCapsule_status (s : State) : (freshCapsule s).status = flagsNewCapsule s.status := rfl
@[simp] theorem freshCapsule_err (s : State) : (freshCapsule s).err = ErrRecord.none := rfl
@[simp] theorem freshCapsule_regs (s : State) : (freshCapsule s).regs = s.regs := rfl
@[simp] theorem freshCapsule_frameLen (s : State) : (freshCapsule s).frameLen = 0 := rfl
@[simp] theorem freshCapsule_tempLen (s : State) : (freshCapsule s).tempLen = 0 := rfl
@[simp] theorem freshCapsule_outCount (s : State) : (freshCapsule s).outCount = 0 := rfl
@[simp] theorem freshCapsule_outBytes (s : State) : (freshCapsule s).outBytes = 0 := rfl
@[simp] theorem freshCapsule_planPc (s : State) : (freshCapsule s).planPc = 0 := rfl
@[simp] theorem freshCapsule_cbufLen (s : State) : (freshCapsule s).cbufLen = s.cbufLen := rfl
@[simp] theorem freshCapsule_crcValue (s : State) : (freshCapsule s).crcValue = s.crcValue := rfl
@[simp] theorem freshCapsule_crcBytes (s : State) : (freshCapsule s).crcBytes = s.crcBytes := rfl
@[simp] theorem freshCapsule_mem (s : State) : (freshCapsule s).mem = s.mem := rfl
@[simp] theorem freshCapsule_fromWd (s : State) : (freshCapsule s).fromWd = false := rfl
@[simp] theorem freshCapsule_inputs (s : State) : (freshCapsule s).inputs = s.inputs := rfl
@[simp] theorem freshCapsule_hostData (s : State) : (freshCapsule s).hostData = s.hostData := rfl
@[simp] theorem freshCapsule_freeCount (s : State) : (freshCapsule s).freeCount = s.freeCount := rfl

/-! ## acceptCommand -/

@[simp] theorem acceptCommand_status (s : State) : (acceptCommand s).status = flagsAccept s.status := rfl
@[simp] theorem acceptCommand_err (s : State) : (acceptCommand s).err = ErrRecord.none := rfl
@[simp] theorem acceptCommand_regs (s : State) : (acceptCommand s).regs = s.regs := rfl
@[simp] theorem acceptCommand_frameLen (s : State) : (acceptCommand s).frameLen = s.frameLen := rfl
@[simp] theorem acceptCommand_tempLen (s : State) : (acceptCommand s).tempLen = s.tempLen := rfl
@[simp] theorem acceptCommand_outCount (s : State) : (acceptCommand s).outCount = s.outCount := rfl
@[simp] theorem acceptCommand_outBytes (s : State) : (acceptCommand s).outBytes = s.outBytes := rfl
@[simp] theorem acceptCommand_planPc (s : State) : (acceptCommand s).planPc = s.planPc := rfl
@[simp] theorem acceptCommand_cbufLen (s : State) : (acceptCommand s).cbufLen = s.cbufLen := rfl
@[simp] theorem acceptCommand_crcValue (s : State) : (acceptCommand s).crcValue = s.crcValue := rfl
@[simp] theorem acceptCommand_crcBytes (s : State) : (acceptCommand s).crcBytes = s.crcBytes := rfl
@[simp] theorem acceptCommand_mem (s : State) : (acceptCommand s).mem = s.mem := rfl
@[simp] theorem acceptCommand_fromWd (s : State) : (acceptCommand s).fromWd = s.fromWd := rfl
@[simp] theorem acceptCommand_inputs (s : State) : (acceptCommand s).inputs = s.inputs := rfl
@[simp] theorem acceptCommand_hostData (s : State) : (acceptCommand s).hostData = s.hostData := rfl
@[simp] theorem acceptCommand_freeCount (s : State) : (acceptCommand s).freeCount = s.freeCount := rfl

/-! ## completeCommand -/

@[simp] theorem completeCommand_status (s : State) : (completeCommand s).status = flagsComplete s.status := rfl
@[simp] theorem completeCommand_err (s : State) : (completeCommand s).err = s.err := rfl
@[simp] theorem completeCommand_regs (s : State) : (completeCommand s).regs = s.regs := rfl
@[simp] theorem completeCommand_frameLen (s : State) : (completeCommand s).frameLen = s.frameLen := rfl
@[simp] theorem completeCommand_tempLen (s : State) : (completeCommand s).tempLen = s.tempLen := rfl
@[simp] theorem completeCommand_outCount (s : State) : (completeCommand s).outCount = s.outCount := rfl
@[simp] theorem completeCommand_outBytes (s : State) : (completeCommand s).outBytes = s.outBytes := rfl
@[simp] theorem completeCommand_planPc (s : State) : (completeCommand s).planPc = s.planPc := rfl
@[simp] theorem completeCommand_cbufLen (s : State) : (completeCommand s).cbufLen = s.cbufLen := rfl
@[simp] theorem completeCommand_crcValue (s : State) : (completeCommand s).crcValue = s.crcValue := rfl
@[simp] theorem completeCommand_crcBytes (s : State) : (completeCommand s).crcBytes = s.crcBytes := rfl
@[simp] theorem completeCommand_mem (s : State) : (completeCommand s).mem = s.mem := rfl
@[simp] theorem completeCommand_fromWd (s : State) : (completeCommand s).fromWd = s.fromWd := rfl
@[simp] theorem completeCommand_inputs (s : State) : (completeCommand s).inputs = s.inputs := rfl
@[simp] theorem completeCommand_hostData (s : State) : (completeCommand s).hostData = s.hostData := rfl
@[simp] theorem completeCommand_freeCount (s : State) : (completeCommand s).freeCount = s.freeCount := rfl

/-! ## rejectCommand -/

@[simp] theorem rejectCommand_status (s : State) : (rejectCommand s).status = flagsReject s.status := rfl
@[simp] theorem rejectCommand_err (s : State) : (rejectCommand s).err = s.err := rfl
@[simp] theorem rejectCommand_regs (s : State) : (rejectCommand s).regs = s.regs := rfl
@[simp] theorem rejectCommand_frameLen (s : State) : (rejectCommand s).frameLen = s.frameLen := rfl
@[simp] theorem rejectCommand_tempLen (s : State) : (rejectCommand s).tempLen = s.tempLen := rfl
@[simp] theorem rejectCommand_outCount (s : State) : (rejectCommand s).outCount = s.outCount := rfl
@[simp] theorem rejectCommand_outBytes (s : State) : (rejectCommand s).outBytes = s.outBytes := rfl
@[simp] theorem rejectCommand_planPc (s : State) : (rejectCommand s).planPc = s.planPc := rfl
@[simp] theorem rejectCommand_cbufLen (s : State) : (rejectCommand s).cbufLen = s.cbufLen := rfl
@[simp] theorem rejectCommand_crcValue (s : State) : (rejectCommand s).crcValue = s.crcValue := rfl
@[simp] theorem rejectCommand_crcBytes (s : State) : (rejectCommand s).crcBytes = s.crcBytes := rfl
@[simp] theorem rejectCommand_mem (s : State) : (rejectCommand s).mem = s.mem := rfl
@[simp] theorem rejectCommand_fromWd (s : State) : (rejectCommand s).fromWd = s.fromWd := rfl
@[simp] theorem rejectCommand_inputs (s : State) : (rejectCommand s).inputs = s.inputs := rfl
@[simp] theorem rejectCommand_hostData (s : State) : (rejectCommand s).hostData = s.hostData := rfl
@[simp] theorem rejectCommand_freeCount (s : State) : (rejectCommand s).freeCount = s.freeCount := rfl

/-! ## outAppended -/

@[simp] theorem outAppended_status (rf : Rawfield) (s : State) : (outAppended rf s).status = s.status := rfl
@[simp] theorem outAppended_err (rf : Rawfield) (s : State) : (outAppended rf s).err = s.err := rfl
@[simp] theorem outAppended_regs (rf : Rawfield) (s : State) : (outAppended rf s).regs = s.regs := rfl
@[simp] theorem outAppended_frameLen (rf : Rawfield) (s : State) : (outAppended rf s).frameLen = s.frameLen := rfl
@[simp] theorem outAppended_tempLen (rf : Rawfield) (s : State) : (outAppended rf s).tempLen = s.tempLen := rfl
@[simp] theorem outAppended_outCount (rf : Rawfield) (s : State) : (outAppended rf s).outCount = s.outCount + 1 := rfl
@[simp] theorem outAppended_outBytes (rf : Rawfield) (s : State) :
    (outAppended rf s).outBytes = num (s.outBytes.toNat + outNeed rf) := rfl
@[simp] theorem outAppended_planPc (rf : Rawfield) (s : State) : (outAppended rf s).planPc = s.planPc := rfl
@[simp] theorem outAppended_cbufLen (rf : Rawfield) (s : State) : (outAppended rf s).cbufLen = s.cbufLen := rfl
@[simp] theorem outAppended_crcValue (rf : Rawfield) (s : State) : (outAppended rf s).crcValue = s.crcValue := rfl
@[simp] theorem outAppended_crcBytes (rf : Rawfield) (s : State) : (outAppended rf s).crcBytes = s.crcBytes := rfl
@[simp] theorem outAppended_mem (rf : Rawfield) (s : State) :
    (outAppended rf s).mem = (writeBytes s .out s.outBytes.toNat (outRecord rf)).mem := rfl
@[simp] theorem outAppended_fromWd (rf : Rawfield) (s : State) : (outAppended rf s).fromWd = s.fromWd := rfl
@[simp] theorem outAppended_inputs (rf : Rawfield) (s : State) : (outAppended rf s).inputs = s.inputs := rfl
@[simp] theorem outAppended_hostData (rf : Rawfield) (s : State) : (outAppended rf s).hostData = s.hostData := rfl
@[simp] theorem outAppended_freeCount (rf : Rawfield) (s : State) : (outAppended rf s).freeCount = s.freeCount := rfl

/-! ## frameAppended -/

@[simp] theorem frameAppended_status (fb : Bytes) (s : State) : (frameAppended fb s).status = s.status := rfl
@[simp] theorem frameAppended_err (fb : Bytes) (s : State) : (frameAppended fb s).err = s.err := rfl
@[simp] theorem frameAppended_regs (fb : Bytes) (s : State) : (frameAppended fb s).regs = s.regs := rfl
@[simp] theorem frameAppended_frameLen (fb : Bytes) (s : State) :
    (frameAppended fb s).frameLen = num (s.frameLen.toNat + fb.length) := rfl
@[simp] theorem frameAppended_tempLen (fb : Bytes) (s : State) : (frameAppended fb s).tempLen = s.tempLen := rfl
@[simp] theorem frameAppended_outCount (fb : Bytes) (s : State) : (frameAppended fb s).outCount = s.outCount := rfl
@[simp] theorem frameAppended_outBytes (fb : Bytes) (s : State) : (frameAppended fb s).outBytes = s.outBytes := rfl
@[simp] theorem frameAppended_planPc (fb : Bytes) (s : State) : (frameAppended fb s).planPc = s.planPc := rfl
@[simp] theorem frameAppended_cbufLen (fb : Bytes) (s : State) : (frameAppended fb s).cbufLen = s.cbufLen := rfl
@[simp] theorem frameAppended_crcValue (fb : Bytes) (s : State) : (frameAppended fb s).crcValue = s.crcValue := rfl
@[simp] theorem frameAppended_crcBytes (fb : Bytes) (s : State) : (frameAppended fb s).crcBytes = s.crcBytes := rfl
@[simp] theorem frameAppended_mem (fb : Bytes) (s : State) :
    (frameAppended fb s).mem = (writeBytes s .frame s.frameLen.toNat fb).mem := rfl
@[simp] theorem frameAppended_fromWd (fb : Bytes) (s : State) : (frameAppended fb s).fromWd = s.fromWd := rfl
@[simp] theorem frameAppended_inputs (fb : Bytes) (s : State) : (frameAppended fb s).inputs = s.inputs := rfl
@[simp] theorem frameAppended_hostData (fb : Bytes) (s : State) : (frameAppended fb s).hostData = s.hostData := rfl
@[simp] theorem frameAppended_freeCount (fb : Bytes) (s : State) : (frameAppended fb s).freeCount = s.freeCount := rfl

/-! ## tempFilled -/

@[simp] theorem tempFilled_status (b : Bytes) (s : State) : (tempFilled b s).status = s.status := rfl
@[simp] theorem tempFilled_err (b : Bytes) (s : State) : (tempFilled b s).err = s.err := rfl
@[simp] theorem tempFilled_regs (b : Bytes) (s : State) : (tempFilled b s).regs = s.regs := rfl
@[simp] theorem tempFilled_frameLen (b : Bytes) (s : State) : (tempFilled b s).frameLen = s.frameLen := rfl
@[simp] theorem tempFilled_tempLen (b : Bytes) (s : State) : (tempFilled b s).tempLen = num b.length := rfl
@[simp] theorem tempFilled_outCount (b : Bytes) (s : State) : (tempFilled b s).outCount = s.outCount := rfl
@[simp] theorem tempFilled_outBytes (b : Bytes) (s : State) : (tempFilled b s).outBytes = s.outBytes := rfl
@[simp] theorem tempFilled_planPc (b : Bytes) (s : State) : (tempFilled b s).planPc = s.planPc := rfl
@[simp] theorem tempFilled_cbufLen (b : Bytes) (s : State) : (tempFilled b s).cbufLen = s.cbufLen := rfl
@[simp] theorem tempFilled_crcValue (b : Bytes) (s : State) : (tempFilled b s).crcValue = s.crcValue := rfl
@[simp] theorem tempFilled_crcBytes (b : Bytes) (s : State) : (tempFilled b s).crcBytes = s.crcBytes := rfl
@[simp] theorem tempFilled_mem (b : Bytes) (s : State) : (tempFilled b s).mem = (writeBytes s .temp 0 b).mem := rfl
@[simp] theorem tempFilled_fromWd (b : Bytes) (s : State) : (tempFilled b s).fromWd = s.fromWd := rfl
@[simp] theorem tempFilled_inputs (b : Bytes) (s : State) : (tempFilled b s).inputs = s.inputs := rfl
@[simp] theorem tempFilled_hostData (b : Bytes) (s : State) : (tempFilled b s).hostData = s.hostData := rfl
@[simp] theorem tempFilled_freeCount (b : Bytes) (s : State) : (tempFilled b s).freeCount = s.freeCount := rfl

/-! ## cbufFilled -/

@[simp] theorem cbufFilled_status (b : Bytes) (s : State) : (cbufFilled b s).status = s.status := rfl
@[simp] theorem cbufFilled_err (b : Bytes) (s : State) : (cbufFilled b s).err = s.err := rfl
@[simp] theorem cbufFilled_regs (b : Bytes) (s : State) : (cbufFilled b s).regs = s.regs := rfl
@[simp] theorem cbufFilled_frameLen (b : Bytes) (s : State) : (cbufFilled b s).frameLen = s.frameLen := rfl
@[simp] theorem cbufFilled_tempLen (b : Bytes) (s : State) : (cbufFilled b s).tempLen = s.tempLen := rfl
@[simp] theorem cbufFilled_outCount (b : Bytes) (s : State) : (cbufFilled b s).outCount = s.outCount := rfl
@[simp] theorem cbufFilled_outBytes (b : Bytes) (s : State) : (cbufFilled b s).outBytes = s.outBytes := rfl
@[simp] theorem cbufFilled_planPc (b : Bytes) (s : State) : (cbufFilled b s).planPc = s.planPc := rfl
@[simp] theorem cbufFilled_cbufLen (b : Bytes) (s : State) : (cbufFilled b s).cbufLen = num b.length := rfl
@[simp] theorem cbufFilled_crcValue (b : Bytes) (s : State) : (cbufFilled b s).crcValue = s.crcValue := rfl
@[simp] theorem cbufFilled_crcBytes (b : Bytes) (s : State) : (cbufFilled b s).crcBytes = s.crcBytes := rfl
@[simp] theorem cbufFilled_mem (b : Bytes) (s : State) : (cbufFilled b s).mem = (writeBytes s .cbuf 0 b).mem := rfl
@[simp] theorem cbufFilled_fromWd (b : Bytes) (s : State) : (cbufFilled b s).fromWd = s.fromWd := rfl
@[simp] theorem cbufFilled_inputs (b : Bytes) (s : State) : (cbufFilled b s).inputs = s.inputs := rfl
@[simp] theorem cbufFilled_hostData (b : Bytes) (s : State) : (cbufFilled b s).hostData = s.hostData := rfl
@[simp] theorem cbufFilled_freeCount (b : Bytes) (s : State) : (cbufFilled b s).freeCount = s.freeCount := rfl

/-! ## setReader -/

@[simp] theorem setReader_status (r : ReaderState) (s : State) :
    (setReader r s).status = { s.status with rstate := r } := rfl
@[simp] theorem setReader_err (r : ReaderState) (s : State) : (setReader r s).err = s.err := rfl
@[simp] theorem setReader_regs (r : ReaderState) (s : State) : (setReader r s).regs = s.regs := rfl
@[simp] theorem setReader_frameLen (r : ReaderState) (s : State) : (setReader r s).frameLen = s.frameLen := rfl
@[simp] theorem setReader_tempLen (r : ReaderState) (s : State) : (setReader r s).tempLen = s.tempLen := rfl
@[simp] theorem setReader_outCount (r : ReaderState) (s : State) : (setReader r s).outCount = s.outCount := rfl
@[simp] theorem setReader_outBytes (r : ReaderState) (s : State) : (setReader r s).outBytes = s.outBytes := rfl
@[simp] theorem setReader_planPc (r : ReaderState) (s : State) : (setReader r s).planPc = s.planPc := rfl
@[simp] theorem setReader_cbufLen (r : ReaderState) (s : State) : (setReader r s).cbufLen = s.cbufLen := rfl
@[simp] theorem setReader_crcValue (r : ReaderState) (s : State) : (setReader r s).crcValue = s.crcValue := rfl
@[simp] theorem setReader_crcBytes (r : ReaderState) (s : State) : (setReader r s).crcBytes = s.crcBytes := rfl
@[simp] theorem setReader_mem (r : ReaderState) (s : State) : (setReader r s).mem = s.mem := rfl
@[simp] theorem setReader_fromWd (r : ReaderState) (s : State) : (setReader r s).fromWd = s.fromWd := rfl
@[simp] theorem setReader_inputs (r : ReaderState) (s : State) : (setReader r s).inputs = s.inputs := rfl
@[simp] theorem setReader_hostData (r : ReaderState) (s : State) : (setReader r s).hostData = s.hostData := rfl
@[simp] theorem setReader_freeCount (r : ReaderState) (s : State) : (setReader r s).freeCount = s.freeCount := rfl

/-! ## setCrcSwapped -/

@[simp] theorem setCrcSwapped_status (b : Bool) (s : State) :
    (setCrcSwapped b s).status = { s.status with crcSwapped := b } := rfl
@[simp] theorem setCrcSwapped_err (b : Bool) (s : State) : (setCrcSwapped b s).err = s.err := rfl
@[simp] theorem setCrcSwapped_regs (b : Bool) (s : State) : (setCrcSwapped b s).regs = s.regs := rfl
@[simp] theorem setCrcSwapped_frameLen (b : Bool) (s : State) : (setCrcSwapped b s).frameLen = s.frameLen := rfl
@[simp] theorem setCrcSwapped_tempLen (b : Bool) (s : State) : (setCrcSwapped b s).tempLen = s.tempLen := rfl
@[simp] theorem setCrcSwapped_outCount (b : Bool) (s : State) : (setCrcSwapped b s).outCount = s.outCount := rfl
@[simp] theorem setCrcSwapped_outBytes (b : Bool) (s : State) : (setCrcSwapped b s).outBytes = s.outBytes := rfl
@[simp] theorem setCrcSwapped_planPc (b : Bool) (s : State) : (setCrcSwapped b s).planPc = s.planPc := rfl
@[simp] theorem setCrcSwapped_cbufLen (b : Bool) (s : State) : (setCrcSwapped b s).cbufLen = s.cbufLen := rfl
@[simp] theorem setCrcSwapped_crcValue (b : Bool) (s : State) : (setCrcSwapped b s).crcValue = s.crcValue := rfl
@[simp] theorem setCrcSwapped_crcBytes (b : Bool) (s : State) : (setCrcSwapped b s).crcBytes = s.crcBytes := rfl
@[simp] theorem setCrcSwapped_mem (b : Bool) (s : State) : (setCrcSwapped b s).mem = s.mem := rfl
@[simp] theorem setCrcSwapped_fromWd (b : Bool) (s : State) : (setCrcSwapped b s).fromWd = s.fromWd := rfl
@[simp] theorem setCrcSwapped_inputs (b : Bool) (s : State) : (setCrcSwapped b s).inputs = s.inputs := rfl
@[simp] theorem setCrcSwapped_hostData (b : Bool) (s : State) : (setCrcSwapped b s).hostData = s.hostData := rfl
@[simp] theorem setCrcSwapped_freeCount (b : Bool) (s : State) : (setCrcSwapped b s).freeCount = s.freeCount := rfl

/-! ## setCrcResult -/

@[simp] theorem setCrcResult_status (c : BitVec 16) (b : Bytes) (s : State) :
    (setCrcResult c b s).status = s.status := rfl
@[simp] theorem setCrcResult_err (c : BitVec 16) (b : Bytes) (s : State) : (setCrcResult c b s).err = s.err := rfl
@[simp] theorem setCrcResult_regs (c : BitVec 16) (b : Bytes) (s : State) : (setCrcResult c b s).regs = s.regs := rfl
@[simp] theorem setCrcResult_frameLen (c : BitVec 16) (b : Bytes) (s : State) :
    (setCrcResult c b s).frameLen = s.frameLen := rfl
@[simp] theorem setCrcResult_tempLen (c : BitVec 16) (b : Bytes) (s : State) :
    (setCrcResult c b s).tempLen = s.tempLen := rfl
@[simp] theorem setCrcResult_outCount (c : BitVec 16) (b : Bytes) (s : State) :
    (setCrcResult c b s).outCount = s.outCount := rfl
@[simp] theorem setCrcResult_outBytes (c : BitVec 16) (b : Bytes) (s : State) :
    (setCrcResult c b s).outBytes = s.outBytes := rfl
@[simp] theorem setCrcResult_planPc (c : BitVec 16) (b : Bytes) (s : State) :
    (setCrcResult c b s).planPc = s.planPc := rfl
@[simp] theorem setCrcResult_cbufLen (c : BitVec 16) (b : Bytes) (s : State) :
    (setCrcResult c b s).cbufLen = s.cbufLen := rfl
@[simp] theorem setCrcResult_crcValue (c : BitVec 16) (b : Bytes) (s : State) :
    (setCrcResult c b s).crcValue = num c.toNat := rfl
@[simp] theorem setCrcResult_crcBytes (c : BitVec 16) (b : Bytes) (s : State) :
    (setCrcResult c b s).crcBytes = num (be b) := rfl
@[simp] theorem setCrcResult_mem (c : BitVec 16) (b : Bytes) (s : State) : (setCrcResult c b s).mem = s.mem := rfl
@[simp] theorem setCrcResult_fromWd (c : BitVec 16) (b : Bytes) (s : State) :
    (setCrcResult c b s).fromWd = s.fromWd := rfl
@[simp] theorem setCrcResult_inputs (c : BitVec 16) (b : Bytes) (s : State) :
    (setCrcResult c b s).inputs = s.inputs := rfl
@[simp] theorem setCrcResult_hostData (c : BitVec 16) (b : Bytes) (s : State) :
    (setCrcResult c b s).hostData = s.hostData := rfl
@[simp] theorem setCrcResult_freeCount (c : BitVec 16) (b : Bytes) (s : State) :
    (setCrcResult c b s).freeCount = s.freeCount := rfl

/-! ## readerDone -/

@[simp] theorem readerDone_status (s : State) :
    (readerDone s).status = { flagsComplete s.status with rstate := .done, main := .done, success := true } := rfl
@[simp] theorem readerDone_err (s : State) : (readerDone s).err = s.err := rfl
@[simp] theorem readerDone_regs (s : State) : (readerDone s).regs = s.regs := rfl
@[simp] theorem readerDone_frameLen (s : State) : (readerDone s).frameLen = s.frameLen := rfl
@[simp] theorem readerDone_tempLen (s : State) : (readerDone s).tempLen = s.tempLen := rfl
@[simp] theorem readerDone_outCount (s : State) : (readerDone s).outCount = s.outCount := rfl
@[simp] theorem readerDone_outBytes (s : State) : (readerDone s).outBytes = s.outBytes := rfl
@[simp] theorem readerDone_planPc (s : State) : (readerDone s).planPc = s.planPc := rfl
@[simp] theorem readerDone_cbufLen (s : State) : (readerDone s).cbufLen = s.cbufLen := rfl
@[simp] theorem readerDone_crcValue (s : State) : (readerDone s).crcValue = s.crcValue := rfl
@[simp] theorem readerDone_crcBytes (s : State) : (readerDone s).crcBytes = s.crcBytes := rfl
@[simp] theorem readerDone_mem (s : State) : (readerDone s).mem = s.mem := rfl
@[simp] theorem readerDone_fromWd (s : State) : (readerDone s).fromWd = s.fromWd := rfl
@[simp] theorem readerDone_inputs (s : State) : (readerDone s).inputs = s.inputs := rfl
@[simp] theorem readerDone_hostData (s : State) : (readerDone s).hostData = s.hostData := rfl
@[simp] theorem readerDone_freeCount (s : State) : (readerDone s).freeCount = s.freeCount := rfl

/-! ## finalizeDone -/

@[simp] theorem finalizeDone_status (s : State) :
    (finalizeDone s).status = { flagsComplete s.status with success := true, main := .done } := rfl
@[simp] theorem finalizeDone_err (s : State) : (finalizeDone s).err = s.err := rfl
@[simp] theorem finalizeDone_regs (s : State) : (finalizeDone s).regs = s.regs := rfl
@[simp] theorem finalizeDone_frameLen (s : State) : (finalizeDone s).frameLen = s.frameLen := rfl
@[simp] theorem finalizeDone_tempLen (s : State) : (finalizeDone s).tempLen = s.tempLen := rfl
@[simp] theorem finalizeDone_outCount (s : State) : (finalizeDone s).outCount = s.outCount := rfl
@[simp] theorem finalizeDone_outBytes (s : State) : (finalizeDone s).outBytes = s.outBytes := rfl
@[simp] theorem finalizeDone_planPc (s : State) : (finalizeDone s).planPc = s.planPc := rfl
@[simp] theorem finalizeDone_cbufLen (s : State) : (finalizeDone s).cbufLen = s.cbufLen := rfl
@[simp] theorem finalizeDone_crcValue (s : State) : (finalizeDone s).crcValue = s.crcValue := rfl
@[simp] theorem finalizeDone_crcBytes (s : State) : (finalizeDone s).crcBytes = s.crcBytes := rfl
@[simp] theorem finalizeDone_mem (s : State) : (finalizeDone s).mem = s.mem := rfl
@[simp] theorem finalizeDone_fromWd (s : State) : (finalizeDone s).fromWd = s.fromWd := rfl
@[simp] theorem finalizeDone_inputs (s : State) : (finalizeDone s).inputs = s.inputs := rfl
@[simp] theorem finalizeDone_hostData (s : State) : (finalizeDone s).hostData = s.hostData := rfl
@[simp] theorem finalizeDone_freeCount (s : State) : (finalizeDone s).freeCount = s.freeCount := rfl

/-! ## completeWriter -/

@[simp] theorem completeWriter_status (s : State) :
    (completeWriter s).status = { flagsComplete s.status with main := .accum } := rfl
@[simp] theorem completeWriter_err (s : State) : (completeWriter s).err = s.err := rfl
@[simp] theorem completeWriter_regs (s : State) : (completeWriter s).regs = s.regs := rfl
@[simp] theorem completeWriter_frameLen (s : State) : (completeWriter s).frameLen = s.frameLen := rfl
@[simp] theorem completeWriter_tempLen (s : State) : (completeWriter s).tempLen = s.tempLen := rfl
@[simp] theorem completeWriter_outCount (s : State) : (completeWriter s).outCount = s.outCount := rfl
@[simp] theorem completeWriter_outBytes (s : State) : (completeWriter s).outBytes = s.outBytes := rfl
@[simp] theorem completeWriter_planPc (s : State) : (completeWriter s).planPc = s.planPc := rfl
@[simp] theorem completeWriter_cbufLen (s : State) : (completeWriter s).cbufLen = s.cbufLen := rfl
@[simp] theorem completeWriter_crcValue (s : State) : (completeWriter s).crcValue = s.crcValue := rfl
@[simp] theorem completeWriter_crcBytes (s : State) : (completeWriter s).crcBytes = s.crcBytes := rfl
@[simp] theorem completeWriter_mem (s : State) : (completeWriter s).mem = s.mem := rfl
@[simp] theorem completeWriter_fromWd (s : State) : (completeWriter s).fromWd = false := rfl
@[simp] theorem completeWriter_inputs (s : State) : (completeWriter s).inputs = s.inputs := rfl
@[simp] theorem completeWriter_hostData (s : State) : (completeWriter s).hostData = s.hostData := rfl
@[simp] theorem completeWriter_freeCount (s : State) : (completeWriter s).freeCount = s.freeCount := rfl

/-! ## beginWriter -/

@[simp] theorem beginWriter_status (s : State) :
    (beginWriter s).status = { flagsAccept s.status with main := .encoding } := rfl
@[simp] theorem beginWriter_err (s : State) : (beginWriter s).err = ErrRecord.none := rfl
@[simp] theorem beginWriter_regs (s : State) : (beginWriter s).regs = s.regs := rfl
@[simp] theorem beginWriter_frameLen (s : State) :
    (beginWriter s).frameLen = if s.status.main = .idle then 0 else s.frameLen := rfl
@[simp] theorem beginWriter_tempLen (s : State) : (beginWriter s).tempLen = s.tempLen := rfl
@[simp] theorem beginWriter_outCount (s : State) : (beginWriter s).outCount = s.outCount := rfl
@[simp] theorem beginWriter_outBytes (s : State) : (beginWriter s).outBytes = s.outBytes := rfl
@[simp] theorem beginWriter_planPc (s : State) : (beginWriter s).planPc = s.planPc := rfl
@[simp] theorem beginWriter_cbufLen (s : State) : (beginWriter s).cbufLen = s.cbufLen := rfl
@[simp] theorem beginWriter_crcValue (s : State) : (beginWriter s).crcValue = s.crcValue := rfl
@[simp] theorem beginWriter_crcBytes (s : State) : (beginWriter s).crcBytes = s.crcBytes := rfl
@[simp] theorem beginWriter_mem (s : State) : (beginWriter s).mem = s.mem := rfl
@[simp] theorem beginWriter_fromWd (s : State) : (beginWriter s).fromWd = false := rfl
@[simp] theorem beginWriter_inputs (s : State) : (beginWriter s).inputs = s.inputs := rfl
@[simp] theorem beginWriter_hostData (s : State) : (beginWriter s).hostData = s.hostData := rfl
@[simp] theorem beginWriter_freeCount (s : State) : (beginWriter s).freeCount = s.freeCount := rfl

/-! ## beginDecode -/

@[simp] theorem beginDecode_status (s : State) :
    (beginDecode s).status = { flagsAccept s.status with crcSwapped := false, rstate := .expectHead, main := .reading } := rfl
@[simp] theorem beginDecode_err (s : State) : (beginDecode s).err = ErrRecord.none := rfl
@[simp] theorem beginDecode_regs (s : State) : (beginDecode s).regs = s.regs := rfl
@[simp] theorem beginDecode_frameLen (s : State) : (beginDecode s).frameLen = s.frameLen := rfl
@[simp] theorem beginDecode_tempLen (s : State) : (beginDecode s).tempLen = s.tempLen := rfl
@[simp] theorem beginDecode_outCount (s : State) : (beginDecode s).outCount = s.outCount := rfl
@[simp] theorem beginDecode_outBytes (s : State) : (beginDecode s).outBytes = s.outBytes := rfl
@[simp] theorem beginDecode_planPc (s : State) : (beginDecode s).planPc = 0 := rfl
@[simp] theorem beginDecode_cbufLen (s : State) : (beginDecode s).cbufLen = s.cbufLen := rfl
@[simp] theorem beginDecode_crcValue (s : State) : (beginDecode s).crcValue = s.crcValue := rfl
@[simp] theorem beginDecode_crcBytes (s : State) : (beginDecode s).crcBytes = s.crcBytes := rfl
@[simp] theorem beginDecode_mem (s : State) : (beginDecode s).mem = s.mem := rfl
@[simp] theorem beginDecode_fromWd (s : State) : (beginDecode s).fromWd = false := rfl
@[simp] theorem beginDecode_inputs (s : State) : (beginDecode s).inputs = s.inputs := rfl
@[simp] theorem beginDecode_hostData (s : State) : (beginDecode s).hostData = s.hostData := rfl
@[simp] theorem beginDecode_freeCount (s : State) : (beginDecode s).freeCount = s.freeCount := rfl

/-! ## storePlan -/

@[simp] theorem storePlan_status (s : State) (k : Nat) (w : DescWords) : (storePlan s k w).status = s.status := rfl
@[simp] theorem storePlan_err (s : State) (k : Nat) (w : DescWords) : (storePlan s k w).err = s.err := rfl
@[simp] theorem storePlan_regs (s : State) (k : Nat) (w : DescWords) : (storePlan s k w).regs = s.regs := rfl
@[simp] theorem storePlan_frameLen (s : State) (k : Nat) (w : DescWords) :
    (storePlan s k w).frameLen = s.frameLen := rfl
@[simp] theorem storePlan_tempLen (s : State) (k : Nat) (w : DescWords) : (storePlan s k w).tempLen = s.tempLen := rfl
@[simp] theorem storePlan_outCount (s : State) (k : Nat) (w : DescWords) :
    (storePlan s k w).outCount = s.outCount := rfl
@[simp] theorem storePlan_outBytes (s : State) (k : Nat) (w : DescWords) :
    (storePlan s k w).outBytes = s.outBytes := rfl
@[simp] theorem storePlan_planPc (s : State) (k : Nat) (w : DescWords) : (storePlan s k w).planPc = s.planPc := rfl
@[simp] theorem storePlan_cbufLen (s : State) (k : Nat) (w : DescWords) : (storePlan s k w).cbufLen = s.cbufLen := rfl
@[simp] theorem storePlan_crcValue (s : State) (k : Nat) (w : DescWords) :
    (storePlan s k w).crcValue = s.crcValue := rfl
@[simp] theorem storePlan_crcBytes (s : State) (k : Nat) (w : DescWords) :
    (storePlan s k w).crcBytes = s.crcBytes := rfl
@[simp] theorem storePlan_mem (s : State) (k : Nat) (w : DescWords) :
    (storePlan s k w).mem = (writeBytes s .plan (32 * k) ((descWordList w).flatMap wordBytes)).mem := rfl
@[simp] theorem storePlan_fromWd (s : State) (k : Nat) (w : DescWords) : (storePlan s k w).fromWd = s.fromWd := rfl
@[simp] theorem storePlan_inputs (s : State) (k : Nat) (w : DescWords) : (storePlan s k w).inputs = s.inputs := rfl
@[simp] theorem storePlan_hostData (s : State) (k : Nat) (w : DescWords) :
    (storePlan s k w).hostData = s.hostData := rfl
@[simp] theorem storePlan_freeCount (s : State) (k : Nat) (w : DescWords) :
    (storePlan s k w).freeCount = s.freeCount := rfl

/-! ## hostAny -/

@[simp] theorem hostAny_status (s : State) : (hostAny s).status = s.status := rfl
@[simp] theorem hostAny_err (s : State) : (hostAny s).err = s.err := rfl
@[simp] theorem hostAny_regs (s : State) : (hostAny s).regs = s.regs := rfl
@[simp] theorem hostAny_frameLen (s : State) : (hostAny s).frameLen = s.frameLen := rfl
@[simp] theorem hostAny_tempLen (s : State) : (hostAny s).tempLen = s.tempLen := rfl
@[simp] theorem hostAny_outCount (s : State) : (hostAny s).outCount = s.outCount := rfl
@[simp] theorem hostAny_outBytes (s : State) : (hostAny s).outBytes = s.outBytes := rfl
@[simp] theorem hostAny_planPc (s : State) : (hostAny s).planPc = s.planPc := rfl
@[simp] theorem hostAny_cbufLen (s : State) : (hostAny s).cbufLen = s.cbufLen := rfl
@[simp] theorem hostAny_crcValue (s : State) : (hostAny s).crcValue = s.crcValue := rfl
@[simp] theorem hostAny_crcBytes (s : State) : (hostAny s).crcBytes = s.crcBytes := rfl
@[simp] theorem hostAny_mem (s : State) : (hostAny s).mem = s.mem := rfl
@[simp] theorem hostAny_fromWd (s : State) : (hostAny s).fromWd = s.fromWd := rfl
@[simp] theorem hostAny_inputs (s : State) : (hostAny s).inputs = s.inputs := rfl
@[simp] theorem hostAny_hostData (s : State) : (hostAny s).hostData = Config.anyWord s.freeCount := rfl
@[simp] theorem hostAny_freeCount (s : State) : (hostAny s).freeCount = s.freeCount + 1 := rfl

/-! ## hostAnyByte -/

@[simp] theorem hostAnyByte_status (s : State) : (hostAnyByte s).status = s.status := rfl
@[simp] theorem hostAnyByte_err (s : State) : (hostAnyByte s).err = s.err := rfl
@[simp] theorem hostAnyByte_regs (s : State) : (hostAnyByte s).regs = s.regs := rfl
@[simp] theorem hostAnyByte_frameLen (s : State) : (hostAnyByte s).frameLen = s.frameLen := rfl
@[simp] theorem hostAnyByte_tempLen (s : State) : (hostAnyByte s).tempLen = s.tempLen := rfl
@[simp] theorem hostAnyByte_outCount (s : State) : (hostAnyByte s).outCount = s.outCount := rfl
@[simp] theorem hostAnyByte_outBytes (s : State) : (hostAnyByte s).outBytes = s.outBytes := rfl
@[simp] theorem hostAnyByte_planPc (s : State) : (hostAnyByte s).planPc = s.planPc := rfl
@[simp] theorem hostAnyByte_cbufLen (s : State) : (hostAnyByte s).cbufLen = s.cbufLen := rfl
@[simp] theorem hostAnyByte_crcValue (s : State) : (hostAnyByte s).crcValue = s.crcValue := rfl
@[simp] theorem hostAnyByte_crcBytes (s : State) : (hostAnyByte s).crcBytes = s.crcBytes := rfl
@[simp] theorem hostAnyByte_mem (s : State) : (hostAnyByte s).mem = s.mem := rfl
@[simp] theorem hostAnyByte_fromWd (s : State) : (hostAnyByte s).fromWd = s.fromWd := rfl
@[simp] theorem hostAnyByte_inputs (s : State) : (hostAnyByte s).inputs = s.inputs := rfl
@[simp] theorem hostAnyByte_hostData (s : State) :
    (hostAnyByte s).hostData = byteData ((Config.anyWord s.freeCount).setWidth 8) := rfl
@[simp] theorem hostAnyByte_freeCount (s : State) : (hostAnyByte s).freeCount = s.freeCount + 1 := rfl

/-! ## advance -/

@[simp] theorem advance_status (s : State) : (advance s).status = if s.fromWd then { flagsComplete s.status with main := .accum } else s.status := by
  unfold advance; split <;> rfl
@[simp] theorem advance_err (s : State) : (advance s).err = s.err := by
  unfold advance; split <;> rfl
@[simp] theorem advance_regs (s : State) : (advance s).regs = s.regs := by
  unfold advance; split <;> rfl
@[simp] theorem advance_frameLen (s : State) : (advance s).frameLen = s.frameLen := by
  unfold advance; split <;> rfl
@[simp] theorem advance_tempLen (s : State) : (advance s).tempLen = s.tempLen := by
  unfold advance; split <;> rfl
@[simp] theorem advance_outCount (s : State) : (advance s).outCount = s.outCount := by
  unfold advance; split <;> rfl
@[simp] theorem advance_outBytes (s : State) : (advance s).outBytes = s.outBytes := by
  unfold advance; split <;> rfl
@[simp] theorem advance_planPc (s : State) : (advance s).planPc = if s.fromWd then s.planPc else s.planPc + 1 := by
  unfold advance; split <;> rfl
@[simp] theorem advance_cbufLen (s : State) : (advance s).cbufLen = s.cbufLen := by
  unfold advance; split <;> rfl
@[simp] theorem advance_crcValue (s : State) : (advance s).crcValue = s.crcValue := by
  unfold advance; split <;> rfl
@[simp] theorem advance_crcBytes (s : State) : (advance s).crcBytes = s.crcBytes := by
  unfold advance; split <;> rfl
@[simp] theorem advance_mem (s : State) : (advance s).mem = s.mem := by
  unfold advance; split <;> rfl
@[simp] theorem advance_fromWd (s : State) : (advance s).fromWd = false := by
  unfold advance; split <;> simp_all
@[simp] theorem advance_inputs (s : State) : (advance s).inputs = s.inputs := by
  unfold advance; split <;> rfl
@[simp] theorem advance_hostData (s : State) : (advance s).hostData = s.hostData := by
  unfold advance; split <;> rfl
@[simp] theorem advance_freeCount (s : State) : (advance s).freeCount = s.freeCount := by
  unfold advance; split <;> rfl

end Sys2Proof.Machine
end

