-- ==== Sys2Proof/Laws/Memory.lean ====
section
/-! SUPPORT. The laws of the memory: read after write, the canonical form kept, and the same for byte strings of a
space. No later proof unfolds `memGet`, `memSet`, `readByte` or `writeBytes`. -/

namespace Sys2Proof.Machine

/-! ## Cells -/

theorem memGet_memSet (m : Memory) (x : Nat) (w : Byte) (y : Nat) :
    memGet (memSet m x w) y = if y = x then some w else memGet m y := by
  induction m with
  | nil => simp only [memSet, memGet]; grind
  | cons c r ih =>
    obtain ⟨a, v⟩ := c
    simp only [memSet]
    split
    · simp only [memGet]; grind
    · split
      · simp only [memGet]; grind
      · simp only [memGet, ih]; grind

theorem memGet_memSetMany (m : Memory) (x : Nat) (b : Bytes) (y : Nat) :
    memGet (memSetMany m x b) y = if x ≤ y ∧ y < x + b.length then b[y - x]? else memGet m y := by
  induction b generalizing m x with
  | nil => simp only [memSetMany, List.length_nil]; grind
  | cons c r ih =>
    simp only [memSetMany, ih, memGet_memSet, List.length_cons]
    rcases Nat.lt_trichotomy y x with h | h | h
    · grind
    · subst h; grind
    · have : y - x = (y - (x + 1)) + 1 := by omega
      rw [this, List.getElem?_cons_succ]
      grind

theorem mem_memSet {m : Memory} {x : Nat} {w : Byte} {c : Host.Cell} (h : c ∈ memSet m x w) : c = (x, w) ∨ c ∈ m := by
  induction m with
  | nil => simp only [memSet] at h; grind
  | cons d r ih => simp only [memSet] at h; grind

/-- A write keeps the addresses strictly rising. -/
theorem memSet_pairwise {m : Memory} (x : Nat) (w : Byte) (h : m.Pairwise fun c d => c.1 < d.1) :
    (memSet m x w).Pairwise fun c d => c.1 < d.1 := by
  induction m with
  | nil => simp [memSet]
  | cons d r ih =>
    obtain ⟨a, v⟩ := d
    rw [List.pairwise_cons] at h
    simp only [memSet]
    split
    · rename_i hx
      refine List.pairwise_cons.2 ⟨fun c hc => ?_, List.pairwise_cons.2 h⟩
      rcases List.mem_cons.1 hc with rfl | hc
      · exact hx
      · exact lt_trans hx (h.1 c hc)
    · split
      · rename_i hx
        subst hx
        exact List.pairwise_cons.2 h
      · refine List.pairwise_cons.2 ⟨fun c hc => ?_, ih h.2⟩
        rcases mem_memSet hc with rfl | hc
        · simp only; omega
        · exact h.1 c hc

/-! ## The address map -/

/-- The windows of two spaces do not overlap. -/
theorem windows_disjoint (q sp : Space) (h : q ≠ sp) :
    spaceBase q + spaceSize q ≤ spaceBase sp ∨ spaceBase sp + spaceSize sp ≤ spaceBase q := by
  revert h
  cases q <;> cases sp <;> decide

/-- Every offset below a space's size is an existing location, and the map finds it again (rule R40). -/
theorem locate_space {sp : Space} {off : Nat} (h : off < spaceSize sp) :
    locate (spaceBase sp + off) = some (sp, off) := by
  have hp : (fun q => decide (spaceBase q ≤ spaceBase sp + off) &&
      decide (spaceBase sp + off < spaceBase q + spaceSize q)) = fun q => decide (q = sp) := by
    funext q
    by_cases hq : q = sp
    · subst hq
      simp
      omega
    · have := windows_disjoint q sp hq
      rw [decide_eq_false hq, Bool.and_eq_false_iff, decide_eq_false_iff_not, decide_eq_false_iff_not]
      omega
  have hf : allSpaces.find? (fun q => decide (q = sp)) = some sp := by cases sp <;> decide
  simp only [locate, hp, hf, Option.map_some, Nat.add_sub_cancel_left]

/-- Two existing locations at one address are one location: the windows do not overlap (rule R40). -/
theorem address_injective {sp sp' : Space} {x y : Nat} (hx : x < spaceSize sp) (hy : y < spaceSize sp')
    (h : spaceBase sp + x = spaceBase sp' + y) : sp = sp' ∧ x = y := by
  have := locate_space hx
  rw [h, locate_space hy] at this
  simpa [eq_comm] using this

/-! ## The canonical form -/

theorem memSet_wf {m : Memory} {x : Nat} (w : Byte) (hx : (locate x).isSome = true) (h : Memory.wf m) :
    Memory.wf (memSet m x w) := by
  refine ⟨memSet_pairwise x w h.1, fun c hc => ?_⟩
  rcases mem_memSet hc with rfl | hc
  · exact hx
  · exact h.2 c hc

theorem memSetMany_wf {m : Memory} {x : Nat} {b : Bytes} (hx : ∀ i, i < b.length → (locate (x + i)).isSome = true)
    (h : Memory.wf m) : Memory.wf (memSetMany m x b) := by
  induction b generalizing m x with
  | nil => exact h
  | cons c r ih =>
    refine ih (fun i hi => ?_) (memSet_wf c ?_ h)
    · have := hx (i + 1) (by simp only [List.length_cons]; omega)
      rwa [show x + 1 + i = x + (i + 1) by omega]
    · simpa using hx 0 (by simp)

/-- Every write of the machine to its memories keeps the canonical form. -/
theorem writeBytes_wf {s : State} (sp : Space) (off : Nat) (b : Bytes) (h : Memory.wf s.mem) :
    Memory.wf (writeBytes s sp off b).mem := by
  refine memSetMany_wf (fun i hi => ?_) h
  simp only [List.length_take] at hi
  rw [Nat.add_assoc, locate_space (by omega)]
  rfl

theorem recordError_wf {s : State} (e : Err) (i : Word) (h : Memory.wf s.mem) : Memory.wf (recordError e i s).mem :=
  writeBytes_wf _ _ _ (writeBytes_wf _ _ _ h)

/-- The memory after reset has the canonical form. -/
theorem reset_wf : Memory.wf State.reset.mem := ⟨List.Pairwise.nil, fun c h => by cases h⟩

theorem memGet_eq_none_of_lt {m : Memory} {x : Nat} (h : ∀ c ∈ m, x < c.1) : memGet m x = none := by
  induction m with
  | nil => rfl
  | cons c r ih =>
    obtain ⟨a, v⟩ := c
    have := h (a, v) (by simp)
    simp only [memGet]
    rw [if_neg (by simp only at this; omega), ih fun d hd => h d (by simp [hd])]

/-- Equal memories are equal data: two memories in canonical form that read alike are the same list. -/
theorem memory_ext {m n : Memory} (hm : m.Pairwise fun c d => c.1 < d.1) (hn : n.Pairwise fun c d => c.1 < d.1)
    (h : ∀ x, memGet m x = memGet n x) : m = n := by
  induction m generalizing n with
  | nil =>
    cases n with
    | nil => rfl
    | cons d r =>
      have := h d.1
      simp [memGet] at this
  | cons c r ih =>
    obtain ⟨a, v⟩ := c
    cases n with
    | nil =>
      have := h a
      simp [memGet] at this
    | cons d q =>
      obtain ⟨b, w⟩ := d
      rw [List.pairwise_cons] at hm hn
      have ha : memGet r a = none := memGet_eq_none_of_lt hm.1
      have hb : memGet q b = none := memGet_eq_none_of_lt hn.1
      have hab : a = b := by
        by_contra hne
        rcases Nat.lt_or_gt_of_ne hne with hlt | hlt
        · have h1 := h a
          have h2 : memGet q a = none := memGet_eq_none_of_lt fun c hc => lt_trans hlt (hn.1 c hc)
          simp only [memGet, if_true, if_neg (Ne.symm hne), h2] at h1
          cases h1
        · have h1 := h b
          have h2 : memGet r b = none := memGet_eq_none_of_lt fun c hc => lt_trans hlt (hm.1 c hc)
          simp only [memGet, if_true, if_neg hne, h2] at h1
          cases h1
      subst hab
      have hv : v = w := by simpa [memGet] using h a
      subst hv
      rw [ih hm.2 hn.2]
      intro x
      by_cases hx : a = x
      · rw [← hx, ha, hb]
      · simpa [memGet, hx] using h x

/-! ## One byte of a space -/

theorem readByte_congr {s t : State} (h : t.mem = s.mem) (sp : Space) (x : Nat) : readByte t sp x = readByte s sp x := by
  unfold readByte
  rw [h]

/-- What a read after a write gives: the written byte inside the written range, the old byte everywhere else. -/
theorem readByte_writeBytes (s : State) (sp : Space) (off : Nat) (b : Bytes) (sp' : Space) (x : Nat) :
    readByte (writeBytes s sp off b) sp' x =
      if sp' = sp ∧ off ≤ x ∧ x < off + b.length ∧ x < spaceSize sp then .ok (b.getD (x - off) 0)
      else readByte s sp' x := by
  unfold readByte
  by_cases hx : spaceSize sp' ≤ x
  · rw [if_pos hx, if_pos hx, if_neg]
    rintro ⟨rfl, -, -, h⟩
    omega
  · rw [if_neg hx, if_neg hx, writeBytes_mem, memGet_memSetMany]
    simp only [List.length_take]
    by_cases hr : sp' = sp ∧ off ≤ x ∧ x < off + b.length ∧ x < spaceSize sp
    · obtain ⟨rfl, h1, h2, h3⟩ := hr
      rw [if_pos (by omega), if_pos ⟨rfl, h1, h2, h3⟩]
      have he : spaceBase sp' + x - (spaceBase sp' + off) = x - off := by omega
      rw [he, List.getElem?_take_of_lt (by omega)]
      have : x - off < b.length := by omega
      simp [List.getD, List.getElem?_eq_getElem this]
    · rw [if_neg hr]
      by_cases hc : spaceBase sp + off ≤ spaceBase sp' + x ∧
          spaceBase sp' + x < spaceBase sp + off + min (spaceSize sp - off) b.length
      · exfalso
        apply hr
        obtain ⟨y, hy⟩ := Nat.exists_eq_add_of_le hc.1
        obtain ⟨h1, h2⟩ := address_injective (sp := sp') (sp' := sp) (x := x) (y := off + y) (by omega) (by omega)
          (by omega)
        subst h1
        exact ⟨rfl, by omega, by omega, by omega⟩
      · rw [if_neg hc]

theorem readByte_writeBytes_of_ne {s : State} {sp sp' : Space} (h : sp' ≠ sp) (off : Nat) (b : Bytes) (x : Nat) :
    readByte (writeBytes s sp off b) sp' x = readByte s sp' x := by
  rw [readByte_writeBytes, if_neg fun hc => h hc.1]

/-! ## Byte strings of a space -/

theorem readBytes_eq_ok_iff {s : State} {sp : Space} {off n : Nat} {b : Bytes} :
    readBytes s sp off n = .ok b ↔ b.length = n ∧ ∀ i, i < n → readByte s sp (off + i) = .ok (b.getD i 0) := by
  induction n generalizing off b with
  | zero =>
    simp only [readBytes, Except.ok.injEq]
    constructor
    · rintro rfl
      exact ⟨rfl, fun i hi => absurd hi (by omega)⟩
    · rintro ⟨h, -⟩
      exact (List.length_eq_zero_iff.1 h).symm
  | succ n ih =>
    simp only [readBytes]
    cases hc : readByte s sp off with
    | error e =>
      simp only [bind, Except.bind, reduceCtorEq, false_iff, not_and, not_forall]
      intro _
      refine ⟨0, by omega, ?_⟩
      simp [hc]
    | ok c =>
      cases hr : readBytes s sp (off + 1) n with
      | error e =>
        simp only [bind, Except.bind, reduceCtorEq, false_iff]
        rintro ⟨hl, hi⟩
        have : readBytes s sp (off + 1) n = .ok b.tail := by
          refine ih.2 ⟨by simp; omega, fun i h => ?_⟩
          have := hi (i + 1) (by omega)
          rw [show off + (i + 1) = off + 1 + i by omega] at this
          rw [this]
          cases b <;> simp
        rw [hr] at this
        cases this
      | ok r =>
        simp only [bind, Except.bind, pure, Except.pure, Except.ok.injEq]
        obtain ⟨hl, hi⟩ := ih.1 hr
        constructor
        · rintro rfl
          refine ⟨by simp [hl], fun i h => ?_⟩
          cases i with
          | zero => simpa using hc
          | succ i =>
            rw [show off + (i + 1) = off + 1 + i by omega, hi i (by omega)]
            simp
        · rintro ⟨h1, h2⟩
          cases b with
          | nil => simp at h1
          | cons d q =>
            have h0 := h2 0 (by omega)
            simp only [Nat.add_zero, hc, List.getD_cons_zero, Except.ok.injEq] at h0
            have : readBytes s sp (off + 1) n = .ok q := by
              refine ih.2 ⟨by simpa using h1, fun i h => ?_⟩
              have := h2 (i + 1) (by omega)
              rw [show off + (i + 1) = off + 1 + i by omega] at this
              simpa using this
            rw [hr] at this
            rw [h0, Except.ok.inj this]

theorem readBytes_length {s : State} {sp : Space} {off n : Nat} {b : Bytes} (h : readBytes s sp off n = .ok b) :
    b.length = n := (readBytes_eq_ok_iff.1 h).1

theorem readBytes_congr {s t : State} {sp : Space} {off n : Nat}
    (h : ∀ i, i < n → readByte t sp (off + i) = readByte s sp (off + i)) :
    readBytes t sp off n = readBytes s sp off n := by
  induction n generalizing off with
  | zero => rfl
  | succ n ih =>
    simp only [readBytes]
    rw [show readByte t sp off = readByte s sp off from h 0 (by omega)]
    rw [ih fun i hi => by rw [show off + 1 + i = off + (i + 1) by omega]; exact h (i + 1) (by omega)]

theorem readBytes_congr_mem {s t : State} (h : t.mem = s.mem) (sp : Space) (off n : Nat) :
    readBytes t sp off n = readBytes s sp off n := readBytes_congr fun _ _ => readByte_congr h _ _

/-- What was written reads back, where it fits its space. -/
theorem readBytes_writeBytes_self {s : State} {sp : Space} {off : Nat} {b : Bytes} (h : off + b.length ≤ spaceSize sp) :
    readBytes (writeBytes s sp off b) sp off b.length = .ok b := by
  refine readBytes_eq_ok_iff.2 ⟨rfl, fun i hi => ?_⟩
  rw [readByte_writeBytes, if_pos ⟨rfl, by omega, by omega, by omega⟩, Nat.add_sub_cancel_left]

/-- A write leaves every byte string outside it alone. -/
theorem readBytes_writeBytes_of_disjoint {s : State} {sp sp' : Space} {off x n : Nat} {b : Bytes}
    (h : sp' ≠ sp ∨ x + n ≤ off ∨ off + b.length ≤ x) :
    readBytes (writeBytes s sp off b) sp' x n = readBytes s sp' x n := by
  refine readBytes_congr fun i hi => ?_
  rw [readByte_writeBytes, if_neg]
  rintro ⟨rfl, h1, h2, h3⟩
  rcases h with h | h | h
  · exact h rfl
  · omega
  · omega

theorem readBytes_append {s : State} {sp : Space} {off m n : Nat} {a b : Bytes} (ha : readBytes s sp off m = .ok a)
    (hb : readBytes s sp (off + m) n = .ok b) : readBytes s sp off (m + n) = .ok (a ++ b) := by
  obtain ⟨la, ga⟩ := readBytes_eq_ok_iff.1 ha
  obtain ⟨lb, gb⟩ := readBytes_eq_ok_iff.1 hb
  refine readBytes_eq_ok_iff.2 ⟨by simp [la, lb], fun i hi => ?_⟩
  by_cases h : i < m
  · rw [ga i h, List.getD_append _ _ _ _ (by omega)]
  · have := gb (i - m) (by omega)
    rw [show off + m + (i - m) = off + i by omega] at this
    rw [this, List.getD_append_right _ _ _ _ (by omega), la]

/-- A part of a byte string that reads. -/
theorem readBytes_part {s : State} {sp : Space} {off n : Nat} {b : Bytes} (h : readBytes s sp off n = .ok b) {i k : Nat}
    (hk : i + k ≤ n) : readBytes s sp (off + i) k = .ok (slice b i (i + k)) := by
  rw [readBytes_eq_ok_iff] at h ⊢
  obtain ⟨h1, h2⟩ := h
  refine ⟨by simp [slice]; omega, fun j hj => ?_⟩
  rw [Nat.add_assoc, h2 (i + j) (by omega)]
  simp [slice, hj]

/-- A read of bytes that all hold a value succeeds. -/
theorem readBytes_of_written {s : State} {sp : Space} {off n : Nat}
    (h : ∀ i, i < n → ∃ b, readByte s sp (off + i) = .ok b) : ∃ b, readBytes s sp off n = .ok b := by
  induction n generalizing off with
  | zero => exact ⟨[], rfl⟩
  | succ n ih =>
    obtain ⟨c, hc⟩ := h 0 (by omega)
    obtain ⟨r, hr⟩ := ih (off := off + 1) fun i hi => by
      rw [show off + 1 + i = off + (i + 1) by omega]
      exact h (i + 1) (by omega)
    refine ⟨c :: r, ?_⟩
    simp only [Nat.add_zero] at hc
    simp [readBytes, hc, hr, bind, Except.bind, pure, Except.pure]

/-! ## PLAN -/

@[simp] theorem wordBytes_length (w : Word) : (wordBytes w).length = 4 := rfl

@[simp] theorem bytesWord_wordBytes (w : Word) : bytesWord (wordBytes w) = w := by
  simp only [wordBytes, bytesWord]
  ext i hi
  simp only [BitVec.getElem_append, BitVec.getElem_extractLsb']
  grind

end Sys2Proof.Machine
end

