-- ==== Sys2Proof/Laws/Ops.lean ====
section
/-! SUPPORT. What the shared operations of Machine/Ops.lean can do, said once: computations that end early, taking an
error, acceptance and completion of a command. -/

namespace Sys2Proof.Machine

/-! ## Computations that end early -/

theorem res_bind_eq_ok {α β : Type} {x : Res α} {f : α → Res β} {b : β} :
    (x >>= f) = .ok b ↔ ∃ a, x = .ok a ∧ f a = .ok b := by
  cases x with
  | error e => simp [bind, Except.bind]
  | ok a => simp [bind, Except.bind]

theorem res_bind_eq_error {α β : Type} {x : Res α} {f : α → Res β} {e : Stop} :
    (x >>= f) = .error e ↔ x = .error e ∨ ∃ a, x = .ok a ∧ f a = .error e := by
  cases x with
  | error e => simp [bind, Except.bind]
  | ok a => simp [bind, Except.bind]

@[simp] theorem res_ok_bind {α β : Type} (a : α) (f : α → Res β) : ((.ok a : Res α) >>= f) = f a := rfl

@[simp] theorem res_error_bind {α β : Type} (e : Stop) (f : α → Res β) : ((.error e : Res α) >>= f) = .error e := rfl

@[simp] theorem res_pure_eq {α : Type} (a : α) : (pure a : Res α) = .ok a := rfl

@[simp] theorem liftE_ok {α : Type} (a : α) : liftE (.ok a) = .ok a := rfl

@[simp] theorem liftE_error {α : Type} (e : Err) : (liftE (.error e) : Res α) = .error (.raise e) := rfl

@[simp] theorem raise_eq {α : Type} (e : Err) : (raise e : Res α) = .error (.raise e) := rfl

theorem liftE_eq_ok {α : Type} {x : Except Err α} {a : α} : liftE x = .ok a ↔ x = .ok a := by
  cases x <;> simp

/-- A pure part of a command never faults. -/
theorem liftE_ne_fault {α : Type} (x : Except Err α) (f : Fault) : liftE x ≠ .error (.fault f) := by
  cases x <;> simp

@[simp] theorem attempt_ok {α : Type} (a : α) (onErr : Err → State) (next : α → Out) :
    attempt (.ok a) onErr next = next a := rfl

@[simp] theorem attempt_raise {α : Type} (e : Err) (onErr : Err → State) (next : α → Out) :
    attempt (.error (.raise e)) onErr next = .next (onErr e) := rfl

@[simp] theorem attempt_fault {α : Type} (f : Fault) (onErr : Err → State) (next : α → Out) :
    attempt (.error (.fault f)) onErr next = .fault f := rfl

/-- What an attempt can answer as a next state: what follows it, or its error taken. -/
theorem attempt_eq_next {α : Type} {part : Res α} {onErr : Err → State} {next : α → Out} {t : State}
    (h : attempt part onErr next = .next t) :
    (∃ a, part = .ok a ∧ next a = .next t) ∨ ∃ e, part = .error (.raise e) ∧ t = onErr e := by
  unfold attempt at h
  split at h
  · exact .inl ⟨_, rfl, h⟩
  · exact .inr ⟨_, rfl, by injection h with h; exact h.symm⟩
  · cases h

/-- An attempt is refused only by what follows it. -/
theorem attempt_eq_refused {α : Type} {part : Res α} {onErr : Err → State} {next : α → Out} {r : Refusal}
    (h : attempt part onErr next = .refused r) : ∃ a, part = .ok a ∧ next a = .refused r := by
  unfold attempt at h
  split at h
  · exact ⟨_, rfl, h⟩
  · cases h
  · cases h

/-! ## Taking an error (rules R285, R290, R292) -/

/-- An error record changes no byte but those of its two buffers. -/
theorem readByte_recordError (e : Err) (i : Word) (s : State) {sp : Space} (h : sp ≠ .errExp ∧ sp ≠ .errAct) (x : Nat) :
    readByte (recordError e i s) sp x = readByte s sp x := by
  have : (recordError e i s).mem = (writeBytes (writeBytes s .errExp 0 (e.expBytes.take Config.errbufMax)) .errAct 0
      (e.actBytes.take Config.errbufMax)).mem := rfl
  rw [readByte_congr this, readByte_writeBytes_of_ne h.2, readByte_writeBytes_of_ne h.1]

theorem readByte_failCapsule (e : Err) (i : Word) (s : State) {sp : Space} (h : sp ≠ .errExp ∧ sp ≠ .errAct) (x : Nat) :
    readByte (failCapsule e i s) sp x = readByte s sp x := by
  rw [readByte_congr (failCapsule_mem e i s), readByte_recordError e i s h]

theorem readByte_failEngine (e : Err) (s : State) {sp : Space} (h : sp ≠ .errExp ∧ sp ≠ .errAct) (x : Nat) :
    readByte (failEngine e s) sp x = readByte s sp x := by
  rw [readByte_congr (failEngine_mem e s), readByte_recordError e noIndex s h]

theorem num_toNat {n : Nat} (h : n < 2 ^ 32) : (num n).toNat = n := by
  simp only [num, BitVec.toNat_ofNat]
  exact Nat.mod_eq_of_lt h

theorem take_errbuf_length (b : Bytes) : (b.take Config.errbufMax).length ≤ 256 := by
  simp only [List.length_take, Config.errbufMax]
  omega

/-- The two byte sequences of the record read back as the first ERRBUF_MAX bytes of what was raised. -/
theorem recordError_buffers (e : Err) (i : Word) (s : State) :
    readBytes (recordError e i s) .errExp 0 (recordError e i s).err.expLen.toNat
        = .ok (e.expBytes.take Config.errbufMax) ∧
      readBytes (recordError e i s) .errAct 0 (recordError e i s).err.actLen.toNat
        = .ok (e.actBytes.take Config.errbufMax) := by
  have hx := take_errbuf_length e.expBytes
  have ha := take_errbuf_length e.actBytes
  have hs : spaceSize .errExp = 256 ∧ spaceSize .errAct = 256 := ⟨rfl, rfl⟩
  have hm : (recordError e i s).mem = (writeBytes (writeBytes s .errExp 0 (e.expBytes.take Config.errbufMax)) .errAct 0
      (e.actBytes.take Config.errbufMax)).mem := rfl
  rw [readBytes_congr_mem hm, readBytes_congr_mem hm]
  simp only [recordError_err]
  rw [num_toNat (by omega), num_toNat (by omega)]
  refine ⟨?_, readBytes_writeBytes_self (by omega)⟩
  rw [readBytes_writeBytes_of_disjoint (.inl (by decide)), readBytes_writeBytes_self (by omega)]

/-! ## The life of a command (rules R268, R269, R271) -/

theorem commandAccepted_iff {c : CommandRow} {s : State} :
    commandAccepted c s = true ↔ accepts c s.status.main = true ∧ s.status.busy = false := by
  simp [commandAccepted]

end Sys2Proof.Machine
end

