-- ==== Sys2Proof/Laws/Translators.lean ====
section
/-! SUPPORT. What a descriptor can do, said once: the two appends (rules R78, R243), one descriptor on decode (R219) and
on encode (R244), and its execution by the sequencer. -/

namespace Sys2Proof.Machine

/-! ## The appends -/

theorem appendOut_eq_ok {rf : Rawfield} {s t : State} :
    appendOut rf s = .ok t ↔ outFits rf s ∧ t = outAppended rf s := by
  unfold appendOut
  split
  · rename_i h
    exact ⟨fun e => ⟨h, by injection e with e; exact e.symm⟩, fun e => by rw [e.2]⟩
  · rename_i h
    exact ⟨fun e => (by cases e), fun e => absurd e.1 h⟩

theorem appendOut_eq_error {rf : Rawfield} {s : State} {x : Stop} :
    appendOut rf s = .error x ↔ ¬ outFits rf s ∧ x = .raise (outOverflow rf s) := by
  unfold appendOut
  split
  · rename_i h
    exact ⟨fun e => (by cases e), fun e => absurd h e.1⟩
  · rename_i h
    exact ⟨fun e => ⟨h, by injection e with e; exact e.symm⟩, fun e => by rw [e.2]; rfl⟩

theorem appendFrame_eq_ok {fb : Bytes} {rf : Rawfield} {s t : State} :
    appendFrame fb rf s = .ok t ↔
      s.frameLen.toNat + fb.length ≤ Config.frameMax ∧ outFits rf s ∧ t = frameAppended fb (outAppended rf s) := by
  unfold appendFrame
  split
  · rename_i h
    simp [Nat.not_le.mpr h]
  · rename_i h
    by_cases hf : outFits rf s
    · rw [appendOut_eq_ok.mpr ⟨hf, rfl⟩]
      exact ⟨fun e => ⟨Nat.not_lt.mp h, hf, by injection e with e; exact e.symm⟩, fun e => by rw [e.2.2]; rfl⟩
    · simp [appendOut_eq_error.mpr ⟨hf, rfl⟩, Except.map, hf]

theorem appendFrame_ne_fault (fb : Bytes) (rf : Rawfield) (s : State) (f : Fault) :
    appendFrame fb rf s ≠ .error (.fault f) := by
  unfold appendFrame
  split
  · simp
  · by_cases hf : outFits rf s
    · simp [appendOut_eq_ok.mpr ⟨hf, rfl⟩, Except.map]
    · simp [appendOut_eq_error.mpr ⟨hf, rfl⟩, Except.map]

theorem outRecord_length (rf : Rawfield) : (outRecord rf).length = outNeed rf := by
  simp [outRecord, outNeed, beN]
  omega

/-- An append to OUT changes only the bytes after OUT_BYTES. -/
theorem readByte_outAppended (rf : Rawfield) (s : State) (sp : Space) (x : Nat)
    (h : ¬ (sp = .out ∧ s.outBytes.toNat ≤ x ∧ x < s.outBytes.toNat + outNeed rf)) :
    readByte (outAppended rf s) sp x = readByte s sp x := by
  rw [readByte_congr (show (outAppended rf s).mem = (writeBytes s .out s.outBytes.toNat (outRecord rf)).mem from rfl),
    readByte_writeBytes, outRecord_length]
  split
  · rename_i hc
    exact absurd ⟨hc.1, hc.2.1, hc.2.2.1⟩ h
  · rfl

/-- An append to FRAME changes only the bytes after FRAME_LEN. -/
theorem readByte_frameAppended (fb : Bytes) (s : State) (sp : Space) (x : Nat)
    (h : ¬ (sp = .frame ∧ s.frameLen.toNat ≤ x ∧ x < s.frameLen.toNat + fb.length)) :
    readByte (frameAppended fb s) sp x = readByte s sp x := by
  rw [readByte_congr (show (frameAppended fb s).mem = (writeBytes s .frame s.frameLen.toNat fb).mem from rfl),
    readByte_writeBytes]
  split
  · rename_i hc
    exact absurd ⟨hc.1, hc.2.1, hc.2.2.1⟩ h
  · rfl

/-! ## One descriptor -/

/-- A descriptor on decode leaves the state as it is (it does not apply), or appends one record. -/
theorem extractField_eq_ok {s t : State} {k : Kind} {ft : FType} {d : Desc} (h : extractField s k ft d = .ok t) :
    illegalCondition s k ft d = .ok none ∧
      ((applies d s.regs = false ∧ t = s) ∨
        ∃ raw rf, applies d s.regs = true ∧ d.startIndex.toNat ≤ d.endIndex.toNat ∧ d.endIndex.toNat ≤ s.tempLen.toNat ∧
          readBytes s .temp d.startIndex.toNat (capacity d) = .ok raw ∧ translate s k ft d raw = .ok rf ∧
          outFits rf s ∧ t = outAppended rf s) := by
  unfold extractField at h
  obtain ⟨c, hc, h⟩ := res_bind_eq_ok.mp h
  cases c with
  | some n => simp at h
  | none =>
    refine ⟨hc, ?_⟩
    dsimp only at h
    by_cases ha : applies d s.regs = true
    · rw [if_neg (by simp [ha])] at h
      split at h
      · simp at h
      · rename_i hr
        obtain ⟨raw, h1, h⟩ := res_bind_eq_ok.mp h
        obtain ⟨rf, h2, h⟩ := res_bind_eq_ok.mp h
        obtain ⟨h3, h4⟩ := appendOut_eq_ok.mp h
        exact .inr ⟨raw, rf, ha, by omega, by omega, h1, h2, h3, h4⟩
    · rw [if_pos (by simpa using ha)] at h
      simp only [res_pure_eq, Except.ok.injEq] at h
      exact .inl ⟨by simpa using ha, h.symm⟩

/-- What `ENCODE_FIELD` gives: the emitted bytes are the record's bytes. -/
theorem encodeField_eq_ok {s : State} {k : Kind} {ft : FType} {d : Desc} {v fb : Bytes} {rf : Rawfield}
    (h : encodeField s k ft d v = .ok (fb, rf)) : rf.bytes = fb ∧ rf.tag = d.tag ∧ rf.pos = d.pos := by
  unfold encodeField at h
  split at h
  · simp at h
  · obtain ⟨⟨b, value⟩, -, h⟩ := res_bind_eq_ok.mp h
    obtain ⟨title, -, h⟩ := res_bind_eq_ok.mp h
    simp only [res_pure_eq, Except.ok.injEq, Prod.mk.injEq] at h
    obtain ⟨rfl, rfl⟩ := h
    exact ⟨rfl, rfl, rfl⟩

/-- A descriptor on encode leaves the state as it is (it does not apply, or is omitted), or appends its bytes to FRAME
and one record to OUT. -/
theorem emitField_eq_ok {s t : State} {k : Kind} {ft : FType} {d : Desc} (h : emitField s k ft d = .ok t) :
    illegalCondition s k ft d = .ok none ∧
      (((applies d s.regs = false ∨ suppliedValue s k d = .ok none) ∧ t = s) ∨
        ∃ v fb rf, applies d s.regs = true ∧ suppliedValue s k d = .ok (some v) ∧ encodeField s k ft d v = .ok (fb, rf) ∧
          rf.bytes = fb ∧ s.frameLen.toNat + fb.length ≤ Config.frameMax ∧ outFits rf s ∧
          t = frameAppended fb (outAppended rf s)) := by
  unfold emitField at h
  obtain ⟨c, hc, h⟩ := res_bind_eq_ok.mp h
  cases c with
  | some n => simp at h
  | none =>
    refine ⟨hc, ?_⟩
    dsimp only at h
    by_cases ha : applies d s.regs = true
    · rw [if_neg (by simp [ha])] at h
      obtain ⟨v, hv, h⟩ := res_bind_eq_ok.mp h
      cases v with
      | none =>
        simp only [res_pure_eq, Except.ok.injEq] at h
        exact .inl ⟨.inr hv, h.symm⟩
      | some v =>
        obtain ⟨⟨fb, rf⟩, h1, h⟩ := res_bind_eq_ok.mp h
        obtain ⟨h2, h3, h4⟩ := appendFrame_eq_ok.mp h
        exact .inr ⟨v, fb, rf, ha, hv, h1, (encodeField_eq_ok h1).1, h2, h3, h4⟩
    · rw [if_pos (by simpa using ha)] at h
      simp only [res_pure_eq, Except.ok.injEq] at h
      exact .inl ⟨.inl (by simpa using ha), h.symm⟩

/-! ## Execution by the sequencer -/

/-- What a descriptor can answer as a next state: a command is running, and the descriptor took effect and PLAN_PC
advanced, or its error failed the capsule. -/
theorem runDescriptor_eq_next {k : Kind} {ft : FType} {d : Desc} {s t : State} (h : runDescriptor k ft d s = .next t) :
    s.status.busy = true ∧
      ((s.status.main = .reading ∧
          ((∃ s1, extractField s k ft d = .ok s1 ∧ t = advance s1) ∨
            ∃ e, extractField s k ft d = .error (.raise e) ∧ t = failCapsule e (descIndex s) s)) ∨
        (s.status.main = .encoding ∧
          ((∃ s1, emitField s k ft d = .ok s1 ∧ t = advance s1) ∨
            ∃ e, emitField s k ft d = .error (.raise e) ∧ t = failCapsule e (descIndex s) s))) := by
  unfold runDescriptor at h
  split at h
  · cases h
  · rename_i hb
    refine ⟨by simpa using hb, ?_⟩
    split at h <;> first | cases h | skip
    · rename_i hm
      refine .inl ⟨hm, ?_⟩
      obtain ⟨s1, h1, h2⟩ | ⟨e, h1, h2⟩ := attempt_eq_next h
      · exact .inl ⟨s1, h1, by injection h2 with h2; exact h2.symm⟩
      · exact .inr ⟨e, h1, h2⟩
    · rename_i hm
      refine .inr ⟨hm, ?_⟩
      obtain ⟨s1, h1, h2⟩ | ⟨e, h1, h2⟩ := attempt_eq_next h
      · exact .inl ⟨s1, h1, by injection h2 with h2; exact h2.symm⟩
      · exact .inr ⟨e, h1, h2⟩

/-- On decode a descriptor is its extraction, then PLAN_PC counted up. -/
theorem runDescriptor_reading {k : Kind} {ft : FType} {d : Desc} {s : State} (hb : s.status.busy = true)
    (hm : s.status.main = .reading) :
    runDescriptor k ft d s =
      attempt (extractField s k ft d) (fun e => failCapsule e (descIndex s) s) fun s1 => .next (advance s1) := by
  simp [runDescriptor, hb, hm]

/-- On encode a descriptor is its emission, then PLAN_PC counted up. -/
theorem runDescriptor_encoding {k : Kind} {ft : FType} {d : Desc} {s : State} (hb : s.status.busy = true)
    (hm : s.status.main = .encoding) :
    runDescriptor k ft d s =
      attempt (emitField s k ft d) (fun e => failCapsule e (descIndex s) s) fun s1 => .next (advance s1) := by
  simp [runDescriptor, hb, hm]

end Sys2Proof.Machine
end

