-- ==== Sys2Proof/Laws/Sequencer.lean ====
section
/-! SUPPORT. The sequencer, said once: the meanings it runs inside a command are the meanings of `exec`, what one step
of it can answer, and how a property goes through a whole run. -/

namespace Sys2Proof.Machine

/-! ## The sequencer runs the meanings of `exec` -/

/-- The kind, type and operands of a decoded descriptor give it back. -/
theorem descriptor_mkDescriptor (k : Kind) (ft : FType) (d : Desc) (h : k = .convert ∨ ft = .bcd) :
    (mkDescriptor k ft d).descriptor? = some (k, ft, d) := by
  cases k <;> cases ft <;> simp_all [mkDescriptor, Instr.descriptor?]

/-- Every descriptor instruction is executed by the one shared operation on its kind, type and operands. -/
theorem exec_descriptor {i : Instr} {k : Kind} {ft : FType} {d : Desc} (h : i.descriptor? = some (k, ft, d)) (s : State) :
    exec i s = runDescriptor k ft d s := by
  cases i <;> cases h <;> rfl

/-- Inside a command the sequencer runs the meaning `exec` gives the descriptor. -/
theorem execDescriptor_eq_exec {i : Instr} (h : i.isDescriptor = true) (s : State) : execDescriptor i s = exec i s := by
  cases i <;> first | rfl | cases h

/-- Eight words decode to a descriptor instruction or to none. -/
theorem decodeWords_isDescriptor {w : DescWords} {i : Instr} (h : decodeWords (descWordList w) = .ok i) :
    i.isDescriptor = true := by
  have h : decodeDescriptor w = .ok i := h
  unfold decodeDescriptor at h
  split at h
  · cases h
  · split at h
    · cases h
    · rename_i _ k _ _ ft _
      split at h
      · cases h
      · rename_i hc
        injection h with h
        subst h
        have hk : k = .convert ∨ ft = .bcd := by
          by_cases hk : k = .convert
          · exact .inl hk
          · exact .inr (by_contra fun hf => hc ⟨hk, hf⟩)
        simp [Instr.isDescriptor, descriptor_mkDescriptor k ft _ hk]

/-- One word decodes to a command or to none. -/
theorem decodeWords_isCommand {w : Word} {i : Instr} (h : decodeWords [w] = .ok i) : i.isDescriptor = false := by
  have h : decodeCommand w = .ok i := h
  unfold decodeCommand at h
  dsimp only at h
  split at h
  all_goals first
    | (injection h with h; subst h; rfl)
    | cases h
    | skip
  split at h
  · injection h with h; subst h; rfl
  · split at h
    · injection h with h; subst h; rfl
    · cases h

theorem runWords_execDescriptor (w : DescWords) (s : State) : runWords execDescriptor w s = runWords exec w s := by
  unfold runWords
  split
  · rename_i i h
    exact execDescriptor_eq_exec (decodeWords_isDescriptor h) s
  · rfl

/-- One step inside a command is one step at the level of the machine. -/
theorem seqStep_execDescriptor (s : State) : seqStep execDescriptor s = seqStep exec s := by
  unfold seqStep
  simp only [runWords_execDescriptor]

theorem runSeq_execDescriptor (n : Nat) (s : State) : runSeq execDescriptor n s = runSeq exec n s := by
  induction n generalizing s with
  | zero => rfl
  | succ n ih => simp only [runSeq, seqStep_execDescriptor, ih]

/-! ## One step of the sequencer -/

/-- A word list executed: it is no instruction and fails the capsule, or it is a descriptor. -/
theorem runWords_eq (w : DescWords) (s : State) :
    (∃ e, decodeWords (descWordList w) = .error e ∧
        runWords exec w s = .next (failCapsule (illegalErr (decodeErrorCondition e)) (descIndex s) s)) ∨
      ∃ i k ft d, decodeWords (descWordList w) = .ok i ∧ i.descriptor? = some (k, ft, d) ∧
        runWords exec w s = runDescriptor k ft d s := by
  unfold runWords
  split
  · rename_i i h
    have hd := decodeWords_isDescriptor h
    obtain ⟨⟨k, ft, d⟩, hk⟩ := Option.isSome_iff_exists.mp hd
    exact .inr ⟨i, k, ft, d, h, hk, exec_descriptor hk s⟩
  · rename_i e h
    exact .inl ⟨e, h, rfl⟩

/-- What one step of a running command can answer as a next state: a descriptor executed (from the write descriptor,
or from PLAN[PLAN_PC] below PLAN_LEN), or the end of the plan. -/
theorem seqStep_eq_next {s t : State} (h : seqStep exec s = .next t) :
    s.status.busy = true ∧ (s.status.main = .reading ∨ s.status.main = .encoding) ∧
      ((s.fromWd = true ∧ runWords exec s.regs.wd s = .next t) ∨
        (s.fromWd = false ∧ s.planPc.toNat < s.regs.planLen.toNat ∧
          ∃ w, fetchPlan s s.planPc.toNat = .ok w ∧ runWords exec w s = .next t) ∨
        (s.fromWd = false ∧ s.planPc.toNat < s.regs.planLen.toNat ∧
          ∃ e, fetchPlan s s.planPc.toNat = .error (.raise e) ∧ t = failCapsule e (descIndex s) s) ∨
        (s.fromWd = false ∧ s.regs.planLen.toNat ≤ s.planPc.toNat ∧ endOfPlan s = .next t)) := by
  unfold seqStep at h
  split at h
  · cases h
  · rename_i hb
    have hm : s.status.main = .reading ∨ s.status.main = .encoding := by
      split at h <;> first | cases h | skip
      · rename_i hm; exact .inl hm
      · rename_i hm; exact .inr hm
    refine ⟨by simpa using hb, hm, ?_⟩
    obtain hm | hm := hm <;> simp only [hm] at h <;> split at h
    all_goals
      rename_i hf
      first
      | exact .inl ⟨hf, h⟩
      | have hf : s.fromWd = false := by simpa using hf
        split at h
        · rename_i hl
          split at h
          · rename_i w hw
            exact .inr (.inl ⟨hf, hl, w, hw, h⟩)
          · rename_i e he
            exact .inr (.inr (.inl ⟨hf, hl, e, he, by injection h with h; exact h.symm⟩))
          · cases h
        · rename_i hl
          exact .inr (.inr (.inr ⟨hf, Nat.le_of_not_lt hl, h⟩))

/-! ## A whole run -/

/-- A property that every step of a running command keeps holds where the run stands after any number of steps. -/
theorem runSeq_keeps {P : State → Prop} {run : Instr → State → Out}
    (hstep : ∀ s t, P s → s.status.busy = true → seqStep run s = .next t → P t) :
    ∀ n s t, P s → runSeq run n s = .next t → P t := by
  intro n
  induction n with
  | zero =>
    intro s t hs h
    simp only [runSeq] at h
    injection h with h
    exact h ▸ hs
  | succ n ih =>
    intro s t hs h
    simp only [runSeq] at h
    split at h
    · rename_i hb
      split at h
      · rename_i s1 h1
        exact ih s1 t (hstep s s1 hs hb h1) h
      · cases h
      · cases h
    · injection h with h
      exact h ▸ hs

/-- A run of `m + n` steps is a run of `m` and then one of `n`. -/
theorem runSeq_add (run : Instr → State → Out) (m n : Nat) (s : State) :
    runSeq run (m + n) s =
      match runSeq run m s with
      | .next s1 => runSeq run n s1
      | .fault f => .fault f
      | .refused r => .refused r := by
  induction m generalizing s with
  | zero => simp [runSeq]
  | succ m ih =>
    rw [Nat.succ_add]
    simp only [runSeq]
    by_cases hb : s.status.busy = true
    · simp only [hb, if_true]
      cases hs : seqStep run s with
      | next s1 => simpa using ih s1
      | fault f => rfl
      | refused r => rfl
    · simp only [if_neg hb]
      cases n with
      | zero => rfl
      | succ n => simp only [runSeq, if_neg hb]

end Sys2Proof.Machine
end

