-- ==== Sys2Proof/Laws/Commands.lean ====
section
/-! SUPPORT. What each command can answer, said once: refused with CMD_REJ, an error taken at a named point, or its
completion (rules R216, R241 to R250, R269, R271, R290, R292). -/

namespace Sys2Proof.Machine

/-! ## The reader's parts (rules R217 to R223) -/

/-- The tag check reads and compares; it answers nothing. -/
theorem tagCheck_eq_ok {s : State} {i p : Word} {c : ErrCause} (h : tagCheck s i p c = .ok ()) :
    (tagPtr p).len ≠ 0 ∧ ptrOutside (tagPtr p) = false ∧
      ∃ tag, tblStr s (tagPtr p) = .ok tag ∧
        readBytes s .frame (clamp s.frameLen.toNat (idx s.frameLen.toNat (s32 i)))
          (max (clamp s.frameLen.toNat (idx s.frameLen.toNat (s32 i)))
              (clamp s.frameLen.toNat (idx s.frameLen.toNat (s32 i) + (tagPtr p).len)) -
            clamp s.frameLen.toNat (idx s.frameLen.toNat (s32 i))) = .ok tag := by
  unfold tagCheck at h
  dsimp only at h
  split at h
  · cases h
  · rename_i hc
    obtain ⟨tag, h1, h⟩ := res_bind_eq_ok.mp h
    obtain ⟨actual, h2, h⟩ := res_bind_eq_ok.mp h
    split at h
    · cases h
    · rename_i he
      have he : actual = tag := by simpa using he
      subst he
      exact ⟨fun h0 => hc (.inl h0), by simpa using fun h0 => hc (.inr h0), actual, h1, h2⟩

/-- TEMP is filled whole, within its capacity. -/
theorem fillTemp_eq_ok {b : Bytes} {s t : State} :
    fillTemp b s = .ok t ↔ b.length ≤ Config.frameMax ∧ t = tempFilled b s := by
  unfold fillTemp
  split
  · rename_i h
    exact ⟨fun e => (by cases e), fun e => absurd e.1 (Nat.not_le.mpr h)⟩
  · rename_i h
    exact ⟨fun e => ⟨Nat.not_lt.mp h, by injection e with e; exact e.symm⟩, fun e => by rw [e.2]⟩

/-- Entry to ExtractFields changes TEMP and TEMP_LEN only. -/
theorem loadTemp_eq_ok {s t : State} (h : loadTemp s = .ok t) :
    ∃ b, b.length ≤ Config.frameMax ∧ t = tempFilled b s := by
  unfold loadTemp at h
  split at h
  · obtain ⟨⟨ps, pe⟩, -, h⟩ := res_bind_eq_ok.mp h
    obtain ⟨pt, -, h⟩ := res_bind_eq_ok.mp h
    obtain ⟨before, -, h⟩ := res_bind_eq_ok.mp h
    obtain ⟨after, -, h⟩ := res_bind_eq_ok.mp h
    exact ⟨_, fillTemp_eq_ok.mp h⟩
  · obtain ⟨b, -, h⟩ := res_bind_eq_ok.mp h
    exact ⟨_, fillTemp_eq_ok.mp h⟩

/-- ExpectChecksum and ExpectTail: an error in either state, or Done. -/
theorem finishDecode_eq_next {s t : State} (h : finishDecode s = .next t) :
    (∃ e, t = failCapsule e noIndex (setReader .expectChecksum s)) ∨
      ∃ swapped, checkLength (setReader .expectChecksum s) = .ok () ∧
        checkCrc (setReader .expectChecksum s) = .ok swapped ∧
        ((∃ e, t = failCapsule e noIndex (setReader .expectTail (setCrcSwapped swapped (setReader .expectChecksum s)))) ∨
          t = readerDone (setReader .expectTail (setCrcSwapped swapped (setReader .expectChecksum s)))) := by
  unfold finishDecode at h
  obtain ⟨⟨⟩, h1, h⟩ | ⟨e, -, h⟩ := attempt_eq_next h
  · obtain ⟨swapped, h2, h⟩ | ⟨e, -, h⟩ := attempt_eq_next h
    · refine .inr ⟨swapped, h1, h2, ?_⟩
      obtain ⟨-, -, h⟩ | ⟨e, -, h⟩ := attempt_eq_next h
      · exact .inr (by injection h with h; exact h.symm)
      · exact .inl ⟨e, h⟩
    · exact .inl ⟨e, h⟩
  · exact .inl ⟨e, h⟩

theorem finishDecode_ne_refused (s : State) (r : Refusal) : finishDecode s ≠ .refused r := by
  intro h
  unfold finishDecode at h
  obtain ⟨_, -, h⟩ := attempt_eq_refused h
  obtain ⟨_, -, h⟩ := attempt_eq_refused h
  obtain ⟨_, -, h⟩ := attempt_eq_refused h
  cases h

/-! ## DECODE -/

/-- DECODE: refused; failed at the head or on entry to ExtractFields; or its plan run from PLAN_PC = 0. -/
theorem execDecode_eq_next {a : BitVec 24} {s t : State} (h : execDecode a s = .next t) :
    (commandAccepted .decode s = false ∧ t = rejectCommand s) ∨
      (commandAccepted .decode s = true ∧
        ((∃ e, t = failCapsule e noIndex (beginDecode s)) ∨
          (checkHead (beginDecode s) = .ok () ∧
            ((∃ e, t = failCapsule e noIndex (setReader .extractFields (beginDecode s))) ∨
              ∃ b, b.length ≤ Config.frameMax ∧
                loadTemp (setReader .extractFields (beginDecode s)) =
                  .ok (tempFilled b (setReader .extractFields (beginDecode s))) ∧
                runSeq exec (planFuel s) (tempFilled b (setReader .extractFields (beginDecode s))) = .next t)))) := by
  unfold execDecode at h
  split at h
  · rename_i ha
    refine .inr ⟨ha, ?_⟩
    unfold decodeWith at h
    obtain ⟨⟨⟩, h1, h⟩ | ⟨e, -, h⟩ := attempt_eq_next h
    · refine .inr ⟨h1, ?_⟩
      obtain ⟨s1, h2, h⟩ | ⟨e, -, h⟩ := attempt_eq_next h
      · obtain ⟨b, hb, rfl⟩ := loadTemp_eq_ok h2
        rw [runSeq_execDescriptor] at h
        exact .inr ⟨b, hb, h2, h⟩
      · exact .inl ⟨e, h⟩
    · exact .inl ⟨e, h⟩
  · rename_i ha
    exact .inl ⟨by simpa using ha, by injection h with h; exact h.symm⟩

/-! ## The writer's commands -/

/-- The raw form appends the bytes of WV_PTR and one record with those bytes. -/
theorem rawField_eq_ok {s t : State} (h : rawField s = .ok t) :
    ∃ b rf, rf.bytes = b ∧ tblStr s (valPtr s.regs.wvPtr) = .ok b ∧ s.frameLen.toNat + b.length ≤ Config.frameMax ∧
      outFits rf s ∧ t = frameAppended b (outAppended rf s) := by
  unfold rawField at h
  dsimp only at h
  split at h
  · cases h
  · obtain ⟨b, h1, h⟩ := res_bind_eq_ok.mp h
    obtain ⟨v, -, h⟩ := res_bind_eq_ok.mp h
    obtain ⟨title, -, h⟩ := res_bind_eq_ok.mp h
    obtain ⟨h2, h3, h4⟩ := appendFrame_eq_ok.mp h
    exact ⟨b, _, rfl, h1, h2, h3, h4⟩

/-- WRITE_FIELD, raw form: refused, failed, or one record appended. -/
theorem execWriteFieldRaw_eq_next {s t : State} (h : execWriteFieldRaw s = .next t) :
    (commandAccepted .writeField s = false ∧ t = rejectCommand s) ∨
      (commandAccepted .writeField s = true ∧
        ((∃ e, t = failCapsule e noIndex (beginWriter s)) ∨
          ∃ s1, rawField (beginWriter s) = .ok s1 ∧ t = completeWriter s1)) := by
  unfold execWriteFieldRaw at h
  split at h
  · rename_i ha
    refine .inr ⟨ha, ?_⟩
    obtain ⟨s1, h1, h⟩ | ⟨e, -, h⟩ := attempt_eq_next h
    · exact .inr ⟨s1, h1, by injection h with h; exact h.symm⟩
    · exact .inl ⟨e, h⟩
  · rename_i ha
    exact .inl ⟨by simpa using ha, by injection h with h; exact h.symm⟩

/-- WRITE_FIELD, encode form: refused, failed before the descriptor, or the write descriptor executed once. -/
theorem execWriteFieldEnc_eq_next {s t : State} (h : execWriteFieldEnc s = .next t) :
    (commandAccepted .writeField s = false ∧ t = rejectCommand s) ∨
      (commandAccepted .writeField s = true ∧
        ((∃ e, t = failCapsule e noIndex (beginWriter s)) ∨
          (checkWriteField (beginWriter s) = .ok () ∧
            runSeq exec 1 { beginWriter s with fromWd := true } = .next t))) := by
  unfold execWriteFieldEnc at h
  split at h
  · rename_i ha
    refine .inr ⟨ha, ?_⟩
    obtain ⟨⟨⟩, h1, h⟩ | ⟨e, -, h⟩ := attempt_eq_next h
    · rw [runSeq_execDescriptor] at h
      exact .inr ⟨h1, h⟩
    · exact .inl ⟨e, h⟩
  · rename_i ha
    exact .inl ⟨by simpa using ha, by injection h with h; exact h.symm⟩

/-- ENCODE_PLAN: refused, failed before the first descriptor, or its plan run from PLAN_PC = 0. -/
theorem execEncodePlan_eq_next {a : BitVec 24} {s t : State} (h : execEncodePlan a s = .next t) :
    (commandAccepted .encodePlan s = false ∧ t = rejectCommand s) ∨
      (commandAccepted .encodePlan s = true ∧
        ((∃ e, t = failCapsule e noIndex { beginWriter s with planPc := 0 }) ∨
          (checkEncodePlan { beginWriter s with planPc := 0 } = .ok () ∧
            runSeq exec (planFuel s) { beginWriter s with planPc := 0 } = .next t))) := by
  unfold execEncodePlan at h
  split at h
  · rename_i ha
    refine .inr ⟨ha, ?_⟩
    unfold encodePlanWith at h
    obtain ⟨⟨⟩, h1, h⟩ | ⟨e, -, h⟩ := attempt_eq_next h
    · dsimp only at h
      rw [runSeq_execDescriptor] at h
      exact .inr ⟨h1, h⟩
    · exact .inl ⟨e, h⟩
  · rename_i ha
    exact .inl ⟨by simpa using ha, by injection h with h; exact h.symm⟩

/-! ## FINALIZE -/

/-- Encryption changes FRAME and FRAME_LEN only, and leaves the frame within its capacity. -/
theorem encryptPayload_eq_ok {s t : State} (h : encryptPayload s = .ok t) :
    (cipherOn s.regs = false ∧ t = s) ∨
      ∃ ps n b, cipherOn s.regs = true ∧ n ≤ Config.frameMax ∧
        t = { writeBytes s .frame ps b with frameLen := num n } := by
  unfold encryptPayload at h
  dsimp only at h
  split at h
  · rename_i hc
    obtain ⟨⟨ps, pe⟩, -, h⟩ := res_bind_eq_ok.mp h
    obtain ⟨ct, -, h⟩ := res_bind_eq_ok.mp h
    dsimp only at h
    split at h
    · cases h
    · rename_i hn
      obtain ⟨after, -, h⟩ := res_bind_eq_ok.mp h
      simp only [res_pure_eq, Except.ok.injEq] at h
      exact .inr ⟨ps, _, _, hc, Nat.not_lt.mp hn, h.symm⟩
  · rename_i hc
    simp only [Except.ok.injEq] at h
    exact .inl ⟨by simpa using hc, h.symm⟩

/-- The length step changes bytes of FRAME only. -/
theorem writeLength_eq_ok {s t : State} (h : writeLength s = .ok t) :
    (lenEn s.regs = false ∧ t = s) ∨
      ∃ f, lenEn s.regs = true ∧ lengthField s = .ok f ∧
        t = writeBytes s .frame f.start (if lenSwap s.regs then rev (resize (beN f.count 8) false false (f.stop - f.start))
          else resize (beN f.count 8) false false (f.stop - f.start)) := by
  unfold writeLength at h
  split at h
  · rename_i hc
    obtain ⟨f, h1, h⟩ := res_bind_eq_ok.mp h
    simp only [res_pure_eq, Except.ok.injEq] at h
    exact .inr ⟨f, hc, h1, h.symm⟩
  · rename_i hc
    simp only [Except.ok.injEq] at h
    exact .inl ⟨by simpa using hc, h.symm⟩

/-- The checksum step changes two bytes of FRAME only. -/
theorem writeCrc_eq_ok {s t : State} (h : writeCrc s = .ok t) :
    (crcEn s.regs = false ∧ t = s) ∨
      ∃ ci c, crcEn s.regs = true ∧ crcFieldIndex s = .ok ci ∧
        t = writeBytes s .frame ci (crcRender c (crcLe s.regs)) := by
  unfold writeCrc at h
  split at h
  · rename_i hc
    obtain ⟨⟨cs, ce⟩, -, h⟩ := res_bind_eq_ok.mp h
    obtain ⟨ci, h1, h⟩ := res_bind_eq_ok.mp h
    obtain ⟨p, -, h⟩ := res_bind_eq_ok.mp h
    obtain ⟨data, -, h⟩ := res_bind_eq_ok.mp h
    simp only [res_pure_eq, Except.ok.injEq] at h
    exact .inr ⟨ci, _, hc, h1, h.symm⟩
  · rename_i hc
    simp only [Except.ok.injEq] at h
    exact .inl ⟨by simpa using hc, h.symm⟩

/-- FINALIZE: refused; failed in one of its three steps with the steps before it done; or completed. -/
theorem execFinalize_eq_next {a : BitVec 24} {s t : State} (h : execFinalize a s = .next t) :
    (commandAccepted .finalize s = false ∧ t = rejectCommand s) ∨
      (commandAccepted .finalize s = true ∧
        ((∃ e, t = failCapsule e noIndex (acceptCommand s)) ∨
          ∃ s2, encryptPayload (acceptCommand s) = .ok s2 ∧
            ((∃ e, t = failCapsule e noIndex s2) ∨
              ∃ s3, writeLength s2 = .ok s3 ∧
                ((∃ e, t = failCapsule e noIndex s3) ∨ ∃ s4, writeCrc s3 = .ok s4 ∧ t = finalizeDone s4)))) := by
  unfold execFinalize at h
  split at h
  · rename_i ha
    refine .inr ⟨ha, ?_⟩
    obtain ⟨s2, h2, h⟩ | ⟨e, -, h⟩ := attempt_eq_next h
    · refine .inr ⟨s2, h2, ?_⟩
      obtain ⟨s3, h3, h⟩ | ⟨e, -, h⟩ := attempt_eq_next h
      · refine .inr ⟨s3, h3, ?_⟩
        obtain ⟨s4, h4, h⟩ | ⟨e, -, h⟩ := attempt_eq_next h
        · exact .inr ⟨s4, h4, by injection h with h; exact h.symm⟩
        · exact .inl ⟨e, h⟩
      · exact .inl ⟨e, h⟩
    · exact .inl ⟨e, h⟩
  · rename_i ha
    exact .inl ⟨by simpa using ha, by injection h with h; exact h.symm⟩

/-! ## The engine commands -/

/-- CBUF is filled within its capacity. -/
theorem fillCbuf_eq_ok {b : Bytes} {s t : State} :
    fillCbuf b s = .ok t ↔ b.length ≤ Config.cbufMax ∧ t = cbufFilled b s := by
  unfold fillCbuf
  split
  · rename_i h
    exact ⟨fun e => (by cases e), fun e => absurd e.1 (Nat.not_le.mpr h)⟩
  · rename_i h
    exact ⟨fun e => ⟨Nat.not_lt.mp h, by injection e with e; exact e.symm⟩, fun e => by rw [e.2]⟩

/-- ENCRYPT and DECRYPT: refused, failed, or CBUF and CBUF_LEN replaced. -/
theorem cipherCommand_eq_next {dec : Bool} {s t : State} (h : cipherCommand dec s = .next t) :
    (commandAccepted .cipher s = false ∧ t = rejectCommand s) ∨
      (commandAccepted .cipher s = true ∧
        ((∃ e, t = failEngine e (acceptCommand s)) ∨
          ∃ r, cipherCbuf (acceptCommand s) dec = .ok r ∧ r.length ≤ Config.cbufMax ∧
            t = completeCommand (cbufFilled r (acceptCommand s)))) := by
  unfold cipherCommand at h
  split at h
  · rename_i ha
    refine .inr ⟨ha, ?_⟩
    obtain ⟨s1, h1, h⟩ | ⟨e, -, h⟩ := attempt_eq_next h
    · obtain ⟨r, hr, hf⟩ := res_bind_eq_ok.mp h1
      obtain ⟨hl, rfl⟩ := fillCbuf_eq_ok.mp hf
      exact .inr ⟨r, hr, hl, by injection h with h; exact h.symm⟩
    · exact .inl ⟨e, h⟩
  · rename_i ha
    exact .inl ⟨by simpa using ha, by injection h with h; exact h.symm⟩

/-- CRC_CALC: refused, failed, or CRC_VALUE and CRC_BYTES written. -/
theorem execCrcCalc_eq_next {a : BitVec 24} {s t : State} (h : execCrcCalc a s = .next t) :
    (commandAccepted .crc s = false ∧ t = rejectCommand s) ∨
      (commandAccepted .crc s = true ∧
        ((∃ e, t = failEngine e (acceptCommand s)) ∨
          ∃ c, crcOfCbuf (acceptCommand s) = .ok c ∧
            t = completeCommand (setCrcResult c (crcRender c (crcLe s.regs)) (acceptCommand s)))) := by
  unfold execCrcCalc at h
  split at h
  · rename_i ha
    refine .inr ⟨ha, ?_⟩
    obtain ⟨c, h1, h⟩ | ⟨e, -, h⟩ := attempt_eq_next h
    · exact .inr ⟨c, h1, by injection h with h; exact h.symm⟩
    · exact .inl ⟨e, h⟩
  · rename_i ha
    exact .inl ⟨by simpa using ha, by injection h with h; exact h.symm⟩

end Sys2Proof.Machine
end

