-- ==== Sys2Proof/Laws/HostPort.lean ====
section
/-! SUPPORT. One step of the machine and one move of the host, said once (rules R12, R51, R265, R269). -/

namespace Sys2Proof.Machine

/-! ## The step -/

theorem step_busy {s : State} (h : s.status.busy = true) : step s = seqStep exec s := by simp [step, h]

theorem step_idle {s : State} (h : s.status.busy = false) : step s = hostTurn exec s := by simp [step, h]

/-- With no host move to come the machine stands still (rule R265). -/
theorem step_no_input {s : State} (h : s.status.busy = false) (hi : s.inputs = []) : step s = .next s := by
  simp [step_idle h, hostTurn, hi]

/-- With a host move to come the step is that move, taken off the list. -/
theorem step_input {s : State} {m : HostMove} {r : List HostMove} (h : s.status.busy = false) (hi : s.inputs = m :: r) :
    step s = hostMove exec m { s with inputs := r } := by
  simp [step_idle h, hostTurn, hi]

/-! ## The moves -/

/-- A command presented: refused by the block, or executed by its meaning. -/
theorem presentCommand_eq (w : Word) (s : State) :
    (∃ i, decodeWords [w] = .ok i ∧ presentCommand exec w s = exec i s) ∨
      ∃ e, decodeWords [w] = .error e ∧ presentCommand exec w s = .next (rejectCommand s) := by
  unfold presentCommand
  split
  · rename_i i h
    exact .inl ⟨i, h, rfl⟩
  · rename_i e h
    exact .inr ⟨e, h, rfl⟩

/-- A CMD write between commands presents its word. -/
theorem hostMove_write_cmd (run : Instr → State → Out) (w : Word) {s : State} (h : s.status.busy = false) :
    hostMove run (.write .word 0 w) s = presentCommand run w s := by
  have ht : hostTarget .word 0 = some (.reg 0) := by decide
  have hb : (if s.status.busy then
      (if hostTarget .word 0 = some (.reg 0) then Host.Outcome.next (rejectCommand s) else .refused .hostWhileBusy)
      else hostWrite run .word 0 w s) = hostWrite run .word 0 w s := if_neg (by simp [h])
  exact hb.trans (by unfold hostWrite; rw [ht]; rfl)

/-- A host read writes only the host's side. -/
theorem hostRead_eq (s : State) (t : Target) :
    ∃ w n, hostRead s t = { s with hostData := w, freeCount := n } := by
  cases t with
  | reg off => exact ⟨_, _, rfl⟩
  | byte sp off =>
    simp only [hostRead]
    split
    · exact ⟨_, _, rfl⟩
    · split
      · exact ⟨_, _, rfl⟩
      · exact ⟨_, _, rfl⟩
  | planWord off =>
    simp only [hostRead]
    split
    · exact ⟨_, _, rfl⟩
    · exact ⟨_, _, rfl⟩

/-- A register write changes FRAME_LEN, CBUF_LEN or one of the registers only the host writes. -/
theorem writeReg_eq (s : State) (off : Nat) (v : Word) :
    writeReg s off v = s ∨ (s.status.main = .idle ∧ writeReg s off v = { s with frameLen := atMost Config.frameMax v }) ∨
      writeReg s off v = { s with cbufLen := atMost Config.cbufMax v } ∨
      writeReg s off v = { s with regs := writeRegs s.regs off v } := by
  unfold writeReg
  split
  · split
    · rename_i h
      exact .inr (.inl ⟨h, rfl⟩)
    · exact .inl rfl
  · exact .inr (.inr (.inl rfl))
  · exact .inr (.inr (.inr rfl))

theorem atMost_le {limit : Nat} (v : Word) (h : limit < 2 ^ 32) : (atMost limit v).toNat ≤ limit := by
  unfold atMost
  split
  · rw [num_toNat h]
  · omega

/-- What a host access to a byte space designates exists. -/
theorem hostTarget_byte {w : Width} {addr : Word} {sp : Space} {off : Nat} (h : hostTarget w addr = some (.byte sp off)) :
    w = .byte ∧ locate addr.toNat = some (sp, off) ∧ sp ≠ .plan := by
  cases w with
  | half => cases h
  | word =>
    simp only [hostTarget] at h
    split at h
    · cases h
    · split at h
      · cases h
      · split at h
        · cases h
        · cases h
  | byte =>
    simp only [hostTarget] at h
    split at h
    · cases h
    · rename_i sp' off' hn hl
      simp only [Option.some.injEq, Target.byte.injEq] at h
      obtain ⟨rfl, rfl⟩ := h
      exact ⟨rfl, hl, hn⟩
    · cases h

end Sys2Proof.Machine
end

