-- ==== Sys2Proof/Laws/Log.lean ====
section
/-! SUPPORT. The log in OUT read back (rule R78): how far a record and a list of records reach, that they depend on the
bytes below that end only, and one record more at the end of a list. -/

namespace Sys2Proof.Machine

open Sys2Proof.Safety

/-- A record takes at least its ten bytes of header. -/
theorem readRecord_end {s : State} {off e : Nat} {r : Rawfield} (h : readRecord s off = .ok (r, e)) : off + 10 ≤ e := by
  unfold readRecord at h
  obtain ⟨_, -, h⟩ := res_bind_eq_ok.mp h
  obtain ⟨_, -, h⟩ := res_bind_eq_ok.mp h
  obtain ⟨_, -, h⟩ := res_bind_eq_ok.mp h
  obtain ⟨_, -, h⟩ := res_bind_eq_ok.mp h
  simp only [res_pure_eq, Except.ok.injEq, Prod.mk.injEq] at h
  omega

/-- A record reads the same in a state with the same bytes below its end. -/
theorem readRecord_congr {s t : State} {off e : Nat} {r : Rawfield} (h : readRecord s off = .ok (r, e))
    (same : ∀ x, x < e → readByte t .out x = readByte s .out x) : readRecord t off = .ok (r, e) := by
  have := readRecord_end h
  have below (o n : Nat) (hn : o + n ≤ e) : readBytes t .out o n = readBytes s .out o n :=
    readBytes_congr fun i _ => same _ (by omega)
  unfold readRecord at h ⊢
  obtain ⟨_, h1, h⟩ := res_bind_eq_ok.mp h
  obtain ⟨_, h2, h⟩ := res_bind_eq_ok.mp h
  obtain ⟨_, h3, h⟩ := res_bind_eq_ok.mp h
  obtain ⟨_, h4, h⟩ := res_bind_eq_ok.mp h
  simp only [res_pure_eq, Except.ok.injEq, Prod.mk.injEq] at h
  rw [below _ _ (by omega), h1, res_ok_bind]
  dsimp only
  rw [below _ _ (by omega), h2, res_ok_bind, below _ _ (by omega), h3, res_ok_bind, below _ _ (by omega), h4, res_ok_bind]
  simpa using h

/-- `n` records take at least `10 * n` bytes. -/
theorem readRecords_end {s : State} {n off e : Nat} {l : List Rawfield} (h : readRecords s off n = .ok (l, e)) :
    off + 10 * n ≤ e := by
  induction n generalizing off l with
  | zero =>
    simp only [readRecords, Except.ok.injEq, Prod.mk.injEq] at h
    omega
  | succ n ih =>
    unfold readRecords at h
    obtain ⟨⟨_, _⟩, h1, h⟩ := res_bind_eq_ok.mp h
    obtain ⟨⟨_, _⟩, h2, h⟩ := res_bind_eq_ok.mp h
    simp only [res_pure_eq, Except.ok.injEq, Prod.mk.injEq] at h
    obtain ⟨-, rfl⟩ := h
    have := readRecord_end h1
    have := ih h2
    omega

/-- A record read where a list of records ends makes that list one longer. -/
theorem readRecords_snoc {s t : State} {n off e e' : Nat} {l : List Rawfield} {r : Rawfield}
    (h : readRecords s off n = .ok (l, e)) (same : ∀ x, x < e → readByte t .out x = readByte s .out x)
    (last : readRecord t e = .ok (r, e')) : readRecords t off (n + 1) = .ok (l ++ [r], e') := by
  induction n generalizing off l with
  | zero =>
    simp only [readRecords, Except.ok.injEq, Prod.mk.injEq] at h
    obtain ⟨rfl, rfl⟩ := h
    simp only [readRecords, last, res_ok_bind]
    rfl
  | succ n ih =>
    unfold readRecords at h
    obtain ⟨⟨_, o⟩, h1, h⟩ := res_bind_eq_ok.mp h
    obtain ⟨⟨_, _⟩, h2, h⟩ := res_bind_eq_ok.mp h
    simp only [res_pure_eq, Except.ok.injEq, Prod.mk.injEq] at h
    obtain ⟨rfl, rfl⟩ := h
    have := readRecords_end h2
    rw [readRecords, readRecord_congr h1 fun x hx => same x (by omega), res_ok_bind]
    dsimp only
    rw [ih h2]
    rfl

end Sys2Proof.Machine
end

