-- ==== Sys2Proof/Laws/PerInstr.lean ====
section
/-! SUPPORT. Facts about every instruction as syntax, one lemma per constructor: the encoder's first word carries the
opcode row's fixed bits (spec/opcode_table.json), and the word count is its class's (rules R61, R72). -/

namespace Sys2Proof.Laws.OpcodeRow

/-- The match bits of an instruction's row of spec/opcode_table.json. -/
def matchBits : Instr → Word
  | .convertBcd _ => 0x1
  | .convertU8 _ => 0x11
  | .convertU16 _ => 0x21
  | .convertU32 _ => 0x31
  | .convertU64 _ => 0x41
  | .convertI8 _ => 0x51
  | .convertI16 _ => 0x61
  | .convertI32 _ => 0x71
  | .convertI64 _ => 0x81
  | .convertFloat _ => 0x91
  | .convertDouble _ => 0xA1
  | .convertAscii _ => 0xB1
  | .compare _ => 0x2
  | .enum _ => 0x3
  | .nop _ => 0x0
  | .newCapsule _ => 0x1
  | .decode _ => 0x2
  | .writeFieldRaw => 0x3
  | .writeFieldEnc => 0x103
  | .encodePlan _ => 0x4
  | .finalize _ => 0x5
  | .crcCalc _ => 0x10
  | .crcCompare _ => 0x11
  | .encrypt _ => 0x20
  | .decrypt _ => 0x21

/-- The mask of an instruction's row: the low byte, the whole word for WRITE_FIELD. -/
def rowMask : Instr → Word
  | .convertBcd _ => 0xFF
  | .convertU8 _ => 0xFF
  | .convertU16 _ => 0xFF
  | .convertU32 _ => 0xFF
  | .convertU64 _ => 0xFF
  | .convertI8 _ => 0xFF
  | .convertI16 _ => 0xFF
  | .convertI32 _ => 0xFF
  | .convertI64 _ => 0xFF
  | .convertFloat _ => 0xFF
  | .convertDouble _ => 0xFF
  | .convertAscii _ => 0xFF
  | .compare _ => 0xFF
  | .enum _ => 0xFF
  | .nop _ => 0xFF
  | .newCapsule _ => 0xFF
  | .decode _ => 0xFF
  | .writeFieldRaw => 0xFFFFFFFF
  | .writeFieldEnc => 0xFFFFFFFF
  | .encodePlan _ => 0xFF
  | .finalize _ => 0xFF
  | .crcCalc _ => 0xFF
  | .crcCompare _ => 0xFF
  | .encrypt _ => 0xFF
  | .decrypt _ => 0xFF

/-- An instruction's words: the first carries its row's fixed bits, and there are eight of a descriptor, one of a
command. -/
def Statement (i : Instr) : Prop :=
  ∃ w r, encode i = w :: r ∧ w &&& rowMask i = matchBits i ∧ r.length = if i.isDescriptor then 7 else 0

/-- The low byte of W0 is `FTYPE` and `KIND`. -/
theorem encodeW0_low (k : Kind) (ft : FType) (d : Desc) :
    encodeW0 k ft d &&& 0xFF = (ftypeCode ft ++ kindCode k).setWidth 32 := by
  unfold encodeW0
  generalize ftypeCode ft = f
  generalize kindCode k = c
  ext i hi
  simp only [BitVec.getElem_and, BitVec.getElem_append, BitVec.getElem_setWidth, BitVec.getLsbD_append]
  interval_cases i <;> simp

/-- The low byte of a command word is `OPC`. -/
theorem commandWord_low (opc : BitVec 8) (arg : BitVec 24) : commandWord opc arg &&& 0xFF = opc.setWidth 32 := by
  unfold commandWord
  ext i hi
  simp only [BitVec.getElem_and, BitVec.getElem_append, BitVec.getElem_setWidth]
  interval_cases i <;> simp

theorem convertBcd (d : Desc) : Statement (.convertBcd d) := ⟨_, _, rfl, encodeW0_low _ _ d, rfl⟩
theorem convertU8 (d : Desc) : Statement (.convertU8 d) := ⟨_, _, rfl, encodeW0_low _ _ d, rfl⟩
theorem convertU16 (d : Desc) : Statement (.convertU16 d) := ⟨_, _, rfl, encodeW0_low _ _ d, rfl⟩
theorem convertU32 (d : Desc) : Statement (.convertU32 d) := ⟨_, _, rfl, encodeW0_low _ _ d, rfl⟩
theorem convertU64 (d : Desc) : Statement (.convertU64 d) := ⟨_, _, rfl, encodeW0_low _ _ d, rfl⟩
theorem convertI8 (d : Desc) : Statement (.convertI8 d) := ⟨_, _, rfl, encodeW0_low _ _ d, rfl⟩
theorem convertI16 (d : Desc) : Statement (.convertI16 d) := ⟨_, _, rfl, encodeW0_low _ _ d, rfl⟩
theorem convertI32 (d : Desc) : Statement (.convertI32 d) := ⟨_, _, rfl, encodeW0_low _ _ d, rfl⟩
theorem convertI64 (d : Desc) : Statement (.convertI64 d) := ⟨_, _, rfl, encodeW0_low _ _ d, rfl⟩
theorem convertFloat (d : Desc) : Statement (.convertFloat d) := ⟨_, _, rfl, encodeW0_low _ _ d, rfl⟩
theorem convertDouble (d : Desc) : Statement (.convertDouble d) := ⟨_, _, rfl, encodeW0_low _ _ d, rfl⟩
theorem convertAscii (d : Desc) : Statement (.convertAscii d) := ⟨_, _, rfl, encodeW0_low _ _ d, rfl⟩
theorem compare (d : Desc) : Statement (.compare d) := ⟨_, _, rfl, encodeW0_low _ _ d, rfl⟩
theorem enum (d : Desc) : Statement (.enum d) := ⟨_, _, rfl, encodeW0_low _ _ d, rfl⟩
theorem nop (arg : BitVec 24) : Statement (.nop arg) := ⟨_, _, rfl, commandWord_low _ arg, rfl⟩
theorem newCapsule (arg : BitVec 24) : Statement (.newCapsule arg) := ⟨_, _, rfl, commandWord_low _ arg, rfl⟩
theorem decode (arg : BitVec 24) : Statement (.decode arg) := ⟨_, _, rfl, commandWord_low _ arg, rfl⟩
theorem writeFieldRaw : Statement .writeFieldRaw := ⟨_, _, rfl, by decide, rfl⟩
theorem writeFieldEnc : Statement .writeFieldEnc := ⟨_, _, rfl, by decide, rfl⟩
theorem encodePlan (arg : BitVec 24) : Statement (.encodePlan arg) := ⟨_, _, rfl, commandWord_low _ arg, rfl⟩
theorem finalize (arg : BitVec 24) : Statement (.finalize arg) := ⟨_, _, rfl, commandWord_low _ arg, rfl⟩
theorem crcCalc (arg : BitVec 24) : Statement (.crcCalc arg) := ⟨_, _, rfl, commandWord_low _ arg, rfl⟩
theorem crcCompare (arg : BitVec 24) : Statement (.crcCompare arg) := ⟨_, _, rfl, commandWord_low _ arg, rfl⟩
theorem encrypt (arg : BitVec 24) : Statement (.encrypt arg) := ⟨_, _, rfl, commandWord_low _ arg, rfl⟩
theorem decrypt (arg : BitVec 24) : Statement (.decrypt arg) := ⟨_, _, rfl, commandWord_low _ arg, rfl⟩

end Sys2Proof.Laws.OpcodeRow
end

