-- ==== Sys2Proof/Tests/Slice0.lean ====
section
/-! SUPPORT. Tests: the static checks refuse what they should, words written out from the spec decode to what they stand
for, one step of each instruction against the vectors of spec/95_test_vectors.md, and a witness for the hypotheses of
each statement. Byte strings are written as their bytes. -/

namespace Sys2Proof.Tests

-- One theorem after the other: many at once, each with a kernel evaluation, take a thread each.
set_option Elab.async false

open Sys2Proof.Machine Sys2Proof.Safety

/-! ## Helpers -/

/-- A legal descriptor with every option off: direction both, the empty range. -/
def plain : Desc where
  swap := false
  scaleEn := false
  symEn := false
  dir := 3
  req := false
  defEn := false
  rsv0 := false
  tag := 0x0003
  pos := 2
  rsv1 := 0
  startIndex := 0
  endIndex := 0
  scaleE := 0
  scaleM := 0
  titleOff := 0
  titleLen := 1
  symbol := 0
  auxOff := 0
  auxLen := 0
  rsv7 := 0

/-- The descriptor over bytes `[0, n)`. -/
def field (n : Nat) : Desc := { plain with endIndex := num n }

/-- A DECODE under way in ExtractFields, with these bytes of TEMP and of TBL. -/
def reading (temp tbl : Bytes) : State :=
  let s := { State.reset with
    status := { Status.reset with busy := true, main := .reading, rstate := .extractFields }, tempLen := num temp.length }
  writeBytes (writeBytes s .tbl 0 tbl) .temp 0 temp

/-- WRITE_FIELD under way, its value-string the `n` bytes of TBL from offset 1. -/
def encoding (n : Nat) (tbl : Bytes) : State :=
  let s := { State.reset with
    status := { Status.reset with busy := true, main := .encoding }, fromWd := true,
    regs := { Regs.reset with wvPtr := num (65536 * n + 1) } }
  writeBytes s .tbl 0 tbl

/-- The next state satisfies `p`. -/
def nextIs (o : Out) (p : State → Bool) : Bool :=
  match o with
  | .next t => p t
  | .fault _ => false
  | .refused _ => false

/-- OUT from its start. -/
def outIs (t : State) (b : Bytes) : Bool := readBytes t .out 0 t.outBytes.toNat == .ok b

/-- FRAME from its start. -/
def frameIs (t : State) (b : Bytes) : Bool := readBytes t .frame 0 t.frameLen.toNat == .ok b

/-! ## The static checks (rule R71): each refuses an ill-formed descriptor that the others admit -/

theorem test_wf_plain : WellFormed.instr (.convertU8 plain) = true := by decide

theorem test_wf_scaleAllowed : WellFormed.instr (.convertBcd { plain with scaleEn := true }) = false ∧
    WellFormed.scaleAllowed .convert .bcd { plain with scaleEn := true } = false := by decide

theorem test_wf_scaleExponentLegal : WellFormed.instr (.convertU8 { plain with scaleEn := true, scaleE := 10 }) = false ∧
    WellFormed.instr (.convertU8 { plain with scaleEn := true, scaleE := 9 }) = true := by decide

theorem test_wf_symbolAllowed : WellFormed.instr (.enum { plain with symEn := true }) = false ∧
    WellFormed.symbolAllowed .enum { plain with symEn := true } = false := by decide

theorem test_wf_directionLegal : WellFormed.instr (.convertU8 { plain with dir := 0 }) = false ∧
    WellFormed.directionLegal { plain with dir := 0 } = false := by decide

theorem test_wf_defaultAllowed : WellFormed.instr (.enum { plain with defEn := true }) = false ∧
    WellFormed.defaultAllowed .enum { plain with defEn := true } = false := by decide

theorem test_wf_reservedClear : WellFormed.instr (.convertU8 { plain with rsv0 := true }) = false ∧
    WellFormed.instr (.convertU8 { plain with rsv1 := 1 }) = false ∧
    WellFormed.instr (.convertU8 { plain with rsv7 := 1 }) = false := by decide

theorem test_wf_titleInTbl : WellFormed.instr (.convertU8 { plain with titleOff := 0xFFFF, titleLen := 2 }) = false ∧
    WellFormed.instr (.convertU8 { plain with titleOff := 0xFFFF, titleLen := 1 }) = true := by decide

theorem test_wf_auxInTbl : WellFormed.instr (.compare { plain with auxOff := 0xFFFF, auxLen := 2 }) = false ∧
    WellFormed.instr (.compare { plain with auxOff := 0xFFFF, auxLen := 1 }) = true ∧
    WellFormed.instr (.enum { plain with auxOff := 0xFFFF, auxLen := 2 }) = true := by decide

/-! ## Decoding: words from the programs of spec/95_test_vectors.md and from the tables of rules R61 to R64, R72 -/

/-- The eight words of descriptor 0, 1, 2 of Program 1 (section 10.1). -/
theorem test_decode_program1_integers :
    decodeWords [0x00011811, 0, 1, 2, 0, 0x00030002, 0, 0] = .ok (.convertU8
      { plain with tag := 1, pos := 0, startIndex := 1, endIndex := 2, titleOff := 2, titleLen := 3 }) ∧
    decodeWords [0x00021A21, 1, 2, 4, 0x00000101, 0x00040005, 0, 0] = .ok (.convertU16
      { plain with scaleEn := true, tag := 2, pos := 1, startIndex := 2, endIndex := 4, scaleE := 1, scaleM := 1,
                   titleOff := 5, titleLen := 4 }) ∧
    decodeWords [0x00031B61, 2, 4, 6, 0x00000101, 0x00040009, 0, 0] = .ok (.convertI16
      { plain with swap := true, scaleEn := true, tag := 3, pos := 2, startIndex := 4, endIndex := 6, scaleE := 1,
                   scaleM := 1, titleOff := 9, titleLen := 4 }) := by decide

/-- Descriptors 3, 4, 5 of Program 1. -/
theorem test_decode_program1_others :
    decodeWords [0x00041803, 3, 6, 7, 0, 0x0005000D, 0x00020012, 0] = .ok (.enum
      { plain with tag := 4, pos := 3, startIndex := 6, endIndex := 7, titleOff := 0xD, titleLen := 5, auxOff := 0x12,
                   auxLen := 2 }) ∧
    decodeWords [0x00051A31, 4, 7, 0xB, 0x00000103, 0x00050022, 0, 0] = .ok (.convertU32
      { plain with scaleEn := true, tag := 5, pos := 4, startIndex := 7, endIndex := 0xB, scaleE := 3, scaleM := 1,
                   titleOff := 0x22, titleLen := 5 }) ∧
    decodeWords [0x00061801, 5, 0xB, 0xD, 0, 0x00060027, 0, 0] = .ok (.convertBcd
      { plain with tag := 6, pos := 5, startIndex := 0xB, endIndex := 0xD, titleOff := 0x27, titleLen := 6 }) := by
  decide

/-- Descriptors 0 and 6 of Program 3 (section 10.3): COMPARE, and CONVERT.BCD with a default (W0 bit 14). -/
theorem test_decode_program3 :
    decodeWords [0x00201802, 0, 0, 1, 0, 0x00040002, 0x00010006, 0] = .ok (.compare
      { plain with tag := 0x20, pos := 0, startIndex := 0, endIndex := 1, titleOff := 2, titleLen := 4, auxOff := 6,
                   auxLen := 1 }) ∧
    decodeWords [0x00265801, 6, 9, 0xB, 0, 0x0003002D, 0x00040030, 0] = .ok (.convertBcd
      { plain with defEn := true, tag := 0x26, pos := 6, startIndex := 9, endIndex := 0xB, titleOff := 0x2D,
                   titleLen := 3, auxOff := 0x30, auxLen := 4 }) := by decide

/-- The other field types by their codes in W0 bits 7:4 (rule R64), each with another option bit: u64 (4) with REQ,
i8 (5) with SYM_EN, i32 (7) with DIR = 2, i64 (8), float (9), double (10) with reserved bit 15, ascii (11). -/
theorem test_decode_types :
    decodeWords [0x00033841, 2, 0, 0, 0, 0x00010000, 0, 0] = .ok (.convertU64 { plain with req := true }) ∧
    decodeWords [0x00031C51, 2, 0, 0, 0, 0x04010000, 0, 0] = .ok (.convertI8 { plain with symEn := true, symbol := 4 }) ∧
    decodeWords [0x00031071, 2, 0, 0, 0, 0x00010000, 0, 0] = .ok (.convertI32 { plain with dir := 2 }) ∧
    decodeWords [0x00031881, 2, 0, 0, 0, 0x00010000, 0, 0] = .ok (.convertI64 plain) ∧
    decodeWords [0x00031891, 0x80000002, 0, 0, 0, 0x00010000, 0, 0] = .ok (.convertFloat { plain with rsv1 := 0x8000 }) ∧
    decodeWords [0x000398A1, 2, 0, 0, 0, 0x00010000, 0, 0] = .ok (.convertDouble { plain with rsv0 := true }) ∧
    decodeWords [0x000318B1, 2, 0, 0, 0, 0x00010000, 0, 1] = .ok (.convertAscii { plain with rsv7 := 1 }) := by decide

/-- The command words (rule R72); an ignored ARG is kept as an operand. -/
theorem test_decode_commands :
    decodeWords [0x00000000] = .ok (.nop 0) ∧ decodeWords [0xFFFFFF01] = .ok (.newCapsule 0xFFFFFF) ∧
    decodeWords [0x00000002] = .ok (.decode 0) ∧ decodeWords [0x00000003] = .ok .writeFieldRaw ∧
    decodeWords [0x00000103] = .ok .writeFieldEnc ∧ decodeWords [0x00000004] = .ok (.encodePlan 0) ∧
    decodeWords [0x00000005] = .ok (.finalize 0) ∧ decodeWords [0x00000010] = .ok (.crcCalc 0) ∧
    decodeWords [0x00000011] = .ok (.crcCompare 0) ∧ decodeWords [0x00000020] = .ok (.encrypt 0) ∧
    decodeWords [0x00000021] = .ok (.decrypt 0) := by decide

/-- What is reserved is rejected by name (rules R63, R64, R72). -/
theorem test_decode_reserved :
    decodeWords [0x00000006] = .error (.reservedOpcode 0x06) ∧
    decodeWords [0x00000203] = .error (.writeFieldArg 2) ∧
    decodeWords [0x00031810, 0, 0, 0, 0, 0, 0, 0] = .error (.reservedKind 0) ∧
    decodeWords [0x00031814, 0, 0, 0, 0, 0, 0, 0] = .error (.reservedKind 4) ∧
    decodeWords [0x000318C1, 0, 0, 0, 0, 0, 0, 0] = .error (.reservedFtype 12) ∧
    decodeWords [0x00031812, 0, 0, 0, 0, 0, 0, 0] = .error (.ftypeWithoutConvert 1) ∧
    decodeWords [0, 0] = .error (.length 2) ∧ decodeWords [] = .error (.length 0) := by decide

/-! ## One descriptor on decode (spec/95_test_vectors.md sections 5 and 6) -/

/-- The record of tag 3, position 2 with title "T" that a descriptor over `[0, n)` appends (rule R78). -/
def recordOf (raw value : Bytes) : Bytes :=
  [0, 3, 0, 2, 0, BitVec.ofNat 8 raw.length, 0, BitVec.ofNat 8 value.length, 1, 0] ++ raw ++ value ++ [0x54]

/-- "T", the title of every descriptor here. -/
def tbl : Bytes := [0x54]

theorem test_decode_step_bcd : nextIs (exec (.convertBcd (field 3)) (reading [0x12, 0x3A, 0xFF] tbl))
    (fun t => outIs t (recordOf [0x12, 0x3A, 0xFF] [0x31, 0x32, 0x33, 0x41, 0x46, 0x46]) && t.planPc == 1) = true := by decide +kernel

theorem test_decode_step_u8 : nextIs (exec (.convertU8 (field 1)) (reading [0xFF] tbl))
    (fun t => outIs t (recordOf [0xFF] [0x32, 0x35, 0x35]) && t.planPc == 1) = true := by decide +kernel

theorem test_decode_step_u16_scaled : nextIs (exec (.convertU16 ({ field 2 with scaleEn := true, scaleM := 1, scaleE := 1 })) (reading [0x09, 0x01] tbl))
    (fun t => outIs t (recordOf [0x09, 0x01] [0x32, 0x33, 0x30, 0x2E, 0x35]) && t.planPc == 1) = true := by decide +kernel

theorem test_decode_step_u32_scaled : nextIs (exec (.convertU32 ({ field 4 with scaleEn := true, scaleM := 1, scaleE := 3 })) (reading [0x00, 0x01, 0x86, 0xA0] tbl))
    (fun t => outIs t (recordOf [0x00, 0x01, 0x86, 0xA0] [0x31, 0x30, 0x30]) && t.planPc == 1) = true := by decide +kernel

theorem test_decode_step_u64 : nextIs (exec (.convertU64 (field 8)) (reading [0xFF, 0xFF, 0xFF, 0xFF, 0xFF, 0xFF, 0xFF, 0xFF] tbl))
    (fun t => outIs t (recordOf [0xFF, 0xFF, 0xFF, 0xFF, 0xFF, 0xFF, 0xFF, 0xFF] [0x31, 0x38, 0x34, 0x34, 0x36, 0x37, 0x34, 0x34, 0x30, 0x37, 0x33, 0x37, 0x30, 0x39, 0x35, 0x35, 0x31, 0x36, 0x31, 0x35]) && t.planPc == 1) = true := by decide +kernel

theorem test_decode_step_i8 : nextIs (exec (.convertI8 (field 1)) (reading [0x80] tbl))
    (fun t => outIs t (recordOf [0x80] [0x2D, 0x31, 0x32, 0x38]) && t.planPc == 1) = true := by decide +kernel

theorem test_decode_step_i16_swapped : nextIs (exec (.convertI16 ({ field 2 with swap := true, scaleEn := true, scaleM := 1, scaleE := 1 })) (reading [0xEA, 0xFF] tbl))
    (fun t => outIs t (recordOf [0xEA, 0xFF] [0x2D, 0x32, 0x2E, 0x32]) && t.planPc == 1) = true := by decide +kernel

theorem test_decode_step_i32 : nextIs (exec (.convertI32 (field 4)) (reading [0xFF, 0xFF, 0xFF, 0xFE] tbl))
    (fun t => outIs t (recordOf [0xFF, 0xFF, 0xFF, 0xFE] [0x2D, 0x32]) && t.planPc == 1) = true := by decide +kernel

theorem test_decode_step_i64 : nextIs (exec (.convertI64 (field 8)) (reading [0x80, 0x00, 0x00, 0x00, 0x00, 0x00, 0x00, 0x00] tbl))
    (fun t => outIs t (recordOf [0x80, 0x00, 0x00, 0x00, 0x00, 0x00, 0x00, 0x00] [0x2D, 0x39, 0x32, 0x32, 0x33, 0x33, 0x37, 0x32, 0x30, 0x33, 0x36, 0x38, 0x35, 0x34, 0x37, 0x37, 0x35, 0x38, 0x30, 0x38]) && t.planPc == 1) = true := by decide +kernel

theorem test_decode_step_ascii : nextIs (exec (.convertAscii (field 2)) (reading [0x4F, 0x4B] tbl))
    (fun t => outIs t (recordOf [0x4F, 0x4B] [0x4F, 0x4B]) && t.planPc == 1) = true := by decide +kernel

/-- Float on three bytes: FIELD_LENGTH naming type 9, the capsule Failed (rules R183, R189). -/
theorem test_decode_step_float_length : nextIs (exec (.convertFloat (field 3)) (reading [0x41, 0x20, 0x00] tbl))
    (fun t => t.err.kind == 0x01090104 && t.err.expNum == 4 && t.err.actNum == 3 && t.err.index == 0 &&
      t.outBytes == 0 && statusWord t.status == 0x00026506) = true := by decide +kernel

theorem test_decode_step_double_length : nextIs (exec (.convertDouble (field 4)) (reading [0x41, 0x20, 0x00, 0x00] tbl))
    (fun t => t.err.kind == 0x010A0104 && t.err.expNum == 8 && t.err.actNum == 4) = true := by decide +kernel

/-- `compare [0,2) swap target=AA55` on `55AA`. -/
theorem test_decode_step_compare :
    nextIs (exec (.compare { field 2 with swap := true, auxOff := 1, auxLen := 2 })
        (reading [0x55, 0xAA] [0x54, 0xAA, 0x55]))
      (fun t => outIs t (recordOf [0x55, 0xAA] [0x41, 0x41, 0x35, 0x35]) && t.planPc == 1) = true := by decide +kernel

/-- `enum table=T` on `01` is "open", on `07` its hex. -/
theorem test_decode_step_enum :
    (let table : Bytes := [0x54, 0x01, 0x00, 0x06, 0x63, 0x6C, 0x6F, 0x73, 0x65, 0x64, 0x01, 0x01, 0x04, 0x6F, 0x70, 0x65, 0x6E]
     let d := { field 1 with auxOff := 1, auxLen := 2 }
     nextIs (exec (.enum d) (reading [0x01] table)) (fun t => outIs t (recordOf [0x01] [0x6F, 0x70, 0x65, 0x6E])) &&
       nextIs (exec (.enum d) (reading [0x07] table)) (fun t => outIs t (recordOf [0x07] [0x30, 0x37]))) = true := by
  decide +kernel

/-! ## One descriptor on encode -/

theorem test_encode_step_bcd :
    nextIs (exec (.convertBcd (field 2)) (encoding 4 (tbl ++ [0x31, 0x32, 0x61, 0x62])))
      (fun t => frameIs t [0x12, 0xAB] && outIs t (recordOf [0x12, 0xAB] [0x31, 0x32, 0x61, 0x62])) = true := by decide +kernel

theorem test_encode_step_u8_scaled :
    nextIs (exec (.convertU8 ({ field 1 with scaleEn := true, scaleM := 25, scaleE := 2 })) (encoding 4 (tbl ++ [0x31, 0x2E, 0x38, 0x38])))
      (fun t => frameIs t [0x08] && outIs t (recordOf [0x08] [0x31, 0x2E, 0x38, 0x38])) = true := by decide +kernel

theorem test_encode_step_u16_half_away :
    nextIs (exec (.convertU16 ({ field 2 with scaleEn := true, scaleM := 1, scaleE := 2 })) (encoding 6 (tbl ++ [0x31, 0x32, 0x2E, 0x33, 0x34, 0x35])))
      (fun t => frameIs t [0x04, 0xD3] && outIs t (recordOf [0x04, 0xD3] [0x31, 0x32, 0x2E, 0x33, 0x34, 0x35])) = true := by decide +kernel

theorem test_encode_step_u32_scaled :
    nextIs (exec (.convertU32 ({ field 4 with scaleEn := true, scaleM := 1, scaleE := 3 })) (encoding 3 (tbl ++ [0x31, 0x30, 0x30])))
      (fun t => frameIs t [0x00, 0x01, 0x86, 0xA0] && outIs t (recordOf [0x00, 0x01, 0x86, 0xA0] [0x31, 0x30, 0x30])) = true := by decide +kernel

theorem test_encode_step_u64 :
    nextIs (exec (.convertU64 (field 8)) (encoding 20 (tbl ++ [0x31, 0x38, 0x34, 0x34, 0x36, 0x37, 0x34, 0x34, 0x30, 0x37, 0x33, 0x37, 0x30, 0x39, 0x35, 0x35, 0x31, 0x36, 0x31, 0x35])))
      (fun t => frameIs t [0xFF, 0xFF, 0xFF, 0xFF, 0xFF, 0xFF, 0xFF, 0xFF] && outIs t (recordOf [0xFF, 0xFF, 0xFF, 0xFF, 0xFF, 0xFF, 0xFF, 0xFF] [0x31, 0x38, 0x34, 0x34, 0x36, 0x37, 0x34, 0x34, 0x30, 0x37, 0x33, 0x37, 0x30, 0x39, 0x35, 0x35, 0x31, 0x36, 0x31, 0x35])) = true := by decide +kernel

theorem test_encode_step_i8 :
    nextIs (exec (.convertI8 (field 1)) (encoding 4 (tbl ++ [0x2D, 0x31, 0x32, 0x38])))
      (fun t => frameIs t [0x80] && outIs t (recordOf [0x80] [0x2D, 0x31, 0x32, 0x38])) = true := by decide +kernel

theorem test_encode_step_i16_to_four_bytes :
    nextIs (exec (.convertI16 (field 4)) (encoding 3 (tbl ++ [0x2D, 0x32, 0x32])))
      (fun t => frameIs t [0xFF, 0xFF, 0xFF, 0xEA] && outIs t (recordOf [0xFF, 0xFF, 0xFF, 0xEA] [0x2D, 0x32, 0x32])) = true := by decide +kernel

theorem test_encode_step_i32_swapped :
    nextIs (exec (.convertI32 ({ field 4 with swap := true })) (encoding 2 (tbl ++ [0x2D, 0x32])))
      (fun t => frameIs t [0xFE, 0xFF, 0xFF, 0xFF] && outIs t (recordOf [0xFE, 0xFF, 0xFF, 0xFF] [0x2D, 0x32])) = true := by decide +kernel

theorem test_encode_step_i64 :
    nextIs (exec (.convertI64 (field 8)) (encoding 20 (tbl ++ [0x2D, 0x39, 0x32, 0x32, 0x33, 0x33, 0x37, 0x32, 0x30, 0x33, 0x36, 0x38, 0x35, 0x34, 0x37, 0x37, 0x35, 0x38, 0x30, 0x38])))
      (fun t => frameIs t [0x80, 0x00, 0x00, 0x00, 0x00, 0x00, 0x00, 0x00] && outIs t (recordOf [0x80, 0x00, 0x00, 0x00, 0x00, 0x00, 0x00, 0x00] [0x2D, 0x39, 0x32, 0x32, 0x33, 0x33, 0x37, 0x32, 0x30, 0x33, 0x36, 0x38, 0x35, 0x34, 0x37, 0x37, 0x35, 0x38, 0x30, 0x38])) = true := by decide +kernel

theorem test_encode_step_ascii :
    nextIs (exec (.convertAscii (field 2)) (encoding 2 (tbl ++ [0x41, 0x42])))
      (fun t => frameIs t [0x41, 0x42] && outIs t (recordOf [0x41, 0x42] [0x41, 0x42])) = true := by decide +kernel

/-- `compare [0,2) swap target=AA55`, the value ignored. -/
theorem test_encode_step_compare :
    nextIs (exec (.compare { field 2 with swap := true, auxOff := 1, auxLen := 2 }) (encoding 0 [0x54, 0xAA, 0x55]))
      (fun t => frameIs t [0x55, 0xAA] && outIs t (recordOf [0x55, 0xAA] [0x41, 0x41, 0x35, 0x35]) &&
        t.status.main == .accum) = true := by decide +kernel

/-- `enum` with one entry 01 "on": "on" gives `01`; "ajar" is NotMachineCode. -/
theorem test_encode_step_enum :
    (let d := { field 1 with auxOff := 5, auxLen := 1 }
     nextIs (exec (.enum d) (encoding 2 [0x54, 0x6F, 0x6E, 0, 0, 0x01, 0x01, 0x02, 0x6F, 0x6E])) (frameIs · [0x01]) &&
       nextIs (exec (.enum d) (encoding 4 [0x54, 0x61, 0x6A, 0x61, 0x72, 0x01, 0x01, 0x02, 0x6F, 0x6E]))
         (fun t => t.err.kind == 5 && t.err.actNum == 4 && t.err.index == 0xFFFFFFFF && t.frameLen == 0)) = true := by
  decide +kernel

/-! ## Commands -/

/-- The session of section 9: NOP, a refused FINALIZE, a reserved OPC, DECODE unconfigured, NOP keeps ERR. -/
theorem test_nop : nextIs (exec (.nop 0) State.reset) (fun t => statusWord t.status == 0x00000002) = true := by decide

theorem test_finalize_refused_in_idle :
    nextIs (exec (.finalize 0) State.reset) (fun t => statusWord t.status == 0x00000020) = true := by decide

theorem test_reserved_opcode_refused :
    nextIs (step { State.reset with inputs := [.write .word 0 0x00000007] }) (fun t => statusWord t.status == 0x00000020) =
      true := by decide

/-- The reset state after `CMD <- 0x02`. -/
theorem test_decode_unconfigured : nextIs (exec (.decode 0) State.reset)
    (fun t => statusWord t.status == 0x00016506 && t.err.kind == 0x0000020F && t.outCount == 0) = true := by decide +kernel

/-- NEW_CAPSULE after that error: flags and record of a fresh capsule. -/
theorem test_newCapsule :
    nextIs (exec (.newCapsule 0) (failCapsule { cause := .badConfig } noIndex State.reset))
      (fun t => statusWord t.status == 0x00000002 && t.err == ErrRecord.none && t.regs == Regs.reset) = true := by
  decide +kernel

/-- CBUF = 01 03 00 00 00 0A with CRC_LE = 1 (section 3). -/
def crcState (cand : Word) : State :=
  let s := { State.reset with cbufLen := 6, regs := { Regs.reset with crcCtrl := 2, cand := cand } }
  writeBytes s .cbuf 0 [0x01, 0x03, 0x00, 0x00, 0x00, 0x0A]

theorem test_crcCalc : nextIs (exec (.crcCalc 0) (crcState 0))
    (fun t => t.crcValue == 0x0000CDC5 && t.crcBytes == 0x0000C5CD && statusWord t.status == 0x00000002) = true := by
  decide +kernel

theorem test_crcCompare_swapped : nextIs (exec (.crcCompare 0) (crcState 0x0000C5CD))
    (fun t => t.crcValue == 0x0000CDC5 && t.crcBytes == 0x0000CDC5 && statusWord t.status == 0x00000012) = true := by
  decide +kernel

theorem test_crcCompare_mismatch : nextIs (exec (.crcCompare 0) (crcState 0x0000CDC4))
    (fun t => statusWord t.status == 0x00000006 && t.err == ⟨3, 0xFFFFFFFF, 2, 2, 0xCDC5, 0xCDC4⟩) = true := by
  decide +kernel

/-- CBUF of `n` bytes with these cipher registers (section 4.3). -/
def cipherState (mode keyLen ivLen : Word) (data : Bytes) : State :=
  let s := { State.reset with
    cbufLen := num data.length, regs := { Regs.reset with ciphCtrl := mode, keyLen := keyLen, ivLen := ivLen } }
  writeBytes s .cbuf 0 data

/-- Mode NONE is the identity (rule R141). -/
theorem test_encrypt_none : nextIs (exec (.encrypt 0) (cipherState 0 0 0 [0x41]))
    (fun t => readBytes t .cbuf 0 1 == .ok [0x41] && t.cbufLen == 1 && statusWord t.status == 2) = true := by
  decide +kernel

theorem test_encrypt_key_length : nextIs (exec (.encrypt 0) (cipherState 2 15 16 [0x41]))
    (fun t => t.err == ⟨0x0000000C, 0xFFFFFFFF, 0, 0, 16, 15⟩ && statusWord t.status == 6) = true := by decide +kernel

theorem test_decrypt_none : nextIs (exec (.decrypt 0) (cipherState 0 0 0 [0x41, 0x42]))
    (fun t => readBytes t .cbuf 0 2 == .ok [0x41, 0x42] && t.cbufLen == 2) = true := by decide +kernel

theorem test_decrypt_length : nextIs (exec (.decrypt 0) (cipherState 2 16 16 (List.replicate 15 0)))
    (fun t => t.err == ⟨0x0000020B, 0xFFFFFFFF, 0, 0, 16, 15⟩ && t.cbufLen == 15) = true := by decide +kernel

/-- The writer before a step of section 8. -/
def writing (main : MainState) (frame : Bytes) (wd : DescWords) (wv ws : Word) (tbl : Bytes) : State :=
  let s := { State.reset with
    status := { Status.reset with main := main }, frameLen := num frame.length,
    regs := { Regs.reset with
      wd := wd, wvPtr := wv, wsPtr := ws, lenCtrl := 1, lenfStart := 1, lenfEnd := 2, lenrStart := 2,
      lenrEnd := 0xFFFFFFFD, crcCtrl := 1, crcIndex := 0xFFFFFFFD, crcrEnd := 0xFFFFFFFD } }
  writeBytes (writeBytes s .tbl 0 tbl) .frame 0 frame

/-- Step 1 of section 8: `68` with the string "68" and the title "HEAD". -/
theorem test_writeFieldRaw :
    nextIs (exec .writeFieldRaw (writing .idle [] ⟨0x00010000, 0, 0, 0, 0, 0x00040003, 0, 0⟩ 0x00010000 0x00020001
        [0x68, 0x36, 0x38, 0x48, 0x45, 0x41, 0x44]))
      (fun t => frameIs t [0x68] && statusWord t.status == 0x00000202 && t.outCount == 1 &&
        outIs t [0, 1, 0, 0, 0, 1, 0, 2, 4, 0, 0x68, 0x36, 0x38, 0x48, 0x45, 0x41, 0x44]) = true := by decide +kernel

/-- Step 3 of section 8: "-2.2" through `convert.i16 swap scale=1e-1`. -/
theorem test_writeFieldEnc :
    nextIs (exec .writeFieldEnc (writing .accum [0x68, 0x00] ⟨0x00031B61, 2, 4, 6, 0x00000101, 0x00040004, 0, 0⟩
        0x00040000 0 [0x2D, 0x32, 0x2E, 0x32, 0x54, 0x45, 0x4D, 0x50]))
      (fun t => frameIs t [0x68, 0x00, 0xEA, 0xFF] && t.outCount == 1 && t.status.main == .accum) = true := by
  decide +kernel

/-- Step 6 of section 8. -/
theorem test_finalize :
    nextIs (exec (.finalize 0) (writing .accum [0x68, 0x00, 0xEA, 0xFF, 0x00, 0x00, 0x16] Regs.reset.wd 0 0 []))
      (fun t => frameIs t [0x68, 0x02, 0xEA, 0xFF, 0xA4, 0xB2, 0x16] && statusWord t.status == 0x0000040A) = true := by
  decide +kernel

/-- One COMPARE descriptor in PLAN: the target is the frame, the plan is done. -/
theorem test_encodePlan :
    nextIs (exec (.encodePlan 0)
        (let s := writing .idle [] Regs.reset.wd 0 0 [0x68]
         storePlan { s with regs := { s.regs with planLen := 1 } } 0 ⟨0x00201802, 0, 0, 1, 0, 0, 0x00010000, 0⟩))
      (fun t => frameIs t [0x68] && t.planPc == 1 && statusWord t.status == 0x00000202) = true := by decide +kernel

/-- The reset memory has the canonical form, and step at reset leaves the machine as it is. -/
theorem test_reset_memory : Memory.wf State.reset.mem := by decide

/-- A step fetches and runs what `withFetchWord` stores: `convert.u8` over the empty range is FIELD_LENGTH (1, 0). -/
theorem test_fetch_descriptor :
    nextIs (step (State.reset.withFetchWord 256 0x00031811)) (fun t => t.err.kind == 0x01010104 && t.err.expNum == 1) =
      true := by decide +kernel

/-! ## Witnesses: the hypotheses of each statement, met by a concrete state, clause by clause -/

/-- The computation gives a value that satisfies `p`. -/
def okIs {α : Type} (r : Res α) (p : α → Bool) : Bool :=
  match r with
  | .ok a => p a
  | .error _ => false

theorem exists_next {o : Out} {p : State → Bool} (h : nextIs o p = true) : ∃ t, o = .next t ∧ p t = true := by
  cases o with
  | next t => exact ⟨t, rfl, h⟩
  | fault f => cases h
  | refused r => cases h

theorem exists_ok {α : Type} {r : Res α} {p : α → Bool} (h : okIs r p = true) : ∃ a, r = .ok a ∧ p a = true := by
  cases r with
  | ok a => exact ⟨a, rfl, h⟩
  | error e => cases h

theorem written_of_read {s : State} {sp : Space} {n : Nat} {b : Bytes} (h : readBytes s sp 0 n = .ok b) :
    Written s sp n := fun i hi => ⟨b.getD i 0, by simpa using (readBytes_eq_ok_iff.1 h).2 i hi⟩

/-- Reset with one host move to come. -/
def moving (m : HostMove) : State := { State.reset with inputs := [m] }

theorem witness_ResetLeavesRegistersAndNoMemory :
    (moving .reset).status.busy = false ∧ (moving .reset).inputs = .reset :: [] := ⟨rfl, rfl⟩

/-! ### Invariants -/

/-- Accumulating: FRAME is `68`, OUT its one record, FINALIZE about to be written. -/
def accumulating : State :=
  let s := { moving (.write .word 0 5) with
    status := { Status.reset with main := .accum, done := true }, frameLen := 1, outBytes := 11, outCount := 1 }
  writeBytes (writeBytes s .frame 0 [0x68]) .out 0 [0, 1, 0, 0, 0, 1, 0, 0, 0, 0, 0x68]

theorem inv_accumulating : Inv accumulating where
  status := ⟨by decide, by decide, by decide, by decide, by decide, by decide, by decide, by decide, by decide⟩
  err := ⟨by decide, by decide, by decide, by decide⟩
  regs := ⟨by decide, by decide, by decide, by decide, by decide, by decide, by decide, by decide, by decide⟩
  lengths := ⟨by decide, by decide, by decide, by decide, by decide, by decide, by decide,
    fun i hi => absurd hi (Nat.not_lt_zero i),
    written_of_read (b := [0, 1, 0, 0, 0, 1, 0, 0, 0, 0, 0x68]) (by decide +kernel),
    fun i hi => absurd hi (Nat.not_lt_zero i), fun i hi => absurd hi (Nat.not_lt_zero i)⟩
  memory := by decide +kernel
  empty := by decide
  fromWd := rfl

theorem witness_EveryStepKeepsTheInvariant : Inv accumulating ∧ ∃ t, step accumulating = .next t := by
  obtain ⟨t, ht, -⟩ := exists_next (o := step accumulating) (p := fun t => t.status.main == .done) (by decide +kernel)
  exact ⟨inv_accumulating, t, ht⟩

/-- The record of the second part has the longest title, and fills OUT to its last byte. -/
theorem witness_EveryStepKeepsTheFieldList :
    (Inv accumulating ∧ LogInv accumulating ∧ ∃ t, step accumulating = .next t) ∧
    (let rf : Rawfield := ⟨3, 2, List.replicate 65271 0, List.replicate 255 0, []⟩
     IsLog State.reset [] ∧ outFits rf State.reset ∧ rf.title.length = 255 ∧ outNeed rf = 65536) := by
  have h : readRecords accumulating 0 1 = .ok ([⟨1, 0, [0x68], [], []⟩], 11) := by decide +kernel
  refine ⟨⟨inv_accumulating, ⟨⟨_, h⟩, fun _ l hl => ?_⟩, witness_EveryStepKeepsTheInvariant.2⟩, rfl, ?_, ?_, ?_⟩
  · have : l = [⟨1, 0, [0x68], [], []⟩] := by
      have := h.symm.trans hl
      simp only [Except.ok.injEq, Prod.mk.injEq] at this
      exact this.1.symm
    subst this
    decide +kernel
  · simp [outFits, outNeed, State.reset, Config.outMax, -List.reduceReplicate]
  · simp [-List.reduceReplicate]
  · simp [outNeed, -List.reduceReplicate]

/-- Every location of every memory written with 0. -/
def full : State := allSpaces.foldl (fun s sp => writeBytes s sp 0 (List.replicate (spaceSize sp) 0)) State.reset

theorem written_writeBytes {s : State} {sp : Space} {n : Nat} (sp' : Space) (off : Nat) (b : Bytes)
    (h : Written s sp n) : Written (writeBytes s sp' off b) sp n := fun i hi => by
  rw [readByte_writeBytes]
  split
  · exact ⟨_, rfl⟩
  · exact h i hi

theorem written_replicate (s : State) (sp : Space) :
    Written (writeBytes s sp 0 (List.replicate (spaceSize sp) 0)) sp (spaceSize sp) := fun i hi => by
  rw [readByte_writeBytes, if_pos ⟨rfl, Nat.zero_le _, by rw [List.length_replicate]; omega, hi⟩]
  exact ⟨_, rfl⟩

theorem written_fold (l : List Space) (s : State) (sp : Space) (h : sp ∈ l ∨ Written s sp (spaceSize sp)) :
    Written (l.foldl (fun s sp => writeBytes s sp 0 (List.replicate (spaceSize sp) 0)) s) sp (spaceSize sp) := by
  induction l generalizing s with
  | nil => exact h.resolve_left List.not_mem_nil
  | cons q l ih =>
    refine ih _ ?_
    rcases h with h | h
    · rcases List.mem_cons.1 h with rfl | h
      · exact .inr (written_replicate _ _)
      · exact .inl h
    · exact .inr (written_writeBytes _ _ _ h)

theorem witness_CommandsCompleteOnWrittenMemory :
    (Instr.decode 0).isDescriptor = false ∧ Inv full ∧ FullyWritten full := by
  have empty (sp : Space) : Written full sp 0 := fun i hi => absurd hi (Nat.not_lt_zero i)
  refine ⟨rfl, ⟨?_, ?_, ?_, ?_, ?_, ?_, rfl⟩, ?_⟩
  · exact ⟨by decide, by decide, by decide, by decide, by decide, by decide, by decide, by decide, by decide⟩
  · exact ⟨by decide, by decide, by decide, by decide⟩
  · exact ⟨by decide, by decide, by decide, by decide, by decide, by decide, by decide, by decide, by decide⟩
  · exact ⟨by decide, by decide, by decide, by decide, by decide, by decide, by decide, empty _, empty _, empty _, empty _⟩
  · simp only [full, allSpaces, List.foldl]
    iterate 10 apply writeBytes_wf
    exact reset_wf
  · decide
  · exact fun sp => written_fold _ _ _ (.inl (by cases sp <;> decide))

/-! ### Fetch and decode -/

theorem witness_EncodeOfDecodeIsIdentity : decodeWords [0x00000103] = .ok .writeFieldEnc := by decide

theorem witness_ReservedCommandWordsAreRefused :
    ((moving (.write .word 0 0x00000006)).status.busy = false ∧
      (0x00000006 : Word).extractLsb' 0 8 ∉
        ([0x00, 0x01, 0x02, 0x03, 0x04, 0x05, 0x10, 0x11, 0x20, 0x21] : List (BitVec 8))) ∧
    ((0x00000203 : Word).extractLsb' 0 8 = 0x03#8 ∧ (0x00000203 : Word).extractLsb' 9 23 ≠ 0#23) := by decide

theorem witness_CmdWriteRunsItsCommand :
    (moving (.write .word 0 0x00000103)).status.busy = false ∧
      (moving (.write .word 0 0x00000103)).inputs = .write .word 0 0x00000103 :: [] ∧
      decodeWords [0x00000103] = .ok .writeFieldEnc := ⟨rfl, rfl, by decide⟩

/-- `w` at PLAN[0], PLAN_LEN = 1, a plan command under way. -/
def inPlan (main : MainState) (w : DescWords) : State :=
  storePlan { State.reset with
    status := { Status.reset with busy := true, main := main }, regs := { Regs.reset with planLen := 1 } } 0 w

/-- The words of `convert.u8` over the empty range. -/
def u8Words : DescWords := ⟨0x00031811, 2, 0, 0, 0, 0x00010000, 0, 0⟩

theorem atDescriptor_inPlan : AtDescriptor (inPlan .reading u8Words) u8Words :=
  ⟨rfl, .inl rfl, .inl ⟨rfl, by decide, by decide +kernel⟩⟩

/-- The write descriptor `w` under way. -/
def inWrite (w : DescWords) : State :=
  { State.reset with
    status := { Status.reset with busy := true, main := .encoding }, fromWd := true, regs := { Regs.reset with wd := w } }

theorem atDescriptor_inWrite (w : DescWords) : AtDescriptor (inWrite w) w := ⟨rfl, .inr rfl, .inr ⟨rfl, rfl⟩⟩

theorem witness_SequencerStepRunsItsDescriptor :
    (AtDescriptor (inPlan .reading u8Words) u8Words ∧ AtDescriptor (inWrite u8Words) u8Words ∧
      decodeWords (descWordList u8Words) = .ok (.convertU8 plain)) ∧
    (let s (m : MainState) : State := { inPlan m u8Words with planPc := 1 }
     (s .reading).status.busy = true ∧ (s .reading).fromWd = false ∧
       (s .reading).regs.planLen.toNat ≤ (s .reading).planPc.toNat ∧ (s .reading).status.main = .reading ∧
       (s .encoding).status.main = .encoding) :=
  ⟨⟨atDescriptor_inPlan, atDescriptor_inWrite _, by decide⟩, rfl, rfl, by decide, rfl, rfl⟩

theorem witness_AtomicCommandsAreIteratedSteps :
    State.reset.inputs = [] ∧ Accepted (.decode 0) State.reset ∧ Accepted (.encodePlan 0) State.reset ∧
      Accepted .writeFieldEnc State.reset ∧ checkWriteField (beginWriter State.reset) = .ok () :=
  ⟨rfl, ⟨rfl, by decide⟩, ⟨rfl, by decide⟩, ⟨rfl, by decide⟩, by decide⟩

theorem witness_ReservedDescriptorWordsFail :
    ((AtDescriptor (inWrite ⟨0x00031810, 0, 0, 0, 0, 0, 0, 0⟩) ⟨0x00031810, 0, 0, 0, 0, 0, 0, 0⟩ ∧
        ((0x00031810 : Word).extractLsb' 0 4).toNat = 0) ∧
      AtDescriptor (inWrite ⟨0x00031814, 0, 0, 0, 0, 0, 0, 0⟩) ⟨0x00031814, 0, 0, 0, 0, 0, 0, 0⟩ ∧
        3 < ((0x00031814 : Word).extractLsb' 0 4).toNat) ∧
    (AtDescriptor (inWrite ⟨0x000318C3, 0, 0, 0, 0, 0, 0, 0⟩) ⟨0x000318C3, 0, 0, 0, 0, 0, 0, 0⟩ ∧
      ((0x000318C3 : Word).extractLsb' 0 4).toNat = 3 ∧ 12 ≤ ((0x000318C3 : Word).extractLsb' 4 4).toNat) ∧
    (AtDescriptor (inWrite ⟨0x000318B2, 0, 0, 0, 0, 0, 0, 0⟩) ⟨0x000318B2, 0, 0, 0, 0, 0, 0, 0⟩ ∧
      ((0x000318B2 : Word).extractLsb' 0 4).toNat = 2 ∧ ((0x000318B2 : Word).extractLsb' 4 4).toNat = 11) :=
  ⟨⟨⟨atDescriptor_inWrite _, by decide⟩, atDescriptor_inWrite _, by decide⟩, ⟨atDescriptor_inWrite _, by decide⟩,
    atDescriptor_inWrite _, by decide⟩

/-! ### DECODE -/

/-- Idle with a frame, head tag `68` at 0 and tail tag `16` at the last byte, and a plan of at most two descriptors. -/
def inbound (frame : Bytes) (planLen : Word) (w0 w1 : DescWords) : State :=
  let s := { State.reset with
    frameLen := num frame.length,
    regs := { Regs.reset with headTag := 0x00010000, tailIdx := 0xFFFFFFFF, tailTag := 0x00010001, planLen := planLen } }
  storePlan (storePlan (writeBytes (writeBytes s .tbl 0 [0x68, 0x16]) .frame 0 frame) 0 w0) 1 w1

/-- `convert.bcd [0,2)`, with the title `68`. -/
def bcdWords : DescWords := ⟨0x00031801, 2, 0, 2, 0, 0x00010000, 0, 0⟩

/-- `convert.bcd [0,3)`, past the end of the frames here. -/
def longWords : DescWords := ⟨0x00031801, 2, 0, 3, 0, 0x00010000, 0, 0⟩

theorem witness_DecodeRunsThePlanInOrder :
    Accepted (.decode 0) (inbound [0x68, 0x16] 2 bcdWords bcdWords) ∧
      checkHead (beginDecode (inbound [0x68, 0x16] 2 bcdWords bcdWords)) = .ok () ∧
      ∃ s2, loadTemp (setReader .extractFields (beginDecode (inbound [0x68, 0x16] 2 bcdWords bcdWords))) = .ok s2 ∧
        ∃ s3, planFold extractField 2 s2 = .ok s3 ∧ checkLength (setReader .expectChecksum s3) = .ok () ∧
          (∃ swap, checkCrc (setReader .expectChecksum s3) = .ok swap) ∧
          tagCheck s3 0xFFFFFFFF 0x00010001 .invalidTail = .ok () := by
  refine ⟨⟨rfl, by decide⟩, by decide +kernel, ?_⟩
  obtain ⟨s2, h2, p2⟩ := exists_ok
    (r := loadTemp (setReader .extractFields (beginDecode (inbound [0x68, 0x16] 2 bcdWords bcdWords))))
    (p := fun s2 => okIs (planFold extractField 2 s2) fun s3 =>
      decide (checkLength (setReader .expectChecksum s3) = .ok ()) &&
        (decide (checkCrc (setReader .expectChecksum s3) = .ok false) &&
          decide (tagCheck s3 0xFFFFFFFF 0x00010001 .invalidTail = .ok ()))) (by decide +kernel)
  obtain ⟨s3, h3, p3⟩ := exists_ok p2
  simp only [Bool.and_eq_true, decide_eq_true_eq] at p3
  exact ⟨s2, h2, s3, h3, p3.1, ⟨_, p3.2.1⟩, p3.2.2⟩

/-- An inbound frame with an empty plan, its registers changed by `f`. -/
def configured (f : Regs → Regs) (frame : Bytes) : State :=
  let s := inbound frame 0 bcdWords bcdWords
  { s with regs := f s.regs }

theorem witness_DecodeWithEmptyPlanFillsTemp :
    (let tagged (s : State) : Prop :=
       Accepted (.decode 0) s ∧ capDir s.regs ≠ 0 ∧ s.regs.planLen = 0 ∧
         readBytes s .frame 0 s.frameLen.toNat = .ok [0x68, 0x16] ∧
         InTbl s (tagPtr s.regs.headTag).off [0x68] ∧ ([0x68] : Bytes).length = (tagPtr s.regs.headTag).len ∧
         idx 2 s.regs.headIdx.toInt = (0 : Nat) ∧ slice [0x68, 0x16] 0 1 = [0x68] ∧
         InTbl s (tagPtr s.regs.tailTag).off [0x16] ∧ ([0x16] : Bytes).length = (tagPtr s.regs.tailTag).len ∧
         idx 2 s.regs.tailIdx.toInt = (1 : Nat) ∧ slice [0x68, 0x16] 1 2 = [0x16]
     let plainFrame := configured id [0x68, 0x16]
     let sealed := configured (fun r => { r with cipherSlot := 0, payStart := 1 }) [0x68, 0x16]
     (tagged plainFrame ∧ FinalizeSteps plainFrame.regs false false false) ∧
     (tagged sealed ∧ FinalizeSteps sealed.regs true false false ∧
       range 2 sealed.regs.payStart.toInt sealed.regs.payEnd.toInt = .ok (1, 2) ∧ CipherOperands sealed [] [] ∧
       cipherDec Config.blockCipher (cipherMode sealed.regs) [] [] (slice [0x68, 0x16] 1 2) = .ok [0x16])) := by
  refine ⟨⟨?_, by decide, rfl, rfl⟩, ?_, ⟨by decide, rfl, rfl⟩, by decide,
    ⟨fun h => absurd (by decide) h, fun h => absurd h (by decide)⟩, by decide⟩
  all_goals exact ⟨⟨rfl, by decide⟩, by decide, rfl, by decide +kernel, ⟨by decide, by decide +kernel⟩, by decide,
    by decide, by decide, ⟨by decide, by decide +kernel⟩, by decide, by decide, by decide⟩

/-- DECODE reaches its checks, and the state there satisfies `p`. -/
theorem reaches_checks {s : State} {p : State → Bool}
    (h : okIs (loadTemp (setReader .extractFields (beginDecode s))) (fun s2 =>
      okIs (planFold extractField s.regs.planLen.toNat s2) fun s3 => p (setReader .expectChecksum s3)) = true) :
    ∃ s2 s3, loadTemp (setReader .extractFields (beginDecode s)) = .ok s2 ∧
      planFold extractField s.regs.planLen.toNat s2 = .ok s3 ∧ p (setReader .expectChecksum s3) = true := by
  obtain ⟨s2, h2, p2⟩ := exists_ok h
  obtain ⟨s3, h3, p3⟩ := exists_ok p2
  exact ⟨s2, s3, h2, h3, p3⟩

/-- A wrong head; a payload that does not decrypt; a length field of one byte that holds 68; a checksum in the last two
bytes that agrees in no order; a wrong tail. -/
theorem witness_ReaderErrorsRejectTheFrame :
    (let started (s : State) (frame : Bytes) : Prop :=
       Accepted (.decode 0) s ∧ capDir s.regs ≠ 0 ∧ s.regs.planLen.toNat ≤ Config.planMax ∧
         readBytes s .frame 0 s.frameLen.toNat = .ok frame
     let reached (s : State) (p : State → Bool) : Prop :=
       checkHead (beginDecode s) = .ok () ∧ ∃ s2 s3, loadTemp (setReader .extractFields (beginDecode s)) = .ok s2 ∧
         planFold extractField s.regs.planLen.toNat s2 = .ok s3 ∧ p (setReader .expectChecksum s3) = true
     let sealed := configured (fun r => { r with cipherSlot := 0, ciphCtrl := 7 }) [0x68, 0x16]
     let counted := configured (fun r => { r with lenCtrl := 1, lenfEnd := 1 }) [0x68, 0x16]
     let summed := configured (fun r => { r with crcCtrl := 1, crcrEnd := 1 }) [0x68, 0x16]
     let untailed := configured id [0x68, 0x17]
     (started (configured id [0x69, 0x16]) [0x69, 0x16] ∧
       InTbl (configured id [0x69, 0x16]) 0 [0x68] ∧ (tagPtr (configured id [0x69, 0x16]).regs.headTag) = ⟨0, 1⟩ ∧
       idx 2 (configured id [0x69, 0x16]).regs.headIdx.toInt = 0 ∧ slice [0x69, 0x16] 0 1 ≠ [0x68]) ∧
     (started sealed [0x68, 0x16] ∧ checkHead (beginDecode sealed) = .ok () ∧ 0 ≤ sealed.regs.cipherSlot.toInt ∧
       range 2 sealed.regs.payStart.toInt sealed.regs.payEnd.toInt = .ok (0, 2) ∧ CipherOperands sealed [] [] ∧
       ∃ e, cipherDec Config.blockCipher (cipherMode sealed.regs) [] [] (slice [0x68, 0x16] 0 2) = .error e) ∧
     (started counted [0x68, 0x16] ∧ reached counted (fun _ => true) ∧ counted.regs.lenCtrl.getLsbD 0 = true ∧
       range 2 counted.regs.lenfStart.toInt counted.regs.lenfEnd.toInt = .ok (0, 1) ∧
       range 2 counted.regs.lenrStart.toInt counted.regs.lenrEnd.toInt = .ok (0, 2) ∧ be [0x68] ≠ 2) ∧
     (started summed [0x68, 0x16] ∧ reached summed (fun t => checkLength t == .ok ()) ∧
       summed.regs.crcCtrl.getLsbD 0 = true ∧
       range 2 summed.regs.crcrStart.toInt summed.regs.crcrEnd.toInt = .ok (0, 1) ∧
       idx 2 summed.regs.crcIndex.toInt = (0 : Nat) ∧
       Config.crcTable (summed.regs.crcCtrl.extractLsb' 4 4) = some Config.crcModbus ∧
       (let c := (crc16P Config.crcModbus [0x68]).toNat
        ([0x68, 0x16] : Bytes) ≠ beN c 2 ∧ ([0x68, 0x16] : Bytes).reverse ≠ beN c 2)) ∧
     (started untailed [0x68, 0x17] ∧
       reached untailed (fun t => checkLength t == .ok () && checkCrc t == .ok false) ∧
       InTbl untailed 1 [0x16] ∧ tagPtr untailed.regs.tailTag = ⟨1, 1⟩ ∧ idx 2 untailed.regs.tailIdx.toInt = 1 ∧
       slice [0x68, 0x17] 1 2 ≠ [0x16])) := by
  refine ⟨⟨?_, ⟨by decide, by decide +kernel⟩, by decide, by decide, by decide⟩,
    ⟨?_, by decide +kernel, by decide, by decide, ⟨fun _ => rfl, fun _ => rfl⟩, _, rfl⟩,
    ⟨?_, ⟨by decide +kernel, reaches_checks (p := fun _ => true) (by decide +kernel)⟩, by decide, by decide, by decide,
      by decide⟩,
    ⟨?_, ⟨by decide +kernel, reaches_checks (p := fun t => checkLength t == .ok ()) (by decide +kernel)⟩, by decide,
      by decide, by decide, by decide, by decide +kernel⟩,
    ?_, ⟨by decide +kernel, reaches_checks (p := fun t => checkLength t == .ok () && checkCrc t == .ok false)
      (by decide +kernel)⟩, ⟨by decide, by decide +kernel⟩, by decide, by decide, by decide⟩
  all_goals exact ⟨⟨rfl, by decide⟩, by decide, by decide, by decide +kernel⟩

/-- The last descriptor of two fails, in either direction. -/
theorem witness_PlanErrorsArePrecise :
    (Accepted (.decode 0) (inbound [0x68, 0x16] 2 bcdWords longWords) ∧
      ∃ t, exec (.decode 0) (inbound [0x68, 0x16] 2 bcdWords longWords) = .next t ∧ t.status.main = .failed ∧
        t.err.index ≠ 0xFFFFFFFF) ∧
    (let w : DescWords := ⟨0x00033801, 2, 0, 2, 0, 0x00010000, 0, 0⟩
     let s := inbound [] 2 ⟨0x00031802, 2, 0, 1, 0, 0x00010000, 0x00010000, 0⟩ w
     Accepted (.encodePlan 0) s ∧
      ∃ t, exec (.encodePlan 0) s = .next t ∧ t.status.main = .failed ∧ t.err.index ≠ 0xFFFFFFFF) := by
  constructor
  · obtain ⟨t, h, p⟩ := exists_next (o := exec (.decode 0) (inbound [0x68, 0x16] 2 bcdWords longWords))
      (p := fun t => decide (t.status.main = .failed ∧ t.err.index = 1)) (by decide +kernel)
    simp only [decide_eq_true_eq] at p
    exact ⟨⟨rfl, by decide⟩, t, h, p.1, by rw [p.2]; decide⟩
  · obtain ⟨t, h, p⟩ := exists_next
      (o := exec (.encodePlan 0) (inbound [] 2 ⟨0x00031802, 2, 0, 1, 0, 0x00010000, 0x00010000, 0⟩
        ⟨0x00033801, 2, 0, 2, 0, 0x00010000, 0, 0⟩))
      (p := fun t => decide (t.status.main = .failed ∧ t.err.index = 1)) (by decide +kernel)
    simp only [decide_eq_true_eq] at p
    exact ⟨⟨rfl, by decide⟩, t, h, p.1, by rw [p.2]; decide⟩

/-! ### Capsule commands without operands, and the engines -/

/-- A failed capsule. -/
def failed : State := failCapsule { cause := .badConfig } noIndex State.reset

theorem witness_NopKeepsTheErrorRecord : Accepted (.nop 0xFFFFFF) failed := ⟨rfl, by decide⟩

theorem witness_NewCapsuleIsFresh : Accepted (.newCapsule 0xFFFFFF) failed := ⟨rfl, by decide⟩

theorem witness_CrcCalcWritesTheChecksum :
    Accepted (.crcCalc 0) (crcState 0) ∧
      readBytes (crcState 0) .cbuf 0 (crcState 0).cbufLen.toNat = .ok [0x01, 0x03, 0x00, 0x00, 0x00, 0x0A] :=
  ⟨⟨rfl, by decide⟩, by decide +kernel⟩

theorem witness_CrcCompareChecksTheCandidate :
    (let data : Bytes := [0x01, 0x03, 0x00, 0x00, 0x00, 0x0A]
     let s := crcState 0x0000CDC5
     Accepted (.crcCompare 0) s ∧ Config.crcTable (s.regs.crcCtrl.extractLsb' 4 4) = some Config.crcModbus ∧
      readBytes s .cbuf 0 s.cbufLen.toNat = .ok data ∧ crc16P Config.crcModbus data = 0xCDC5#16 ∧
      (s.regs.cand.extractLsb' 0 16 : BitVec 16) = 0xCDC5#16 ∧
      ((crcState 0x0000C5CD).regs.cand.extractLsb' 0 16 : BitVec 16) = 0xC5CD#16 ∧
      ((crcState 0x0000CDC4).regs.cand.extractLsb' 0 16 : BitVec 16) = 0xCDC4#16) :=
  ⟨⟨rfl, by decide⟩, by decide, by decide +kernel, by decide +kernel, by decide, by decide, by decide⟩

theorem witness_CrcEngineProperties :
    Config.crcModbus.poly.getLsbD 0 = true ∧ 7 < 8 ∧ 0 < ([0xFF] : Bytes).length ∧
      ∃ c two four, crcEmit 0 [0x01] true = .ok (c, two, four) :=
  ⟨by decide, by decide, by decide, _, _, _, rfl⟩

theorem witness_CorruptedChecksumByteIsCaught :
    crcCompareBytes [0xF6, 0xFC] 0xFCF6 = .ok true ∧ ((0xF7 : Byte) ≠ 0xF6 ∧ (0xFC : Byte) = 0xFC) ∧
      ((0xF6 : Byte) = 0xF6 ∧ (0xFD : Byte) ≠ 0xFC) := by decide

/-- CBUF as in `cipherState`, with a key and an IV of zeros. -/
def keyed (mode keyLen ivLen : Word) (data : Bytes) : State :=
  writeBytes (writeBytes (cipherState mode keyLen ivLen data) .keybuf 0 (List.replicate 16 0)) .ivbuf 0 (List.replicate 16 0)

theorem cipherOperands_keyed (mode : Word) (data : Bytes) :
    CipherOperands (keyed mode 16 16 data) (List.replicate 16 0) (List.replicate 16 0) where
  key := fun _ => by
    rw [keyed, readBytes_writeBytes_of_disjoint (.inl (by decide))]
    exact readBytes_writeBytes_self (b := List.replicate 16 0) (by decide)
  iv := fun _ => readBytes_writeBytes_self (b := List.replicate 16 0) (by decide)

theorem cbuf_keyed (mode keyLen ivLen : Word) (data : Bytes) (h : data.length ≤ 4096) :
    readBytes (keyed mode keyLen ivLen data) .cbuf 0 data.length = .ok data := by
  rw [keyed, readBytes_writeBytes_of_disjoint (.inl (by decide)), readBytes_writeBytes_of_disjoint (.inl (by decide))]
  refine readBytes_writeBytes_self ?_
  rw [show spaceSize .cbuf = 4096 from rfl]
  omega

theorem accepted_encrypt (mode keyLen ivLen : Word) (data : Bytes) :
    Accepted (.encrypt 0) (keyed mode keyLen ivLen data) := ⟨rfl, List.mem_cons_self⟩

theorem accepted_decrypt (mode keyLen ivLen : Word) (data : Bytes) :
    Accepted (.decrypt 0) (keyed mode keyLen ivLen data) := ⟨rfl, List.mem_cons_self⟩

/-- NONE with no byte, every other mode with one byte, CTS with a whole block, the shortest it takes; the longest data
whose padded form fits CBUF, and the shortest whose does not. -/
theorem witness_EncryptReplacesTheBuffer :
    (let ready (mode : Word) (data : Bytes) : Prop :=
       Accepted (.encrypt 0) (keyed mode 16 16 data) ∧
         CipherOperands (keyed mode 16 16 data) (List.replicate 16 0) (List.replicate 16 0) ∧
         readBytes (keyed mode 16 16 data) .cbuf 0 data.length = .ok data
     (Accepted (.encrypt 0) (keyed 0 0 0 []) ∧ CipherOperands (keyed 0 0 0 []) [] [] ∧
       readBytes (keyed 0 0 0 []) .cbuf 0 0 = .ok []) ∧
     (∀ mode : Word, ready mode [0x41]) ∧ ready 6 (List.replicate 16 0) ∧
     (ready 1 (List.replicate 4095 0) ∧ 16 * (4095 / 16 + 1) = Config.cbufMax) ∧
     (ready 2 (List.replicate 4096 0) ∧ Config.cbufMax < 16 * (4096 / 16 + 1))) :=
  ⟨⟨accepted_encrypt _ _ _ _, ⟨fun h => absurd (by decide) h, fun h => absurd h (by decide)⟩, rfl⟩,
    fun _ => ⟨accepted_encrypt _ _ _ _, cipherOperands_keyed _ _, cbuf_keyed _ _ _ _ (by decide)⟩,
    ⟨accepted_encrypt _ _ _ _, cipherOperands_keyed _ _, cbuf_keyed _ _ _ _ (by simp)⟩,
    ⟨⟨accepted_encrypt _ _ _ _, cipherOperands_keyed _ _, cbuf_keyed _ _ _ _ (by simp [-List.reduceReplicate])⟩, by decide⟩,
    ⟨accepted_encrypt _ _ _ _, cipherOperands_keyed _ _, cbuf_keyed _ _ _ _ (by simp [-List.reduceReplicate])⟩, by decide⟩

/-- A block that decrypts to no padding at all, in ECB mode. -/
def unpadded : Bytes := blockEnc Config.blockCipher (List.replicate 16 0) (List.replicate 16 0)

theorem witness_DecryptReplacesTheBuffer :
    (Accepted (.decrypt 0) (keyed 0 0 0 [0x41]) ∧ CipherOperands (keyed 0 0 0 [0x41]) [] [] ∧
      readBytes (keyed 0 0 0 [0x41]) .cbuf 0 1 = .ok [0x41] ∧
      cipherDec Config.blockCipher 0 [] [] [0x41] = .ok [0x41]) ∧
    (Accepted (.decrypt 0) (keyed 5 16 16 [0x41]) ∧
      CipherOperands (keyed 5 16 16 [0x41]) (List.replicate 16 0) (List.replicate 16 0) ∧
      readBytes (keyed 5 16 16 [0x41]) .cbuf 0 1 = .ok [0x41] ∧
      ∃ r, cipherDec Config.blockCipher 5 (List.replicate 16 0) (List.replicate 16 0) [0x41] = .ok r) ∧
    (Accepted (.decrypt 0) (keyed 1 16 16 unpadded) ∧
      CipherOperands (keyed 1 16 16 unpadded) (List.replicate 16 0) (List.replicate 16 0) ∧
      readBytes (keyed 1 16 16 unpadded) .cbuf 0 unpadded.length = .ok unpadded ∧
      cipherDec Config.blockCipher 1 (List.replicate 16 0) (List.replicate 16 0) unpadded =
        .error { cause := .badPadding, actNum := 0 }) ∧
    (let x : Bytes := List.replicate 16 16
     let y : Bytes := List.replicate 15 0 ++ [17]
     x ≠ [] ∧ x.length % 16 = 0 ∧ x.drop 0 = List.replicate 16 (BitVec.ofNat 8 16) ∧ y.length % 16 = 0 ∧
       16 < (y.getLastD 0).toNat) := by
  have len : unpadded.length = 16 := blockEnc_length _ _ _
  refine ⟨⟨accepted_decrypt _ _ _ _, ⟨fun h => absurd (by decide) h, fun h => absurd h (by decide)⟩,
      cbuf_keyed _ _ _ _ (by decide), by decide⟩,
    ⟨accepted_decrypt _ _ _ _, cipherOperands_keyed _ _, cbuf_keyed _ _ _ _ (by decide), _, rfl⟩,
    ⟨accepted_decrypt _ _ _ _, cipherOperands_keyed _ _, cbuf_keyed _ _ _ _ (by omega), ?_⟩, by decide⟩
  have ne : unpadded ≠ [] := fun h => by rw [h] at len; simp at len
  have check : cipherCheck 1 (List.replicate 16 (0 : Byte)).length (List.replicate 16 (0 : Byte)).length 16 true = .ok () := by
    decide
  have one : ecbMap (blockDec Config.blockCipher (List.replicate 16 0)) unpadded = List.replicate 16 0 := by
    rw [ecbMap, blocks_cons ne, List.take_of_length_le (by omega), List.drop_eq_nil_of_le (by omega), blocks_nil]
    simp only [List.flatMap_cons, List.flatMap_nil, List.append_nil]
    exact blockDec_blockEnc _ _ (by simp)
  rw [cipherDec, len, check]
  show pkcs7Unpad _ = _
  rw [one]
  decide

theorem witness_CipherRoundTrip :
    (6 : BitVec 8).toNat ≤ 6 ∧ (List.replicate 16 (0 : Byte)).length = 16 ∧
      (16 ≤ (List.replicate 16 (0 : Byte)).length) ∧ (List.replicate 16 (0 : Byte)).length % 16 = 0 := by decide

theorem witness_CipherPreconditionsInOrder :
    (∀ m k v b, Accepted (.encrypt 0) (keyed m k v b) ∧ Accepted (.decrypt 0) (keyed m k v b)) ∧
    (let mode (m : Word) := (cipherMode (keyed m 0 0 []).regs).toNat
     mode 7 = 7 ∧ mode 1 = 1 ∧ mode 2 = 2 ∧ mode 6 = 6) ∧
    (keyed 1 15 16 []).regs.keyLen ≠ 16 ∧ (keyed 6 17 16 []).regs.keyLen ≠ 16 ∧
    (keyed 2 16 15 []).regs.ivLen ≠ 16 ∧ (keyed 6 16 16 (List.replicate 15 0)).cbufLen.toNat < 16 ∧
    (keyed 1 16 0 []).cbufLen = 0 ∧ (keyed 2 16 16 (List.replicate 17 0)).cbufLen.toNat % 16 ≠ 0 :=
  ⟨fun _ _ _ _ => ⟨accepted_encrypt _ _ _ _, accepted_decrypt _ _ _ _⟩, by decide, by decide, by decide, by decide,
    by decide, by decide, by decide⟩

/-! ### Descriptors on decode -/

/-- OUT with room for exactly `n` more bytes. -/
def room (n : Nat) (s : State) : State := { s with outBytes := num (65536 - n) }

theorem witness_ConvertIntegerDecodes :
    (FType.u8, 1, false) ∈ integerTypes ∧ (Instr.convertU8 (field 1)).descriptor? = some (.convert, .u8, field 1) ∧
      DecodeReady (room 15 (reading [0xFF] tbl)) .convert .u8 (field 1) [0xFF] tbl ∧
      outFits (fieldRecord (field 1) [0xFF] tbl (decRender 255 0)) (room 15 (reading [0xFF] tbl)) :=
  ⟨by decide, rfl, ⟨⟨rfl, rfl, rfl⟩, ⟨by decide, (fun h => absurd h (by decide)), by decide⟩, by decide, by decide, by decide +kernel,
    by decide +kernel⟩, by decide +kernel⟩

theorem witness_ConvertTextDecodes :
    (DecodeReady (reading [0x7F] tbl) .convert .bcd (field 1) [0x7F] tbl ∧
      outFits (fieldRecord (field 1) [0x7F] tbl (hex [0x7F])) (reading [0x7F] tbl)) ∧
    (DecodeReady (reading [0x7F] tbl) .convert .ascii (field 1) [0x7F] tbl ∧ (0x7F : Byte).toNat ≤ 0x7F ∧
      outFits (fieldRecord (field 1) [0x7F] tbl [0x7F]) (reading [0x7F] tbl)) :=
  ⟨⟨⟨⟨rfl, rfl, rfl⟩, ⟨by decide, (fun h => absurd h (by decide)), by decide⟩, by decide, by decide, by decide +kernel,
    by decide +kernel⟩, by decide⟩, ⟨⟨rfl, rfl, rfl⟩, ⟨by decide, (fun h => absurd h (by decide)), by decide⟩, by decide, by decide,
    by decide +kernel, by decide +kernel⟩, by decide, by decide⟩

theorem witness_ConvertFloatDecodes :
    DecodeReady (reading [1, 2, 3, 4] tbl) .convert .float (field 4) [1, 2, 3, 4] tbl ∧
    DecodeReady (reading [1, 2, 3, 4, 5, 6, 7, 8] tbl) .convert .double (field 8) [1, 2, 3, 4, 5, 6, 7, 8] tbl :=
  ⟨⟨⟨rfl, rfl, rfl⟩, ⟨by decide, (fun h => absurd h (by decide)), by decide⟩, by decide, by decide, by decide +kernel,
    by decide +kernel⟩, ⟨rfl, rfl, rfl⟩, ⟨by decide, (fun h => absurd h (by decide)), by decide⟩, by decide, by decide,
    by decide +kernel, by decide +kernel⟩

/-- `target` in TBL after the title. -/
def comparing (n : Nat) : Desc := { field n with auxOff := 1, auxLen := 1 }

theorem witness_CompareDecodes :
    (DecodeReady (reading [0xAA] [0x54, 0xAA]) .compare .bcd (comparing 1) [0xAA] tbl ∧
      readBytes (reading [0xAA] [0x54, 0xAA]) .tbl 1 1 = .ok [0xAA] ∧ swapped (comparing 1) [0xAA] = [0xAA]) ∧
    (DecodeReady (reading [0xAB] [0x54, 0xAA]) .compare .bcd (comparing 1) [0xAB] tbl ∧
      readBytes (reading [0xAB] [0x54, 0xAA]) .tbl 1 1 = .ok [0xAA] ∧ swapped (comparing 1) [0xAB] ≠ [0xAA]) :=
  ⟨⟨⟨⟨rfl, rfl, rfl⟩, ⟨by decide, (fun h => absurd h (by decide)), by decide⟩, by decide, by decide, by decide +kernel,
    by decide +kernel⟩, by decide +kernel, by decide⟩, ⟨⟨rfl, rfl, rfl⟩, ⟨by decide, (fun h => absurd h (by decide)), by decide⟩,
    by decide, by decide, by decide +kernel, by decide +kernel⟩, by decide +kernel, by decide⟩

/-- The title, then the enum table `01: "on"`. -/
def enumTbl : Bytes := [0x54, 0x01, 0x01, 0x02, 0x6F, 0x6E]

theorem hasEnum_of_tbl {s : State} (n : Nat) (h : InTbl s 1 (enumImage [([0x01], [0x6F, 0x6E])])) :
    HasEnum s (comparing n) [([0x01], [0x6F, 0x6E])] := ⟨rfl, by decide, h⟩

theorem witness_EnumDecodes :
    (DecodeReady (reading [0x01] enumTbl) .enum .bcd (comparing 1) [0x01] tbl ∧
      HasEnum (reading [0x01] enumTbl) (comparing 1) [([0x01], [0x6F, 0x6E])]) ∧
    (DecodeReady (reading [0x07] enumTbl) .enum .bcd (comparing 1) [0x07] tbl ∧
      HasEnum (reading [0x07] enumTbl) (comparing 1) [([0x01], [0x6F, 0x6E])]) :=
  ⟨⟨⟨⟨rfl, rfl, rfl⟩, ⟨by decide, (fun h => absurd h (by decide)), by decide⟩, by decide, by decide, by decide +kernel,
    by decide +kernel⟩, hasEnum_of_tbl 1 ⟨by decide, by decide +kernel⟩⟩, ⟨⟨rfl, rfl, rfl⟩,
    ⟨by decide, (fun h => absurd h (by decide)), by decide⟩, by decide, by decide, by decide +kernel, by decide +kernel⟩,
    hasEnum_of_tbl 1 ⟨by decide, by decide +kernel⟩⟩

/-- The slice, in both forms; then a length and a zero scale, floats a byte short, a byte `80`; and in every form a
record one byte too long for OUT (for FLOAT, whose text is open, OUT is full). -/
theorem witness_DescriptorErrorsOnDecode :
    ((Decoding (reading [0x80] tbl) ∧ illegalCondition (reading [0x80] tbl) .convert .u8 (field 2) = .ok none ∧
      (field 2).dir &&& capDir (reading [0x80] tbl).regs ≠ 0 ∧ (reading [0x80] tbl).tempLen.toNat < (field 2).endIndex.toNat ∧
      ({ field 0 with startIndex := 1 }).endIndex.toNat < ({ field 0 with startIndex := 1 }).startIndex.toNat) ∧
    (DecodeReady (reading [0x80] tbl) .convert .u16 (field 1) [0x80] tbl ∧ ([0x80] : Bytes).length ≠ 2) ∧
    (DecodeReady (reading [0x80] tbl) .convert .u8 { field 1 with scaleEn := true } [0x80] tbl ∧
      ({ field 1 with scaleEn := true }).scaleM = 0) ∧
    (DecodeReady (reading [1, 2, 3] tbl) .convert .float (field 3) [1, 2, 3] tbl ∧ ([1, 2, 3] : Bytes).length ≠ 4) ∧
    (DecodeReady (reading [0x80] tbl) .convert .ascii (field 1) [0x80] tbl ∧
      (swapped (field 1) [0x80]).findIdx? (0x7F < ·.toNat) = some 0)) ∧
    (let tooLong (n : Nat) (temp t : Bytes) (k : Kind) (ft : FType) (d : Desc) (v : Bytes) : Prop :=
       DecodeReady (room n (reading temp t)) k ft d temp tbl ∧ DecodedValue (room n (reading temp t)) d temp k ft v ∧
         ¬ outFits (fieldRecord d temp tbl v) (room n (reading temp t))
     tooLong 13 [0x80] tbl .convert .bcd (field 1) (hex [0x80] ++ []) ∧
     tooLong 14 [0x80] tbl .convert .u8 (field 1) (decRender 128 0 ++ []) ∧
     tooLong 12 [0x7F] tbl .convert .ascii (field 1) ([0x7F] ++ []) ∧
     tooLong 0 [1, 2, 3, 4] tbl .convert .float (field 4) (Config.floatText.render 0x01020304 ++ []) ∧
     tooLong 13 [0xAA] [0x54, 0xAA] .compare .bcd (comparing 1) (hex [0xAA]) ∧
     tooLong 13 [0x01] enumTbl .enum .bcd (comparing 1) [0x6F, 0x6E] ∧
     tooLong 13 [0x07] enumTbl .enum .bcd (comparing 1) (hex [0x07])) := by
  refine ⟨⟨⟨⟨rfl, rfl, rfl⟩, by decide, by decide, by decide, by decide⟩, ⟨?_, by decide⟩, ⟨?_, rfl⟩, ⟨?_, by decide⟩,
    ⟨?_, by decide⟩⟩, ⟨?_, .convert _ _ (.bcd _), by decide +kernel⟩,
    ⟨?_, .convert _ _ (.integer .u8 1 false _ (by decide) rfl (by decide)), by decide +kernel⟩,
    ⟨?_, .convert _ _ (.ascii _ (by decide)), by decide +kernel⟩,
    ⟨?_, .convert _ _ (.float [1, 2, 3, 4] rfl), ?float⟩,
    ⟨?_, .compare (by decide +kernel), by decide +kernel⟩,
    ⟨?_, .label _ ([0x01], [0x6F, 0x6E]) (hasEnum_of_tbl 1 ⟨by decide, by decide +kernel⟩) (by decide), by decide +kernel⟩,
    ⟨?_, .noLabel _ (hasEnum_of_tbl 1 ⟨by decide, by decide +kernel⟩) (by decide), by decide +kernel⟩⟩
  case float =>
    intro h
    have fits := h.2.2
    rw [show (room 0 (reading [1, 2, 3, 4] tbl)).outBytes.toNat = 65536 from rfl, Config.outMax, outNeed] at fits
    omega
  all_goals exact ⟨⟨rfl, rfl, rfl⟩, ⟨by decide, (fun h => absurd h (by decide)), by decide⟩, by decide, by decide, by decide +kernel,
    by decide +kernel⟩

/-! ### Descriptors on encode -/

theorem witness_ConvertIntegerEncodes :
    (let s := encoding 3 (tbl ++ [0x32, 0x35, 0x35])
     (FType.u8, 1, false) ∈ integerTypes ∧ EncodeReady s .convert .u8 (field 1) [0x32, 0x35, 0x35] tbl ∧
      decParse? [0x32, 0x35, 0x35] = some (255, 0) ∧ (scaleOf (field 1)).1 ≠ 0 ∧ roundHA (255 * 10 ^ 0) (10 ^ 0 * 1) = 255 ∧
      s.frameLen.toNat + 1 ≤ Config.frameMax ∧ outFits (fieldRecord (field 1) [0xFF] tbl [0x32, 0x35, 0x35]) s) :=
  ⟨by decide, ⟨⟨rfl, rfl⟩, ⟨by decide, (fun h => absurd h (by decide)), by decide⟩, by decide +kernel, by decide, by decide +kernel⟩,
    by decide, by decide, by decide, by decide, by decide⟩

theorem witness_ConvertTextEncodes :
    (let s := encoding 2 (tbl ++ [0x37, 0x46])
     (EncodeReady s .convert .bcd (field 1) [0x37, 0x46] tbl ∧ unhex? [0x37, 0x46] = some [0x7F] ∧
       ([0x7F] : Bytes).length = (field 1).endIndex.toNat - (field 1).startIndex.toNat ∧
       outFits (fieldRecord (field 1) [0x7F] tbl [0x37, 0x46]) s) ∧
     (EncodeReady s .convert .ascii (field 0) [0x37, 0x46] tbl ∧ (field 0).endIndex = (field 0).startIndex ∧
       (∀ c ∈ ([0x37, 0x46] : Bytes), c.toNat ≤ 0x7F) ∧ outFits (fieldRecord (field 0) [0x37, 0x46] tbl [0x37, 0x46]) s)) :=
  ⟨⟨⟨⟨rfl, rfl⟩, ⟨by decide, (fun h => absurd h (by decide)), by decide⟩, by decide +kernel, by decide, by decide +kernel⟩, by decide,
    by decide, by decide⟩, ⟨⟨rfl, rfl⟩, ⟨by decide, (fun h => absurd h (by decide)), by decide⟩, by decide +kernel, by decide,
    by decide +kernel⟩, rfl, by simp, by decide⟩

theorem witness_ConvertFloatEncodes :
    (let s := encoding 2 (tbl ++ [0x31, 0x30])
     (EncodeReady s .convert .float (field 4) [0x31, 0x30] tbl ∧ s.frameLen.toNat + 4 ≤ Config.frameMax ∧
       outFits (fieldRecord (field 4) [0, 0, 0, 0] tbl [0x31, 0x30]) s) ∧
     (EncodeReady s .convert .double (field 0) [0x31, 0x30] tbl ∧ s.frameLen.toNat + 8 ≤ Config.frameMax ∧
       outFits (fieldRecord (field 0) [0, 0, 0, 0, 0, 0, 0, 0] tbl [0x31, 0x30]) s)) :=
  ⟨⟨⟨⟨rfl, rfl⟩, ⟨by decide, (fun h => absurd h (by decide)), by decide⟩, by decide +kernel, by decide, by decide +kernel⟩, by decide,
    by decide⟩, ⟨⟨rfl, rfl⟩, ⟨by decide, (fun h => absurd h (by decide)), by decide⟩, by decide +kernel, by decide, by decide +kernel⟩,
    by decide, by decide⟩

theorem witness_CompareEncodes :
    (let s := encoding 0 [0x54, 0xAA]
     readBytes s .tbl (comparing 1).auxOff.toNat (comparing 1).auxLen.toNat = .ok [0xAA] ∧
     (EncodeReady s .compare .bcd (comparing 1) [] tbl ∧ (comparing 1).endIndex.toNat - (comparing 1).startIndex.toNat = 1 ∧
       outFits (fieldRecord (comparing 1) [0xAA] tbl [0x41, 0x41]) s) ∧
     (EncodeReady s .compare .bcd (comparing 2) [] tbl ∧ (comparing 2).endIndex.toNat - (comparing 2).startIndex.toNat = 2)) :=
  ⟨by decide +kernel, ⟨⟨⟨rfl, rfl⟩, ⟨by decide, (fun h => absurd h (by decide)), by decide⟩, by decide +kernel, by decide,
    by decide +kernel⟩, by decide, by decide⟩, ⟨⟨rfl, rfl⟩, ⟨by decide, (fun h => absurd h (by decide)), by decide⟩, by decide +kernel,
    by decide, by decide +kernel⟩, by decide⟩

/-- The enum descriptor over `[0, n)` whose table `01: "on"` follows the value `v` in TBL. -/
def listing (n : Nat) (v : Bytes) : Desc := { field n with auxOff := BitVec.ofNat 16 (1 + v.length), auxLen := 1 }

/-- TBL with the title, the value and that table. -/
def listTbl (v : Bytes) : Bytes := tbl ++ v ++ enumImage [([0x01], [0x6F, 0x6E])]

/-- A label, a hex string, a hex string of another length, and neither. -/
theorem witness_EnumEncodes :
    (let ready (n : Nat) (v : Bytes) : Prop :=
       EncodeReady (encoding v.length (listTbl v)) .enum .bcd (listing n v) v tbl ∧
         HasEnum (encoding v.length (listTbl v)) (listing n v) [([0x01], [0x6F, 0x6E])]
     ready 1 [0x6F, 0x6E] ∧ ready 1 [0x30, 0x37] ∧ ready 2 [0x30, 0x37] ∧ ready 1 [0x6F] ∧
       unhex? [0x30, 0x37] = some [0x07] ∧ unhex? [0x6F] = none) := by
  refine ⟨⟨?_, ?_⟩, ⟨?_, ?_⟩, ⟨?_, ?_⟩, ⟨?_, ?_⟩, by decide, by decide⟩
  all_goals first
    | exact ⟨⟨rfl, rfl⟩, ⟨by decide, (fun h => absurd h (by decide)), by decide⟩, by decide +kernel, by decide, by decide +kernel⟩
    | exact ⟨rfl, by decide, ⟨by decide, by decide +kernel⟩⟩

theorem witness_DescriptorErrorsOnEncode :
    (let ready (ft : FType) (d : Desc) (v : Bytes) : Prop :=
       EncodeReady (encoding v.length (tbl ++ v)) .convert ft d v tbl
     (Encoding (encoding 1 (tbl ++ [0x31])) ∧ Runs (encoding 1 (tbl ++ [0x31])) .convert .u8 { field 3 with startIndex := 5 } ∧
       suppliedValue (encoding 1 (tbl ++ [0x31])) .convert { field 3 with startIndex := 5 } = .ok (some [0x31])) ∧
     (Runs (encoding 2 (listTbl [0x6F, 0x6E])) .enum .bcd { listing 3 [0x6F, 0x6E] with startIndex := 5 } ∧
       (∃ entries, HasEnum (encoding 2 (listTbl [0x6F, 0x6E])) { listing 3 [0x6F, 0x6E] with startIndex := 5 } entries) ∧
       suppliedValue (encoding 2 (listTbl [0x6F, 0x6E])) .enum { listing 3 [0x6F, 0x6E] with startIndex := 5 } =
         .ok (some [0x6F, 0x6E])) ∧
     ready .u8 { field 1 with scaleEn := true } [0x31] ∧
     (ready .u8 (field 1) [] ∧ decParse? [] = none) ∧
     (ready .u8 (field 1) [0x32, 0x35, 0x36] ∧ decParse? [0x32, 0x35, 0x36] = some (256, 0)) ∧
     (ready .i8 (field 1) [0x2D, 0x31, 0x32, 0x39] ∧ decParse? [0x2D, 0x31, 0x32, 0x39] = some (-129, 0)) ∧
     (ready .bcd (field 1) [] ∧ ready .bcd (field 1) [0x31] ∧ unhex? [0x31] = none) ∧
     (ready .bcd (field 2) [0x37, 0x46] ∧ unhex? [0x37, 0x46] = some [0x7F]) ∧
     (ready .ascii (field 1) [0x80] ∧ ([0x80] : Bytes).findIdx? (0x7F < ·.toNat) = some 0) ∧ ready .ascii (field 2) [0x7F] ∧
     ready .float (field 3) [0x31] ∧ ready .double (field 7) [0x31]) := by
  refine ⟨⟨⟨rfl, rfl⟩, ⟨by decide, (fun h => absurd h (by decide)), by decide⟩, by decide +kernel⟩,
    ⟨⟨by decide, (fun h => absurd h (by decide)), by decide⟩, ⟨_, (⟨rfl, by decide, ⟨by decide, by decide +kernel⟩⟩ :
      HasEnum _ _ [([0x01], [0x6F, 0x6E])])⟩, by decide +kernel⟩, ?_, ⟨?_, by decide⟩, ⟨?_, by decide⟩,
    ⟨?_, by decide⟩, ⟨?_, ?_, by decide⟩, ⟨?_, by decide⟩, ⟨?_, by decide⟩, ?_, ?_, ?_⟩
  all_goals
    exact ⟨⟨rfl, rfl⟩, ⟨by decide, (fun h => absurd h (by decide)), by decide⟩, by decide +kernel, by decide, by decide +kernel⟩

/-- In every form, bytes that reach one past FRAME, and a record that reaches one past OUT. -/
theorem witness_DescriptorErrorsOnEncode_overflow :
    (let short (n m : Nat) (s : State) : State := { room m s with frameLen := num (4096 - n) }
     let tooLong (n m : Nat) (t : Bytes) (k : Kind) (ft : FType) (d : Desc) (v b value : Bytes) : Prop :=
       let full := short n 100 (encoding v.length t)
       let tight := short 100 m (encoding v.length t)
       EncodeReady full k ft d v tbl ∧ EncodedBytes full d v k ft b value ∧
         Config.frameMax < full.frameLen.toNat + b.length ∧
         EncodeReady tight k ft d v tbl ∧ EncodedBytes tight d v k ft b value ∧
         tight.frameLen.toNat + b.length ≤ Config.frameMax ∧ ¬ outFits (fieldRecord d (swapped d b) tbl value) tight
     tooLong 1 13 (tbl ++ [0x32, 0x35]) .convert .u16 (field 0) [0x32, 0x35] [0, 25] [0x32, 0x35] ∧
     tooLong 0 13 (tbl ++ [0x37, 0x46]) .convert .bcd (field 1) [0x37, 0x46] [0x7F] [0x37, 0x46] ∧
     tooLong 0 12 (tbl ++ [0x7F]) .convert .ascii (field 1) [0x7F] [0x7F] [0x7F] ∧
     tooLong 0 13 [0x54, 0xAA] .compare .bcd (comparing 1) [] [0xAA] (hex [0xAA]) ∧
     tooLong 0 13 (listTbl [0x6F, 0x6E]) .enum .bcd (listing 1 [0x6F, 0x6E]) [0x6F, 0x6E] [0x01] [0x6F, 0x6E] ∧
     tooLong 0 13 (listTbl [0x30, 0x37]) .enum .bcd (listing 0 [0x30, 0x37]) [0x30, 0x37] [0x07] [0x30, 0x37] ∧
     (EncodeReady (short 3 100 (encoding 1 (tbl ++ [0x31]))) .convert .float (field 4) [0x31] tbl ∧
       Config.frameMax < (short 3 100 (encoding 1 (tbl ++ [0x31]))).frameLen.toNat + 4) ∧
     (EncodeReady (short 8 19 (encoding 1 (tbl ++ [0x31]))) .convert .double (field 0) [0x31] tbl ∧
       (short 8 19 (encoding 1 (tbl ++ [0x31]))).frameLen.toNat + 8 ≤ Config.frameMax ∧
       ¬ outFits (fieldRecord (field 0) (List.replicate 8 0) tbl [0x31]) (short 8 19 (encoding 1 (tbl ++ [0x31]))))) := by
  refine ⟨⟨?_, .integer .u16 2 false 25 25 0 2 (by decide) (by decide) (by decide) (by decide) (by decide) (by decide),
      by decide, ?_, .integer .u16 2 false 25 25 0 2 (by decide) (by decide) (by decide) (by decide) (by decide) (by decide),
      by decide, by decide +kernel⟩,
    ⟨?_, .bcd _ (by decide) (by decide) (.inr rfl), by decide, ?_, .bcd _ (by decide) (by decide) (.inr rfl), by decide,
      by decide +kernel⟩,
    ⟨?_, .ascii (by decide) (.inr rfl), by decide, ?_, .ascii (by decide) (.inr rfl), by decide, by decide +kernel⟩,
    ⟨?_, .compare _ (by decide +kernel) (.inr rfl), by decide, ?_, .compare _ (by decide +kernel) (.inr rfl), by decide,
      by decide +kernel⟩,
    ⟨?_, .pattern [([0x01], [0x6F, 0x6E])] ([0x01], [0x6F, 0x6E]) ⟨rfl, by decide, ⟨by decide, by decide +kernel⟩⟩
      (by decide) (.inr rfl), by decide, ?_, .pattern [([0x01], [0x6F, 0x6E])] ([0x01], [0x6F, 0x6E])
      ⟨rfl, by decide, ⟨by decide, by decide +kernel⟩⟩ (by decide) (.inr rfl), by decide, by decide +kernel⟩,
    ⟨?_, .noPattern [([0x01], [0x6F, 0x6E])] _ ⟨rfl, by decide, ⟨by decide, by decide +kernel⟩⟩ (by decide) (by decide)
      (by decide) (.inl rfl), by decide, ?_, .noPattern [([0x01], [0x6F, 0x6E])] _
      ⟨rfl, by decide, ⟨by decide, by decide +kernel⟩⟩ (by decide) (by decide) (by decide) (.inl rfl), by decide,
      by decide +kernel⟩,
    ⟨?_, by decide⟩, ?_, by decide, by decide +kernel⟩
  all_goals
    exact ⟨⟨rfl, rfl⟩, ⟨by decide, (fun h => absurd h (by decide)), by decide⟩, by decide +kernel, by decide, by decide +kernel⟩

/-- A plan under way whose value table is one entry: tag 3 with "7". -/
def valued : State :=
  { encoding 0 [0x54, 0x00, 0x03, 0x00, 0x01, 0x37] with
    fromWd := false, regs := { Regs.reset with valsPtr := 0x00010001 } }

theorem witness_SuppliedValueRule :
    ((encoding 1 [0x54, 0x37]).fromWd = true ∧ Kind.enum ≠ .compare ∧
      readBytes (encoding 1 [0x54, 0x37]) .tbl 1 1 = .ok [0x37]) ∧
    (valued.fromWd = false ∧ HasValues valued [(3, [0x37])]) :=
  ⟨⟨rfl, by decide, by decide +kernel⟩, rfl, rfl, by decide, by decide, by decide +kernel⟩

/-! ### What becomes of a descriptor before its translator -/

theorem witness_FilteredDescriptorIsSkipped :
    (let s : State := { reading [0x80] tbl with regs := { Regs.reset with capCtrl := 1 } }
     illegalCondition s .convert .u8 { field 1 with dir := 2 } = .ok none ∧ Decoding s ∧
      (2 : BitVec 2) &&& capDir s.regs = 0) ∧
    (illegalCondition valued .convert .u8 { plain with tag := 4 } = .ok none ∧ Encoding valued ∧
      (plain.dir &&& capDir valued.regs ≠ 0) ∧ suppliedValue valued .convert { plain with tag := 4 } = .ok none ∧
      suppliedValue valued .convert { plain with tag := 4, req := true } =
        .error (.raise { cause := .requiredMissing, actNum := 4 })) :=
  ⟨⟨by decide, ⟨rfl, rfl, rfl⟩, by decide⟩, by decide, ⟨rfl, rfl⟩, by decide, by decide +kernel, by decide +kernel⟩

/-- Every condition alone; no. 7 asks about the parameter SYMBOL_TAG, which has no value to give here. -/
theorem witness_IllegalDescriptorNamesItsCondition :
    Decoding (reading [] tbl) ∧ Encoding (encoding 0 tbl) ∧
    illegalWords .convert .bcd { plain with scaleEn := true } = some 4 ∧
    illegalWords .convert .u8 { plain with scaleEn := true, scaleE := 10 } = some 5 ∧
    illegalWords .compare .bcd { plain with symEn := true } = some 6 ∧
    illegalWords .convert .u8 { plain with dir := 0 } = some 8 ∧
    illegalWords .enum .bcd { plain with defEn := true } = some 9 ∧
    illegalWords .convert .u8 { plain with rsv7 := 1 } = some 10 ∧
    illegalWords .convert .u8 { plain with titleOff := 0xFFFF, titleLen := 2 } = some 11 ∧
    illegalWords .compare .bcd { plain with auxOff := 0xFFFF, auxLen := 2 } = some 12 ∧
    enumTable (reading [] tbl) { plain with auxOff := 0xFFFF, auxLen := 1 } = .error (.fault (.unwritten .tbl 0xFFFF)) ∧
    enumTable (writeBytes (reading [] tbl) .tbl 0xFFFF [1]) { plain with auxOff := 0xFFFF, auxLen := 1 } = .ok none :=
  ⟨⟨rfl, rfl, rfl⟩, ⟨rfl, rfl⟩, by decide, by decide, by decide, by decide, by decide, by decide, by decide, by decide,
    by decide +kernel, by decide +kernel⟩

/-! ### The writer -/

theorem witness_WriteFieldRawAppends :
    (let s := writing .idle [] ⟨0x00010000, 0, 0, 0, 0, 0x00040003, 0, 0⟩ 0x00010000 0x00020001
       [0x68, 0x36, 0x38, 0x48, 0x45, 0x41, 0x44]
     Accepted .writeFieldRaw s ∧ InTbl s 0 [0x68] ∧ (valPtr s.regs.wvPtr).len = 1 ∧ InTbl s 1 [0x36, 0x38] ∧
      (valPtr s.regs.wsPtr).len = 2 ∧ InTbl s 3 [0x48, 0x45, 0x41, 0x44] ∧
      outFits (fieldRecord (descFields s.regs.wd) [0x68] [0x48, 0x45, 0x41, 0x44] [0x36, 0x38]) s) ∧
    (Accepted .writeFieldRaw (writing .accum [] Regs.reset.wd 0x0002FFFF 0 []) ∧
      65536 < (valPtr (0x0002FFFF : Word)).off + (valPtr (0x0002FFFF : Word)).len) :=
  ⟨⟨⟨rfl, by decide⟩, ⟨by decide, by decide +kernel⟩, by decide, ⟨by decide, by decide +kernel⟩, by decide,
    ⟨by decide, by decide +kernel⟩, by decide⟩, ⟨rfl, by decide⟩, by decide⟩

/-- The COMPARE descriptor that emits TBL[0:1], as the write descriptor. -/
def emitWords : DescWords := ⟨0x00031802, 2, 0, 1, 0, 0x00010000, 0x00010000, 0⟩

/-- The operands of those words. -/
def emitDesc : Desc := { field 1 with auxLen := 1 }

theorem witness_WriteFieldEncRunsTheWriteDescriptor :
    (let s := writing .idle [] emitWords 0x0001FFFF 0 [0x68]
     Accepted .writeFieldEnc s ∧ decodeWords (descWordList s.regs.wd) = .ok (.compare emitDesc) ∧ capDir s.regs ≠ 0 ∧
      ¬ 65536 < (valPtr s.regs.wvPtr).off + (valPtr s.regs.wvPtr).len ∧
      ∃ t, emitField { beginWriter s with fromWd := true } .compare .bcd emitDesc = .ok t) ∧
    (Accepted .writeFieldEnc (writing .accum [] emitWords 0x0002FFFF 0 [0x68]) ∧
      65536 < (valPtr (0x0002FFFF : Word)).off + (valPtr (0x0002FFFF : Word)).len) := by
  obtain ⟨t, h, -⟩ := exists_ok
    (r := emitField { beginWriter (writing .idle [] emitWords 0x0001FFFF 0 [0x68]) with fromWd := true } .compare .bcd
      emitDesc) (p := fun t => t.frameLen == 1) (by decide +kernel)
  exact ⟨⟨⟨rfl, by decide⟩, by decide, by decide, by decide, t, h⟩, ⟨rfl, by decide⟩, by decide⟩

/-- Idle, with a plan of one such descriptor and no value. -/
def planned : State :=
  let s := writing .idle [] Regs.reset.wd 0 0 [0x68]
  storePlan { s with regs := { s.regs with planLen := 1 } } 0 emitWords

theorem witness_EncodePlanRunsInOrder :
    Accepted (.encodePlan 0) planned ∧ capDir planned.regs ≠ 0 ∧ planned.regs.planLen.toNat ≤ Config.planMax ∧
      HasValues planned [] ∧
      ∃ t, planFold emitField planned.regs.planLen.toNat { beginWriter planned with planPc := 0 } = .ok t := by
  obtain ⟨t, h, -⟩ := exists_ok (r := planFold emitField planned.regs.planLen.toNat { beginWriter planned with planPc := 0 })
    (p := fun t => t.frameLen == 1) (by decide +kernel)
  exact ⟨⟨rfl, by decide⟩, by decide, by decide, ⟨by decide, by simp, ⟨by decide, rfl⟩⟩, t, h⟩

/-- Accumulating a frame of `00 00 00`, with these control registers: fields at [1, 2) and [1, 3), ranges [0, 1). -/
def ending (slot lenCtrl crcCtrl : Word) : State :=
  let s := { State.reset with
    status := { Status.reset with main := .accum }, frameLen := 3,
    regs := { Regs.reset with
      cipherSlot := slot, lenCtrl := lenCtrl, crcCtrl := crcCtrl, lenfStart := 1, lenfEnd := 2, lenrEnd := 1,
      crcIndex := 1, crcrEnd := 1, payEnd := 1 } }
  writeBytes s .frame 0 [0, 0, 0]

/-- The last case has its length field, which becomes 1, inside the protected range. -/
theorem witness_FinalizeStoresLengthAndChecksum :
    (let both : State :=
       let s := ending 0xFFFFFFFF 1 1
       { s with regs := { s.regs with lenfStart := 0, lenfEnd := 1 } }
     Accepted (.finalize 0) (ending 0xFFFFFFFF 0 0) ∧ FinalizeSteps (ending 0xFFFFFFFF 0 0).regs false false false ∧
     (FinalizeSteps (ending 0xFFFFFFFF 1 0).regs false true false ∧ range 3 1 2 = .ok (1, 2) ∧ range 3 0 1 = .ok (0, 1)) ∧
     (FinalizeSteps (ending 0xFFFFFFFF 0 1).regs false false true ∧ idx 3 1 = (1 : Nat) ∧ 1 + 2 ≤ 3 ∧
       Config.crcTable ((ending 0xFFFFFFFF 0 1).regs.crcCtrl.extractLsb' 4 4) = some Config.crcModbus ∧
       readBytes (ending 0xFFFFFFFF 0 1) .frame 0 1 = .ok [0]) ∧
     (Accepted (.finalize 0) both ∧ FinalizeSteps both.regs false true true ∧
       range 3 both.regs.lenfStart.toInt both.regs.lenfEnd.toInt = .ok (0, 1) ∧
       range 3 both.regs.lenrStart.toInt both.regs.lenrEnd.toInt = .ok (0, 1) ∧
       range 3 both.regs.crcrStart.toInt both.regs.crcrEnd.toInt = .ok (0, 1) ∧
       idx 3 both.regs.crcIndex.toInt = (1 : Nat) ∧
       Config.crcTable (both.regs.crcCtrl.extractLsb' 4 4) = some Config.crcModbus ∧
       readBytes (writeBytes both .frame 0 [1]) .frame 0 1 = .ok [1])) :=
  ⟨⟨rfl, by decide⟩, ⟨by decide, rfl, rfl⟩, ⟨⟨by decide, rfl, rfl⟩, by decide, by decide⟩, ⟨⟨by decide, rfl, rfl⟩, by decide,
    by decide, by decide, by decide +kernel⟩, ⟨rfl, by decide⟩, ⟨by decide, rfl, rfl⟩, by decide, by decide, by decide,
    by decide, by decide, by decide +kernel⟩

theorem witness_FinalizeEncryptsThePayload :
    Accepted (.finalize 0) (ending 0 0 0) ∧ FinalizeSteps (ending 0 0 0).regs true false false ∧
      readBytes (ending 0 0 0) .frame 0 (ending 0 0 0).frameLen.toNat = .ok [0, 0, 0] ∧
      range 3 (ending 0 0 0).regs.payStart.toInt (ending 0 0 0).regs.payEnd.toInt = .ok (0, 1) ∧
      CipherOperands (ending 0 0 0) [] [] ∧ cipherMode (ending 0 0 0).regs = 0 ∧
      cipherEnc Config.blockCipher 0 [] [] (slice [0, 0, 0] 0 1) = .ok [0] :=
  ⟨⟨rfl, by decide⟩, ⟨by decide, rfl, rfl⟩, by decide +kernel, by decide,
    ⟨fun h => absurd (by decide) h, fun h => absurd h (by decide)⟩, by decide, by decide⟩

/-- Accumulating the frame of test_finalize: its checksum stands behind the protected range, its length field apart. -/
def enclosing : State := writing .accum [0x68, 0x00, 0xEA, 0xFF, 0x00, 0x00, 0x16] Regs.reset.wd 0 0 []

theorem inv_enclosing : Inv enclosing where
  status := ⟨by decide, by decide, by decide, by decide, by decide, by decide, by decide, by decide, by decide⟩
  err := ⟨by decide, by decide, by decide, by decide⟩
  regs := ⟨by decide, by decide, by decide, by decide, by decide, by decide, by decide, by decide, by decide⟩
  lengths := ⟨by decide, by decide, by decide, by decide, by decide, by decide, by decide,
    fun i hi => absurd hi (Nat.not_lt_zero i), fun i hi => absurd hi (Nat.not_lt_zero i),
    fun i hi => absurd hi (Nat.not_lt_zero i), fun i hi => absurd hi (Nat.not_lt_zero i)⟩
  memory := by decide +kernel
  empty := by decide
  fromWd := rfl

theorem witness_FinalizedFrameIsAccepted :
    Inv enclosing ∧ Accepted (.finalize 0) enclosing ∧
      ∃ t, exec (.finalize 0) enclosing = .next t ∧ t.status.err = false ∧ crcEn t.regs = true ∧
        crcFieldIndex t = .ok 4 ∧ range t.frameLen.toNat t.regs.crcrStart.toInt t.regs.crcrEnd.toInt = .ok (0, 4) ∧
        lenEn t.regs = true ∧ ∃ f, lengthField t = .ok f ∧ f.count < 256 ^ (f.stop - f.start) ∧ f.stop ≤ 4 := by
  obtain ⟨t, h, p⟩ := exists_next (o := exec (.finalize 0) enclosing)
    (p := fun t => decide (t.status.err = false ∧ crcEn t.regs = true ∧ crcFieldIndex t = .ok 4 ∧
      range t.frameLen.toNat t.regs.crcrStart.toInt t.regs.crcrEnd.toInt = .ok (0, 4) ∧ lenEn t.regs = true ∧
      lengthField t = .ok ⟨1, 2, 2⟩)) (by decide +kernel)
  simp only [decide_eq_true_eq] at p
  exact ⟨inv_enclosing, ⟨rfl, by decide⟩, t, h, p.1, p.2.1, p.2.2.1, p.2.2.2.1, p.2.2.2.2.1, _, p.2.2.2.2.2, by decide, by decide⟩

/-! ### Acceptance and the main state -/

theorem witness_AcceptanceMatrix :
    (Instr.decode 0).isDescriptor = false ∧ State.reset.status.busy = false ∧
      State.reset.status.main ∈ acceptedStates (.decode 0) ∧ State.reset.status.main ∉ acceptedStates (.finalize 0) ∧
      failed.status.main ∉ acceptedStates (.crcCalc 0) ∧ failed.status.main ∈ acceptedStates (.nop 0) ∧
      (∃ t, exec (.decode 0) State.reset = .next t) ∧ ∃ t, exec (.nop 0) failed = .next t ∧ t.status.err = true := by
  obtain ⟨t, h, -⟩ := exists_next (o := exec (.decode 0) State.reset) (p := fun t => t.status.err) (by decide +kernel)
  obtain ⟨u, g, p⟩ := exists_next (o := exec (.nop 0) failed) (p := fun t => t.status.err) (by decide +kernel)
  exact ⟨rfl, rfl, by decide, by decide, by decide, by decide, ⟨t, h⟩, u, g, p⟩

theorem witness_MainStateTransitions :
    (Accepted (.decode 0) State.reset ∧ ∃ t, exec (.decode 0) State.reset = .next t ∧ t.status.err = true) ∧
    (Accepted (.encodePlan 0) planned ∧ ∃ t, exec (.encodePlan 0) planned = .next t ∧ t.status.err = false) ∧
    (Accepted (.finalize 0) accumulating ∧ ∃ t, exec (.finalize 0) accumulating = .next t ∧ t.status.err = false) := by
  obtain ⟨t, h, p⟩ := exists_next (o := exec (.decode 0) State.reset) (p := fun t => t.status.err) (by decide +kernel)
  obtain ⟨u, g, q⟩ := exists_next (o := exec (.encodePlan 0) planned) (p := fun t => !t.status.err) (by decide +kernel)
  obtain ⟨v, k, r⟩ := exists_next (o := exec (.finalize 0) accumulating) (p := fun t => !t.status.err) (by decide +kernel)
  simp only [Bool.not_eq_eq_eq_not, Bool.not_true] at q r
  exact ⟨⟨⟨rfl, by decide⟩, t, h, p⟩, ⟨⟨rfl, by decide⟩, u, g, q⟩, ⟨rfl, by decide⟩, v, k, r⟩

/-! ### The host port -/

/-- The last register, and the last valid byte of CBUF. -/
theorem witness_HostReadsHaveNoEffect :
    ((moving (.read .word 0xFC)).status.busy = false ∧ (0xFC : Word).toNat % 4 = 0 ∧ (0xFC : Word).toNat < 0x100) ∧
    (∃ t, step (moving (.read .byte 0x50000)) = .next t) ∧
    (Space.cbuf ≠ .plan ∧ (0x60005 : Word).toNat = spaceBase .cbuf + 5 ∧ 5 < spaceSize .cbuf ∧
      5 < validLength (crcState 0) .cbuf ∧ readByte (crcState 0) .cbuf 5 = .ok 0x0A) :=
  ⟨by decide, ⟨_, rfl⟩, by decide +kernel⟩

/-- A masked, a whole and a cut register, FRAME_LEN in and outside Idle, a read-only and the last reserved one. -/
theorem witness_RegisterWritesReadBack :
    (∀ a ∈ ([0x030, 0x0DC, 0x094, 0x020, 0x03C, 0x0FC] : List Nat), a % 4 = 0 ∧ a < 0x100 ∧ a ≠ 0) ∧
    (moving (.write .word 0x020 0x1001)).status.main = .idle ∧ failed.status.main ≠ .idle ∧
    (∀ a v : Word, (moving (.write .word a v)).status.busy = false ∧
      (moving (.write .word a v)).inputs = .write .word a v :: []) :=
  ⟨by decide, rfl, by decide, fun _ _ => ⟨rfl, rfl⟩⟩

/-- The first and the last byte of a writable space, FRAME in and outside Idle, a read-only space, the last PLAN word. -/
theorem witness_HostMemoryWrites :
    (∀ w a v, (moving (.write w a v)).status.busy = false ∧ (moving (.write w a v)).inputs = .write w a v :: []) ∧
    ((0x20000 : Word).toNat = spaceBase .tbl + 0 ∧ 0 < spaceSize .tbl) ∧
    ((0x2FFFF : Word).toNat = spaceBase .tbl + 65535 ∧ 65535 < spaceSize .tbl) ∧
    ((0x30FFF : Word).toNat = spaceBase .frame + 4095 ∧ 4095 < spaceSize .frame ∧ State.reset.status.main = .idle ∧
      failed.status.main ≠ .idle) ∧
    ((0x5FFFF : Word).toNat = spaceBase .out + 65535 ∧ 65535 < spaceSize .out) ∧
    ((0x11FFC : Word).toNat = spaceBase .plan + 8188 ∧ 8188 < spaceSize .plan ∧ 8188 % 4 = 0) ∧
    (0x11FFD : Word).toNat % 4 ≠ 0 := by
  refine ⟨fun _ _ _ => ⟨rfl, rfl⟩, ?_⟩
  decide

/-! ### Frames -/

theorem witness_EngineCommandFrames :
    (∃ t, exec (.crcCompare 0) (crcState 0x0000CDC5) = .next t ∧ t.status.err = false) ∧
    (∃ t, exec (.crcCalc 0) (crcState 0) = .next t) ∧
    (∃ t, exec (.encrypt 0) (cipherState 0 0 0 [0x41]) = .next t ∧ t.status.err = false) ∧
    ∃ t, exec (.decrypt 0) (cipherState 2 16 16 (List.replicate 15 0)) = .next t ∧ t.status.err = true := by
  obtain ⟨t, h, p⟩ := exists_next (o := exec (.crcCompare 0) (crcState 0x0000CDC5)) (p := fun t => !t.status.err)
    (by decide +kernel)
  obtain ⟨u, g, -⟩ := exists_next (o := exec (.crcCalc 0) (crcState 0)) (p := fun t => !t.status.err) (by decide +kernel)
  obtain ⟨v, k, q⟩ := exists_next (o := exec (.encrypt 0) (cipherState 0 0 0 [0x41])) (p := fun t => !t.status.err)
    (by decide +kernel)
  obtain ⟨w, l, r⟩ := exists_next (o := exec (.decrypt 0) (cipherState 2 16 16 (List.replicate 15 0)))
    (p := fun t => t.status.err) (by decide +kernel)
  simp only [Bool.not_eq_eq_eq_not, Bool.not_true] at p q
  exact ⟨⟨t, h, p⟩, ⟨u, g⟩, ⟨v, k, q⟩, w, l, r⟩

theorem witness_DescriptorFrames :
    (Decoding (reading [0xFF] tbl) ∧
      (∃ t, exec (.convertU8 (field 1)) (reading [0xFF] tbl) = .next t ∧ t.status.main ≠ .failed) ∧
      ∃ t, exec (.convertU8 (field 2)) (reading [0xFF] tbl) = .next t ∧ t.status.main = .failed) ∧
    (Encoding (encoding 1 [0x54, 0x37]) ∧
      ∃ t, exec (.convertU8 (field 1)) (encoding 1 [0x54, 0x37]) = .next t ∧ t.status.main ≠ .failed) := by
  obtain ⟨t, h, p⟩ := exists_next (o := exec (.convertU8 (field 1)) (reading [0xFF] tbl))
    (p := fun t => decide (t.status.main ≠ .failed)) (by decide +kernel)
  obtain ⟨u, g, q⟩ := exists_next (o := exec (.convertU8 (field 2)) (reading [0xFF] tbl))
    (p := fun t => decide (t.status.main = .failed)) (by decide +kernel)
  obtain ⟨v, k, r⟩ := exists_next (o := exec (.convertU8 (field 1)) (encoding 1 [0x54, 0x37]))
    (p := fun t => decide (t.status.main ≠ .failed)) (by decide +kernel)
  simp only [decide_eq_true_eq] at p q r
  exact ⟨⟨⟨rfl, rfl, rfl⟩, ⟨t, h, p⟩, u, g, q⟩, ⟨rfl, rfl⟩, v, k, r⟩

theorem witness_CapsuleCommandFrames :
    (∃ t, exec (.decode 0) (inbound [0x68, 0x16] 2 bcdWords bcdWords) = .next t ∧ t.status.err = false) ∧
    (∃ t, exec (.encodePlan 0) planned = .next t ∧ t.status.err = false) ∧
    ∃ t, exec (.finalize 0) accumulating = .next t ∧ t.status.err = false := by
  obtain ⟨t, h, p⟩ := exists_next (o := exec (.decode 0) (inbound [0x68, 0x16] 2 bcdWords bcdWords))
    (p := fun t => !t.status.err) (by decide +kernel)
  simp only [Bool.not_eq_eq_eq_not, Bool.not_true] at p
  exact ⟨⟨t, h, p⟩, witness_MainStateTransitions.2.1.2, witness_MainStateTransitions.2.2.2⟩

/-! ### The error record and the number formats -/

theorem witness_ErrorRecordHoldsTheError :
    (reading [] tbl).status.main = .reading ∧ State.reset.status.main ≠ .reading ∧ 0x020 ≤ (0x0FC : Nat) ∧
      (∃ e : Err, e.ft = some .ascii) ∧ (∃ e : Err, e.ft = none) ∧
      (ErrCause.invalidHead, (1 : BitVec 8), (0 : BitVec 8)) ∈
        ([(.invalidHead, 1, 0)] : List (ErrCause × BitVec 8 × BitVec 8)) :=
  ⟨rfl, by decide, by decide, ⟨{ cause := .notAscii, ft := some .ascii }, rfl⟩, ⟨{ cause := .badConfig }, rfl⟩, by decide⟩

theorem witness_RenderedNumbersParseBack : 0 < (1 : Nat) ∧ decRender (-5) 7 = [0x2D, 0x30, 0x2E] ++ [0x30, 0x30, 0x30] ++
    [0x30, 0x30, 0x31] := by decide

theorem witness_IntegerFieldsRoundTrip :
    (FType.i8, 1, true) ∈ integerTypes ∧ ([0x80] : Bytes).length = 1 ∧ (⟨1, 6⟩ : Scale).m ≠ 0 ∧ (⟨1, 6⟩ : Scale).e ≤ 6 := by
  decide

theorem witness_HexAndBinaryFormsRoundTrip :
    (1 ∈ ([1, 2, 4, 8] : List Nat) ∧ -(2 ^ (8 * 1 - 1)) ≤ (-128 : Int) ∧ (-128 : Int) < 2 ^ (8 * 1 - 1)) ∧
    (8 ∈ ([1, 2, 4, 8] : List Nat) ∧ (0 : Int) ≤ 2 ^ 64 - 1 ∧ (2 ^ 64 - 1 : Int) < 2 ^ (8 * 8)) := by decide

end Sys2Proof.Tests
end

section
/-! O12: the plan commands as iterated machine steps. With no host move to come a run of the sequencer is a run of the
machine: while BUSY is set both take the sequencer's step, which leaves the host's moves alone, and once BUSY has fallen
both stand still. -/

namespace Sys2Proof.Machine

open Sys2Proof.Safety

/-! ## What the sequencer leaves to the host (rules R24, R265) -/

/-- A descriptor on decode writes OUT and its two counts at most. -/
theorem extractField_sameHostState {s t : State} {k : Kind} {ft : FType} {d : Desc}
    (h : extractField s k ft d = .ok t) : SameHostState s t := by
  obtain ⟨-, ⟨-, rfl⟩ | ⟨raw, rf, -, -, -, -, -, -, rfl⟩⟩ := extractField_eq_ok h
  · simp [SameHostState]
  · simp [SameHostState]

/-- A descriptor on encode writes FRAME and OUT with their counts at most. -/
theorem emitField_sameHostState {s t : State} {k : Kind} {ft : FType} {d : Desc}
    (h : emitField s k ft d = .ok t) : SameHostState s t := by
  obtain ⟨-, ⟨-, rfl⟩ | ⟨v, fb, rf, -, -, -, -, -, -, rfl⟩⟩ := emitField_eq_ok h
  · simp [SameHostState]
  · simp [SameHostState]

theorem advance_sameHostState {s t : State} (h : SameHostState s t) : SameHostState s (advance t) := by
  simpa [SameHostState] using h

theorem failCapsule_sameHostState (e : Err) (i : Word) (s : State) : SameHostState s (failCapsule e i s) := by
  simp [SameHostState]

theorem runDescriptor_sameHostState {k : Kind} {ft : FType} {d : Desc} {s t : State}
    (h : runDescriptor k ft d s = .next t) : SameHostState s t := by
  obtain ⟨-, ⟨-, ⟨s1, h1, rfl⟩ | ⟨e, -, rfl⟩⟩ | ⟨-, ⟨s1, h1, rfl⟩ | ⟨e, -, rfl⟩⟩⟩ := runDescriptor_eq_next h
  · exact advance_sameHostState (extractField_sameHostState h1)
  · exact failCapsule_sameHostState _ _ _
  · exact advance_sameHostState (emitField_sameHostState h1)
  · exact failCapsule_sameHostState _ _ _

theorem runWords_sameHostState {w : DescWords} {s t : State} (h : runWords exec w s = .next t) : SameHostState s t := by
  obtain ⟨e, -, hw⟩ | ⟨i, k, ft, d, -, -, hw⟩ := runWords_eq w s
  · rw [hw] at h
    injection h with h
    exact h ▸ failCapsule_sameHostState _ _ _
  · exact runDescriptor_sameHostState (hw ▸ h)

/-- The checks after the last descriptor write STATUS and the error record at most (rules R220 to R223). -/
theorem finishDecode_sameHostState {s t : State} (h : finishDecode s = .next t) : SameHostState s t := by
  obtain ⟨e, rfl⟩ | ⟨swapped, -, -, ⟨e, rfl⟩ | rfl⟩ := finishDecode_eq_next h
  · simp [SameHostState]
  · simp [SameHostState]
  · simp [SameHostState]

theorem endOfPlan_sameHostState {s t : State} (h : endOfPlan s = .next t) : SameHostState s t := by
  unfold endOfPlan at h
  split at h
  · exact finishDecode_sameHostState h
  · injection h with h
    subst h
    simp [SameHostState]

/-- No step of a running command touches the RW registers or the host's side. -/
theorem seqStep_sameHostState {s t : State} (h : seqStep exec s = .next t) : SameHostState s t := by
  obtain ⟨-, -, ⟨-, hw⟩ | ⟨-, -, w, -, hw⟩ | ⟨-, -, e, -, rfl⟩ | ⟨-, -, he⟩⟩ := seqStep_eq_next h
  · exact runWords_sameHostState hw
  · exact runWords_sameHostState hw
  · exact failCapsule_sameHostState _ _ _
  · exact endOfPlan_sameHostState he

/-! ## A run of the sequencer is a run of the machine -/

/-- Between commands with no host move to come, any number of machine steps leaves the state as it is. -/
theorem steps_no_input {s : State} (hb : s.status.busy = false) (hi : s.inputs = []) (n : Nat) : steps n s = .next s := by
  induction n with
  | zero => rfl
  | succ n ih => simp only [steps, step_no_input hb hi, ih]

/-- The key fact, by induction on the number of steps: the host has no move to make, so it never gets the turn. -/
theorem runSeq_exec_eq_steps (n : Nat) {s : State} (hi : s.inputs = []) : runSeq exec n s = steps n s := by
  induction n generalizing s with
  | zero => rfl
  | succ n ih =>
    by_cases hb : s.status.busy = true
    · simp only [runSeq, steps, hb, if_true, step_busy hb]
      cases hs : seqStep exec s with
      | next t =>
        obtain ⟨-, hinputs, -, -⟩ := seqStep_sameHostState hs
        exact ih (hinputs.trans hi)
      | fault f => rfl
      | refused r => rfl
    · rw [steps_no_input (by simpa using hb) hi]
      simp only [runSeq, if_neg hb]

theorem runSeq_execDescriptor_eq_steps (n : Nat) {s : State} (hi : s.inputs = []) :
    runSeq execDescriptor n s = steps n s := by
  rw [runSeq_execDescriptor, runSeq_exec_eq_steps n hi]

/-! ## The commands around their run -/

/-- Only what follows a part that succeeds matters for an attempt. -/
theorem attempt_congr {α : Type} {part : Res α} {onErr : Err → State} {f g : α → Out}
    (h : ∀ a, part = .ok a → f a = g a) : attempt part onErr f = attempt part onErr g := by
  match part, h with
  | .ok a, h => exact h a rfl
  | .error (.raise e), _ => rfl
  | .error (.fault e), _ => rfl

/-- DECODE hands its plan a state with TEMP filled, the registers and the host's side untouched (rule R218). -/
theorem decodeWith_congr {s : State} {f g : State → Out} (h : ∀ t, SameHostState s t → f t = g t) :
    decodeWith f s = decodeWith g s := by
  unfold decodeWith
  refine attempt_congr fun _ _ => attempt_congr fun t ht => h t ?_
  obtain ⟨b, -, rfl⟩ := loadTemp_eq_ok ht
  simp [SameHostState]

/-- ENCODE_PLAN hands its plan a state with the registers and the host's side untouched (rule R244). -/
theorem encodePlanWith_congr {s : State} {f g : State → Out} (h : ∀ t, SameHostState s t → f t = g t) :
    encodePlanWith f s = encodePlanWith g s := by
  unfold encodePlanWith
  exact attempt_congr fun _ _ => h _ (by simp [SameHostState])

/-- The run inside a plan command is PLAN_LEN + 1 machine steps (rule R324), from any state of that command. -/
theorem planRun_eq_steps {s t : State} (hi : s.inputs = []) (h : SameHostState s t) :
    runSeq execDescriptor (planFuel t) t = steps (s.regs.planLen.toNat + 1) t := by
  obtain ⟨hregs, hinputs, -, -⟩ := h
  rw [runSeq_execDescriptor_eq_steps _ (hinputs.trans hi), planFuel, hregs]

/-! ## Acceptance (rules R268, R269) -/

/-- The command matrix takes every command that is accepted, once its row has the states of `acceptedStates`. -/
theorem commandAccepted_of_accepted {i : Instr} {c : CommandRow} {s : State}
    (row : ∀ m ∈ acceptedStates i, accepts c m = true) (h : Accepted i s) : commandAccepted c s = true :=
  commandAccepted_iff.mpr ⟨row _ h.main, h.busy⟩

/-! ## The accepted commands -/

/-- DECODE accepted is its preparation and the run of its plan (rules R216, R219). -/
theorem exec_decode_of_accepted {a : BitVec 24} {s : State} (h : Accepted (.decode a) s) :
    exec (.decode a) s = decodeWith (fun t => runSeq execDescriptor (planFuel t) t) s :=
  if_pos (commandAccepted_of_accepted (by simp [acceptedStates, accepts]) h)

/-- ENCODE_PLAN accepted is its preparation and the run of its plan (rule R244). -/
theorem exec_encodePlan_of_accepted {a : BitVec 24} {s : State} (h : Accepted (.encodePlan a) s) :
    exec (.encodePlan a) s = encodePlanWith (fun t => runSeq execDescriptor (planFuel t) t) s :=
  if_pos (commandAccepted_of_accepted (by simp [acceptedStates, accepts]) h)

/-- WRITE_FIELD accepted in its encode form, its configuration good, is the write descriptor run once (rule R242). -/
theorem exec_writeFieldEnc_of_accepted {s : State} (h : Accepted .writeFieldEnc s)
    (hc : checkWriteField (beginWriter s) = .ok ()) :
    exec .writeFieldEnc s = runSeq execDescriptor 1 { beginWriter s with fromWd := true } :=
  (if_pos (commandAccepted_of_accepted (by simp [acceptedStates, accepts]) h)).trans (by rw [hc, attempt_ok])

end Sys2Proof.Machine

open Sys2Proof Sys2Proof.Machine

/-- Settles O12, through `runSeq_exec_eq_steps` for the run inside each of the three commands. -/
theorem atomicCommandsAreIteratedSteps : Obligations.AtomicCommandsAreIteratedSteps := by
  intro a s hi
  refine ⟨fun hd => ?decode, fun he => ?encodePlan, fun hw hc => ?writeField⟩
  case decode =>
    rw [exec_decode_of_accepted hd]
    exact decodeWith_congr fun t ht => planRun_eq_steps hi ht
  case encodePlan =>
    rw [exec_encodePlan_of_accepted he]
    exact encodePlanWith_congr fun t ht => planRun_eq_steps hi ht
  case writeField =>
    rw [exec_writeFieldEnc_of_accepted hw hc]
    exact runSeq_execDescriptor_eq_steps 1 hi

end

section
/-! The parts of ERR_KIND (rules R14, R189, R286, R287) and the flags a failing command leaves (R290), which the
invariant (O3) and the error record (O57) speak of. -/

namespace Sys2Proof.Machine

/-- ERR_KIND[15:0]: the sub-code above the kind. -/
theorem errKindWord_codes (e : Err) :
    (errKindWord e).extractLsb' 0 16 = errSubCode e.cause ++ errKindCode e.cause := by
  apply BitVec.eq_of_getLsbD_eq
  intro i hi
  unfold errKindWord
  by_cases h8 : i < 8
  · split <;> simp only [BitVec.getLsbD_extractLsb', BitVec.getLsbD_append] <;> simp [h8, hi]
  · have : i - 8 < 8 := by omega
    split <;> simp only [BitVec.getLsbD_extractLsb', BitVec.getLsbD_append] <;> simp [h8, hi, this]

/-- ERR_KIND[7:0]: the kind. -/
theorem errKindWord_kind (e : Err) : (errKindWord e).extractLsb' 0 8 = errKindCode e.cause := by
  have low : (errKindWord e).extractLsb' 0 8 = ((errKindWord e).extractLsb' 0 16).extractLsb' 0 8 := by
    ext i hi
    simp only [BitVec.getElem_extractLsb', BitVec.getLsbD_extractLsb']
    simp
    omega
  rw [low, errKindWord_codes]
  ext i hi
  simp only [BitVec.getElem_extractLsb', BitVec.getLsbD_append]
  simp [hi]

/-- ERR_KIND[19:16]: the field type, where one is named. -/
theorem errKindWord_ft {e : Err} {ft : FType} (h : e.ft = some ft) :
    (errKindWord e).extractLsb' 16 4 = ftypeCode ft := by
  unfold errKindWord
  rw [h]
  ext i hi
  simp only [BitVec.getElem_extractLsb', BitVec.getLsbD_append]
  interval_cases i <;> simp [BitVec.getLsbD_eq_getElem]

/-- ERR_KIND[24]: is a field type named? -/
theorem errKindWord_ftV (e : Err) : (errKindWord e).getLsbD 24 = e.ft.isSome := by
  unfold errKindWord
  split <;> rename_i h <;> simp only [h, BitVec.getLsbD_append] <;> simp

/-- Without a field type the upper half of ERR_KIND is 0. -/
theorem errKindWord_high_of_no_ft {e : Err} (h : e.ft = none) : (errKindWord e).extractLsb' 16 16 = 0 := by
  unfold errKindWord
  rw [h]
  ext i hi
  simp only [BitVec.getElem_extractLsb', BitVec.getLsbD_append]
  interval_cases i <;> simp

/-- The bits of ERR_KIND that no part uses. -/
theorem errKindWord_reserved (e : Err) : errKindWord e &&& 0xFEF00000 = 0 := by
  unfold errKindWord
  split
  · ext i hi
    simp only [BitVec.getElem_and, BitVec.getElem_append]
    interval_cases i <;> simp
  · ext i hi
    simp only [BitVec.getElem_and, BitVec.getElem_append]
    interval_cases i <;> simp

/-- Every kind is one of the fifteen (rule R286). -/
theorem errKindCode_bounds (c : ErrCause) : 1 ≤ (errKindCode c).toNat ∧ (errKindCode c).toNat ≤ 15 := by
  cases c <;> decide

/-! ## The flags of a failing capsule command (rule R290) -/

/-- Inside DECODE the reader's state goes to FAIL_FROM, in any other capsule command the reader's part is kept. -/
theorem flagsFailCapsule_eq (t : Status) :
    flagsFailCapsule t =
      { t with busy := false, done := true, err := true, success := false, main := .failed,
               failFrom := if t.main = .reading then t.rstate else t.failFrom,
               rstate := if t.main = .reading then .failed else t.rstate } := by
  unfold flagsFailCapsule
  split <;> rfl

@[simp] theorem flagsFailCapsule_busy (t : Status) : (flagsFailCapsule t).busy = false := by rw [flagsFailCapsule_eq]
@[simp] theorem flagsFailCapsule_done (t : Status) : (flagsFailCapsule t).done = true := by rw [flagsFailCapsule_eq]
@[simp] theorem flagsFailCapsule_err (t : Status) : (flagsFailCapsule t).err = true := by rw [flagsFailCapsule_eq]
@[simp] theorem flagsFailCapsule_success (t : Status) : (flagsFailCapsule t).success = false := by
  rw [flagsFailCapsule_eq]
@[simp] theorem flagsFailCapsule_crcSwapped (t : Status) : (flagsFailCapsule t).crcSwapped = t.crcSwapped := by
  rw [flagsFailCapsule_eq]
@[simp] theorem flagsFailCapsule_cmdRej (t : Status) : (flagsFailCapsule t).cmdRej = t.cmdRej := by
  rw [flagsFailCapsule_eq]
@[simp] theorem flagsFailCapsule_main (t : Status) : (flagsFailCapsule t).main = .failed := by rw [flagsFailCapsule_eq]
@[simp] theorem flagsFailCapsule_failFrom (t : Status) :
    (flagsFailCapsule t).failFrom = if t.main = .reading then t.rstate else t.failFrom := by rw [flagsFailCapsule_eq]
@[simp] theorem flagsFailCapsule_rstate (t : Status) :
    (flagsFailCapsule t).rstate = if t.main = .reading then .failed else t.rstate := by rw [flagsFailCapsule_eq]

end Sys2Proof.Machine
end
section
/-! O3: the invariant of every state the host sees. The invariant is taken apart into what the registers and memories
hold (`StoreInv`, which every update keeps whatever STATUS says) and what STATUS and the error record say. Inside a
command the latter is one of two shapes: a capsule command under way (`Running`, with `InPlan` while a plan is run) or
an engine command under way (`EngineRunning`). Each command enters its shape on acceptance, keeps it, and leaves it for
`Inv` by completing or failing; a run of the sequencer leaves it within its fuel, because PLAN_PC comes closer to
PLAN_LEN. -/

namespace Sys2Proof.Safety

open Sys2Proof.Machine

/-! ## What the registers and memories hold -/

/-- The part of `Inv` that does not speak of STATUS: registers, lengths and memory. -/
structure StoreInv (s : State) : Prop where
  regs : RegsInv s.regs
  lengths : LengthsInv s
  memory : Memory.wf s.mem

theorem Inv.store {s : State} (h : Inv s) : StoreInv s := ⟨h.regs, h.lengths, h.memory⟩

theorem written_zero (s : State) (sp : Space) : Written s sp 0 := fun i hi => absurd hi (Nat.not_lt_zero i)

/-- What holds a value goes on holding one. -/
theorem written_writeBytes_of_written {s : State} {sp' : Space} {n : Nat} (sp : Space) (off : Nat) (b : Bytes)
    (h : Written s sp' n) : Written (writeBytes s sp off b) sp' n := by
  intro i hi
  rw [readByte_writeBytes]
  split
  · exact ⟨_, rfl⟩
  · exact h i hi

/-- A write where the written bytes end makes the written range longer. -/
theorem written_writeBytes_append {s : State} {sp : Space} {n m : Nat} {b : Bytes} (h : Written s sp n)
    (hm : m ≤ n + b.length) (fits : m ≤ spaceSize sp) : Written (writeBytes s sp n b) sp m := by
  intro i hi
  rw [readByte_writeBytes]
  split
  · exact ⟨_, rfl⟩
  · exact h i (by rename_i hc; by_contra hn; exact hc ⟨rfl, by omega, by omega, by omega⟩)

theorem written_of_readBytes {s : State} {sp : Space} {n : Nat} {b : Bytes} (h : readBytes s sp 0 n = .ok b) :
    Written s sp n := fun i hi => ⟨b.getD i 0, by simpa using (readBytes_eq_ok_iff.1 h).2 i hi⟩

/-- Writes to memory keep the registers, the canonical form and whatever was written. -/
theorem StoreInv.writeBytes {s : State} (h : StoreInv s) (sp : Space) (off : Nat) (b : Bytes) :
    StoreInv (writeBytes s sp off b) where
  regs := h.regs
  lengths :=
    { h.lengths with
      tempWritten := written_writeBytes_of_written sp off b h.lengths.tempWritten
      outWritten := written_writeBytes_of_written sp off b h.lengths.outWritten
      expWritten := written_writeBytes_of_written sp off b h.lengths.expWritten
      actWritten := written_writeBytes_of_written sp off b h.lengths.actWritten }
  memory := writeBytes_wf sp off b h.memory

/-- Acceptance clears the error record and keeps the rest. -/
theorem StoreInv.accept {s : State} (h : StoreInv s) : StoreInv (acceptCommand s) where
  regs := h.regs
  lengths := { h.lengths with expWritten := written_zero _ _, actWritten := written_zero _ _ }
  memory := h.memory

/-- An error record counts bytes that it wrote (rule R14). -/
theorem StoreInv.recordError {s : State} (h : StoreInv s) (e : Err) (i : Word) : StoreInv (recordError e i s) := by
  have stored := (h.writeBytes .errExp 0 (e.expBytes.take Config.errbufMax)).writeBytes .errAct 0
    (e.actBytes.take Config.errbufMax)
  obtain ⟨hexp, hact⟩ := recordError_buffers e i s
  exact
    { regs := h.regs
      lengths :=
        { stored.lengths with expWritten := written_of_readBytes hexp, actWritten := written_of_readBytes hact }
      memory := stored.memory }

theorem StoreInv.outAppended {s : State} {rf : Rawfield} (h : StoreInv s) (fits : outFits rf s) :
    StoreInv (outAppended rf s) := by
  obtain ⟨-, -, hf⟩ := fits
  have hm : Config.outMax = 65536 := rfl
  have stored := h.writeBytes .out s.outBytes.toNat (outRecord rf)
  have hn : (Machine.outAppended rf s).outBytes.toNat = s.outBytes.toNat + outNeed rf := num_toNat (by omega)
  refine ⟨h.regs, { stored.lengths with out := hn ▸ hf, outWritten := ?_ }, stored.memory⟩
  rw [hn]
  exact written_writeBytes_append h.lengths.outWritten (by rw [outRecord_length]) hf

theorem StoreInv.frameAppended {s : State} {fb : Bytes} (h : StoreInv s)
    (fits : s.frameLen.toNat + fb.length ≤ Config.frameMax) : StoreInv (frameAppended fb s) := by
  have hm : Config.frameMax = 4096 := rfl
  have stored := h.writeBytes .frame s.frameLen.toNat fb
  have hn : (Machine.frameAppended fb s).frameLen.toNat = s.frameLen.toNat + fb.length := num_toNat (by omega)
  exact ⟨h.regs, { stored.lengths with frame := hn ▸ fits }, stored.memory⟩

theorem StoreInv.tempFilled {s : State} {b : Bytes} (h : StoreInv s) (fits : b.length ≤ Config.frameMax) :
    StoreInv (tempFilled b s) := by
  have hm : Config.frameMax = 4096 := rfl
  have stored := h.writeBytes .temp 0 b
  have hn : (Machine.tempFilled b s).tempLen.toNat = b.length := num_toNat (by omega)
  refine ⟨h.regs, { stored.lengths with temp := hn ▸ fits, tempWritten := ?_ }, stored.memory⟩
  rw [hn]
  exact written_writeBytes_append (written_zero s .temp) (by omega) fits

theorem StoreInv.cbufFilled {s : State} {b : Bytes} (h : StoreInv s) (fits : b.length ≤ Config.cbufMax) :
    StoreInv (cbufFilled b s) := by
  have hm : Config.cbufMax = 4096 := rfl
  have stored := h.writeBytes .cbuf 0 b
  have hn : (Machine.cbufFilled b s).cbufLen.toNat = b.length := num_toNat (by omega)
  exact ⟨h.regs, { stored.lengths with cbuf := hn ▸ fits }, stored.memory⟩

/-- A length of FRAME within its capacity. -/
theorem StoreInv.setFrameLen {s : State} {n : Nat} (h : StoreInv s) (fits : n ≤ Config.frameMax) :
    StoreInv { s with frameLen := num n } := by
  have hm : Config.frameMax = 4096 := rfl
  have hn : (num n).toNat = n := num_toNat (by omega)
  exact ⟨h.regs, { h.lengths with frame := hn.symm ▸ fits }, h.memory⟩

theorem crcRender_length (c : BitVec 16) (le : Bool) : (crcRender c le).length = 2 := by
  unfold crcRender
  split <;> simp

/-- CRC_VALUE and CRC_BYTES are sixteen bits wide (rules R127, R128). -/
theorem StoreInv.setCrcResult {s : State} (h : StoreInv s) (c : BitVec 16) (le : Bool) :
    StoreInv (setCrcResult c (crcRender c le) s) := by
  have hc := c.isLt
  have hb := be_lt (crcRender c le)
  rw [crcRender_length] at hb
  refine ⟨h.regs, { h.lengths with crcValue := ?_, crcBytes := ?_ }, h.memory⟩
  · rw [setCrcResult_crcValue, num_toNat (by omega)]
    omega
  · rw [setCrcResult_crcBytes, num_toNat (by omega)]
    omega

/-! ## Error records -/

/-- Every record an error leaves is a legal one (rules R14, R286). -/
theorem errInv_recordError (e : Err) (i : Word) (s : State) : ErrInv true (recordError e i s).err where
  none := by simp
  kind := fun _ => by
    rw [recordError_err, errKindWord_kind]
    exact errKindCode_bounds e.cause
  reserved := errKindWord_reserved e
  lengths := by
    have hexp := take_errbuf_length e.expBytes
    have hact := take_errbuf_length e.actBytes
    rw [recordError_err]
    dsimp only
    rw [num_toNat (by omega), num_toNat (by omega)]
    exact ⟨hexp, hact⟩

theorem errInv_none {err : Bool} (h : err = false) : ErrInv err ErrRecord.none :=
  ⟨fun _ => rfl, by simp [h], by decide, by decide⟩

/-! ## A capsule command under way -/

/-- Inside a capsule command: no error so far, and the reader is inside DECODE exactly while DECODE runs. -/
structure Running (s : State) : Prop where
  store : StoreInv s
  noError : s.err = ErrRecord.none
  err : s.status.err = false
  success : s.status.success = false
  failFrom : s.status.failFrom = .idle
  reader : (s.status.main = .reading ∧ s.status.rstate ≠ .idle ∧ s.status.rstate ≠ .done ∧ s.status.rstate ≠ .failed) ∨
    (s.status.main ≠ .reading ∧ s.status.rstate = .idle)

/-- In Idle and Accum no frame has been read and nothing has succeeded. -/
theorem StatusInv.open_capsule {t : Status} (h : StatusInv t) (hm : t.main = .idle ∨ t.main = .accum) :
    t.success = false ∧ t.rstate = .idle ∧ t.failFrom = .idle := by
  have notDone : t.main ≠ .done := by rcases hm with hm | hm <;> simp [hm]
  have notFailed : t.main ≠ .failed := by rcases hm with hm | hm <;> simp [hm]
  have hr : t.rstate ≠ .failed := fun hr => notFailed (h.readerFailed hr)
  refine ⟨by simpa using mt h.success.mp notDone, ?_, not_not.mp (mt h.failFrom.mp hr)⟩
  rcases h.rstate with hi | hd | hf
  · exact hi
  · exact absurd (h.readerDone hd) notDone
  · exact absurd hf hr

theorem Running.beginDecode {s : State} (h : Inv s) (hm : s.status.main = .idle ∨ s.status.main = .accum) :
    Running (beginDecode s) := by
  obtain ⟨success, -, failFrom⟩ := h.status.open_capsule hm
  have cleared := h.store.accept
  exact
    { store := ⟨cleared.regs, { cleared.lengths with planPc := Nat.zero_le _ }, cleared.memory⟩
      noError := rfl
      err := rfl
      success := success
      failFrom := failFrom
      reader := .inl ⟨rfl, by simp⟩ }

theorem Running.beginWriter {s : State} (h : Inv s) (hm : s.status.main = .idle ∨ s.status.main = .accum) :
    Running (beginWriter s) := by
  obtain ⟨success, rstate, failFrom⟩ := h.status.open_capsule hm
  have cleared := h.store.accept
  have frame : (Machine.beginWriter s).frameLen.toNat ≤ Config.frameMax := by
    rw [beginWriter_frameLen]
    split
    · exact Nat.zero_le _
    · exact h.lengths.frame
  exact
    { store := ⟨cleared.regs, { cleared.lengths with frame := frame }, cleared.memory⟩
      noError := rfl
      err := rfl
      success := success
      failFrom := failFrom
      reader := .inr ⟨by simp, rstate⟩ }

/-- FINALIZE runs with MAIN still at Accum. -/
theorem Running.accept {s : State} (h : Inv s) (hm : s.status.main = .accum) : Running (acceptCommand s) := by
  obtain ⟨success, rstate, failFrom⟩ := h.status.open_capsule (.inr hm)
  exact
    { store := h.store.accept
      noError := rfl
      err := rfl
      success := success
      failFrom := failFrom
      reader := .inr ⟨by simp [flagsAccept, hm], rstate⟩ }

/-- What a command changes in the memories and lengths leaves it running. -/
theorem Running.restore {s t : State} (h : Running s) (store : StoreInv t) (err : t.err = s.err)
    (status : t.status = s.status) : Running t where
  store := store
  noError := err ▸ h.noError
  err := status ▸ h.err
  success := status ▸ h.success
  failFrom := status ▸ h.failFrom
  reader := status ▸ h.reader

theorem Running.setReader {s : State} (h : Running s) {r : ReaderState} (hm : s.status.main = .reading)
    (hr : r ≠ .idle ∧ r ≠ .done ∧ r ≠ .failed) : Running (setReader r s) where
  store := ⟨h.store.regs, { h.store.lengths with }, h.store.memory⟩
  noError := h.noError
  err := h.err
  success := h.success
  failFrom := h.failFrom
  reader := .inl ⟨hm, hr⟩

theorem Running.setCrcSwapped {s : State} (h : Running s) (b : Bool) : Running (setCrcSwapped b s) where
  store := ⟨h.store.regs, { h.store.lengths with }, h.store.memory⟩
  noError := h.noError
  err := h.err
  success := h.success
  failFrom := h.failFrom
  reader := h.reader

/-- Outside DECODE the reader has not started. -/
theorem Running.rstate_idle {s : State} (h : Running s) (hm : s.status.main ≠ .reading) : s.status.rstate = .idle := by
  obtain ⟨hr, -⟩ | ⟨-, hr⟩ := h.reader
  · exact absurd hr hm
  · exact hr

/-! ### Its ends -/

/-- Completion leaves the error record clear. -/
theorem Running.errInv {s : State} (h : Running s) : ErrInv s.status.err s.err := by
  rw [h.noError]
  exact errInv_none h.err

/-- Wherever a capsule command fails, it leaves a state the host may see (rule R290). -/
theorem Running.fail {s : State} (h : Running s) (e : Err) (i : Word) : Inv (failCapsule e i s) := by
  have recorded := h.store.recordError e i
  have status : StatusInv (flagsFailCapsule s.status) := by
    obtain ⟨hm, hi, hd, hf⟩ | ⟨hm, hr⟩ := h.reader
    · constructor <;> simp [hm, hi, hd, hf]
    · constructor <;> simp [hm, hr, h.failFrom]
  exact
    { status := status
      err := by rw [failCapsule_status, flagsFailCapsule_err]; exact errInv_recordError e i s
      regs := recorded.regs
      lengths := { recorded.lengths with }
      memory := recorded.memory
      empty := by simp
      fromWd := rfl }

/-- WRITE_FIELD and ENCODE_PLAN end in Accum (rule R270). -/
theorem Running.completeWriter {s : State} (h : Running s) (hm : s.status.main ≠ .reading) :
    Inv (completeWriter s) where
  status := by constructor <;> simp [flagsComplete, h.success, h.failFrom, h.rstate_idle hm]
  err := h.errInv
  regs := h.store.regs
  lengths := { h.store.lengths with }
  memory := h.store.memory
  empty := by simp
  fromWd := rfl

/-- DECODE ends in Done (rule R223). -/
theorem Running.readerDone {s : State} (h : Running s) (hw : s.fromWd = false) : Inv (readerDone s) where
  status := by constructor <;> simp [flagsComplete, h.failFrom]
  err := h.errInv
  regs := h.store.regs
  lengths := { h.store.lengths with }
  memory := h.store.memory
  empty := by simp
  fromWd := hw

/-- FINALIZE ends in Done (rule R250). -/
theorem Running.finalizeDone {s : State} (h : Running s) (hw : s.fromWd = false) (hm : s.status.main ≠ .reading) :
    Inv (finalizeDone s) where
  status := by constructor <;> simp [flagsComplete, h.failFrom, h.rstate_idle hm]
  err := h.errInv
  regs := h.store.regs
  lengths := { h.store.lengths with }
  memory := h.store.memory
  empty := by simp
  fromWd := hw

end Sys2Proof.Safety
end

section
/-! O3, the plan: from a state inside a plan command every step of the sequencer ends the command in a state that meets
the invariant, or stays inside with PLAN_PC one closer to PLAN_LEN. -/

namespace Sys2Proof.Safety

open Sys2Proof.Machine

/-- A plan command between two descriptors: PLAN_PC is within a plan that fits, unless the one write descriptor runs. -/
structure InPlan (s : State) : Prop extends Running s where
  busy : s.status.busy = true
  source : (s.fromWd = true ∧ s.status.main ≠ .reading) ∨
    (s.fromWd = false ∧ s.planPc.toNat ≤ s.regs.planLen.toNat ∧ s.regs.planLen.toNat ≤ Config.planMax)

/-- The descriptors still to come: what bounds the steps of a run (rule R324). -/
def planLeft (s : State) : Nat := if s.fromWd then 0 else s.regs.planLen.toNat - s.planPc.toNat

/-- A state that a step of the sequencer may lead to from `s`. -/
def Proceeds (s t : State) : Prop := Inv t ∨ (InPlan t ∧ planLeft t < planLeft s)

/-- Once BUSY has fallen a run stands still. -/
theorem runSeq_of_not_busy {run : Instr → State → Out} {n : Nat} {s : State} (h : s.status.busy = false) :
    runSeq run n s = .next s := by
  cases n <;> simp [Machine.runSeq, h]

theorem InPlan.fail {s : State} (h : InPlan s) (e : Err) (i : Word) {o : State} : Proceeds o (failCapsule e i s) :=
  .inl (h.toRunning.fail e i)

/-- After a descriptor below PLAN_LEN, or the write descriptor (rules R17, R242). -/
theorem InPlan.advance {s : State} (h : InPlan s) (hl : s.fromWd = false → s.planPc.toNat < s.regs.planLen.toNat) :
    Proceeds s (advance s) := by
  obtain ⟨hw, hm⟩ | ⟨hw, -, hmax⟩ := h.source
  · rw [Machine.advance, if_pos hw]
    exact .inl (h.toRunning.completeWriter hm)
  · have hlt := hl hw
    have hmx : Config.planMax = 256 := rfl
    have hpc : (s.planPc + 1).toNat = s.planPc.toNat + 1 := by bv_omega
    rw [Machine.advance, if_neg (by simp [hw])]
    have store : StoreInv { s with planPc := s.planPc + 1 } :=
      ⟨h.store.regs, { h.store.lengths with planPc := by dsimp only; omega }, h.store.memory⟩
    refine .inr ⟨⟨h.toRunning.restore store rfl rfl, h.busy, .inr ⟨hw, ?_, hmax⟩⟩, ?_⟩
    · dsimp only
      omega
    · simp only [planLeft, hw, Bool.false_eq_true, if_false]
      omega

theorem InPlan.outAppended {s : State} {rf : Rawfield} (h : InPlan s) (fits : outFits rf s) :
    InPlan (outAppended rf s) :=
  ⟨h.toRunning.restore (h.store.outAppended fits) rfl rfl, h.busy, h.source⟩

theorem InPlan.frameAppended {s : State} {fb : Bytes} (h : InPlan s)
    (fits : s.frameLen.toNat + fb.length ≤ Config.frameMax) : InPlan (frameAppended fb s) :=
  ⟨h.toRunning.restore (h.store.frameAppended fits) rfl rfl, h.busy, h.source⟩

/-- A descriptor executed where PLAN_PC is below PLAN_LEN, or from the write descriptor. -/
theorem InPlan.runDescriptor {s t : State} {k : Kind} {ft : FType} {d : Desc} (h : InPlan s)
    (hl : s.fromWd = false → s.planPc.toNat < s.regs.planLen.toNat) (hr : runDescriptor k ft d s = .next t) :
    Proceeds s t := by
  obtain ⟨-, ⟨-, ⟨s1, h1, rfl⟩ | ⟨e, -, rfl⟩⟩ | ⟨-, ⟨s1, h1, rfl⟩ | ⟨e, -, rfl⟩⟩⟩ := runDescriptor_eq_next hr
  · obtain ⟨-, ⟨-, rfl⟩ | ⟨raw, rf, -, -, -, -, -, fits, rfl⟩⟩ := extractField_eq_ok h1
    · exact h.advance hl
    · exact (h.outAppended fits).advance hl
  · exact h.fail e _
  · obtain ⟨-, ⟨-, rfl⟩ | ⟨v, fb, rf, -, -, -, -, frameFits, fits, rfl⟩⟩ := emitField_eq_ok h1
    · exact h.advance hl
    · exact ((h.outAppended fits).frameAppended frameFits).advance hl
  · exact h.fail e _

theorem InPlan.runWords {s t : State} {w : DescWords} (h : InPlan s)
    (hl : s.fromWd = false → s.planPc.toNat < s.regs.planLen.toNat) (hr : runWords exec w s = .next t) :
    Proceeds s t := by
  obtain ⟨e, -, hw⟩ | ⟨i, k, ft, d, -, -, hw⟩ := runWords_eq w s
  · rw [hw] at hr
    injection hr with hr
    exact hr ▸ h.fail _ _
  · exact h.runDescriptor hl (hw ▸ hr)

/-- The checks after the last descriptor end DECODE (rules R220 to R223). -/
theorem InPlan.finishDecode {s t : State} (h : InPlan s) (hm : s.status.main = .reading) (hw : s.fromWd = false)
    (hf : finishDecode s = .next t) : Inv t := by
  have checking : Running (setReader .expectChecksum s) := h.toRunning.setReader hm (by decide)
  have tail (b : Bool) : Running (setReader .expectTail (setCrcSwapped b (setReader .expectChecksum s))) :=
    (checking.setCrcSwapped b).setReader hm (by decide)
  obtain ⟨e, rfl⟩ | ⟨swapped, -, -, ⟨e, rfl⟩ | rfl⟩ := finishDecode_eq_next hf
  · exact checking.fail e _
  · exact (tail swapped).fail e _
  · exact (tail swapped).readerDone hw

theorem InPlan.endOfPlan {s t : State} (h : InPlan s) (hw : s.fromWd = false) (he : endOfPlan s = .next t) : Inv t := by
  unfold Machine.endOfPlan at he
  split at he
  · rename_i hm
    exact h.finishDecode hm hw he
  · rename_i hm
    injection he with he
    exact he ▸ h.toRunning.completeWriter hm

theorem InPlan.seqStep {s t : State} (h : InPlan s) (hs : seqStep exec s = .next t) : Proceeds s t := by
  obtain ⟨-, -, ⟨hw, hr⟩ | ⟨-, hl, w, -, hr⟩ | ⟨-, -, e, -, rfl⟩ | ⟨hw, -, he⟩⟩ := seqStep_eq_next hs
  · exact h.runWords (by simp [hw]) hr
  · exact h.runWords (fun _ => hl) hr
  · exact h.fail e _
  · exact .inl (h.endOfPlan hw he)

/-- A run that comes closer to its end with every step, or ends, has ended when its fuel is used up. -/
theorem InPlan.runSeq {n : Nat} {s t : State} (h : InPlan s) (hn : planLeft s < n) (hr : runSeq exec n s = .next t) :
    Inv t := by
  induction n generalizing s with
  | zero => exact absurd hn (Nat.not_lt_zero _)
  | succ n ih =>
    simp only [Machine.runSeq, h.busy, if_true] at hr
    split at hr
    · rename_i s1 h1
      obtain hi | ⟨hp, hl⟩ := h.seqStep h1
      · rw [runSeq_of_not_busy hi.status.idle] at hr
        injection hr with hr
        exact hr ▸ hi
      · exact ih hp (by omega) hr
    · cases hr
    · cases hr

end Sys2Proof.Safety
end

section
/-! O3, the commands: each one enters its running shape on acceptance and leaves it in a state that meets the
invariant. -/

namespace Sys2Proof.Machine

/-! ## Where a command is accepted (rule R268) -/

theorem accepts_decode {m : MainState} : accepts .decode m = true ↔ m = .idle := by cases m <;> decide

theorem accepts_writeField {m : MainState} : accepts .writeField m = true ↔ m = .idle ∨ m = .accum := by
  cases m <;> decide

theorem accepts_encodePlan {m : MainState} : accepts .encodePlan m = true ↔ m = .idle ∨ m = .accum := by
  cases m <;> decide

theorem accepts_finalize {m : MainState} : accepts .finalize m = true ↔ m = .accum := by cases m <;> decide

theorem accepts_crc {m : MainState} : accepts .crc m = true ↔ m = .idle ∨ m = .accum ∨ m = .done := by
  cases m <;> decide

theorem accepts_cipher {m : MainState} : accepts .cipher m = true ↔ m = .idle ∨ m = .accum ∨ m = .done := by
  cases m <;> decide

/-! ## The plan is checked before it is run (rules R217, R244) -/

theorem planLen_le_of_checkHead {s : State} (h : checkHead s = .ok ()) : s.regs.planLen.toNat ≤ Config.planMax := by
  unfold checkHead at h
  split at h
  · simp at h
  · rename_i hc
    exact Nat.le_of_not_lt fun hl => hc (.inr hl)

theorem planLen_le_of_checkEncodePlan {s : State} (h : checkEncodePlan s = .ok ()) :
    s.regs.planLen.toNat ≤ Config.planMax := by
  unfold checkEncodePlan at h
  split at h
  · simp at h
  · rename_i hc
    exact Nat.le_of_not_lt fun hl => hc (.inr hl)

/-! ## The answers of NOP, NEW_CAPSULE and CRC_COMPARE -/

/-- NOP: refused, or CMD_REJ and DONE written. -/
theorem execNop_eq_next {a : BitVec 24} {s t : State} (h : execNop a s = .next t) :
    t = rejectCommand s ∨ t = completeCommand { s with status := flagsAcceptNop s.status } := by
  unfold execNop at h
  split at h
  · exact .inr (by injection h with h; exact h.symm)
  · exact .inl (by injection h with h; exact h.symm)

/-- NEW_CAPSULE: refused, or the fresh capsule. -/
theorem execNewCapsule_eq_next {a : BitVec 24} {s t : State} (h : execNewCapsule a s = .next t) :
    t = rejectCommand s ∨ t = freshCapsule s := by
  unfold execNewCapsule at h
  split at h
  · exact .inr (by injection h with h; exact h.symm)
  · exact .inl (by injection h with h; exact h.symm)

/-- CRC_COMPARE: refused, failed before or after CRC_VALUE and CRC_BYTES are written, or completed. -/
theorem execCrcCompare_eq_next {a : BitVec 24} {s t : State} (h : execCrcCompare a s = .next t) :
    (commandAccepted .crc s = false ∧ t = rejectCommand s) ∨
      (commandAccepted .crc s = true ∧
        ((∃ e, t = failEngine e (setCrcSwapped false (acceptCommand s))) ∨
          ∃ c, crcOfCbuf (setCrcSwapped false (acceptCommand s)) = .ok c ∧
            ((∃ e, t = failEngine e (setCrcResult c (crcRender c false) (setCrcSwapped false (acceptCommand s)))) ∨
              ∃ swapped, t = completeCommand (setCrcSwapped swapped
                (setCrcResult c (crcRender c false) (setCrcSwapped false (acceptCommand s))))))) := by
  unfold execCrcCompare at h
  split at h
  · rename_i ha
    refine .inr ⟨ha, ?_⟩
    obtain ⟨c, h1, h⟩ | ⟨e, -, h⟩ := attempt_eq_next h
    · refine .inr ⟨c, h1, ?_⟩
      obtain ⟨swapped, -, h⟩ | ⟨e, -, h⟩ := attempt_eq_next h
      · exact .inr ⟨swapped, by injection h with h; exact h.symm⟩
      · exact .inl ⟨e, h⟩
    · exact .inl ⟨e, h⟩
  · rename_i ha
    exact .inl ⟨by simpa using ha, by injection h with h; exact h.symm⟩

end Sys2Proof.Machine

namespace Sys2Proof.Safety

open Sys2Proof.Machine

/-! ## NOP, NEW_CAPSULE, and a command refused -/

theorem Inv.reject {s : State} (h : Inv s) : Inv (rejectCommand s) where
  status := { h.status with }
  err := h.err
  regs := h.regs
  lengths := { h.lengths with }
  memory := h.memory
  empty := h.empty
  fromWd := h.fromWd

theorem Inv.nop {s : State} (h : Inv s) : Inv (completeCommand { s with status := flagsAcceptNop s.status }) where
  status := { h.status with idle := rfl }
  err := h.err
  regs := h.regs
  lengths := { h.lengths with }
  memory := h.memory
  empty := h.empty
  fromWd := h.fromWd

theorem Inv.freshCapsule {s : State} (h : Inv s) : Inv (freshCapsule s) where
  status := by constructor <;> simp [flagsNewCapsule]
  err := errInv_none rfl
  regs := h.regs
  lengths :=
    { h.lengths with
      frame := Nat.zero_le _
      temp := Nat.zero_le _
      out := Nat.zero_le _
      planPc := Nat.zero_le _
      tempWritten := written_zero _ _
      outWritten := written_zero _ _
      expWritten := written_zero _ _
      actWritten := written_zero _ _ }
  memory := h.memory
  empty := fun _ => ⟨rfl, rfl, rfl, rfl⟩
  fromWd := rfl

/-! ## The capsule commands -/

theorem Running.tempFilled {s : State} {b : Bytes} (h : Running s) (fits : b.length ≤ Config.frameMax) :
    Running (tempFilled b s) := h.restore (h.store.tempFilled fits) rfl rfl

theorem Running.writeBytes {s : State} (h : Running s) (sp : Space) (off : Nat) (b : Bytes) :
    Running (writeBytes s sp off b) := h.restore (h.store.writeBytes sp off b) rfl rfl

theorem Running.setFrameLen {s : State} {n : Nat} (h : Running s) (fits : n ≤ Config.frameMax) :
    Running { s with frameLen := num n } := h.restore (h.store.setFrameLen fits) rfl rfl

/-- DECODE keeps the invariant. -/
theorem Inv.decode {a : BitVec 24} {s t : State} (h : Inv s) (hx : execDecode a s = .next t) : Inv t := by
  obtain ⟨-, rfl⟩ | ⟨ha, hx⟩ := execDecode_eq_next hx
  · exact h.reject
  · have hm := accepts_decode.mp (commandAccepted_iff.mp ha).1
    have begun : Running (beginDecode s) := .beginDecode h (.inl hm)
    have extracting : Running (setReader .extractFields (beginDecode s)) := begun.setReader rfl (by decide)
    obtain ⟨e, rfl⟩ | ⟨hc, ⟨e, rfl⟩ | ⟨b, fits, -, hr⟩⟩ := hx
    · exact begun.fail e _
    · exact extracting.fail e _
    · have planLen : s.regs.planLen.toNat ≤ Config.planMax := planLen_le_of_checkHead (s := Machine.beginDecode s) hc
      have inPlan : InPlan (Machine.tempFilled b (setReader .extractFields (Machine.beginDecode s))) :=
        ⟨extracting.tempFilled fits, rfl, .inr ⟨rfl, Nat.zero_le _, planLen⟩⟩
      exact inPlan.runSeq (by simp [planLeft, planFuel]) hr

/-- WRITE_FIELD in its raw form keeps the invariant. -/
theorem Inv.writeFieldRaw {s t : State} (h : Inv s) (hx : execWriteFieldRaw s = .next t) : Inv t := by
  obtain ⟨-, rfl⟩ | ⟨ha, hx⟩ := execWriteFieldRaw_eq_next hx
  · exact h.reject
  · have begun : Running (beginWriter s) := .beginWriter h (accepts_writeField.mp (commandAccepted_iff.mp ha).1)
    obtain ⟨e, rfl⟩ | ⟨s1, h1, rfl⟩ := hx
    · exact begun.fail e _
    · obtain ⟨b, rf, -, -, frameFits, fits, rfl⟩ := rawField_eq_ok h1
      have appended : Running (frameAppended b (outAppended rf (Machine.beginWriter s))) :=
        begun.restore ((begun.store.outAppended fits).frameAppended frameFits) rfl rfl
      exact appended.completeWriter (by simp)

/-- WRITE_FIELD in its encode form keeps the invariant: the write descriptor is run with no plan. -/
theorem Inv.writeFieldEnc {s t : State} (h : Inv s) (hx : execWriteFieldEnc s = .next t) : Inv t := by
  obtain ⟨-, rfl⟩ | ⟨ha, hx⟩ := execWriteFieldEnc_eq_next hx
  · exact h.reject
  · have begun : Running (beginWriter s) := .beginWriter h (accepts_writeField.mp (commandAccepted_iff.mp ha).1)
    obtain ⟨e, rfl⟩ | ⟨-, hr⟩ := hx
    · exact begun.fail e _
    · have store : StoreInv { Machine.beginWriter s with fromWd := true } :=
        ⟨begun.store.regs, { begun.store.lengths with }, begun.store.memory⟩
      have inPlan : InPlan { Machine.beginWriter s with fromWd := true } :=
        ⟨begun.restore store rfl rfl, rfl, .inl ⟨rfl, by simp⟩⟩
      exact inPlan.runSeq (by simp [planLeft]) hr

/-- ENCODE_PLAN keeps the invariant. -/
theorem Inv.encodePlan {a : BitVec 24} {s t : State} (h : Inv s) (hx : execEncodePlan a s = .next t) : Inv t := by
  obtain ⟨-, rfl⟩ | ⟨ha, hx⟩ := execEncodePlan_eq_next hx
  · exact h.reject
  · have begun : Running (beginWriter s) := .beginWriter h (accepts_encodePlan.mp (commandAccepted_iff.mp ha).1)
    have store : StoreInv { Machine.beginWriter s with planPc := 0 } :=
      ⟨begun.store.regs, { begun.store.lengths with planPc := Nat.zero_le _ }, begun.store.memory⟩
    have atStart : Running { Machine.beginWriter s with planPc := 0 } := begun.restore store rfl rfl
    obtain ⟨e, rfl⟩ | ⟨hc, hr⟩ := hx
    · exact atStart.fail e _
    · have inPlan : InPlan { Machine.beginWriter s with planPc := 0 } :=
        ⟨atStart, rfl, .inr ⟨rfl, Nat.zero_le _, planLen_le_of_checkEncodePlan hc⟩⟩
      exact inPlan.runSeq (by simp [planLeft, planFuel]) hr

/-- Each step of FINALIZE leaves the command running, in Accum. -/
theorem Running.encryptPayload {s t : State} (h : Running s) (hx : encryptPayload s = .ok t) :
    Running t ∧ t.fromWd = s.fromWd ∧ t.status = s.status := by
  obtain ⟨-, rfl⟩ | ⟨ps, n, b, -, fits, rfl⟩ := encryptPayload_eq_ok hx
  · exact ⟨h, rfl, rfl⟩
  · exact ⟨(h.writeBytes .frame ps b).setFrameLen fits, rfl, rfl⟩

theorem Running.writeLength {s t : State} (h : Running s) (hx : writeLength s = .ok t) :
    Running t ∧ t.fromWd = s.fromWd ∧ t.status = s.status := by
  obtain ⟨-, rfl⟩ | ⟨f, -, -, rfl⟩ := writeLength_eq_ok hx
  · exact ⟨h, rfl, rfl⟩
  · exact ⟨h.writeBytes _ _ _, rfl, rfl⟩

theorem Running.writeCrc {s t : State} (h : Running s) (hx : writeCrc s = .ok t) :
    Running t ∧ t.fromWd = s.fromWd ∧ t.status = s.status := by
  obtain ⟨-, rfl⟩ | ⟨ci, c, -, -, rfl⟩ := writeCrc_eq_ok hx
  · exact ⟨h, rfl, rfl⟩
  · exact ⟨h.writeBytes _ _ _, rfl, rfl⟩

/-- FINALIZE keeps the invariant. -/
theorem Inv.finalize {a : BitVec 24} {s t : State} (h : Inv s) (hx : execFinalize a s = .next t) : Inv t := by
  obtain ⟨-, rfl⟩ | ⟨ha, hx⟩ := execFinalize_eq_next hx
  · exact h.reject
  · have hm := accepts_finalize.mp (commandAccepted_iff.mp ha).1
    have accepted : Running (acceptCommand s) := .accept h hm
    obtain ⟨e, rfl⟩ | ⟨s2, h2, hx⟩ := hx
    · exact accepted.fail e _
    obtain ⟨encrypted, w2, t2⟩ := accepted.encryptPayload h2
    obtain ⟨e, rfl⟩ | ⟨s3, h3, hx⟩ := hx
    · exact encrypted.fail e _
    obtain ⟨measured, w3, t3⟩ := encrypted.writeLength h3
    obtain ⟨e, rfl⟩ | ⟨s4, h4, rfl⟩ := hx
    · exact measured.fail e _
    obtain ⟨summed, w4, t4⟩ := measured.writeCrc h4
    refine summed.finalizeDone ?_ ?_
    · rw [w4, w3, w2, acceptCommand_fromWd, h.fromWd]
    · rw [t4, t3, t2, acceptCommand_status]
      simp [flagsAccept, hm]

/-! ## The engine commands -/

/-- Inside an engine command: the capsule as it was, no error so far. -/
structure EngineRunning (s : State) : Prop where
  store : StoreInv s
  noError : s.err = ErrRecord.none
  err : s.status.err = false
  capsule : StatusInv { s.status with busy := false }
  empty : s.status.main = .idle → s.tempLen = 0 ∧ s.outCount = 0 ∧ s.outBytes = 0 ∧ s.planPc = 0
  fromWd : s.fromWd = false

theorem EngineRunning.accept {s : State} (h : Inv s) (hm : s.status.main ≠ .failed) :
    EngineRunning (acceptCommand s) where
  store := h.store.accept
  noError := rfl
  err := rfl
  capsule := { h.status with idle := rfl, failed := fun hf => absurd hf hm }
  empty := h.empty
  fromWd := h.fromWd

theorem EngineRunning.setCrcSwapped {s : State} (h : EngineRunning s) (b : Bool) :
    EngineRunning (setCrcSwapped b s) where
  store := ⟨h.store.regs, { h.store.lengths with }, h.store.memory⟩
  noError := h.noError
  err := h.err
  capsule := { h.capsule with }
  empty := h.empty
  fromWd := h.fromWd

theorem EngineRunning.setCrcResult {s : State} (h : EngineRunning s) (c : BitVec 16) (le : Bool) :
    EngineRunning (setCrcResult c (crcRender c le) s) :=
  { h with store := h.store.setCrcResult c le }

theorem EngineRunning.cbufFilled {s : State} {b : Bytes} (h : EngineRunning s) (fits : b.length ≤ Config.cbufMax) :
    EngineRunning (cbufFilled b s) :=
  { h with store := h.store.cbufFilled fits }

theorem EngineRunning.complete {s : State} (h : EngineRunning s) : Inv (completeCommand s) where
  status := { h.capsule with }
  err := by
    rw [completeCommand_err, h.noError]
    exact errInv_none h.err
  regs := h.store.regs
  lengths := { h.store.lengths with }
  memory := h.store.memory
  empty := h.empty
  fromWd := h.fromWd

/-- A failing engine command leaves the capsule alone (rule R292). -/
theorem EngineRunning.fail {s : State} (h : EngineRunning s) (e : Err) : Inv (failEngine e s) := by
  have recorded := h.store.recordError e noIndex
  exact
    { status := { h.capsule with failed := fun _ => rfl }
      err := errInv_recordError e noIndex s
      regs := recorded.regs
      lengths := { recorded.lengths with }
      memory := recorded.memory
      empty := h.empty
      fromWd := h.fromWd }

/-- CRC_CALC keeps the invariant. -/
theorem Inv.crcCalc {a : BitVec 24} {s t : State} (h : Inv s) (hx : execCrcCalc a s = .next t) : Inv t := by
  obtain ⟨-, rfl⟩ | ⟨ha, hx⟩ := execCrcCalc_eq_next hx
  · exact h.reject
  · have accepted : EngineRunning (acceptCommand s) := .accept h fun hf => by
      simpa [hf] using accepts_crc.mp (commandAccepted_iff.mp ha).1
    obtain ⟨e, rfl⟩ | ⟨c, -, rfl⟩ := hx
    · exact accepted.fail e
    · exact (accepted.setCrcResult c _).complete

/-- CRC_COMPARE keeps the invariant. -/
theorem Inv.crcCompare {a : BitVec 24} {s t : State} (h : Inv s) (hx : execCrcCompare a s = .next t) : Inv t := by
  obtain ⟨-, rfl⟩ | ⟨ha, hx⟩ := execCrcCompare_eq_next hx
  · exact h.reject
  · have accepted : EngineRunning (acceptCommand s) := .accept h fun hf => by
      simpa [hf] using accepts_crc.mp (commandAccepted_iff.mp ha).1
    have cleared := accepted.setCrcSwapped false
    obtain ⟨e, rfl⟩ | ⟨c, -, ⟨e, rfl⟩ | ⟨swapped, rfl⟩⟩ := hx
    · exact cleared.fail e
    · exact (cleared.setCrcResult c _).fail e
    · exact ((cleared.setCrcResult c _).setCrcSwapped swapped).complete

/-- ENCRYPT and DECRYPT keep the invariant. -/
theorem Inv.cipherCommand {dec : Bool} {s t : State} (h : Inv s) (hx : cipherCommand dec s = .next t) : Inv t := by
  obtain ⟨-, rfl⟩ | ⟨ha, hx⟩ := cipherCommand_eq_next hx
  · exact h.reject
  · have accepted : EngineRunning (acceptCommand s) := .accept h fun hf => by
      simpa [hf] using accepts_cipher.mp (commandAccepted_iff.mp ha).1
    obtain ⟨e, rfl⟩ | ⟨r, -, fits, rfl⟩ := hx
    · exact accepted.fail e
    · exact (accepted.cbufFilled fits).complete

/-! ## Every command -/

/-- Every command, from a state between two commands, leads to one. -/
theorem Inv.exec {i : Instr} {s t : State} (h : Inv s) (hi : i.isDescriptor = false) (hx : exec i s = .next t) :
    Inv t := by
  cases i
  case nop a =>
    obtain rfl | rfl := execNop_eq_next (a := a) hx
    · exact h.reject
    · exact h.nop
  case newCapsule a =>
    obtain rfl | rfl := execNewCapsule_eq_next (a := a) hx
    · exact h.reject
    · exact h.freshCapsule
  case decode a => exact h.decode (a := a) hx
  case writeFieldRaw => exact h.writeFieldRaw hx
  case writeFieldEnc => exact h.writeFieldEnc hx
  case encodePlan a => exact h.encodePlan (a := a) hx
  case finalize a => exact h.finalize (a := a) hx
  case crcCalc a => exact h.crcCalc (a := a) hx
  case crcCompare a => exact h.crcCompare (a := a) hx
  case encrypt a => exact h.cipherCommand hx
  case decrypt a => exact h.cipherCommand hx
  all_goals cases hi

end Sys2Proof.Safety
end

section
/-! O3, the host's moves: what one step between two commands can be, said once (`HostEffect`), and each of its cases. -/

namespace Sys2Proof.Machine

/-- What a step between two commands does to the state it finds, the host's move taken off the list. -/
inductive HostEffect (s : State) : State → Prop where
  | none : HostEffect s s
  | reset : HostEffect s (hostReset s)
  | read (x : Target) : HostEffect s (hostRead s x)
  | register (off : Nat) (v : Word) : HostEffect s (writeReg s off v)
  | planWord (off : Nat) (v : Word) : HostEffect s (writeBytes s .plan off (wordBytes v))
  | byte (sp : Space) (off : Nat) (b : Byte) : hostWritable sp = true → (sp = .frame → s.status.main = .idle) →
      HostEffect s (writeBytes s sp off [b])
  | reject : HostEffect s (rejectCommand s)
  | command (i : Instr) (t : State) : i.isDescriptor = false → exec i s = .next t → HostEffect s t

theorem presentCommand_effect {w : Word} {s t : State} (h : presentCommand exec w s = .next t) : HostEffect s t := by
  obtain ⟨i, hi, hw⟩ | ⟨e, -, hw⟩ := presentCommand_eq w s
  · exact .command i t (decodeWords_isCommand hi) (hw ▸ h)
  · rw [hw] at h
    injection h with h
    exact h ▸ .reject

theorem hostWrite_effect {width : Width} {addr v : Word} {s t : State} (h : hostWrite exec width addr v s = .next t) :
    HostEffect s t := by
  unfold hostWrite at h
  split at h
  · cases h
  · split at h
    · exact presentCommand_effect h
    · injection h with h
      exact h ▸ .register _ _
  · injection h with h
    exact h ▸ .planWord _ _
  · split at h
    · cases h
    · rename_i writable
      split at h
      · injection h with h
        exact h ▸ .none
      · rename_i frame
        injection h with h
        exact h ▸ .byte _ _ _ (by simpa using writable) fun hsp => by_contra fun hm => frame ⟨hsp, hm⟩

theorem hostMove_effect {m : HostMove} {s t : State} (hb : s.status.busy = false) (h : hostMove exec m s = .next t) :
    HostEffect s t := by
  cases m with
  | reset =>
    injection h with h
    exact h ▸ .reset
  | read width addr =>
    simp only [hostMove, hb, Bool.false_eq_true, false_and, if_false] at h
    split at h
    · cases h
    · injection h with h
      exact h ▸ .read _
  | write width addr v =>
    simp only [hostMove, hb, Bool.false_eq_true, if_false] at h
    exact hostWrite_effect h

/-- A step between two commands: the host's next move, or nothing. -/
theorem step_effect {s t : State} (hb : s.status.busy = false) (h : step s = .next t) :
    ∃ rest, HostEffect { s with inputs := rest } t := by
  cases hi : s.inputs with
  | nil =>
    rw [step_no_input hb hi] at h
    injection h with h
    exact ⟨s.inputs, h ▸ .none⟩
  | cons m rest =>
    rw [step_input hb hi] at h
    exact ⟨rest, hostMove_effect (s := { s with inputs := rest }) hb h⟩

end Sys2Proof.Machine

namespace Sys2Proof.Safety

open Sys2Proof.Machine

/-- The host's side is no part of the invariant. -/
theorem Inv.hostSide {s : State} (h : Inv s) (inputs : List HostMove) (data : Word) (n : Nat) :
    Inv { s with inputs := inputs, hostData := data, freeCount := n } where
  status := h.status
  err := h.err
  regs := h.regs
  lengths := { h.lengths with }
  memory := h.memory
  empty := h.empty
  fromWd := h.fromWd

/-- The state after reset meets the invariant (rules R31, R311). -/
theorem inv_reset : Inv State.reset where
  status := by constructor <;> simp [State.reset, Status.reset]
  err := errInv_none rfl
  regs := by constructor <;> decide
  lengths :=
    ⟨by decide, by decide, by decide, by decide, by decide, by decide, by decide, written_zero _ _, written_zero _ _,
      written_zero _ _, written_zero _ _⟩
  memory := reset_wf
  empty := fun _ => ⟨rfl, rfl, rfl, rfl⟩
  fromWd := rfl

/-! ## Register writes -/

/-- A value written under a mask has no bit outside it. -/
theorem and_and_eq_zero {m n : Word} (h : m &&& n = 0) (v : Word) : v &&& m &&& n = 0 := by
  rw [BitVec.and_assoc, h]
  exact BitVec.and_zero

/-- The masked and the cut registers keep their reserved bits 0 and their limits (rules R15, R21, R32). -/
theorem RegsInv.writeRegs {r : Regs} (h : RegsInv r) (off : Nat) (v : Word) : RegsInv (writeRegs r off v) := by
  unfold Machine.writeRegs
  split
  -- the masked and the cut registers, in the order of the register map
  case h_1 => exact { h with capCtrl := and_and_eq_zero (by decide) v }
  case h_5 => exact { h with headTag := and_and_eq_zero (by decide) v }
  case h_7 => exact { h with tailTag := and_and_eq_zero (by decide) v }
  case h_8 => exact { h with lenCtrl := and_and_eq_zero (by decide) v }
  case h_13 => exact { h with crcCtrl := and_and_eq_zero (by decide) v }
  case h_19 => exact { h with ciphCtrl := and_and_eq_zero (by decide) v }
  case h_20 => exact { h with keyLen := atMost_le v (by decide) }
  case h_21 => exact { h with ivLen := atMost_le v (by decide) }
  case h_25 => exact { h with cand := and_and_eq_zero (by decide) v }
  all_goals exact { h with }

theorem Inv.writeReg {s : State} (h : Inv s) (off : Nat) (v : Word) : Inv (writeReg s off v) := by
  obtain hw | ⟨hm, hw⟩ | hw | hw := writeReg_eq s off v
  · exact hw.symm ▸ h
  · rw [hw]
    exact ⟨h.status, h.err, h.regs, { h.lengths with frame := atMost_le v (by decide) }, h.memory, h.empty, h.fromWd⟩
  · rw [hw]
    exact ⟨h.status, h.err, h.regs, { h.lengths with cbuf := atMost_le v (by decide) }, h.memory, h.empty, h.fromWd⟩
  · rw [hw]
    exact ⟨h.status, h.err, h.regs.writeRegs off v, { h.lengths with }, h.memory, h.empty, h.fromWd⟩

/-! ## The step -/

theorem Inv.writeBytes {s : State} (h : Inv s) (sp : Space) (off : Nat) (b : Bytes) : Inv (writeBytes s sp off b) :=
  have store := h.store.writeBytes sp off b
  ⟨h.status, h.err, store.regs, store.lengths, store.memory, h.empty, h.fromWd⟩

/-- Whatever a step between two commands does keeps the invariant. -/
theorem Inv.hostEffect {s t : State} (h : Inv s) (he : HostEffect s t) : Inv t := by
  cases he with
  | none => exact h
  | reset => exact inv_reset.hostSide _ _ _
  | read x =>
    obtain ⟨w, n, hr⟩ := hostRead_eq s x
    exact hr.symm ▸ h.hostSide _ w n
  | register off v => exact h.writeReg off v
  | planWord off v => exact h.writeBytes _ _ _
  | byte sp off b _ _ => exact h.writeBytes _ _ _
  | reject => exact h.reject
  | command i t hi hx => exact h.exec hi hx

end Sys2Proof.Safety

open Sys2Proof Sys2Proof.Machine Sys2Proof.Safety

/-- Settles O3: BUSY is clear, so the step is the host's (`step_effect`), and each of its effects keeps the
invariant. -/
theorem everyStepKeepsTheInvariant : Obligations.EveryStepKeepsTheInvariant := by
  intro s t h hs
  obtain ⟨rest, he⟩ := step_effect h.status.idle hs
  exact (h.hostSide rest s.hostData s.freeCount).hostEffect he

end

section
/-! O4, the log: a record appended to OUT reads back as itself after the records before it, and what leaves OUT and
FRAME alone leaves the log alone. -/

namespace Sys2Proof.Machine

open Sys2Proof.Safety

/-! ## One record (rule R78) -/

/-- The ten bytes before a record's strings. -/
def recordHeader (rf : Rawfield) : Bytes :=
  beN rf.tag.toNat 2 ++ beN rf.pos.toNat 2 ++ beN rf.bytes.length 2 ++ beN rf.value.length 2 ++
    [BitVec.ofNat 8 rf.title.length, 0]

@[simp] theorem recordHeader_length (rf : Rawfield) : (recordHeader rf).length = 10 := by simp [recordHeader]

theorem outRecord_eq (rf : Rawfield) : outRecord rf = recordHeader rf ++ rf.bytes ++ rf.value ++ rf.title := rfl

theorem slice_recordHeader_tag (rf : Rawfield) : slice (recordHeader rf) 0 2 = beN rf.tag.toNat 2 := rfl
theorem slice_recordHeader_pos (rf : Rawfield) : slice (recordHeader rf) 2 4 = beN rf.pos.toNat 2 := rfl
theorem slice_recordHeader_bytes (rf : Rawfield) : slice (recordHeader rf) 4 6 = beN rf.bytes.length 2 := rfl
theorem slice_recordHeader_value (rf : Rawfield) : slice (recordHeader rf) 6 8 = beN rf.value.length 2 := rfl
theorem slice_recordHeader_title (rf : Rawfield) : slice (recordHeader rf) 8 9 = beN rf.title.length 1 := rfl

/-- The middle of three strings. -/
theorem slice_append_middle (a b c : Bytes) : slice (a ++ b ++ c) a.length (a.length + b.length) = b := by
  simp [slice, List.take_append]

/-- A number below 65536 comes back from its two bytes. -/
theorem be_beN_two {n : Nat} (h : n ≤ 65535) : be (beN n 2) = n := by
  rw [be_beN]
  exact Nat.mod_eq_of_lt (by omega)

theorem be_beN_one {n : Nat} (h : n ≤ 255) : be (beN n 1) = n := by
  rw [be_beN]
  exact Nat.mod_eq_of_lt (by omega)

theorem ofNat_be_beN (x : BitVec 16) : BitVec.ofNat 16 (be (beN x.toNat 2)) = x := by
  rw [be_beN_two (by omega), BitVec.ofNat_toNat, BitVec.setWidth_eq]

/-- A record standing in OUT parses as itself. -/
theorem readRecord_of_outRecord {s : State} {rf : Rawfield} {off : Nat} (hb : rf.bytes.length ≤ 65535)
    (hv : rf.value.length ≤ 65535) (ht : rf.title.length ≤ 255)
    (h : readBytes s .out off (outNeed rf) = .ok (outRecord rf)) : readRecord s off = .ok (rf, off + outNeed rf) := by
  have part (a b c : Bytes) (hr : outRecord rf = a ++ b ++ c) (hn : a.length + b.length ≤ outNeed rf) :
      readBytes s .out (off + a.length) b.length = .ok b := by
    rw [readBytes_part h hn, hr, slice_append_middle]
  have header : readBytes s .out off 10 = .ok (recordHeader rf) :=
    part [] (recordHeader rf) (rf.bytes ++ rf.value ++ rf.title) (by simp [outRecord_eq]) (by simp [outNeed]; omega)
  have bytes : readBytes s .out (off + 10) rf.bytes.length = .ok rf.bytes := by
    simpa using part (recordHeader rf) rf.bytes (rf.value ++ rf.title) (by simp [outRecord_eq])
      (by simp [outNeed]; omega)
  have value : readBytes s .out (off + 10 + rf.bytes.length) rf.value.length = .ok rf.value := by
    simpa [Nat.add_assoc] using part (recordHeader rf ++ rf.bytes) rf.value rf.title (by simp [outRecord_eq])
      (by simp [outNeed])
  have title : readBytes s .out (off + 10 + rf.bytes.length + rf.value.length) rf.title.length = .ok rf.title := by
    simpa [Nat.add_assoc] using part (recordHeader rf ++ rf.bytes ++ rf.value) rf.title [] (by simp [outRecord_eq])
      (by simp [outNeed]; omega)
  unfold readRecord
  rw [header, res_ok_bind]
  dsimp only
  rw [slice_recordHeader_tag, slice_recordHeader_pos, slice_recordHeader_bytes, slice_recordHeader_value,
    slice_recordHeader_title, be_beN_two hb, be_beN_two hv, be_beN_one ht, bytes, res_ok_bind, value, res_ok_bind,
    title, res_ok_bind, ofNat_be_beN, ofNat_be_beN, res_pure_eq]
  simp only [outNeed, Nat.add_assoc]

/-- The record appended last reads back (rule R78). -/
theorem readRecord_outAppended {s : State} {rf : Rawfield} (fits : outFits rf s) (ht : rf.title.length ≤ 255) :
    readRecord (outAppended rf s) s.outBytes.toNat = .ok (rf, s.outBytes.toNat + outNeed rf) := by
  obtain ⟨hb, hv, hn⟩ := fits
  refine readRecord_of_outRecord hb hv ht ?_
  rw [readBytes_congr_mem (outAppended_mem rf s), ← outRecord_length]
  exact readBytes_writeBytes_self (by rw [outRecord_length]; exact hn)

/-! ## The list of records -/

/-- An append makes the list one longer; the two counts do not wrap, because a record takes ten bytes at least. -/
theorem isLog_outAppended {s : State} {rf : Rawfield} {l : List Rawfield} (h : IsLog s l) (fits : outFits rf s)
    (ht : rf.title.length ≤ 255) : IsLog (outAppended rf s) (l ++ [rf]) := by
  have hmax : s.outBytes.toNat + outNeed rf ≤ 65536 := fits.2.2
  have hlen := readRecords_end h
  have count : (outAppended rf s).outCount.toNat = s.outCount.toNat + 1 := by
    rw [outAppended_outCount]
    bv_omega
  have bytes : (outAppended rf s).outBytes.toNat = s.outBytes.toNat + outNeed rf := num_toNat (by omega)
  unfold IsLog
  rw [count, bytes]
  refine readRecords_snoc h (fun x hx => readByte_outAppended rf s .out x (by omega)) (readRecord_outAppended fits ht)

theorem isLog_unique {s : State} {l l' : List Rawfield} (h : IsLog s l) (h' : IsLog s l') : l = l' := by
  have := h.symm.trans h'
  simp only [Except.ok.injEq, Prod.mk.injEq, and_true] at this
  exact this

/-- OUT and its two counts are the same in both states. -/
structure SameOut (s t : State) : Prop where
  count : t.outCount = s.outCount
  length : t.outBytes = s.outBytes
  bytes : ∀ x, readByte t .out x = readByte s .out x

/-- FRAME and its length are the same in both states. -/
structure SameFrame (s t : State) : Prop where
  length : t.frameLen = s.frameLen
  bytes : ∀ x, readByte t .frame x = readByte s .frame x

theorem SameOut.trans {s t u : State} (h : SameOut s t) (h' : SameOut t u) : SameOut s u :=
  ⟨h'.count.trans h.count, h'.length.trans h.length, fun x => (h'.bytes x).trans (h.bytes x)⟩

theorem SameOut.of_mem {s t : State} (hm : t.mem = s.mem) (hc : t.outCount = s.outCount)
    (hl : t.outBytes = s.outBytes) : SameOut s t := ⟨hc, hl, readByte_congr hm .out⟩

theorem SameFrame.of_mem {s t : State} (hm : t.mem = s.mem) (hl : t.frameLen = s.frameLen) : SameFrame s t :=
  ⟨hl, readByte_congr hm .frame⟩

theorem sameOut_writeBytes {s : State} {sp : Space} (h : sp ≠ .out) (off : Nat) (b : Bytes) :
    SameOut s (writeBytes s sp off b) := ⟨rfl, rfl, readByte_writeBytes_of_ne h.symm off b⟩

theorem sameFrame_writeBytes {s : State} {sp : Space} (h : sp ≠ .frame) (off : Nat) (b : Bytes) :
    SameFrame s (writeBytes s sp off b) := ⟨rfl, readByte_writeBytes_of_ne h.symm off b⟩

theorem sameOut_failCapsule (e : Err) (i : Word) (s : State) : SameOut s (failCapsule e i s) :=
  ⟨rfl, rfl, readByte_failCapsule e i s (by decide)⟩

theorem sameOut_failEngine (e : Err) (s : State) : SameOut s (failEngine e s) :=
  ⟨rfl, rfl, readByte_failEngine e s (by decide)⟩

theorem sameFrame_failEngine (e : Err) (s : State) : SameFrame s (failEngine e s) :=
  ⟨rfl, readByte_failEngine e s (by decide)⟩

theorem readRecord_eq_of_same {s t : State} (same : ∀ x, readByte t .out x = readByte s .out x) (off : Nat) :
    readRecord t off = readRecord s off := by
  have h (o n : Nat) : readBytes t .out o n = readBytes s .out o n := readBytes_congr fun _ _ => same _
  simp only [readRecord, h]

theorem readRecords_eq_of_same {s t : State} (same : ∀ x, readByte t .out x = readByte s .out x) (n off : Nat) :
    readRecords t off n = readRecords s off n := by
  induction n generalizing off with
  | zero => rfl
  | succ n ih => simp only [readRecords, readRecord_eq_of_same same, ih]

theorem isLog_of_sameOut {s t : State} {l : List Rawfield} (h : IsLog s l) (same : SameOut s t) : IsLog t l := by
  unfold IsLog
  rw [same.count, same.length, readRecords_eq_of_same same.bytes]
  exact h

end Sys2Proof.Machine
end

section
/-! O4, the accumulation invariant: `Logged` is `LogInv` with the writer's commands under way counted in (MAIN =
Encoding), so that it holds of every state inside a command too. -/

namespace Sys2Proof.Machine

/-! ## What a field appends -/

/-- `t` is `s` with one record appended to OUT and its bytes to FRAME; its title has an 8-bit length. -/
def AppendsField (s t : State) : Prop :=
  ∃ rf, rf.title.length ≤ 255 ∧ outFits rf s ∧ s.frameLen.toNat + rf.bytes.length ≤ Config.frameMax ∧
    t = frameAppended rf.bytes (outAppended rf s)

/-- A descriptor's title is at most 255 bytes long. -/
theorem title_length {s : State} {d : Desc} {title : Bytes} (h : tblStr s (titlePtr d) = .ok title) :
    title.length ≤ 255 := by
  have hl : title.length = d.titleLen.toNat := readBytes_length h
  omega

theorem translate_title {s : State} {k : Kind} {ft : FType} {d : Desc} {raw : Bytes} {rf : Rawfield}
    (h : translate s k ft d raw = .ok rf) : rf.title.length ≤ 255 := by
  unfold translate at h
  obtain ⟨v, -, h⟩ := res_bind_eq_ok.mp h
  obtain ⟨title, ht, h⟩ := res_bind_eq_ok.mp h
  simp only [res_pure_eq, Except.ok.injEq] at h
  subst h
  exact title_length ht

theorem encodeField_title {s : State} {k : Kind} {ft : FType} {d : Desc} {v fb : Bytes} {rf : Rawfield}
    (h : encodeField s k ft d v = .ok (fb, rf)) : rf.title.length ≤ 255 := by
  unfold encodeField at h
  split at h
  · simp at h
  · obtain ⟨⟨b, value⟩, -, h⟩ := res_bind_eq_ok.mp h
    obtain ⟨title, ht, h⟩ := res_bind_eq_ok.mp h
    simp only [res_pure_eq, Except.ok.injEq, Prod.mk.injEq] at h
    obtain ⟨-, rfl⟩ := h
    exact title_length ht

theorem emitField_appends {s t : State} {k : Kind} {ft : FType} {d : Desc} (h : emitField s k ft d = .ok t) :
    t = s ∨ AppendsField s t := by
  obtain ⟨-, ⟨-, rfl⟩ | ⟨v, fb, rf, -, -, he, rfl, frameFits, fits, rfl⟩⟩ := emitField_eq_ok h
  · exact .inl rfl
  · exact .inr ⟨rf, encodeField_title he, fits, frameFits, rfl⟩

theorem rawField_appends {s t : State} (h : rawField s = .ok t) : AppendsField s t := by
  unfold rawField at h
  dsimp only at h
  split at h
  · cases h
  · obtain ⟨b, -, h⟩ := res_bind_eq_ok.mp h
    obtain ⟨v, -, h⟩ := res_bind_eq_ok.mp h
    obtain ⟨title, ht, h⟩ := res_bind_eq_ok.mp h
    obtain ⟨frameFits, fits, h⟩ := appendFrame_eq_ok.mp h
    exact ⟨_, title_length ht, fits, frameFits, h⟩

end Sys2Proof.Machine

namespace Sys2Proof.Safety

open Sys2Proof.Machine

/-- The states in which the bytes of the records are the frame: Accum, and Encoding inside the writer's commands. -/
def Accumulating (s : State) : Prop := s.status.main = .accum ∨ s.status.main = .encoding

/-- OUT parses as `l`, and the frame is its bytes where it accumulates them. -/
structure HasLog (s : State) (l : List Rawfield) : Prop where
  log : IsLog s l
  frame : Accumulating s → readBytes s .frame 0 s.frameLen.toNat = .ok (l.flatMap Rawfield.bytes)

/-- `LogInv` for the states inside a command as well. -/
def Logged (s : State) : Prop := ∃ l, HasLog s l

theorem Logged.logInv {s : State} (h : Logged s) : LogInv s := by
  obtain ⟨l, log, frame⟩ := h
  refine ⟨⟨l, log⟩, fun hm l' hl' => ?_⟩
  rw [isLog_unique hl' log]
  exact frame (.inl hm)

/-- Between two commands MAIN is never Encoding. -/
theorem LogInv.logged {s : State} (h : LogInv s) (hs : StatusInv s.status) : Logged s := by
  obtain ⟨l, hl⟩ := h.log
  refine ⟨l, hl, fun hm => ?_⟩
  rcases hm with hm | hm
  · exact h.accumulation hm l hl
  · exact absurd hs.main (by simp [hm])

/-! ## What leaves the log alone -/

/-- A state with the same OUT, and the same FRAME where it accumulates. -/
theorem Logged.congr {s t : State} (h : Logged s) (out : SameOut s t)
    (frame : Accumulating t → Accumulating s ∧ SameFrame s t) : Logged t := by
  obtain ⟨l, log, bytes⟩ := h
  refine ⟨l, isLog_of_sameOut log out, fun hm => ?_⟩
  obtain ⟨hs, same⟩ := frame hm
  rw [same.length, readBytes_congr fun _ _ => same.bytes _]
  exact bytes hs

/-- A change of the flags and registers only. -/
theorem Logged.of_mem {s t : State} (h : Logged s) (hm : t.mem = s.mem) (hc : t.outCount = s.outCount)
    (hb : t.outBytes = s.outBytes) (hf : t.frameLen = s.frameLen) (ha : Accumulating t → Accumulating s) : Logged t :=
  h.congr (.of_mem hm hc hb) fun acc => ⟨ha acc, .of_mem hm hf⟩

theorem not_accumulating {s : State} {m : MainState} (h : s.status.main = m) (hm : m ≠ .accum ∧ m ≠ .encoding) :
    ¬ Accumulating s := by
  rintro (ha | he)
  · exact hm.1 (h.symm.trans ha)
  · exact hm.2 (h.symm.trans he)

/-- A failed capsule keeps its log (rule R290). -/
theorem Logged.fail {s : State} (h : Logged s) (e : Err) (i : Word) : Logged (failCapsule e i s) :=
  h.congr (sameOut_failCapsule e i s) fun acc =>
    absurd acc (not_accumulating (flagsFailCapsule_main s.status) (by decide))

/-- A fresh capsule has the empty log. -/
theorem logged_of_empty {s : State} (hc : s.outCount = 0) (hb : s.outBytes = 0) (ha : Accumulating s → s.frameLen = 0) :
    Logged s := by
  refine ⟨[], ?_, fun acc => ?_⟩
  · unfold IsLog
    rw [hc, hb]
    rfl
  · rw [ha acc]
    rfl

/-! ## What makes the log longer -/

/-- A record decoded (rule R219). -/
theorem Logged.outAppended {s : State} {rf : Rawfield} (h : Logged s) (fits : outFits rf s) (ht : rf.title.length ≤ 255)
    (hm : ¬ Accumulating s) : Logged (outAppended rf s) := by
  obtain ⟨l, log, -⟩ := h
  exact ⟨l ++ [rf], isLog_outAppended log fits ht, fun acc => absurd acc hm⟩

/-- A field written: its bytes go to the end of the frame, its record to the end of OUT (rule R243). -/
theorem Logged.appendsField {s t : State} (h : Logged s) (ha : AppendsField s t) : Logged t := by
  obtain ⟨l, log, frame⟩ := h
  obtain ⟨rf, ht, fits, frameFits, rfl⟩ := ha
  have hmax : Config.frameMax = 4096 := rfl
  have out : SameOut (Machine.outAppended rf s) (frameAppended rf.bytes (Machine.outAppended rf s)) :=
    ⟨rfl, rfl, fun x => readByte_frameAppended rf.bytes _ .out x (by simp)⟩
  refine ⟨l ++ [rf], isLog_of_sameOut (isLog_outAppended log fits ht) out, fun acc => ?_⟩
  have length : (frameAppended rf.bytes (Machine.outAppended rf s)).frameLen.toNat =
      s.frameLen.toNat + rf.bytes.length := num_toNat (n := s.frameLen.toNat + rf.bytes.length) (by omega)
  have before : readBytes (frameAppended rf.bytes (Machine.outAppended rf s)) .frame 0 s.frameLen.toNat =
      .ok (l.flatMap Rawfield.bytes) := by
    rw [← frame acc]
    refine readBytes_congr fun i hi => ?_
    rw [readByte_frameAppended rf.bytes (Machine.outAppended rf s) .frame (0 + i) (by simp; omega),
      readByte_outAppended rf s .frame (0 + i) (by simp)]
  have added : readBytes (frameAppended rf.bytes (Machine.outAppended rf s)) .frame (0 + s.frameLen.toNat)
      rf.bytes.length = .ok rf.bytes := by
    rw [Nat.zero_add, readBytes_congr_mem (frameAppended_mem rf.bytes _)]
    exact readBytes_writeBytes_self frameFits
  rw [length, List.flatMap_append, List.flatMap_singleton]
  exact readBytes_append before added

/-! ## A plan -/

/-- Inside a plan command: the log, and the write descriptor only under a writer's command (rule R242). -/
structure LoggedRun (s : State) : Prop where
  logged : Logged s
  writeDescriptor : s.fromWd = true → Accumulating s

theorem Logged.completeWriter {s : State} (h : Logged s) (ha : Accumulating s) : Logged (completeWriter s) :=
  h.of_mem rfl rfl rfl rfl fun _ => ha

theorem Logged.loggedRun {s : State} (h : Logged s) (hw : s.fromWd = false) : LoggedRun s := ⟨h, by simp [hw]⟩

/-- After a descriptor, taken from the plan or from WD0 to WD7. -/
theorem LoggedRun.advance {s : State} (h : LoggedRun s) : LoggedRun (advance s) := by
  refine Logged.loggedRun ?_ (advance_fromWd s)
  unfold Machine.advance
  split
  · rename_i hw
    exact h.logged.completeWriter (h.writeDescriptor hw)
  · exact h.logged.of_mem rfl rfl rfl rfl id

theorem LoggedRun.fail {s : State} (h : LoggedRun s) (e : Err) (i : Word) : LoggedRun (failCapsule e i s) :=
  (h.logged.fail e i).loggedRun rfl

theorem LoggedRun.runDescriptor {s t : State} {k : Kind} {ft : FType} {d : Desc} (h : LoggedRun s)
    (hr : runDescriptor k ft d s = .next t) : LoggedRun t := by
  obtain ⟨-, ⟨hm, ⟨s1, h1, rfl⟩ | ⟨e, -, rfl⟩⟩ | ⟨hm, ⟨s1, h1, rfl⟩ | ⟨e, -, rfl⟩⟩⟩ := runDescriptor_eq_next hr
  · obtain ⟨-, ⟨-, rfl⟩ | ⟨raw, rf, -, -, -, -, ht, fits, rfl⟩⟩ := extractField_eq_ok h1
    · exact h.advance
    · have appended : LoggedRun (outAppended rf s) :=
        ⟨h.logged.outAppended fits (translate_title ht) (not_accumulating hm (by decide)), h.writeDescriptor⟩
      exact appended.advance
  · exact h.fail e _
  · obtain rfl | ha := emitField_appends h1
    · exact h.advance
    · have appended : LoggedRun s1 := by
        refine ⟨h.logged.appendsField ha, fun _ => .inr ?_⟩
        obtain ⟨rf, -, -, -, rfl⟩ := ha
        exact hm
      exact appended.advance
  · exact h.fail e _

theorem LoggedRun.runWords {s t : State} {w : DescWords} (h : LoggedRun s) (hr : runWords exec w s = .next t) :
    LoggedRun t := by
  obtain ⟨e, -, hw⟩ | ⟨i, k, ft, d, -, -, hw⟩ := runWords_eq w s
  · rw [hw] at hr
    injection hr with hr
    exact hr ▸ h.fail _ _
  · exact h.runDescriptor (hw ▸ hr)

/-- The end of the plan writes flags and the error record only. -/
theorem LoggedRun.endOfPlan {s t : State} (h : LoggedRun s) (hw : s.fromWd = false)
    (hm : s.status.main = .reading ∨ s.status.main = .encoding) (he : endOfPlan s = .next t) : LoggedRun t := by
  unfold Machine.endOfPlan at he
  split at he
  · have checking : Logged (setReader .expectChecksum s) := h.logged.of_mem rfl rfl rfl rfl id
    have tail (b : Bool) : Logged (setReader .expectTail (setCrcSwapped b (setReader .expectChecksum s))) :=
      checking.of_mem rfl rfl rfl rfl id
    obtain ⟨e, rfl⟩ | ⟨swapped, -, -, ⟨e, rfl⟩ | rfl⟩ := finishDecode_eq_next he
    · exact (checking.fail e _).loggedRun rfl
    · exact ((tail swapped).fail e _).loggedRun rfl
    · have done : ¬ Accumulating (readerDone (setReader .expectTail (setCrcSwapped swapped
          (setReader .expectChecksum s)))) := not_accumulating (m := .done) rfl (by decide)
      exact Logged.loggedRun ((tail swapped).of_mem rfl rfl rfl rfl fun acc => absurd acc done) hw
  · rename_i hr
    injection he with he
    exact he ▸ (h.logged.completeWriter (.inr (hm.resolve_left hr))).loggedRun rfl

theorem LoggedRun.seqStep {s t : State} (h : LoggedRun s) (hs : seqStep exec s = .next t) : LoggedRun t := by
  obtain ⟨-, hm, ⟨-, hr⟩ | ⟨-, -, w, -, hr⟩ | ⟨-, -, e, -, rfl⟩ | ⟨hw, -, he⟩⟩ := seqStep_eq_next hs
  · exact h.runWords hr
  · exact h.runWords hr
  · exact h.fail e _
  · exact h.endOfPlan hw hm he

theorem LoggedRun.runSeq {n : Nat} {s t : State} (h : LoggedRun s) (hr : runSeq exec n s = .next t) : Logged t :=
  (runSeq_keeps (P := LoggedRun) (fun _ _ hp _ hs => hp.seqStep hs) n s t h hr).logged

/-! ## The commands -/

theorem Logged.reject {s : State} (h : Logged s) : Logged (rejectCommand s) := h.of_mem rfl rfl rfl rfl id

/-- DECODE keeps the log (rules R216 to R225): it appends the records it decodes. -/
theorem Logged.decode {a : BitVec 24} {s t : State} (h : Logged s) (hx : execDecode a s = .next t) : Logged t := by
  obtain ⟨-, rfl⟩ | ⟨-, hx⟩ := execDecode_eq_next hx
  · exact h.reject
  · have reading : ¬ Accumulating (beginDecode s) := not_accumulating (m := .reading) rfl (by decide)
    have begun : Logged (beginDecode s) := h.of_mem rfl rfl rfl rfl fun acc => absurd acc reading
    have extracting : Logged (setReader .extractFields (beginDecode s)) := begun.of_mem rfl rfl rfl rfl id
    obtain ⟨e, rfl⟩ | ⟨-, ⟨e, rfl⟩ | ⟨b, -, -, hr⟩⟩ := hx
    · exact begun.fail e _
    · exact extracting.fail e _
    · have filled : Logged (tempFilled b (setReader .extractFields (beginDecode s))) :=
        extracting.congr ⟨rfl, rfl, (sameOut_writeBytes (by decide) 0 b).bytes⟩ fun acc =>
          ⟨acc, rfl, (sameFrame_writeBytes (by decide) 0 b).bytes⟩
      exact (filled.loggedRun rfl).runSeq hr

/-- A writer's command starts an empty frame where the capsule is empty, and goes on with the frame in Accum (rule
R240). -/
theorem Logged.beginWriter {s : State} (h : Logged s) (hi : Inv s)
    (hm : s.status.main = .idle ∨ s.status.main = .accum) : Logged (beginWriter s) := by
  obtain hm | hm := hm
  · obtain ⟨-, hc, hb, -⟩ := hi.empty hm
    exact logged_of_empty hc hb fun _ => by rw [beginWriter_frameLen, if_pos hm]
  · exact h.of_mem rfl rfl rfl (by simp [hm]) fun _ => .inl hm

theorem Logged.writeFieldRaw {s t : State} (h : Logged s) (hi : Inv s) (hx : execWriteFieldRaw s = .next t) :
    Logged t := by
  obtain ⟨-, rfl⟩ | ⟨ha, hx⟩ := execWriteFieldRaw_eq_next hx
  · exact h.reject
  · have begun := h.beginWriter hi (accepts_writeField.mp (commandAccepted_iff.mp ha).1)
    obtain ⟨e, rfl⟩ | ⟨s1, h1, rfl⟩ := hx
    · exact begun.fail e _
    · have ha := rawField_appends h1
      refine (begun.appendsField ha).completeWriter ?_
      obtain ⟨rf, -, -, -, rfl⟩ := ha
      exact .inr rfl

theorem Logged.writeFieldEnc {s t : State} (h : Logged s) (hi : Inv s) (hx : execWriteFieldEnc s = .next t) :
    Logged t := by
  obtain ⟨-, rfl⟩ | ⟨ha, hx⟩ := execWriteFieldEnc_eq_next hx
  · exact h.reject
  · have begun := h.beginWriter hi (accepts_writeField.mp (commandAccepted_iff.mp ha).1)
    obtain ⟨e, rfl⟩ | ⟨-, hr⟩ := hx
    · exact begun.fail e _
    · have run : LoggedRun { Machine.beginWriter s with fromWd := true } :=
        ⟨begun.of_mem rfl rfl rfl rfl id, fun _ => .inr rfl⟩
      exact run.runSeq hr

theorem Logged.encodePlan {a : BitVec 24} {s t : State} (h : Logged s) (hi : Inv s)
    (hx : execEncodePlan a s = .next t) : Logged t := by
  obtain ⟨-, rfl⟩ | ⟨ha, hx⟩ := execEncodePlan_eq_next hx
  · exact h.reject
  · have begun := h.beginWriter hi (accepts_encodePlan.mp (commandAccepted_iff.mp ha).1)
    have atStart : Logged { Machine.beginWriter s with planPc := 0 } := begun.of_mem rfl rfl rfl rfl id
    obtain ⟨e, rfl⟩ | ⟨-, hr⟩ := hx
    · exact atStart.fail e _
    · exact (atStart.loggedRun rfl).runSeq hr

/-! ### FINALIZE writes the frame and leaves Accum -/

theorem encryptPayload_sameOut {s t : State} (h : encryptPayload s = .ok t) : SameOut s t := by
  obtain ⟨-, rfl⟩ | ⟨ps, n, b, -, -, rfl⟩ := encryptPayload_eq_ok h
  · exact .of_mem rfl rfl rfl
  · exact ⟨rfl, rfl, (sameOut_writeBytes (by decide) ps b).bytes⟩

theorem writeLength_sameOut {s t : State} (h : writeLength s = .ok t) : SameOut s t := by
  obtain ⟨-, rfl⟩ | ⟨f, -, -, rfl⟩ := writeLength_eq_ok h
  · exact .of_mem rfl rfl rfl
  · exact sameOut_writeBytes (by decide) _ _

theorem writeCrc_sameOut {s t : State} (h : writeCrc s = .ok t) : SameOut s t := by
  obtain ⟨-, rfl⟩ | ⟨ci, c, -, -, rfl⟩ := writeCrc_eq_ok h
  · exact .of_mem rfl rfl rfl
  · exact sameOut_writeBytes (by decide) _ _

/-- FINALIZE, accepted, leaves OUT alone and ends in Done or Failed. -/
theorem Logged.finalize {a : BitVec 24} {s t : State} (h : Logged s) (hx : execFinalize a s = .next t) : Logged t := by
  have failed {u : State} (same : SameOut s u) (e : Err) : Logged (failCapsule e noIndex u) :=
    h.congr (same.trans (sameOut_failCapsule e noIndex u)) fun acc =>
      absurd acc (not_accumulating (flagsFailCapsule_main u.status) (by decide))
  obtain ⟨-, rfl⟩ | ⟨-, hx⟩ := execFinalize_eq_next hx
  · exact h.reject
  · have accepted : SameOut s (acceptCommand s) := .of_mem rfl rfl rfl
    obtain ⟨e, rfl⟩ | ⟨s2, h2, hx⟩ := hx
    · exact failed accepted e
    have encrypted := accepted.trans (encryptPayload_sameOut h2)
    obtain ⟨e, rfl⟩ | ⟨s3, h3, hx⟩ := hx
    · exact failed encrypted e
    have measured := encrypted.trans (writeLength_sameOut h3)
    obtain ⟨e, rfl⟩ | ⟨s4, h4, rfl⟩ := hx
    · exact failed measured e
    have summed := measured.trans (writeCrc_sameOut h4)
    exact h.congr (summed.trans (.of_mem rfl rfl rfl)) fun acc =>
      absurd acc (not_accumulating (m := .done) rfl (by decide))

/-! ### The engine commands leave the capsule alone (rule R292) -/

theorem Logged.failEngine {s : State} (h : Logged s) (e : Err) : Logged (failEngine e s) :=
  h.congr (sameOut_failEngine e s) fun acc => ⟨acc, sameFrame_failEngine e s⟩

theorem Logged.crcCalc {a : BitVec 24} {s t : State} (h : Logged s) (hx : execCrcCalc a s = .next t) : Logged t := by
  have accepted : Logged (acceptCommand s) := h.of_mem rfl rfl rfl rfl id
  obtain ⟨-, rfl⟩ | ⟨-, ⟨e, rfl⟩ | ⟨c, -, rfl⟩⟩ := execCrcCalc_eq_next hx
  · exact h.reject
  · exact accepted.failEngine e
  · exact accepted.of_mem rfl rfl rfl rfl id

theorem Logged.crcCompare {a : BitVec 24} {s t : State} (h : Logged s) (hx : execCrcCompare a s = .next t) :
    Logged t := by
  have cleared : Logged (setCrcSwapped false (acceptCommand s)) := h.of_mem rfl rfl rfl rfl id
  have computed (c : BitVec 16) (b : Bytes) : Logged (setCrcResult c b (setCrcSwapped false (acceptCommand s))) :=
    cleared.of_mem rfl rfl rfl rfl id
  obtain ⟨-, rfl⟩ | ⟨-, ⟨e, rfl⟩ | ⟨c, -, ⟨e, rfl⟩ | ⟨swapped, rfl⟩⟩⟩ := execCrcCompare_eq_next hx
  · exact h.reject
  · exact cleared.failEngine e
  · exact (computed c _).failEngine e
  · exact (computed c (crcRender c false)).of_mem rfl rfl rfl rfl id

theorem Logged.cipherCommand {dec : Bool} {s t : State} (h : Logged s) (hx : cipherCommand dec s = .next t) :
    Logged t := by
  have accepted : Logged (acceptCommand s) := h.of_mem rfl rfl rfl rfl id
  obtain ⟨-, rfl⟩ | ⟨-, ⟨e, rfl⟩ | ⟨r, -, -, rfl⟩⟩ := cipherCommand_eq_next hx
  · exact h.reject
  · exact accepted.failEngine e
  · exact accepted.congr ⟨rfl, rfl, (sameOut_writeBytes (by decide) 0 r).bytes⟩ fun acc =>
      ⟨acc, rfl, (sameFrame_writeBytes (by decide) 0 r).bytes⟩

/-- Every command keeps the log. -/
theorem Logged.exec {i : Instr} {s t : State} (h : Logged s) (hi : Inv s) (hd : i.isDescriptor = false)
    (hx : exec i s = .next t) : Logged t := by
  cases i
  case nop a =>
    obtain rfl | rfl := execNop_eq_next (a := a) hx
    · exact h.reject
    · exact h.of_mem rfl rfl rfl rfl id
  case newCapsule a =>
    obtain rfl | rfl := execNewCapsule_eq_next (a := a) hx
    · exact h.reject
    · exact logged_of_empty rfl rfl fun _ => rfl
  case decode a => exact h.decode (a := a) hx
  case writeFieldRaw => exact h.writeFieldRaw hi hx
  case writeFieldEnc => exact h.writeFieldEnc hi hx
  case encodePlan a => exact h.encodePlan (a := a) hi hx
  case finalize a => exact h.finalize (a := a) hx
  case crcCalc a => exact h.crcCalc (a := a) hx
  case crcCompare a => exact h.crcCompare (a := a) hx
  case encrypt a => exact h.cipherCommand hx
  case decrypt a => exact h.cipherCommand hx
  all_goals cases hd

/-! ## The host's moves -/

/-- FRAME and FRAME_LEN are the host's in Idle only (rules R15, R265). -/
theorem Logged.writeReg {s : State} (h : Logged s) (off : Nat) (v : Word) : Logged (writeReg s off v) := by
  obtain hw | ⟨hm, hw⟩ | hw | hw := writeReg_eq s off v
  · exact hw.symm ▸ h
  · rw [hw]
    exact h.congr (.of_mem rfl rfl rfl) fun acc => absurd acc (not_accumulating hm (by decide))
  · rw [hw]
    exact h.of_mem rfl rfl rfl rfl id
  · rw [hw]
    exact h.of_mem rfl rfl rfl rfl id

/-- Whatever a step between two commands does keeps the log. -/
theorem Logged.hostEffect {s t : State} (h : Logged s) (hi : Inv s) (he : HostEffect s t) : Logged t := by
  cases he with
  | none => exact h
  | reset => exact logged_of_empty rfl rfl fun _ => rfl
  | read x =>
    obtain ⟨w, n, hr⟩ := hostRead_eq s x
    rw [hr]
    exact h.of_mem rfl rfl rfl rfl id
  | register off v => exact h.writeReg off v
  | planWord off v =>
    exact h.congr (sameOut_writeBytes (by decide) _ _) fun acc => ⟨acc, sameFrame_writeBytes (by decide) _ _⟩
  | byte sp off b writable idle =>
    have hsp : sp ≠ .out := by
      rintro rfl
      cases writable
    refine h.congr (sameOut_writeBytes hsp _ _) fun acc => ⟨acc, sameFrame_writeBytes (fun hf => ?_) _ _⟩
    exact not_accumulating (idle hf) (by decide) acc
  | reject => exact h.reject
  | command i t hd hx => exact h.exec hi hd hx

end Sys2Proof.Safety

open Sys2Proof Sys2Proof.Machine Sys2Proof.Safety

/-- Settles O4: each effect of a step keeps the log (`Logged.hostEffect`), and `isLog_outAppended` is the read-back of
an appended record. -/
theorem everyStepKeepsTheFieldList : Obligations.EveryStepKeepsTheFieldList := by
  refine ⟨fun s t h hl hs => ?_, fun s rf l hl fits ht => isLog_outAppended hl fits ht⟩
  obtain ⟨rest, he⟩ := step_effect h.status.idle hs
  have logged : Logged { s with inputs := rest } := (hl.logged h.status).of_mem rfl rfl rfl rfl id
  exact (logged.hostEffect (h.hostSide rest s.hostData s.freeCount) he).logInv

end

section
/-! O57: what taking an error leaves in the record, the buffers and the flags. Both ways of taking one write the record
by `recordError`, so what the statement asks of the record is shown of any state that has it (`HasRecord`). -/

namespace Sys2Proof.Machine

open Sys2Proof.Safety

/-- The registers from 0x020 on show nothing of STATUS and of the error record. -/
theorem readReg_of_same_registers {s t : State} (regs : t.regs = s.regs) (frameLen : t.frameLen = s.frameLen)
    (tempLen : t.tempLen = s.tempLen) (outCount : t.outCount = s.outCount) (outBytes : t.outBytes = s.outBytes)
    (planPc : t.planPc = s.planPc) (cbufLen : t.cbufLen = s.cbufLen) (crcValue : t.crcValue = s.crcValue)
    (crcBytes : t.crcBytes = s.crcBytes) {off : Nat} (h : 0x020 ≤ off) : readReg t off = readReg s off := by
  unfold readReg
  split <;> simp_all

/-- A byte of an error buffer that the record does not count is the one from before (log 20). -/
theorem readByte_recordError_of_not_recorded {e : Err} {i : Word} {s : State} {sp : Space} {x : Nat}
    (h : ¬ InErrorBuffers (recordError e i s) sp x) : readByte (recordError e i s) sp x = readByte s sp x := by
  have hexp := take_errbuf_length e.expBytes
  have hact := take_errbuf_length e.actBytes
  have counted : ¬ ((sp = .errExp ∧ x < (e.expBytes.take Config.errbufMax).length) ∨
      (sp = .errAct ∧ x < (e.actBytes.take Config.errbufMax).length)) := by
    rw [InErrorBuffers, recordError_err] at h
    dsimp only at h
    rwa [num_toNat (by omega), num_toNat (by omega)] at h
  rw [readByte_congr (recordError_mem e i s), readByte_writeBytes, if_neg, readByte_writeBytes, if_neg]
  · rintro ⟨rfl, -, hx, -⟩
    exact counted (.inl ⟨rfl, by omega⟩)
  · rintro ⟨rfl, -, hx, -⟩
    exact counted (.inr ⟨rfl, by omega⟩)

/-- `t` is `s` with the error recorded; STATUS and the hidden state apart. -/
structure HasRecord (e : Err) (i : Word) (s t : State) : Prop where
  err : t.err = (recordError e i s).err
  mem : t.mem = (recordError e i s).mem
  registers : ∀ off, 0x020 ≤ off → readReg t off = readReg s off

theorem failCapsule_hasRecord (e : Err) (i : Word) (s : State) : HasRecord e i s (failCapsule e i s) :=
  ⟨rfl, rfl, fun _ => readReg_of_same_registers (s := s) (t := failCapsule e i s) rfl rfl rfl rfl rfl rfl rfl rfl rfl⟩

theorem failEngine_hasRecord (e : Err) (s : State) : HasRecord e noIndex s (failEngine e s) :=
  ⟨rfl, rfl, fun _ => readReg_of_same_registers (s := s) (t := failEngine e s) rfl rfl rfl rfl rfl rfl rfl rfl rfl⟩

/-! ## The registers of the record -/

section

variable {e : Err} {i : Word} {s t : State}

theorem HasRecord.kind (h : HasRecord e i s t) : readReg t 0x008 = errKindWord e := congrArg ErrRecord.kind h.err

theorem HasRecord.index (h : HasRecord e i s t) : readReg t 0x00C = i := congrArg ErrRecord.index h.err

theorem HasRecord.expNum (h : HasRecord e i s t) : readReg t 0x018 = e.expNum := congrArg ErrRecord.expNum h.err

theorem HasRecord.actNum (h : HasRecord e i s t) : readReg t 0x01C = e.actNum := congrArg ErrRecord.actNum h.err

/-- A length of the record is cut to the buffer. -/
theorem num_take_errbuf (b : Bytes) : (num (b.take Config.errbufMax).length).toNat = min b.length 256 := by
  have hb := take_errbuf_length b
  rw [num_toNat (by omega), List.length_take, Nat.min_comm]
  rfl

theorem HasRecord.expLen (h : HasRecord e i s t) : t.err.expLen.toNat = min e.expBytes.length 256 := by
  rw [h.err]
  exact num_take_errbuf e.expBytes

theorem HasRecord.actLen (h : HasRecord e i s t) : t.err.actLen.toNat = min e.actBytes.length 256 := by
  rw [h.err]
  exact num_take_errbuf e.actBytes

/-! ## The buffers of the record -/

theorem HasRecord.expBytes (h : HasRecord e i s t) :
    readBytes t .errExp 0 (min e.expBytes.length 256) = .ok (e.expBytes.take 256) := by
  rw [readBytes_congr_mem h.mem, ← h.expLen, h.err]
  exact (recordError_buffers e i s).1

theorem HasRecord.actBytes (h : HasRecord e i s t) :
    readBytes t .errAct 0 (min e.actBytes.length 256) = .ok (e.actBytes.take 256) := by
  rw [readBytes_congr_mem h.mem, ← h.actLen, h.err]
  exact (recordError_buffers e i s).2

theorem HasRecord.otherBytes (h : HasRecord e i s t) (sp : Space) (x : Nat) (hx : ¬ InErrorBuffers t sp x) :
    readByte t sp x = readByte s sp x := by
  rw [InErrorBuffers, h.err] at hx
  rw [readByte_congr h.mem]
  exact readByte_recordError_of_not_recorded hx

end

/-- A table of kinds and sub-codes that agrees with the taxonomy gives the codes of every error in it. -/
theorem codes_of_mem {table : List (ErrCause × BitVec 8 × BitVec 8)}
    (agrees : ∀ p ∈ table, errKindCode p.1 = p.2.1 ∧ errSubCode p.1 = p.2.2) {c : ErrCause} {kind sub : BitVec 8}
    (h : (c, kind, sub) ∈ table) : errSubCode c ++ errKindCode c = sub ++ kind := by
  obtain ⟨hk, hs⟩ := agrees _ h
  rw [hk, hs]

end Sys2Proof.Machine

open Sys2Proof Sys2Proof.Machine Sys2Proof.Safety

/-- Settles O57, from `HasRecord` for the record and `flagsFailCapsule_eq` for the flags of a failed capsule. -/
theorem errorRecordHoldsTheError : Obligations.ErrorRecordHoldsTheError := by
  intro e s expLen actLen recorded
  have record {i : Word} {t : State} (h : HasRecord e i s t) : recorded i t := by
    refine ⟨h.index, h.expLen, h.actLen, h.expNum, h.actNum, ?ftV, ?ft, ?noFt, h.expBytes, h.actBytes, h.registers,
      h.otherBytes, ?codes⟩
    case ftV => rw [h.kind, errKindWord_ftV]
    case ft =>
      intro ft hft
      rw [h.kind, errKindWord_ft hft]
    case noFt =>
      intro hft
      rw [h.kind, errKindWord_high_of_no_ft hft]
    case codes =>
      intro kind sub hc
      rw [h.kind, errKindWord_codes]
      exact codes_of_mem (by decide) hc
  refine ⟨fun index => ⟨record (failCapsule_hasRecord e index s), ?_⟩, record (failEngine_hasRecord e s), rfl, rfl,
    rfl, rfl, rfl, rfl⟩
  rw [failCapsule_status, flagsFailCapsule_eq]
  exact ⟨rfl, rfl, rfl, rfl, rfl, rfl, rfl, fun hm => ⟨if_pos hm, if_pos hm⟩, fun hm => ⟨if_neg hm, if_neg hm⟩⟩

end

section
/-! O1, O2, O10, O11, O51, O53: reset, the two things a step runs, and what a host move reads and writes. -/

namespace Sys2Proof.Machine

open Sys2Proof.Safety

/-! ## Reset (rules R31, R311) -/

/-- The registers do not show the host's side. -/
theorem readReg_hostReset (s : State) (off : Nat) :
    readReg (hostReset s) off = if off = 0x00C ∨ off = 0x034 then 0xFFFFFFFF else if off = 0x030 then 3 else 0 := by
  unfold readReg
  split
  case h_1 => exact (by decide : statusWord Status.reset = 0)
  case h_49 => simp_all
  all_goals rfl

theorem readByte_hostReset (s : State) (sp : Space) (x : Nat) (b : Byte) : readByte (hostReset s) sp x ≠ .ok b := by
  unfold readByte
  split
  · simp
  · simp [hostReset, State.reset, memGet]

/-! ## What an access designates (rules R40, R41) -/

theorem hostTarget_word_reg {addr : Word} (ha : addr.toNat % 4 = 0) (hr : addr.toNat < 0x100) :
    hostTarget .word addr = some (.reg addr.toNat) := by
  simp [hostTarget, ha, hr]

theorem hostTarget_word_misaligned {addr : Word} (ha : addr.toNat % 4 ≠ 0) : hostTarget .word addr = none := by
  simp [hostTarget, ha]

theorem hostTarget_word_plan {addr : Word} {x : Nat} (ha : addr.toNat = spaceBase .plan + x) (hx : x < spaceSize .plan)
    (h4 : x % 4 = 0) : hostTarget .word addr = some (.planWord x) := by
  have hb : spaceBase .plan = 0x10000 := rfl
  simp only [hostTarget]
  rw [if_neg (by omega), if_neg (by omega), ha, locate_space hx]

theorem hostTarget_byte_of_space {addr : Word} {sp : Space} {x : Nat} (ha : addr.toNat = spaceBase sp + x)
    (hx : x < spaceSize sp) (hp : sp ≠ .plan) : hostTarget .byte addr = some (.byte sp x) := by
  simp only [hostTarget]
  rw [ha, locate_space hx]
  cases sp <;> simp_all

theorem hostTarget_byte_plan {addr : Word} {x : Nat} (ha : addr.toNat = spaceBase .plan + x)
    (hx : x < spaceSize .plan) : hostTarget .byte addr = none := by
  simp only [hostTarget]
  rw [ha, locate_space hx]

/-! ## The moves between two commands -/

section

variable {s : State} {width : Width} {addr v : Word} {rest : List HostMove}

theorem step_read {x : Target} (hb : s.status.busy = false) (hi : s.inputs = .read width addr :: rest)
    (ht : hostTarget width addr = some x) : step s = .next (hostRead { s with inputs := rest } x) := by
  rw [step_input hb hi]
  simp only [hostMove, hb, ht, Bool.false_eq_true, false_and, if_false]

theorem step_read_none (hb : s.status.busy = false) (hi : s.inputs = .read width addr :: rest)
    (ht : hostTarget width addr = none) : step s = .refused (.hostAccess width addr) := by
  rw [step_input hb hi]
  simp only [hostMove, hb, ht, Bool.false_eq_true, false_and, if_false]

theorem step_write (hb : s.status.busy = false) (hi : s.inputs = .write width addr v :: rest) :
    step s = hostWrite exec width addr v { s with inputs := rest } := by
  rw [step_input hb hi]
  simp only [hostMove, hb, Bool.false_eq_true, if_false]

end


/-! ## Writes to memory by their target -/

section

variable {run : Instr → State → Out} {s : State} {width : Width} {addr v : Word} {sp : Space} {off : Nat}

theorem hostWrite_none (ht : hostTarget width addr = none) :
    hostWrite run width addr v s = .refused (.hostAccess width addr) := by
  simp only [hostWrite, ht]

theorem hostWrite_planWord (ht : hostTarget width addr = some (.planWord off)) :
    hostWrite run width addr v s = .next (writeBytes s .plan off (wordBytes v)) := by
  simp only [hostWrite, ht]

theorem hostWrite_byte (ht : hostTarget width addr = some (.byte sp off)) (hw : hostWritable sp = true)
    (hf : sp = .frame → s.status.main = .idle) :
    hostWrite run width addr v s = .next (writeBytes s sp off [v.extractLsb' 0 8]) := by
  simp only [hostWrite, ht]
  rw [if_neg (by simp [hw]), if_neg fun h => h.2 (hf h.1)]

theorem hostWrite_frame (ht : hostTarget width addr = some (.byte .frame off)) (hm : s.status.main ≠ .idle) :
    hostWrite run width addr v s = .next s := by
  simp only [hostWrite, ht]
  rw [if_neg (by decide), if_pos ⟨trivial, hm⟩]

theorem hostWrite_readOnly (ht : hostTarget width addr = some (.byte sp off)) (hw : hostWritable sp = false) :
    hostWrite run width addr v s = .refused (.hostAccess width addr) := by
  simp only [hostWrite, ht]
  rw [if_pos hw]

end

/-! ## One byte and one PLAN word written -/

/-- A host's byte write reaches its byte and no other. -/
theorem writeBytes_byte {s : State} {sp : Space} {x : Nat} (b : Byte) (hx : x < spaceSize sp) :
    readByte (writeBytes s sp x [b]) sp x = .ok b ∧
      ∀ sp' y, ¬ (sp' = sp ∧ y = x) → readByte (writeBytes s sp x [b]) sp' y = readByte s sp' y := by
  refine ⟨?_, fun sp' y hy => ?_⟩
  · rw [readByte_writeBytes, if_pos ⟨rfl, le_refl x, by simp, hx⟩]
    simp
  · rw [readByte_writeBytes, if_neg]
    rintro ⟨hsp, h1, h2, -⟩
    rw [List.length_singleton] at h2
    exact hy ⟨hsp, by omega⟩

/-- A host's PLAN write reaches its word and no other byte. -/
theorem writeBytes_planWord {s : State} {x : Nat} (v : Word) (hx : x < spaceSize .plan) (h4 : x % 4 = 0) :
    readPlanWord (writeBytes s .plan x (wordBytes v)) x = .ok v ∧
      SameOutside s (writeBytes s .plan x (wordBytes v)) .plan x 4 := by
  have hs : spaceSize .plan = 8192 := rfl
  refine ⟨?_, fun sp' y hy => ?_⟩
  · have h : readBytes (writeBytes s .plan x (wordBytes v)) .plan x 4 = .ok (wordBytes v) :=
      readBytes_writeBytes_self (b := wordBytes v) (by rw [wordBytes_length]; omega)
    rw [readPlanWord, h, res_ok_bind, bytesWord_wordBytes, res_pure_eq]
  · rw [readByte_writeBytes, if_neg]
    rintro ⟨hsp, h1, h2, -⟩
    exact hy ⟨hsp, h1, h2⟩

/-! ## A step inside a command (rules R17, R55, R219, R242, R244) -/

/-- At its descriptor the sequencer executes the descriptor's words. -/
theorem seqStep_at_descriptor {s : State} {w : DescWords} (h : AtDescriptor s w) :
    seqStep exec s = runWords exec w s := by
  have hb : ¬ s.status.busy = false := by simp [h.busy]
  obtain hm | hm := h.main <;> obtain ⟨hw, hl, hf⟩ | ⟨hw, rfl⟩ := h.source
  all_goals simp [seqStep, *]

/-- At PLAN_LEN the sequencer ends the plan. -/
theorem seqStep_at_end {s : State} (hb : s.status.busy = true) (hw : s.fromWd = false)
    (hl : s.regs.planLen.toNat ≤ s.planPc.toNat) (hm : s.status.main = .reading ∨ s.status.main = .encoding) :
    seqStep exec s = endOfPlan s := by
  obtain hm | hm := hm <;> simp [seqStep, hb, hw, hm, Nat.not_lt.mpr hl]

end Sys2Proof.Machine

open Sys2Proof Sys2Proof.Machine Sys2Proof.Safety

/-- Settles O1: the reset move is `hostReset`, whose registers and memory are those of `State.reset`. -/
theorem resetLeavesRegistersAndNoMemory : Obligations.ResetLeavesRegistersAndNoMemory := by
  intro s rest hb hi
  exact ⟨hostReset { s with inputs := rest }, step_input hb hi, readReg_hostReset _, readByte_hostReset _⟩

/-- Settles O2: the capsule after reset is empty. -/
theorem invariantsHoldAtReset : Obligations.InvariantsHoldAtReset :=
  ⟨inv_reset, (logged_of_empty rfl rfl fun _ => rfl).logInv⟩

/-- Settles O10: a CMD write presents its word, and a word that decodes is executed. -/
theorem cmdWriteRunsItsCommand : Obligations.CmdWriteRunsItsCommand := by
  intro s w i rest hb hi hw
  rw [step_input hb hi, hostMove_write_cmd exec w (s := { s with inputs := rest }) hb, presentCommand, hw]

/-- Settles O11: with BUSY set the step is the sequencer's. -/
theorem sequencerStepRunsItsDescriptor : Obligations.SequencerStepRunsItsDescriptor := by
  refine ⟨fun s w i h hi => ?descriptor, fun s hb hw hl => ⟨fun hm => ?reading, fun hm => ?encoding⟩⟩
  case descriptor => rw [step_busy h.busy, seqStep_at_descriptor h, runWords, hi]
  case reading => rw [step_busy hb, seqStep_at_end hb hw hl (.inl hm), endOfPlan, if_pos hm]
  case encoding => rw [step_busy hb, seqStep_at_end hb hw hl (.inr hm), endOfPlan, if_neg (by simp [hm])]

/-- Settles O51: a read is `hostRead`, which writes the host's side only (`hostRead_eq`). -/
theorem hostReadsHaveNoEffect : Obligations.HostReadsHaveNoEffect := by
  intro s width addr rest hb hi
  refine ⟨fun t ht => ?_, ?_, ?_⟩
  · cases hx : hostTarget width addr with
    | none =>
      rw [step_read_none hb hi hx] at ht
      cases ht
    | some x =>
      rw [step_read hb hi hx] at ht
      injection ht with ht
      obtain ⟨v, n, hr⟩ := hostRead_eq { s with inputs := rest } x
      exact ⟨v, n, ht.symm.trans hr⟩
  · rintro rfl ha hr
    exact step_read hb hi (hostTarget_word_reg ha hr)
  · rintro sp x b rfl hp ha hx hv hrb
    have hread : hostRead { s with inputs := rest } (.byte sp x) =
        { s with inputs := rest, hostData := b.setWidth 32 } := by
      have h1 : ¬ validLength { s with inputs := rest } sp ≤ x := by
        cases sp <;> exact Nat.not_le.mpr hv
      have h2 : readByte { s with inputs := rest } sp x = .ok b := hrb
      simp only [hostRead, if_neg h1, h2, byteData]
    rw [step_read hb hi (hostTarget_byte_of_space ha hx hp), hread]

/-- Settles O53: where the access leads (`hostTarget`) decides what is written. -/
theorem hostMemoryWrites : Obligations.HostMemoryWrites := by
  intro s width addr v rest hb hi
  refine ⟨?byte, ?planWord, ?refused⟩
  case byte =>
    rintro sp x rfl ha hx
    refine ⟨fun hsp => ?writable, fun ⟨hf, hm⟩ => ?frame, fun hsp => ?readOnly⟩
    case writable =>
      obtain ⟨hp, hw, hf⟩ : sp ≠ .plan ∧ hostWritable sp = true ∧ (sp = .frame → s.status.main = .idle) := by
        obtain hsp | ⟨rfl, hm⟩ := hsp
        · revert hsp
          cases sp <;> simp [hostWritable]
        · exact ⟨by decide, rfl, fun _ => hm⟩
      have written := writeBytes_byte (s := { s with inputs := rest }) (v.extractLsb' 0 8) hx
      exact ⟨_, (step_write hb hi).trans (hostWrite_byte (hostTarget_byte_of_space ha hx hp) hw hf), rfl, written⟩
    case frame =>
      subst hf
      exact (step_write hb hi).trans (hostWrite_frame (hostTarget_byte_of_space ha hx (by decide)) hm)
    case readOnly =>
      rw [step_write hb hi]
      by_cases hp : sp = .plan
      · subst hp
        exact hostWrite_none (hostTarget_byte_plan ha hx)
      · refine hostWrite_readOnly (hostTarget_byte_of_space ha hx hp) ?_
        revert hsp
        cases sp <;> simp [hostWritable]
  case planWord =>
    rintro x rfl ha hx h4
    have written := writeBytes_planWord (s := { s with inputs := rest }) v hx h4
    exact ⟨_, (step_write hb hi).trans (hostWrite_planWord (hostTarget_word_plan ha hx h4)), rfl, written⟩
  case refused =>
    rintro (rfl | ⟨rfl, h4⟩)
    · rw [step_write hb hi, hostWrite_none rfl]
    · rw [step_write hb hi, hostWrite_none (hostTarget_word_misaligned h4)]

end

section
/-! O52: register writes. REG as a table of offsets and values (`registerMap`) turns a write into one entry replaced, so
that what reads back at the written offset and what every other offset reads follow from one fact about tables. -/

namespace Sys2Proof.Machine

/-! ## REG as a table (rule R11) -/

/-- The registers that hold something, in the order of their offsets. -/
def registerMap (s : State) : List (Nat × Word) :=
  [(0x004, statusWord s.status), (0x008, s.err.kind), (0x00C, s.err.index), (0x010, s.err.expLen),
   (0x014, s.err.actLen), (0x018, s.err.expNum), (0x01C, s.err.actNum), (0x020, s.frameLen), (0x024, s.tempLen),
   (0x028, s.outCount), (0x02C, s.outBytes), (0x030, s.regs.capCtrl), (0x034, s.regs.cipherSlot),
   (0x038, s.regs.planLen), (0x03C, s.planPc), (0x040, s.regs.headIdx), (0x044, s.regs.headTag),
   (0x048, s.regs.tailIdx), (0x04C, s.regs.tailTag), (0x050, s.regs.lenCtrl), (0x054, s.regs.lenfStart),
   (0x058, s.regs.lenfEnd), (0x05C, s.regs.lenrStart), (0x060, s.regs.lenrEnd), (0x064, s.regs.crcCtrl),
   (0x068, s.regs.crcIndex), (0x06C, s.regs.crcrStart), (0x070, s.regs.crcrEnd), (0x074, s.regs.payStart),
   (0x078, s.regs.payEnd), (0x07C, s.regs.ciphCtrl), (0x080, s.regs.keyLen), (0x084, s.regs.ivLen),
   (0x088, s.regs.valsPtr), (0x08C, s.regs.wvPtr), (0x090, s.regs.wsPtr), (0x094, s.cbufLen), (0x098, s.crcValue),
   (0x09C, s.crcBytes), (0x0A0, s.regs.cand), (0x0C0, s.regs.wd.w0), (0x0C4, s.regs.wd.w1), (0x0C8, s.regs.wd.w2),
   (0x0CC, s.regs.wd.w3), (0x0D0, s.regs.wd.w4), (0x0D4, s.regs.wd.w5), (0x0D8, s.regs.wd.w6), (0x0DC, s.regs.wd.w7)]

/-- The offsets of the table. -/
def listedOffsets : List Nat :=
  [0x004, 0x008, 0x00C, 0x010, 0x014, 0x018, 0x01C, 0x020, 0x024, 0x028, 0x02C, 0x030, 0x034, 0x038, 0x03C, 0x040,
   0x044, 0x048, 0x04C, 0x050, 0x054, 0x058, 0x05C, 0x060, 0x064, 0x068, 0x06C, 0x070, 0x074, 0x078, 0x07C, 0x080,
   0x084, 0x088, 0x08C, 0x090, 0x094, 0x098, 0x09C, 0x0A0, 0x0C0, 0x0C4, 0x0C8, 0x0CC, 0x0D0, 0x0D4, 0x0D8, 0x0DC]

theorem registerMap_offsets (s : State) : (registerMap s).map Prod.fst = listedOffsets := rfl

/-- CMD, the reserved offsets and what is outside REG read 0 (rules R11, R12). -/
theorem readReg_of_not_listed {s : State} {off : Nat} (h : off ∉ listedOffsets) : readReg s off = 0 := by
  unfold readReg
  split
  case h_49 => rfl
  all_goals exact absurd (by decide) h

/-- A read looks its offset up. -/
theorem readReg_eq_lookup (s : State) (off : Nat) : readReg s off = ((registerMap s).lookup off).getD 0 := by
  by_cases h : off ∈ listedOffsets
  · fin_cases h <;> rfl
  · rw [readReg_of_not_listed h, List.lookup_eq_none_iff.mpr]
    · rfl
    · rintro p hp
      rw [bne_iff_ne]
      rintro rfl
      exact h (registerMap_offsets s ▸ List.mem_map_of_mem hp)

/-- What a write of `v` makes of the value `old` at an offset: masked, cut, as it is, or ignored (rules R15, R21, R23,
R32, R265). -/
def storedValue (s : State) (off : Nat) (v old : Word) : Word :=
  match off with
  | 0x020 => if s.status.main = .idle then atMost Config.frameMax v else old
  | 0x094 => atMost Config.cbufMax v
  | 0x080 | 0x084 => atMost Config.keybufMax v
  | 0x030 | 0x050 => v &&& 0x3
  | 0x044 | 0x04C => v &&& 0x00FFFFFF
  | 0x064 => v &&& 0xF3
  | 0x07C => v &&& 0xFF
  | 0x0A0 => v &&& 0xFFFF
  | 0x034 | 0x038 | 0x040 | 0x048 | 0x054 | 0x058 | 0x05C | 0x060 | 0x068 | 0x06C | 0x070 | 0x074 | 0x078 | 0x088
  | 0x08C | 0x090 | 0x0C0 | 0x0C4 | 0x0C8 | 0x0CC | 0x0D0 | 0x0D4 | 0x0D8 | 0x0DC => v
  | _ => old

/-- The registers that a write may change (rule R11, access RW). -/
def writableOffsets : List Nat :=
  [0x020, 0x030, 0x034, 0x038, 0x040, 0x044, 0x048, 0x04C, 0x050, 0x054, 0x058, 0x05C, 0x060, 0x064, 0x068, 0x06C,
   0x070, 0x074, 0x078, 0x07C, 0x080, 0x084, 0x088, 0x08C, 0x090, 0x094, 0x0A0, 0x0C0, 0x0C4, 0x0C8, 0x0CC, 0x0D0,
   0x0D4, 0x0D8, 0x0DC]

theorem writeReg_of_not_writable {s : State} {off : Nat} (v : Word) (h : off ∉ writableOffsets) :
    writeReg s off v = s := by
  unfold writeReg
  split
  · exact absurd (by decide) h
  · exact absurd (by decide) h
  · unfold writeRegs
    split
    case h_34 => rfl
    all_goals exact absurd (by decide) h

theorem storedValue_of_not_writable {s : State} {off : Nat} (v old : Word) (h : off ∉ writableOffsets) :
    storedValue s off v old = old := by
  unfold storedValue
  split
  case h_36 => rfl
  all_goals exact absurd (by decide) h

/-- A table with the value at one offset replaced. -/
def replaceAt (off : Nat) (f : Word → Word) (l : List (Nat × Word)) : List (Nat × Word) :=
  l.map fun p => if p.1 = off then (p.1, f p.2) else p

theorem lookup_replaceAt (off : Nat) (f : Word → Word) (l : List (Nat × Word)) (x : Nat) :
    (replaceAt off f l).lookup x = if x = off then (l.lookup x).map f else l.lookup x := by
  induction l with
  | nil => simp [replaceAt]
  | cons p r ih =>
    obtain ⟨a, w⟩ := p
    rw [replaceAt] at ih ⊢
    by_cases hx : x = a
    · subst hx
      by_cases ho : x = off <;> simp [ho]
    · have hb : (x == a) = false := beq_false_of_ne hx
      by_cases ho : a = off
      · subst ho
        simp [List.lookup_cons, hb, hx, ih]
      · simp [List.lookup_cons, hb, ho, ih]

/-- A register write replaces one entry of the table. -/
theorem registerMap_writeReg (s : State) (off : Nat) (v : Word) :
    registerMap (writeReg s off v) = replaceAt off (storedValue s off v) (registerMap s) := by
  by_cases h : off ∈ writableOffsets
  · fin_cases h
    · by_cases hm : s.status.main = .idle
      · rw [show storedValue s 0x020 v = fun _ => atMost Config.frameMax v from funext fun _ => if_pos hm,
          show writeReg s 0x020 v = { s with frameLen := atMost Config.frameMax v } from if_pos hm]
        rfl
      · rw [show storedValue s 0x020 v = id from funext fun _ => if_neg hm, show writeReg s 0x020 v = s from if_neg hm]
        rfl
    all_goals rfl
  · rw [writeReg_of_not_writable v h, replaceAt, List.map_congr_left (g := id), List.map_id]
    intro p _
    split
    · rw [storedValue_of_not_writable v _ h]
      rfl
    · rfl

/-- The law of the register map: a write is seen at its own offset only. -/
theorem readReg_writeReg (s : State) (off : Nat) (v : Word) (x : Nat) :
    readReg (writeReg s off v) x = if x = off then storedValue s off v (readReg s off) else readReg s x := by
  by_cases h : off ∈ writableOffsets
  · rw [readReg_eq_lookup, registerMap_writeReg, lookup_replaceAt]
    split
    · rename_i hx
      subst hx
      have listed : ((registerMap s).lookup x).isSome = true := by fin_cases h <;> rfl
      obtain ⟨w, hw⟩ := Option.isSome_iff_exists.mp listed
      rw [readReg_eq_lookup, hw]
      rfl
    · rw [readReg_eq_lookup]
  · rw [writeReg_of_not_writable v h, storedValue_of_not_writable v _ h]
    split
    · rename_i hx
      rw [hx]
    · rfl

/-! ## The write as a step -/

/-- A register write leaves the memory, the flags and the host's moves alone. -/
theorem writeReg_frame (s : State) (off : Nat) (v : Word) :
    (writeReg s off v).mem = s.mem ∧ (writeReg s off v).inputs = s.inputs ∧ (writeReg s off v).status = s.status := by
  obtain hw | ⟨-, hw⟩ | hw | hw := writeReg_eq s off v <;> simp [hw]

theorem step_write_reg {s : State} {addr v : Word} {rest : List HostMove} (hb : s.status.busy = false)
    (hi : s.inputs = .write .word addr v :: rest) (h4 : addr.toNat % 4 = 0) (hr : addr.toNat < 0x100) (h0 : addr ≠ 0) :
    step s = .next (writeReg { s with inputs := rest } addr.toNat v) := by
  have hne : addr.toNat ≠ 0 := fun h => h0 (BitVec.eq_of_toNat_eq h)
  rw [step_write hb hi]
  simp only [hostWrite, hostTarget_word_reg h4 hr]
  rw [if_neg hne]

theorem atMost_toNat {limit : Nat} (v : Word) (h : limit < 2 ^ 32) : (atMost limit v).toNat = min v.toNat limit := by
  unfold atMost
  split
  · rw [num_toNat h]
    omega
  · omega

end Sys2Proof.Machine

open Sys2Proof Sys2Proof.Machine

/-- Settles O52, by the law of the register map (`readReg_writeReg`) and what each offset stores (`storedValue`). -/
theorem registerWritesReadBack : Obligations.RegisterWritesReadBack := by
  intro s addr v rest hb hi h4 hr h0 masks whole limits
  obtain ⟨mem, inputs, status⟩ := writeReg_frame { s with inputs := rest } addr.toNat v
  have readBack := readReg_writeReg { s with inputs := rest } addr.toNat v
  refine ⟨_, step_write_reg hb hi h4 hr h0, mem, inputs, status, fun x hx => ?other, fun p hp ha => ?masked,
    fun ha => ?plain, fun p hp ha => ?cut, fun ha => ?frameLen, fun ha => ?ignored⟩
  case other => exact (readBack x).trans (if_neg hx)
  case masked =>
    rw [readBack, if_pos rfl, ha]
    simp only [masks] at hp
    fin_cases hp <;> rfl
  case plain =>
    rw [readBack, if_pos rfl]
    simp only [whole] at ha
    generalize addr.toNat = a at ha
    fin_cases ha <;> rfl
  case cut =>
    rw [readBack, if_pos rfl, ha]
    simp only [limits] at hp
    fin_cases hp <;> exact atMost_toNat v (by decide)
  case frameLen =>
    rw [readBack, if_pos ha.symm, ha]
    simp only [storedValue]
    split
    · exact atMost_toNat v (by decide)
    · rfl
  case ignored =>
    have listed : ∀ a ∈ writableOffsets, a ∈ masks.map (·.1) ++ whole ++ limits.map (·.1) ++ [0x020] := by decide
    exact writeReg_of_not_writable v fun hw => ha (listed _ hw)

end

section
/-! O43: WRITE_FIELD in its raw form. Its body is decided by the three TBL pointers: all inside TBL, or one past it. -/

namespace Sys2Proof.Machine

open Sys2Proof.Safety

/-- A pointer runs past TBL where its end does (rule R58). -/
theorem ptrOutside_iff {p : Ptr} : ptrOutside p = true ↔ Config.tblMax < p.off + p.len := by simp [ptrOutside]

theorem ptrOutside_eq_false_iff {p : Ptr} : ptrOutside p = false ↔ p.off + p.len ≤ Config.tblMax := by
  simp [ptrOutside]

/-- A string that stands at a pointer of its length is what the pointer reads, and lies inside TBL. -/
theorem inTbl_pointer {s : State} {p : Ptr} {b : Bytes} (h : InTbl s p.off b) (hl : b.length = p.len) :
    ptrOutside p = false ∧ tblStr s p = .ok b := by
  refine ⟨ptrOutside_eq_false_iff.mpr (hl ▸ h.inside), ?_⟩
  rw [tblStr, ← hl]
  exact h.bytes

/-- The raw form with its three pointers inside TBL: the strings as supplied, appended (rule R241). -/
theorem rawField_of_strings {s : State} {b v title : Bytes} (hb : InTbl s (valPtr s.regs.wvPtr).off b)
    (lb : b.length = (valPtr s.regs.wvPtr).len) (hv : InTbl s (valPtr s.regs.wsPtr).off v)
    (lv : v.length = (valPtr s.regs.wsPtr).len) (ht : InTbl s (descFields s.regs.wd).titleOff.toNat title)
    (lt : title.length = (descFields s.regs.wd).titleLen.toNat) :
    rawField s = appendFrame b (fieldRecord (descFields s.regs.wd) b title v) s := by
  obtain ⟨bInside, bRead⟩ := inTbl_pointer hb lb
  obtain ⟨vInside, vRead⟩ := inTbl_pointer hv lv
  obtain ⟨tInside, tRead⟩ := inTbl_pointer (p := titlePtr (descFields s.regs.wd)) ht lt
  simp only [rawField, bInside, vInside, tInside, bRead, vRead, tRead, res_ok_bind]
  rfl

/-- The raw form with a pointer past TBL (rules R58, R241). -/
theorem rawField_of_outside {s : State} (h : ptrOutside (valPtr s.regs.wvPtr) = true ∨
    ptrOutside (valPtr s.regs.wsPtr) = true ∨ ptrOutside (titlePtr (descFields s.regs.wd)) = true) :
    rawField s = raise { cause := .badConfig } := if_pos h

/-- WRITE_FIELD accepted in its raw form is its body on the begun state (rules R240, R241). -/
theorem exec_writeFieldRaw_of_accepted {s : State} (h : Accepted .writeFieldRaw s) :
    exec .writeFieldRaw s = attempt (rawField (beginWriter s)) (fun e => failCapsule e noIndex (beginWriter s))
      fun t => .next (completeWriter t) :=
  if_pos (commandAccepted_of_accepted (by simp [acceptedStates, accepts]) h)

end Sys2Proof.Machine

open Sys2Proof Sys2Proof.Machine Sys2Proof.Safety

/-- Settles O43: the body on the begun state, by `rawField_of_strings` and `rawField_of_outside`; acceptance changes
neither the registers nor TBL. -/
theorem writeFieldRawAppends : Obligations.WriteFieldRawAppends := by
  intro s accepted
  refine ⟨fun b v title hb lb hv lv ht lt frameFits fits => ?appends, fun outside => ?badConfig⟩
  case appends =>
    have begun {off : Nat} {x : Bytes} (h : InTbl s off x) : InTbl (beginWriter s) off x :=
      ⟨h.inside, (readBytes_congr_mem (beginWriter_mem s) .tbl off x.length).trans h.bytes⟩
    have body : rawField (beginWriter s) =
        .ok (frameAppended b (outAppended (fieldRecord (descFields s.regs.wd) b title v) (beginWriter s))) :=
      (rawField_of_strings (begun hb) lb (begun hv) lv (begun ht) lt).trans
        (appendFrame_eq_ok.mpr ⟨frameFits, fits, rfl⟩)
    rw [exec_writeFieldRaw_of_accepted accepted, body]
    rfl
  case badConfig =>
    have body : rawField (beginWriter s) = raise { cause := .badConfig } := rawField_of_outside <| by
      simp only [ptrOutside_iff, beginWriter_regs]
      exact outside
    rw [exec_writeFieldRaw_of_accepted accepted, body]
    rfl

end

section
/-! O23: ENCRYPT. The length of the encryption is that of the padded data for ECB and CBC and that of the data for the
other modes (R152), since every mode maps blocks to strings of the blocks' lengths. -/

namespace Sys2Proof.Machine

open Sys2Proof.Safety

/-! ## Lengths of blocks -/

/-- The blocks' lengths add up to the string's. -/
theorem blocks_lengths_sum (x : Bytes) : ((blocks x).map List.length).sum = x.length := by
  rw [← List.length_flatten, blocks_flatten]

/-- No block is longer than 16 bytes. -/
theorem blocks_length_le (x : Bytes) : ∀ b ∈ blocks x, b.length ≤ 16 := by
  induction hn : x.length using Nat.strong_induction_on generalizing x with
  | _ n ih =>
    by_cases hx : x = []
    · simp [hx]
    · have hp : 0 < x.length := List.length_pos_iff.mpr hx
      rw [blocks_cons hx]
      intro b hb
      obtain rfl | hb := List.mem_cons.mp hb
      · simp
      · exact ih (x.drop 16).length (by simp; omega) (x.drop 16) rfl b hb

/-- A whole number of blocks: 16 bytes each. -/
theorem blocks_count {x : Bytes} (h : x.length % 16 = 0) : 16 * (blocks x).length = x.length := by
  have sixteen : (blocks x).map List.length = (blocks x).map fun _ => 16 :=
    List.map_congr_left (blocks_whole h)
  have := blocks_lengths_sum x
  rw [sixteen] at this
  simp at this
  omega

/-- The pad fills the last block, or is a block of its own (rule R139). -/
theorem pkcs7Pad_length (x : Bytes) : (pkcs7Pad x).length = 16 * (x.length / 16 + 1) := by
  have short : ¬ 255 < 16 - x.length % 16 := by omega
  simp [pkcs7Pad, padBlock, short, placeFill]
  omega

/-! ## Lengths of the modes (rule R152) -/

section

variable (bc : Config.BlockCipher) (key : Bytes)

theorem ecbMap_blockEnc_length {x : Bytes} (h : x.length % 16 = 0) : (ecbMap (blockEnc bc key) x).length = x.length := by
  rw [← blocks_count h, ecbMap, List.length_flatMap]
  simp [blockEnc_length, Nat.mul_comm]

theorem cbcEncBlocks_length (prev : Bytes) (l : List Bytes) : (cbcEncBlocks bc key prev l).length = 16 * l.length := by
  induction l generalizing prev with
  | nil => rfl
  | cons x r ih =>
    simp only [cbcEncBlocks, List.length_append, blockEnc_length, ih, List.length_cons]
    omega

theorem cbcRawEnc_length (iv : Bytes) {x : Bytes} (h : x.length % 16 = 0) :
    (cbcRawEnc bc key iv x).length = x.length := by
  rw [cbcRawEnc, cbcEncBlocks_length, blocks_count h]

/-- A block XORed with a block of the cipher keeps its length. -/
theorem xorBytes_blockEnc_length {x : Bytes} (h : x.length ≤ 16) (b : Bytes) :
    (xorBytes x (blockEnc bc key b)).length = x.length := by
  rw [xorBytes_length, blockEnc_length]
  omega

theorem cfbEncBlocks_length (prev : Bytes) {l : List Bytes} (h : ∀ b ∈ l, b.length ≤ 16) :
    (cfbEncBlocks bc key prev l).length = (l.map List.length).sum := by
  induction l generalizing prev with
  | nil => rfl
  | cons x r ih =>
    obtain ⟨hx, hr⟩ := List.forall_mem_cons.mp h
    simp only [cfbEncBlocks, List.length_append, xorBytes_blockEnc_length bc key hx, ih _ hr, List.map_cons, List.sum_cons]

theorem ofbBlocks_length (prev : Bytes) {l : List Bytes} (h : ∀ b ∈ l, b.length ≤ 16) :
    (ofbBlocks bc key prev l).length = (l.map List.length).sum := by
  induction l generalizing prev with
  | nil => rfl
  | cons x r ih =>
    obtain ⟨hx, hr⟩ := List.forall_mem_cons.mp h
    simp only [ofbBlocks, List.length_append, xorBytes_blockEnc_length bc key hx, ih _ hr, List.map_cons, List.sum_cons]

theorem ctrBlocks_length (ctr : Nat) {l : List Bytes} (h : ∀ b ∈ l, b.length ≤ 16) :
    (ctrBlocks bc key ctr l).length = (l.map List.length).sum := by
  induction l generalizing ctr with
  | nil => rfl
  | cons x r ih =>
    obtain ⟨hx, hr⟩ := List.forall_mem_cons.mp h
    simp only [ctrBlocks, List.length_append, xorBytes_blockEnc_length bc key hx, ih _ hr, List.map_cons, List.sum_cons]

/-- CTS swaps and cuts the last two blocks, and adds nothing (rule R150). -/
theorem ctsEnc_length (iv : Bytes) {data : Bytes} (h : 16 ≤ data.length) :
    (ctsEnc bc key iv data).length = data.length := by
  unfold ctsEnc
  dsimp only
  split
  · rename_i whole
    exact cbcRawEnc_length bc key iv whole
  · have chained : (cbcRawEnc bc key iv (data.take (data.length - data.length % 16))).length
        = data.length - data.length % 16 := by
      have cut : (data.take (data.length - data.length % 16)).length = data.length - data.length % 16 := by simp
      rw [cbcRawEnc_length _ _ _ (by omega), cut]
    simp only [List.length_append, List.length_take, List.length_drop, blockEnc_length, chained]
    omega

end

/-! ## ENC where the preconditions hold (rules R138, R152) -/

/-- The length of ENC's result (rule R152). -/
def encryptedLength (mode : BitVec 8) (n : Nat) : Nat :=
  if mode.toNat = 1 ∨ mode.toNat = 2 then 16 * (n / 16 + 1) else n

/-- The lengths an encryption demands (rule R138). -/
structure EncryptLengths (mode : BitVec 8) (keyLen ivLen dataLen : Nat) : Prop where
  known : mode.toNat ≤ 6
  key : mode.toNat ≠ 0 → keyLen = 16
  iv : 1 < mode.toNat → ivLen = 16
  data : mode.toNat = 6 → 16 ≤ dataLen

theorem EncryptLengths.check {mode : BitVec 8} {k i n : Nat} (h : EncryptLengths mode k i n) :
    cipherCheck mode k i n false = .ok () := by
  obtain ⟨hm, hk, hi, hd⟩ := h
  have zero : mode = 0 ↔ mode.toNat = 0 := by bv_omega
  have one : mode = 1 ↔ mode.toNat = 1 := by bv_omega
  have six : mode = 6 ↔ mode.toNat = 6 := by bv_omega
  unfold cipherCheck
  simp only [zero, one, six, ne_eq]
  rw [if_neg (by omega)]
  split
  · rfl
  · rw [if_neg (by omega), if_neg (by omega), if_neg (by omega), if_neg (by simp)]

/-- Within the preconditions ENC succeeds, with the length of R152's table. -/
theorem cipherEnc_of_lengths (bc : Config.BlockCipher) {mode : BitVec 8} {key iv data : Bytes}
    (h : EncryptLengths mode key.length iv.length data.length) :
    ∃ r, cipherEnc bc mode key iv data = .ok r ∧ r.length = encryptedLength mode data.length := by
  have padded : (pkcs7Pad data).length % 16 = 0 := by
    rw [pkcs7Pad_length]
    omega
  have short := blocks_length_le data
  have sum := blocks_lengths_sum data
  unfold cipherEnc encryptedLength
  rw [h.check]
  have hm := h.known
  have long := h.data
  generalize mode.toNat = m at hm long
  -- modes NONE, ECB, CBC, CFB, OFB, CTR and CTS, in the order of their numbers (rule R74)
  interval_cases m
  · exact ⟨_, rfl, rfl⟩
  · exact ⟨_, rfl, (ecbMap_blockEnc_length bc key padded).trans (pkcs7Pad_length data)⟩
  · exact ⟨_, rfl, (cbcRawEnc_length bc key iv padded).trans (pkcs7Pad_length data)⟩
  · exact ⟨_, rfl, (cfbEncBlocks_length bc key iv short).trans sum⟩
  · exact ⟨_, rfl, (ofbBlocks_length bc key iv short).trans sum⟩
  · exact ⟨_, rfl, (ctrBlocks_length bc key (be iv) short).trans sum⟩
  · exact ⟨_, rfl, ctsEnc_length bc key iv (long rfl)⟩

/-! ## The engine over CBUF (rules R49, R153) -/

/-- ENC does not look at a key with mode NONE, nor at an IV with mode NONE or ECB (rules R138, R142). -/
theorem cipherEnc_ignored_operands (bc : Config.BlockCipher) (mode : BitVec 8) (key iv data : Bytes) :
    cipherEnc bc mode (if mode = 0 then [] else key) (if mode.toNat ≤ 1 then [] else iv) data =
      cipherEnc bc mode key iv data := by
  by_cases none : mode = 0
  · subst none
    simp [cipherEnc, cipherCheck]
  · rw [if_neg none]
    by_cases ecb : mode.toNat ≤ 1
    · have : mode = 1 := by bv_omega
      subst this
      simp [cipherEnc, cipherCheck]
    · rw [if_neg ecb]

/-- The engine's operands, those that the mode does not examine left empty (rules R138, R142). -/
theorem cipherKey_of_operands {s : State} {key iv : Bytes} (h : CipherOperands s key iv) :
    cipherKey s = .ok (if cipherMode s.regs = 0 then [] else key) := by
  unfold cipherKey
  split
  · rfl
  · rename_i hm
    exact h.key hm

theorem cipherIv_of_operands {s : State} {key iv : Bytes} (h : CipherOperands s key iv) :
    cipherIv s = .ok (if (cipherMode s.regs).toNat ≤ 1 then [] else iv) := by
  unfold cipherIv
  split
  · rfl
  · rename_i hm
    exact h.iv (by omega)

/-- Acceptance leaves the operands. -/
theorem cipherOperands_accept {s : State} {key iv : Bytes} (h : CipherOperands s key iv) :
    CipherOperands (acceptCommand s) key iv :=
  ⟨fun hm => (readBytes_congr_mem (acceptCommand_mem s) _ _ _).trans (h.key hm),
    fun hm => (readBytes_congr_mem (acceptCommand_mem s) _ _ _).trans (h.iv hm)⟩

/-- The engine encrypts CBUF with its operands, once the lengths in the registers pass the check (rule R153). -/
theorem cipherCbuf_encrypt {s : State} {key iv data : Bytes} (h : CipherOperands s key iv)
    (hd : readBytes s .cbuf 0 s.cbufLen.toNat = .ok data)
    (hc : EncryptLengths (cipherMode s.regs) s.regs.keyLen.toNat s.regs.ivLen.toNat s.cbufLen.toNat) :
    cipherCbuf s false = liftE (cipherEnc Config.blockCipher (cipherMode s.regs) key iv data) := by
  rw [← cipherEnc_ignored_operands]
  simp only [cipherCbuf, hc.check, cipherKey_of_operands h, cipherIv_of_operands h, hd, liftE_ok, res_ok_bind,
    Bool.false_eq_true, if_false]

/-- ENCRYPT accepted is the engine on the accepted state, and CBUF filled (rule R153). -/
theorem exec_encrypt_of_accepted {a : BitVec 24} {s : State} (h : Accepted (.encrypt a) s) :
    exec (.encrypt a) s =
      attempt (cipherCbuf (acceptCommand s) false >>= fun r => fillCbuf r (acceptCommand s))
        (fun e => failEngine e (acceptCommand s)) fun t => .next (completeCommand t) :=
  if_pos (commandAccepted_of_accepted (by simp [acceptedStates, accepts]) h)

end Sys2Proof.Machine

open Sys2Proof Sys2Proof.Machine Sys2Proof.Safety

/-- Settles O23: ENC succeeds with the length of R152's table (`cipherEnc_of_lengths`), and whether that length fits
CBUF_MAX decides the fill. -/
theorem encryptReplacesTheBuffer : Obligations.EncryptReplacesTheBuffer := by
  intro a s key iv data accepted operands read m n known keyLen ivLen long
  have dataLen : data.length = s.cbufLen.toNat := readBytes_length read
  have keyLength (hm : m ≠ 0) : key.length = 16 := by
    rw [readBytes_length (operands.key (by bv_omega)), keyLen hm]
    rfl
  have ivLength (hm : 1 < m) : iv.length = 16 := by
    rw [readBytes_length (operands.iv hm), ivLen hm]
    rfl
  have registers : EncryptLengths (cipherMode s.regs) s.regs.keyLen.toNat s.regs.ivLen.toNat s.cbufLen.toNat :=
    ⟨known, fun hm => by rw [keyLen hm]; rfl, fun hm => by rw [ivLen hm]; rfl, fun hm => dataLen ▸ long hm⟩
  obtain ⟨r, enc, (len : r.length = n)⟩ :=
    cipherEnc_of_lengths Config.blockCipher (mode := cipherMode s.regs) (data := data) ⟨known, keyLength, ivLength, long⟩
  have engine : cipherCbuf (acceptCommand s) false = .ok r := by
    rw [cipherCbuf_encrypt (cipherOperands_accept operands)
      ((readBytes_congr_mem (acceptCommand_mem s) _ _ _).trans read) registers, acceptCommand_regs, enc, liftE_ok]
  rw [exec_encrypt_of_accepted accepted, engine, res_ok_bind]
  refine ⟨fun fits => ⟨r, enc, len, ?replaced⟩, fun tooLong => ?overflow⟩
  case replaced =>
    rw [fillCbuf_eq_ok.mpr ⟨len ▸ fits, rfl⟩, ← len]
    rfl
  case overflow =>
    rw [fillCbuf, if_pos (len ▸ tooLong), len]
    rfl

end

section
/-! O32: the errors of a descriptor on decode. A descriptor that is legal and applies fails with what the step of R219
it reaches raises: the slice, the value, the append. The tables in TBL that a value may come from are read back here. -/

namespace Sys2Proof.Machine

open Sys2Proof.Safety

/-! ## Legality (rule R71) -/

theorem intType_isSome (ft : FType) : (intType ft).isSome = WellFormed.isIntType ft := by cases ft <;> rfl

/-- The conditions no. 4 to 12 hold of no descriptor exactly where the static checks pass and the symbol has a string. -/
theorem illegalWords_eq_none_iff {k : Kind} {ft : FType} {d : Desc} :
    illegalWords k ft d = none ↔
      WellFormed.descriptor k ft d = true ∧ (d.symEn = true → (Config.symbolTag d.symbol).isSome = true) := by
  have reject (c : Prop) [Decidable c] (n : Nat) (x : Option Nat) :
      (if c then some n else x) = none ↔ ¬ c ∧ x = none := by split <;> simp_all
  unfold illegalWords WellFormed.descriptor
  simp only [reject, intType_isSome, ptrOutside, titlePtr, auxPtr, WellFormed.scaleAllowed, WellFormed.scaleExponentLegal,
    WellFormed.symbolAllowed, WellFormed.directionLegal, WellFormed.defaultAllowed, WellFormed.reservedClear,
    WellFormed.titleInTbl, WellFormed.auxInTbl, Bool.and_eq_true, Bool.or_eq_true, Bool.not_eq_true', decide_eq_true_eq,
    bne_iff_ne, beq_iff_eq, not_and, not_or, Option.isNone_iff_eq_none, Option.isSome_iff_ne_none]
  grind

/-- A descriptor that runs is legal by its words; only an ENUM's table is still to be parsed (rule R71 no. 13). -/
theorem illegalWords_of_runs {s : State} {k : Kind} {ft : FType} {d : Desc} (h : Runs s k ft d) :
    illegalWords k ft d = none := illegalWords_eq_none_iff.mpr ⟨h.legal, h.symbol⟩

theorem illegalCondition_of_words {s : State} {k : Kind} {ft : FType} {d : Desc} (h : illegalWords k ft d = none)
    (hk : k ≠ .enum) : illegalCondition s k ft d = .ok none := by simp [illegalCondition, h, hk]

theorem illegalCondition_of_table {s : State} {ft : FType} {d : Desc} {t : List EnumEntry}
    (h : illegalWords .enum ft d = none) (ht : enumTable s d = .ok (some t)) :
    illegalCondition s .enum ft d = .ok none := by simp [illegalCondition, h, ht]

/-! ## Strings in TBL -/

/-- A string in two parts: each part stands in TBL, the second after the first. -/
theorem inTbl_append {s : State} {p : Nat} {a b : Bytes} (h : InTbl s p (a ++ b)) :
    InTbl s p a ∧ InTbl s (p + a.length) b := by
  obtain ⟨inside, read⟩ := h
  rw [List.length_append] at inside read
  refine ⟨⟨by omega, ?_⟩, ⟨by omega, ?_⟩⟩
  · have := readBytes_part read (i := 0) (k := a.length) (by omega)
    simpa [slice] using this
  · have := readBytes_part read (i := a.length) (k := b.length) (by omega)
    simpa [slice, ← List.length_append] using this

/-- The first byte of a string, and the rest. -/
theorem inTbl_cons {s : State} {p : Nat} {x : Byte} {b : Bytes} (h : InTbl s p (x :: b)) :
    p < Config.tblMax ∧ readByte s .tbl p = .ok x ∧ InTbl s (p + 1) b := by
  obtain ⟨first, rest⟩ := inTbl_append (a := [x]) h
  refine ⟨first.inside, ?_, rest⟩
  simpa using (readBytes_eq_ok_iff.mp first.bytes).2 0 (by simp)

/-- Comparing what stands in TBL with a string. -/
theorem tblEq_of_inTbl {s : State} {p : Nat} {a : Bytes} (h : InTbl s p a) (b : Bytes) :
    tblEq s ⟨p, a.length⟩ b = .ok (a == b) := by
  unfold tblEq tblStr
  split
  · rename_i hl
    have : a ≠ b := fun he => hl (congrArg List.length he)
    simp [this]
  · rw [h.bytes]
    rfl

/-! ## The enum table (rules R76, R203) -/

/-- Where the entries of a table that starts at `p` stand. -/
def enumEntriesAt : Nat → List (Bytes × Bytes) → List EnumEntry
  | _, [] => []
  | p, e :: r =>
    ⟨⟨p + 1, e.1.length⟩, ⟨p + 2 + e.1.length, e.2.length⟩⟩ :: enumEntriesAt (p + 2 + e.1.length + e.2.length) r

/-- The parts of a table's first entry: its two length bytes, its pattern and its label, and the table after it. -/
structure FirstEntry (s : State) (p : Nat) (e : Bytes × Bytes) (r : List (Bytes × Bytes)) : Prop where
  start : p < Config.tblMax
  patLen : readByte s .tbl p = .ok (BitVec.ofNat 8 e.1.length)
  pat : InTbl s (p + 1) e.1
  middle : p + 1 + e.1.length < Config.tblMax
  labelLen : readByte s .tbl (p + 1 + e.1.length) = .ok (BitVec.ofNat 8 e.2.length)
  label : InTbl s (p + 2 + e.1.length) e.2
  rest : InTbl s (p + 2 + e.1.length + e.2.length) (enumImage r)

theorem firstEntry_of_image {s : State} {p : Nat} {e : Bytes × Bytes} {r : List (Bytes × Bytes)}
    (h : InTbl s p (enumImage (e :: r))) : FirstEntry s p e r := by
  have image : enumImage (e :: r) =
      BitVec.ofNat 8 e.1.length :: (e.1 ++ BitVec.ofNat 8 e.2.length :: (e.2 ++ enumImage r)) := by
    simp [enumImage]
  rw [image] at h
  obtain ⟨start, patLen, h⟩ := inTbl_cons h
  obtain ⟨pat, h⟩ := inTbl_append h
  obtain ⟨middle, labelLen, h⟩ := inTbl_cons h
  rw [show p + 1 + e.1.length + 1 = p + 2 + e.1.length by omega] at h
  obtain ⟨label, rest⟩ := inTbl_append h
  exact ⟨start, patLen, pat, middle, labelLen, label, rest⟩

/-- A table that stands in TBL parses as its entries. -/
theorem parseEnum_image {s : State} {p : Nat} {entries : List (Bytes × Bytes)}
    (lengths : ∀ e ∈ entries, e.1.length < 256 ∧ e.2.length < 256) (h : InTbl s p (enumImage entries)) :
    parseEnum s p entries.length = .ok (some (enumEntriesAt p entries)) := by
  induction entries generalizing p with
  | nil => rfl
  | cons e r ih =>
    obtain ⟨⟨hp, hl⟩, hr⟩ := List.forall_mem_cons.mp lengths
    have entry := firstEntry_of_image h
    have patLen : (BitVec.ofNat 8 e.1.length).toNat = e.1.length := Nat.mod_eq_of_lt hp
    have labelLen : (BitVec.ofNat 8 e.2.length).toNat = e.2.length := Nat.mod_eq_of_lt hl
    have fits : ¬ Config.tblMax < p + 2 + e.1.length + e.2.length := Nat.not_lt.mpr entry.label.inside
    simp only [List.length_cons, parseEnum, Nat.not_le.mpr entry.start, Nat.not_le.mpr entry.middle, fits, entry.patLen,
      entry.labelLen, patLen, labelLen, ih hr entry.rest, res_ok_bind, if_false, enumEntriesAt, res_pure_eq]

theorem enumTable_of_hasEnum {s : State} {d : Desc} {entries : List (Bytes × Bytes)} (h : HasEnum s d entries) :
    enumTable s d = .ok (some (enumEntriesAt d.auxOff.toNat entries)) := by
  rw [enumTable, ← h.count]
  exact parseEnum_image h.lengths h.table

/-- The label of the first entry whose pattern is `b`. -/
theorem enumLabel_image {s : State} {p : Nat} {entries : List (Bytes × Bytes)} (h : InTbl s p (enumImage entries))
    (b : Bytes) : enumLabel s b (enumEntriesAt p entries) = .ok ((entries.find? (·.1 == b)).map (·.2)) := by
  induction entries generalizing p with
  | nil => rfl
  | cons e r ih =>
    have entry := firstEntry_of_image h
    rw [enumEntriesAt, enumLabel, tblEq_of_inTbl entry.pat, res_ok_bind, List.find?_cons]
    cases e.1 == b with
    | true => simp [tblStr, entry.label.bytes]
    | false => simpa using ih entry.rest

/-! ## The value of a field (rules R174 to R186, R200 to R203) -/

section

variable {s : State} {d : Desc} {raw : Bytes}

theorem zeroScale_descScale : zeroScale (descScale d) = (d.scaleEn && d.scaleM == 0) := by
  cases h : d.scaleEn <;> simp [zeroScale, descScale, h, ← BitVec.toNat_inj]

theorem effectiveScale_descScale : effectiveScale (descScale d) = ⟨(scaleOf d).1, (scaleOf d).2⟩ := by
  cases h : d.scaleEn <;> simp [effectiveScale, descScale, scaleOf, h]

/-- The integer types decode by one function (rule R174). -/
theorem ftDecodeRaw_integer {ft : FType} {w : Nat} {signed : Bool} (h : (ft, w, signed) ∈ integerTypes)
    (sc : Option Scale) (b : Bytes) : ftDecodeRaw ft sc b = intDecode w signed sc b := by
  simp only [integerTypes, List.mem_cons, Prod.mk.injEq, List.not_mem_nil, or_false] at h
  rcases h with ⟨rfl, rfl, rfl⟩ | ⟨rfl, rfl, rfl⟩ | ⟨rfl, rfl, rfl⟩ | ⟨rfl, rfl, rfl⟩ | ⟨rfl, rfl, rfl⟩ |
    ⟨rfl, rfl, rfl⟩ | ⟨rfl, rfl, rfl⟩ | ⟨rfl, rfl, rfl⟩ <;> rfl

/-- The translator's swap is the statements' (rules R44, R102, R200). -/
theorem swapBytes_eq_swapped (d : Desc) (b : Bytes) : swapBytes d b = swapped d b := rfl

theorem swapped_length (d : Desc) (b : Bytes) : (swapped d b).length = b.length := by
  unfold swapped
  split <;> simp

theorem ftDecodeRaw_decodedText {ft : FType} {b text : Bytes} (h : DecodedText d ft b text) :
    ftDecodeRaw ft (descScale d) b = .ok text := by
  cases h with
  | integer ft w signed b member width scale =>
    have notZero : zeroScale (descScale d) = false := by
      rw [zeroScale_descScale]
      cases he : d.scaleEn <;> simp [he] at scale ⊢
      exact scale
    rw [ftDecodeRaw_integer member, intDecode, if_neg (by simp [width]), if_neg (by simp [notZero]),
      effectiveScale_descScale, ← width]
    rfl
  | bcd b => rfl
  | ascii b small =>
    have none : firstNonAscii b = none := by simpa [firstNonAscii] using small
    simp [ftDecodeRaw, asciiCheck, none]
  | float b width => simp [ftDecodeRaw, f32Bits, width, Except.map]
  | double b width => simp [ftDecodeRaw, f64Bits, width, Except.map]

/-- Where a descriptor gives a field a value, that value is what the translator computes. -/
theorem decodeValue_decodedValue {k : Kind} {ft : FType} {v : Bytes} (h : DecodedValue s d raw k ft v) :
    decodeValue s k ft d (swapped d raw) = .ok v := by
  cases h with
  | convert ft text ht =>
    simp only [decodeValue, convertValue, ftDecode, ftDecodeRaw_decodedText ht, nameType, Except.map, liftE_ok, unitSuffix]
    cases d.symEn <;> simp
  | compare target =>
    have : tblStr s (auxPtr d) = .ok (swapped d raw) := target
    simp [decodeValue, compareValue, this]
  | label entries e table found =>
    simp [decodeValue, enumValue, enumTable_of_hasEnum table, enumLabel_image table.table, found]
  | noLabel entries table none =>
    simp [decodeValue, enumValue, enumTable_of_hasEnum table, enumLabel_image table.table, none]

theorem illegalCondition_of_decodedValue {k : Kind} {ft : FType} {v : Bytes} (h : DecodedValue s d raw k ft v)
    (words : illegalWords k ft d = none) : illegalCondition s k ft d = .ok none := by
  cases h with
  | convert | compare => exact illegalCondition_of_words words (by decide)
  | label _ _ table | noLabel _ table => exact illegalCondition_of_table words (enumTable_of_hasEnum table)

end

/-! ## The errors of a value (rules R174, R183 to R185, R189) -/

section

variable {d : Desc} {b : Bytes}

/-- An error of a type's decoder becomes the error of CONVERT, naming the type. -/
theorem decodeValue_convert_error {s : State} {ft : FType} {e : Err} (h : ftDecodeRaw ft (descScale d) b = .error e) :
    decodeValue s .convert ft d b = raise { e with ft := some ft } := by
  simp [decodeValue, convertValue, ftDecode, h, nameType, Except.map]

theorem ftDecodeRaw_integer_length {ft : FType} {w : Nat} {signed : Bool} (h : (ft, w, signed) ∈ integerTypes)
    (hl : b.length ≠ w) : ftDecodeRaw ft (descScale d) b = .error (lengthErr w b) := by
  rw [ftDecodeRaw_integer h, intDecode, if_pos hl]

theorem ftDecodeRaw_zero_scale {ft : FType} {w : Nat} {signed : Bool} (h : (ft, w, signed) ∈ integerTypes)
    (hl : b.length = w) (he : d.scaleEn = true) (hz : d.scaleM = 0) :
    ftDecodeRaw ft (descScale d) b = .error { cause := .zeroScale } := by
  rw [ftDecodeRaw_integer h, intDecode, if_neg (by simp [hl]), if_pos (by simp [zeroScale_descScale, he, hz])]

theorem ftDecodeRaw_float_length {ft : FType} {w : Nat} (h : (ft, w) ∈ [(FType.float, 4), (FType.double, 8)])
    (hl : b.length ≠ w) : ftDecodeRaw ft (descScale d) b = .error (lengthErr w b) := by
  simp only [List.mem_cons, Prod.mk.injEq, List.not_mem_nil, or_false] at h
  obtain ⟨rfl, rfl⟩ | ⟨rfl, rfl⟩ := h
  · simp [ftDecodeRaw, f32Bits, hl, Except.map, lengthErr, num]
  · simp [ftDecodeRaw, f64Bits, hl, Except.map, lengthErr, num]

theorem ftDecodeRaw_ascii_error {j : Nat} (h : firstNonAscii b = some j) :
    ftDecodeRaw .ascii (descScale d) b = .error { cause := .notAscii, actNum := num j, actBytes := b } := by
  simp [ftDecodeRaw, asciiCheck, h]

end

/-! ## One descriptor on decode (rule R219) -/

section

variable {s : State} {k : Kind} {ft : FType} {d : Desc} {raw title : Bytes}

theorem applies_iff (d : Desc) (r : Regs) : applies d r = true ↔ d.dir &&& capDir r ≠ 0 := by simp [applies]

/-- A legal, applicable descriptor whose slice is no part of TEMP. -/
theorem extractField_range (legal : illegalCondition s k ft d = .ok none) (app : d.dir &&& capDir s.regs ≠ 0)
    (h : d.endIndex.toNat < d.startIndex.toNat ∨ s.tempLen.toNat < d.endIndex.toNat) :
    extractField s k ft d = raise { cause := .range, expNum := s.tempLen, actNum := d.endIndex } := by
  simp only [extractField, legal, res_ok_bind, (applies_iff d s.regs).mpr app, Bool.not_true, Bool.false_eq_true, if_false,
    if_pos h]

/-- A descriptor that is legal and whose field is cut goes on with the field's value, then its record. -/
theorem extractField_of_ready (h : DecodeReady s k ft d raw title) (legal : illegalCondition s k ft d = .ok none) :
    extractField s k ft d =
      decodeValue s k ft d (swapped d raw) >>= fun v => appendOut (fieldRecord d raw title v) s := by
  have inside : ¬ (d.endIndex.toNat < d.startIndex.toNat ∨ s.tempLen.toNat < d.endIndex.toNat) := by
    have := h.order
    have := h.inside
    omega
  have cut : readBytes s .temp d.startIndex.toNat (capacity d) = .ok raw := h.raw
  have named : tblStr s (titlePtr d) = .ok title := h.title
  simp only [extractField, legal, res_ok_bind, (applies_iff d s.regs).mpr h.runs.applies, Bool.not_true,
    Bool.false_eq_true, if_false, if_neg inside, cut, translate, named, swapBytes_eq_swapped]
  cases decodeValue s k ft d (swapped d raw) <;> rfl

/-- An error on decode fails the capsule with the index of the descriptor (rules R14, R290). -/
theorem exec_decode_error {i : Instr} {e : Err} (hi : i.descriptor? = some (k, ft, d)) (h : Decoding s)
    (he : extractField s k ft d = raise e) : exec i s = .next (failCapsule e s.planPc s) := by
  rw [exec_descriptor hi, runDescriptor_reading h.busy h.main, he, raise_eq, attempt_raise, descIndex, if_neg (by simp [h.plan])]

/-- A field of CONVERT that its type does not decode. -/
theorem exec_convert_error {i : Instr} {e : Err} (hi : i.descriptor? = some (.convert, ft, d))
    (h : DecodeReady s .convert ft d raw title) (he : ftDecodeRaw ft (descScale d) (swapped d raw) = .error e) :
    exec i s = .next (failCapsule { e with ft := some ft } s.planPc s) := by
  refine exec_decode_error hi h.decoding ?_
  rw [extractField_of_ready h (illegalCondition_of_words (illegalWords_of_runs h.runs) (by decide)),
    decodeValue_convert_error he]
  rfl

end

end Sys2Proof.Machine

open Sys2Proof Sys2Proof.Machine Sys2Proof.Safety

/-- Settles O32: the slice by `extractField_range`, a value that does not decode by `exec_convert_error`, a record that
does not fit by `appendOut_eq_error`. -/
theorem descriptorErrorsOnDecode : Obligations.DescriptorErrorsOnDecode := by
  intro i k ft d s raw title hi fails
  have len := swapped_length d raw
  refine ⟨fun decoding legal app range => ?range, fun ready hk w signed member => ⟨fun hl => ?length, fun hl he hz => ?scale⟩,
    fun ready hk w member hl => ?float, fun ready hk hf j hj => ?ascii, fun v ready value unfit => ?overflow⟩
  case range => exact exec_decode_error hi decoding (extractField_range legal app range)
  case length =>
    subst hk
    have := exec_convert_error hi ready (ftDecodeRaw_integer_length member (len ▸ hl))
    simpa only [lengthErr, len] using this
  case scale =>
    subst hk
    exact (exec_convert_error hi ready (ftDecodeRaw_zero_scale member (len.trans hl) he hz) :)
  case float =>
    subst hk
    have := exec_convert_error hi ready (ftDecodeRaw_float_length member (len ▸ hl))
    simpa only [lengthErr, len] using this
  case ascii =>
    subst hk hf
    exact (exec_convert_error hi ready (ftDecodeRaw_ascii_error hj) :)
  case overflow =>
    have legal := illegalCondition_of_decodedValue value (illegalWords_of_runs ready.runs)
    refine exec_decode_error hi ready.decoding ?_
    rw [extractField_of_ready ready legal, decodeValue_decodedValue value, res_ok_bind,
      appendOut_eq_error.mpr ⟨unfit, rfl⟩]
    rfl

end

section
/-! O5: with every location written no computation of a command faults (`Faultless`), because each read stays within its
space: the pointers are checked against TBL before they are followed, the lengths are within their capacities, and the
ranges of the frame lie within FRAME_LEN. -/

namespace Sys2Proof.Machine

open Sys2Proof.Safety

/-! ## Computations that do not fault -/

/-- The computation ends in a value or in a `raise`. -/
def Faultless {α : Type} (r : Res α) : Prop := ∀ f, r ≠ .error (.fault f)

section

variable {α β : Type}

theorem Faultless.ok (a : α) : Faultless (.ok a) := by simp [Faultless]

theorem Faultless.pure (a : α) : Faultless (Pure.pure a) := .ok a

theorem Faultless.raise (e : Err) : Faultless (Machine.raise e : Res α) := by simp [Faultless]

theorem Faultless.liftE (x : Except Err α) : Faultless (Machine.liftE x) := liftE_ne_fault x

theorem Faultless.of_exists {r : Res α} (h : ∃ a, r = .ok a) : Faultless r := by
  obtain ⟨a, rfl⟩ := h
  exact .ok a

/-- One part after the other, the second from what the first gave. -/
theorem Faultless.bind {x : Res α} {f : α → Res β} (hx : Faultless x) (hf : ∀ a, x = .ok a → Faultless (f a)) :
    Faultless (x >>= f) := by
  intro e h
  obtain h | ⟨a, ha, h⟩ := res_bind_eq_error.mp h
  · exact hx e h
  · exact hf a ha e h

/-- An attempt ends in a next state where neither its part nor what follows stops. -/
theorem completes_attempt {part : Res α} {onErr : Err → State} {next : α → Out} (h : Faultless part)
    (hn : ∀ a, part = .ok a → Completes (next a)) : Completes (attempt part onErr next) := by
  match part, h, hn with
  | .ok a, _, hn => exact hn a rfl
  | .error (.raise e), _, _ => exact ⟨onErr e, rfl⟩
  | .error (.fault f), h, _ => exact absurd rfl (h f)

end

/-! ## Reads of a fully written machine -/

theorem fullyWritten_of_mem {s t : State} (h : FullyWritten s) (hm : t.mem = s.mem) : FullyWritten t := by
  intro sp i hi
  rw [readByte_congr hm]
  exact h sp i hi

theorem fullyWritten_writeBytes {s : State} (h : FullyWritten s) (sp : Space) (off : Nat) (b : Bytes) :
    FullyWritten (writeBytes s sp off b) := fun q => written_writeBytes_of_written sp off b (h q)

theorem fullyWritten_recordError {s : State} (h : FullyWritten s) (e : Err) (i : Word) :
    FullyWritten (recordError e i s) :=
  fullyWritten_of_mem (fullyWritten_writeBytes (fullyWritten_writeBytes h _ _ _) _ _ _) (recordError_mem e i s)

theorem fullyWritten_failCapsule {s : State} (h : FullyWritten s) (e : Err) (i : Word) :
    FullyWritten (failCapsule e i s) :=
  fullyWritten_of_mem (fullyWritten_recordError h e i) (failCapsule_mem e i s)

theorem fullyWritten_outAppended {s : State} (h : FullyWritten s) (rf : Rawfield) : FullyWritten (outAppended rf s) :=
  fullyWritten_of_mem (fullyWritten_writeBytes h _ _ _) (outAppended_mem rf s)

theorem fullyWritten_frameAppended {s : State} (h : FullyWritten s) (fb : Bytes) : FullyWritten (frameAppended fb s) :=
  fullyWritten_of_mem (fullyWritten_writeBytes h _ _ _) (frameAppended_mem fb s)

theorem fullyWritten_tempFilled {s : State} (h : FullyWritten s) (b : Bytes) : FullyWritten (tempFilled b s) :=
  fullyWritten_of_mem (fullyWritten_writeBytes h _ _ _) (tempFilled_mem b s)

section

variable {s : State} (h : FullyWritten s)

include h

theorem readBytes_of_fullyWritten {sp : Space} {off n : Nat} (fits : off + n ≤ spaceSize sp) :
    ∃ b, readBytes s sp off n = .ok b := readBytes_of_written fun i hi => h sp (off + i) (by omega)

theorem faultless_readBytes {sp : Space} {off n : Nat} (fits : off + n ≤ spaceSize sp) :
    Faultless (readBytes s sp off n) := .of_exists (readBytes_of_fullyWritten h fits)

theorem faultless_tblByte {p : Nat} (inside : p < Config.tblMax) : Faultless (readByte s .tbl p) :=
  .of_exists (h .tbl p inside)

theorem faultless_tblStr {p : Ptr} (inside : ptrOutside p = false) : Faultless (tblStr s p) :=
  faultless_readBytes h (ptrOutside_eq_false_iff.mp inside)

/-! ## The tables in TBL (rules R76, R77) -/

theorem faultless_parseEnum (p n : Nat) : Faultless (parseEnum s p n) := by
  induction n generalizing p with
  | zero => exact .ok _
  | succ n ih =>
    unfold parseEnum
    split
    · exact .ok _
    · refine .bind (faultless_tblByte h (by omega)) fun pl _ => ?_
      dsimp only
      split
      · exact .pure _
      · refine .bind (faultless_tblByte h (by omega)) fun ll _ => ?_
        split
        · exact .pure _
        · refine .bind (ih _) fun r _ => ?_
          cases r <;> exact .pure _

omit h in
/-- Every entry of a parsed enum table lies inside TBL. -/
theorem parseEnum_inside {p n : Nat} {l : List EnumEntry} (hl : parseEnum s p n = .ok (some l)) :
    ∀ e ∈ l, ptrOutside e.pat = false ∧ ptrOutside e.label = false := by
  induction n generalizing p l with
  | zero =>
    simp only [parseEnum, Except.ok.injEq, Option.some.injEq] at hl
    simp [← hl]
  | succ n ih =>
    unfold parseEnum at hl
    split at hl
    · simp at hl
    · obtain ⟨pl, -, hl⟩ := res_bind_eq_ok.mp hl
      dsimp only at hl
      split at hl
      · simp at hl
      · obtain ⟨ll, -, hl⟩ := res_bind_eq_ok.mp hl
        split at hl
        · simp at hl
        · obtain ⟨r, hr, hl⟩ := res_bind_eq_ok.mp hl
          cases r with
          | none => simp at hl
          | some r =>
            simp only [res_pure_eq, Except.ok.injEq, Option.some.injEq] at hl
            subst hl
            refine List.forall_mem_cons.mpr ⟨?_, ih hr⟩
            simp only [ptrOutside_eq_false_iff]
            omega

theorem faultless_tblEq {p : Ptr} (inside : ptrOutside p = false) (b : Bytes) : Faultless (tblEq s p b) := by
  unfold tblEq
  split
  · exact .ok _
  · exact .bind (faultless_tblStr h inside) fun _ _ => .pure _

theorem faultless_enumLabel (b : Bytes) {l : List EnumEntry}
    (inside : ∀ e ∈ l, ptrOutside e.pat = false ∧ ptrOutside e.label = false) : Faultless (enumLabel s b l) := by
  induction l with
  | nil => exact .ok _
  | cons e r ih =>
    obtain ⟨⟨pat, label⟩, rest⟩ := List.forall_mem_cons.mp inside
    refine .bind (faultless_tblEq h pat b) fun found _ => ?_
    split
    · exact .bind (faultless_tblStr h label) fun _ _ => .pure _
    · exact ih rest

theorem faultless_enumPattern (v : Bytes) {l : List EnumEntry}
    (inside : ∀ e ∈ l, ptrOutside e.pat = false ∧ ptrOutside e.label = false) : Faultless (enumPattern s v l) := by
  induction l with
  | nil => exact .ok _
  | cons e r ih =>
    obtain ⟨⟨pat, label⟩, rest⟩ := List.forall_mem_cons.mp inside
    refine .bind (faultless_tblEq h label v) fun found _ => ?_
    split
    · exact .bind (faultless_tblStr h pat) fun _ _ => .pure _
    · exact ih rest

theorem faultless_parseValues (p n : Nat) : Faultless (parseValues s p n) := by
  induction n generalizing p with
  | zero => exact .ok _
  | succ n ih =>
    have size : spaceSize .tbl = Config.tblMax := rfl
    unfold parseValues
    split
    · exact .ok _
    · refine .bind (faultless_readBytes h (by omega)) fun t _ => .bind (faultless_readBytes h (by omega)) fun l _ => ?_
      split
      · exact .pure _
      · refine .bind (ih _) fun r _ => ?_
        cases r <;> exact .pure _

omit h in
/-- Every value-string of a parsed value table lies inside TBL. -/
theorem parseValues_inside {p n : Nat} {l : List ValueEntry} (hl : parseValues s p n = .ok (some l)) :
    ∀ e ∈ l, ptrOutside e.value = false := by
  induction n generalizing p l with
  | zero =>
    simp only [parseValues, Except.ok.injEq, Option.some.injEq] at hl
    simp [← hl]
  | succ n ih =>
    unfold parseValues at hl
    split at hl
    · simp at hl
    · obtain ⟨t, -, hl⟩ := res_bind_eq_ok.mp hl
      obtain ⟨len, -, hl⟩ := res_bind_eq_ok.mp hl
      split at hl
      · simp at hl
      · obtain ⟨r, hr, hl⟩ := res_bind_eq_ok.mp hl
        cases r with
        | none => simp at hl
        | some r =>
          simp only [res_pure_eq, Except.ok.injEq, Option.some.injEq] at hl
          subst hl
          refine List.forall_mem_cons.mpr ⟨?_, ih hr⟩
          simp only [ptrOutside_eq_false_iff]
          omega

theorem faultless_lookupValue (tag : Nat) {l : List ValueEntry} (inside : ∀ e ∈ l, ptrOutside e.value = false) :
    Faultless (lookupValue s tag l) := by
  unfold lookupValue
  split
  · exact .ok _
  · rename_i e found
    exact .bind (faultless_tblStr h (inside e (List.mem_of_find?_eq_some found))) fun _ _ => .pure _

end

/-! ## One descriptor (rules R71, R200 to R206, R219, R244) -/

/-- The TBL pointers of a legal descriptor that its execution follows: the title, the target of COMPARE, and a default,
which only CONVERT has. -/
structure LegalPointers (k : Kind) (d : Desc) : Prop where
  title : ptrOutside (titlePtr d) = false
  target : k = .compare → ptrOutside (auxPtr d) = false
  default : d.defEn = true → ptrOutside (auxPtr d) = false

theorem legalPointers_of_words {k : Kind} {ft : FType} {d : Desc} (h : illegalWords k ft d = none) :
    LegalPointers k d := by
  obtain ⟨legal, -⟩ := illegalWords_eq_none_iff.mp h
  simp only [WellFormed.descriptor, WellFormed.titleInTbl, WellFormed.auxInTbl, WellFormed.defaultAllowed,
    Bool.and_eq_true, Bool.or_eq_true, Bool.not_eq_true', decide_eq_true_eq] at legal
  obtain ⟨⟨⟨⟨-, default⟩, -⟩, title⟩, aux⟩ := legal
  refine ⟨ptrOutside_eq_false_iff.mpr title, fun hk => ptrOutside_eq_false_iff.mpr ?_,
    fun hd => ptrOutside_eq_false_iff.mpr ?_⟩
  · simpa [hk, auxPtr] using aux
  · have hk : k = .convert := by simpa [hd] using default
    simpa [hk, hd, auxPtr] using aux

theorem legalPointers_of_condition {s : State} {k : Kind} {ft : FType} {d : Desc}
    (h : illegalCondition s k ft d = .ok none) : LegalPointers k d := by
  unfold illegalCondition at h
  split at h
  · simp at h
  · rename_i words
    exact legalPointers_of_words words

theorem faultless_appendOut (rf : Rawfield) (s : State) : Faultless (appendOut rf s) := by
  intro f h
  simp [appendOut_eq_error] at h

theorem faultless_appendFrame (fb : Bytes) (rf : Rawfield) (s : State) : Faultless (appendFrame fb rf s) :=
  appendFrame_ne_fault fb rf s

section

variable {s : State} (h : FullyWritten s) {k : Kind} {d : Desc}

include h

theorem faultless_enumTable (d : Desc) : Faultless (enumTable s d) := faultless_parseEnum h _ _

theorem faultless_illegalCondition (k : Kind) (ft : FType) (d : Desc) : Faultless (illegalCondition s k ft d) := by
  unfold illegalCondition
  split
  · exact .ok _
  · split
    · refine .bind (faultless_enumTable h d) fun t _ => ?_
      cases t <;> exact .pure _
    · exact .ok _

theorem faultless_decodeValue (legal : LegalPointers k d) (ft : FType) (b : Bytes) :
    Faultless (decodeValue s k ft d b) := by
  cases k with
  | convert => exact .liftE _
  | compare =>
    refine .bind (faultless_tblStr h (legal.target rfl)) fun target _ => ?_
    split
    · exact .raise _
    · exact .pure _
  | enum =>
    refine .bind (faultless_enumTable h d) fun t ht => ?_
    cases t with
    | none => exact .pure _
    | some t =>
      refine .bind (faultless_enumLabel h b (parseEnum_inside ht)) fun l _ => ?_
      cases l <;> exact .pure _

theorem faultless_translate (legal : LegalPointers k d) (ft : FType) (raw : Bytes) :
    Faultless (translate s k ft d raw) :=
  .bind (faultless_decodeValue h legal ft _) fun _ _ => .bind (faultless_tblStr h legal.title) fun _ _ => .pure _

theorem faultless_extractField (temp : s.tempLen.toNat ≤ Config.frameMax) (k : Kind) (ft : FType) (d : Desc) :
    Faultless (extractField s k ft d) := by
  have size : spaceSize .temp = Config.frameMax := rfl
  refine .bind (faultless_illegalCondition h k ft d) fun c hc => ?_
  cases c with
  | some n => exact .raise _
  | none =>
    have legal := legalPointers_of_condition hc
    dsimp only
    split
    · exact .pure _
    · split
      · exact .raise _
      · have cut : d.startIndex.toNat + capacity d ≤ spaceSize .temp := by
          unfold capacity
          omega
        exact .bind (faultless_readBytes h cut) fun raw _ =>
          .bind (faultless_translate h legal ft raw) fun rf _ => faultless_appendOut rf s

omit h in
theorem faultless_checkCapacity (d : Desc) (b : Bytes) : Faultless (checkCapacity d b) := by
  unfold checkCapacity
  split
  · exact .raise _
  · exact .ok _

theorem faultless_enumEncode (d : Desc) (v : Bytes) : Faultless (enumEncode s d v) := by
  refine .bind (faultless_enumTable h d) fun t ht => ?_
  cases t
  case' none => refine .bind (.pure _) fun found _ => ?_
  case' some t => refine .bind (faultless_enumPattern h v (parseEnum_inside ht)) fun found _ => ?_
  all_goals
    cases found with
    | some p => exact .bind (faultless_checkCapacity d p) fun _ _ => .pure _
    | none =>
      dsimp only
      split
      · exact .bind (faultless_checkCapacity d _) fun _ _ => .pure _
      · exact .raise _

theorem faultless_encodeValue (legal : LegalPointers k d) (ft : FType) (v : Bytes) :
    Faultless (encodeValue s k ft d v) := by
  cases k with
  | convert => exact .liftE _
  | compare =>
    exact .bind (faultless_tblStr h (legal.target rfl)) fun target _ =>
      .bind (faultless_checkCapacity d target) fun _ _ => .pure _
  | enum => exact faultless_enumEncode h d v

theorem faultless_encodeField (legal : LegalPointers k d) (ft : FType) (v : Bytes) :
    Faultless (encodeField s k ft d v) := by
  unfold encodeField
  split
  · exact .raise _
  · exact .bind (faultless_encodeValue h legal ft v) fun _ _ =>
      .bind (faultless_tblStr h legal.title) fun _ _ => .pure _

theorem faultless_valueTable : Faultless (valueTable s) := faultless_parseValues h _ _

theorem faultless_valueFor (legal : LegalPointers k d) : Faultless (valueFor s k d) := by
  unfold valueFor
  split
  · exact .ok _
  · refine .bind (faultless_valueTable h) fun t ht => ?_
    cases t
    case' none => refine .bind (.raise _) fun found _ => ?_
    case' some t => refine .bind (faultless_lookupValue h _ (parseValues_inside ht)) fun found _ => ?_
    all_goals
      cases found with
      | some v => exact .pure _
      | none =>
        dsimp only
        split
        · rename_i hd
          exact .bind (faultless_tblStr h (legal.default hd)) fun _ _ => .pure _
        · split
          · exact .raise _
          · exact .pure _

/-- The value-string: that of WV_PTR has been checked against TBL before the write descriptor runs (rule R242). -/
theorem faultless_suppliedValue (legal : LegalPointers k d)
    (value : s.fromWd = true → ptrOutside (valPtr s.regs.wvPtr) = false) : Faultless (suppliedValue s k d) := by
  unfold suppliedValue
  split
  · rename_i hw
    split
    · exact .ok _
    · exact .bind (faultless_tblStr h (value hw)) fun _ _ => .pure _
  · exact faultless_valueFor h legal

theorem faultless_emitField (value : s.fromWd = true → ptrOutside (valPtr s.regs.wvPtr) = false) (k : Kind) (ft : FType)
    (d : Desc) : Faultless (emitField s k ft d) := by
  refine .bind (faultless_illegalCondition h k ft d) fun c hc => ?_
  cases c with
  | some n => exact .raise _
  | none =>
    have legal := legalPointers_of_condition hc
    dsimp only
    split
    · exact .pure _
    · refine .bind (faultless_suppliedValue h legal value) fun v _ => ?_
      cases v with
      | none => exact .pure _
      | some v =>
        exact .bind (faultless_encodeField h legal ft v) fun p _ => faultless_appendFrame p.1 p.2 s

end

end Sys2Proof.Machine
end

section
/-! O5, the plan: a running command goes on from every step of the sequencer until BUSY falls, with every location still
written and STATUS as it was (`Executable`). -/

namespace Sys2Proof.Machine

open Sys2Proof.Safety

/-! ## Lengths and ranges of the frame (rules R98, R220, R221) -/

theorem regRange_bounds {n : Nat} {x y : Word} {a b : Nat} (h : regRange n x y = .ok (a, b)) : a ≤ b ∧ b ≤ n := by
  rw [regRange, liftE_eq_ok] at h
  obtain ⟨a', b', hr, bounds⟩ | hr := range_cases n (s32 x) (s32 y)
  · rw [hr, Except.ok.injEq, Prod.mk.injEq] at h
    omega
  · rw [hr] at h
    cases h

theorem faultless_regRange (n : Nat) (x y : Word) : Faultless (regRange n x y) := .liftE _

theorem faultless_lengthField (s : State) : Faultless (lengthField s) := by
  refine .bind (faultless_regRange _ _ _) fun _ _ => ?_
  dsimp only
  split
  · exact .raise _
  · exact .bind (faultless_regRange _ _ _) fun _ _ => .pure _

theorem lengthField_bounds {s : State} {f : LengthField} (h : lengthField s = .ok f) :
    f.start ≤ f.stop ∧ f.stop ≤ s.frameLen.toNat := by
  obtain ⟨⟨ls, le⟩, hl, h⟩ := res_bind_eq_ok.mp h
  dsimp only at h
  split at h
  · simp at h
  · obtain ⟨⟨rs, re⟩, -, h⟩ := res_bind_eq_ok.mp h
    simp only [res_pure_eq, Except.ok.injEq] at h
    subst h
    exact regRange_bounds hl

theorem faultless_crcFieldIndex (s : State) : Faultless (crcFieldIndex s) := by
  unfold crcFieldIndex
  dsimp only
  split
  · exact .raise _
  · exact .ok _

theorem crcFieldIndex_bound {s : State} {i : Nat} (h : crcFieldIndex s = .ok i) : i + 2 ≤ s.frameLen.toNat := by
  unfold crcFieldIndex at h
  dsimp only at h
  split at h
  · simp at h
  · simp only [Except.ok.injEq] at h
    omega

theorem clamp_le (n : Nat) (i : Int) : clamp n i ≤ n := by
  unfold clamp
  omega

/-! ## The checks around the plan (rules R217 to R222) -/

section

variable {s : State} (store : StoreInv s) (h : FullyWritten s)

include store h

/-- A part of the frame. -/
theorem faultless_frameBytes {off n : Nat} (inside : off + n ≤ s.frameLen.toNat) :
    Faultless (readBytes s .frame off n) :=
  have size : spaceSize .frame = Config.frameMax := rfl
  have := store.lengths.frame
  faultless_readBytes h (by omega)

theorem faultless_tagCheck (idxReg tagReg : Word) (c : ErrCause) : Faultless (tagCheck s idxReg tagReg c) := by
  unfold tagCheck
  dsimp only
  split
  · exact .raise _
  · rename_i checked
    have inside : ptrOutside (tagPtr tagReg) = false := by simpa using fun ho => checked (.inr ho)
    have lo := clamp_le s.frameLen.toNat (idx s.frameLen.toNat (s32 idxReg))
    have hi := clamp_le s.frameLen.toNat (idx s.frameLen.toNat (s32 idxReg) + (tagPtr tagReg).len)
    refine .bind (faultless_tblStr h inside) fun tag _ =>
      .bind (faultless_frameBytes store h (by omega)) fun actual _ => ?_
    split
    · exact .raise _
    · exact .pure _

theorem faultless_checkHead : Faultless (checkHead s) := by
  unfold checkHead
  split
  · exact .raise _
  · exact faultless_tagCheck store h _ _ _

theorem faultless_cipherKey : Faultless (cipherKey s) := by
  unfold cipherKey
  split
  · exact .ok _
  · have size : spaceSize .keybuf = Config.keybufMax := rfl
    have := store.regs.keyLen
    exact faultless_readBytes h (by omega)

theorem faultless_cipherIv : Faultless (cipherIv s) := by
  unfold cipherIv
  split
  · exact .ok _
  · have size : spaceSize .ivbuf = Config.keybufMax := rfl
    have := store.regs.ivLen
    exact faultless_readBytes h (by omega)

theorem faultless_decryptFrame {ps pe : Nat} (order : ps ≤ pe) (inside : pe ≤ s.frameLen.toNat) :
    Faultless (decryptFrame s ps pe) :=
  .bind (.liftE _) fun _ _ => .bind (faultless_cipherKey store h) fun _ _ => .bind (faultless_cipherIv store h) fun _ _ =>
    .bind (faultless_frameBytes store h (by omega)) fun _ _ => .liftE _

theorem faultless_encryptFrame {ps pe : Nat} (order : ps ≤ pe) (inside : pe ≤ s.frameLen.toNat) :
    Faultless (encryptFrame s ps pe) :=
  .bind (.liftE _) fun _ _ => .bind (faultless_cipherKey store h) fun _ _ => .bind (faultless_cipherIv store h) fun _ _ =>
    .bind (faultless_frameBytes store h (by omega)) fun _ _ => .liftE _

omit store h in
theorem faultless_fillTemp (b : Bytes) (s : State) : Faultless (fillTemp b s) := by
  unfold fillTemp
  split
  · exact .raise _
  · exact .ok _

theorem faultless_loadTemp : Faultless (loadTemp s) := by
  unfold loadTemp
  dsimp only
  split
  · refine .bind (faultless_regRange _ _ _) fun ⟨ps, pe⟩ hr => ?_
    obtain ⟨order, inside⟩ := regRange_bounds hr
    exact .bind (faultless_decryptFrame store h order inside) fun _ _ =>
      .bind (faultless_frameBytes store h (by omega)) fun _ _ =>
      .bind (faultless_frameBytes store h (by omega)) fun _ _ => faultless_fillTemp _ s
  · exact .bind (faultless_frameBytes store h (by omega)) fun _ _ => faultless_fillTemp _ s

theorem faultless_checkLength : Faultless (checkLength s) := by
  unfold checkLength
  split
  · refine .bind (faultless_lengthField s) fun f hf => ?_
    obtain ⟨order, inside⟩ := lengthField_bounds hf
    refine .bind (faultless_frameBytes store h (by omega)) fun stored _ => ?_
    dsimp only
    generalize be _ = value
    split
    · exact .raise _
    · exact .pure _
  · exact .ok _

theorem faultless_checkCrc : Faultless (checkCrc s) := by
  unfold checkCrc
  split
  · refine .bind (faultless_regRange _ _ _) fun ⟨cs, ce⟩ hr => ?_
    obtain ⟨order, inside⟩ := regRange_bounds hr
    refine .bind (faultless_crcFieldIndex s) fun ci hc => ?_
    have field := crcFieldIndex_bound hc
    exact .bind (.liftE _) fun _ _ => .bind (faultless_frameBytes store h (by omega)) fun _ _ =>
      .bind (faultless_frameBytes store h (by omega)) fun _ _ => .liftE _
  · exact .ok _

end

/-- After the last descriptor DECODE ends, in Done or Failed (rules R220 to R223). -/
theorem completes_finishDecode {s : State} (running : Running s) (hm : s.status.main = .reading) (h : FullyWritten s) :
    Completes (finishDecode s) := by
  have checking : Running (setReader .expectChecksum s) := running.setReader hm (by decide)
  have written : FullyWritten (setReader .expectChecksum s) := fullyWritten_of_mem h rfl
  refine completes_attempt (faultless_checkLength checking.store written) fun _ _ =>
    completes_attempt (faultless_checkCrc checking.store written) fun swapped _ => ?_
  have tail : Running (setReader .expectTail (setCrcSwapped swapped (setReader .expectChecksum s))) :=
    (checking.setCrcSwapped swapped).setReader hm (by decide)
  exact completes_attempt (faultless_tagCheck tail.store (fullyWritten_of_mem h rfl) _ _ _) fun _ _ => ⟨_, rfl⟩

theorem completes_endOfPlan {s : State} (running : Running s) (h : FullyWritten s) : Completes (endOfPlan s) := by
  unfold endOfPlan
  split
  · rename_i hm
    exact completes_finishDecode running hm h
  · exact ⟨_, rfl⟩

/-! ## A step of the sequencer (rules R17, R55, R219, R244) -/

theorem readPlanWord_of_fullyWritten {s : State} (h : FullyWritten s) {off : Nat} (fits : off + 4 ≤ spaceSize .plan) :
    ∃ w, readPlanWord s off = .ok w := by
  obtain ⟨b, hb⟩ := readBytes_of_fullyWritten h fits
  exact ⟨bytesWord b, by rw [readPlanWord, hb]; rfl⟩

/-- A descriptor of the plan is fetched whole. -/
theorem fetchPlan_of_fullyWritten {s : State} (h : FullyWritten s) {k : Nat} (hk : k < Config.planMax) :
    ∃ w, fetchPlan s k = .ok w := by
  have size : spaceSize .plan = Config.planMax * 32 := rfl
  have word (i : Nat) (hi : i ≤ 28) := readPlanWord_of_fullyWritten h (off := 32 * k + i) (by omega)
  obtain ⟨w0, h0⟩ := word 0 (by omega)
  obtain ⟨w1, h1⟩ := word 4 (by omega)
  obtain ⟨w2, h2⟩ := word 8 (by omega)
  obtain ⟨w3, h3⟩ := word 12 (by omega)
  obtain ⟨w4, h4⟩ := word 16 (by omega)
  obtain ⟨w5, h5⟩ := word 20 (by omega)
  obtain ⟨w6, h6⟩ := word 24 (by omega)
  obtain ⟨w7, h7⟩ := word 28 (by omega)
  exact ⟨⟨w0, w1, w2, w3, w4, w5, w6, w7⟩, by
    rw [Nat.add_zero] at h0
    simp only [fetchPlan, h0, h1, h2, h3, h4, h5, h6, h7, res_ok_bind, res_pure_eq]⟩

/-- A command under way on a fully written machine; the value pointer of WRITE_FIELD has been checked (rule R242). -/
structure Executable (s : State) : Prop extends InPlan s where
  written : FullyWritten s
  direction : s.status.main = .reading ∨ s.status.main = .encoding
  value : s.fromWd = true → ptrOutside (valPtr s.regs.wvPtr) = false

theorem Executable.completes_runDescriptor {s : State} (h : Executable s) (k : Kind) (ft : FType) (d : Desc) :
    Completes (runDescriptor k ft d s) := by
  obtain hm | hm := h.direction
  · rw [runDescriptor_reading h.busy hm]
    exact completes_attempt (faultless_extractField h.written h.store.lengths.temp k ft d) fun _ _ => ⟨_, rfl⟩
  · rw [runDescriptor_encoding h.busy hm]
    exact completes_attempt (faultless_emitField h.written h.value k ft d) fun _ _ => ⟨_, rfl⟩

theorem Executable.completes_runWords {s : State} (h : Executable s) (w : DescWords) : Completes (runWords exec w s) := by
  obtain ⟨e, -, hw⟩ | ⟨i, k, ft, d, -, -, hw⟩ := runWords_eq w s
  · exact ⟨_, hw⟩
  · exact hw ▸ h.completes_runDescriptor k ft d

theorem Executable.completes_seqStep {s : State} (h : Executable s) : Completes (seqStep exec s) := by
  obtain ⟨hw, -⟩ | ⟨hw, -, planLen⟩ := h.source
  · rw [seqStep_at_descriptor ⟨h.busy, h.direction, .inr ⟨hw, rfl⟩⟩]
    exact h.completes_runWords _
  · by_cases hl : s.planPc.toNat < s.regs.planLen.toNat
    · obtain ⟨w, fetched⟩ := fetchPlan_of_fullyWritten h.written (Nat.lt_of_lt_of_le hl planLen)
      rw [seqStep_at_descriptor ⟨h.busy, h.direction, .inl ⟨hw, hl, fetched⟩⟩]
      exact h.completes_runWords w
    · rw [seqStep_at_end h.busy hw (Nat.le_of_not_lt hl) h.direction]
      exact completes_endOfPlan h.toRunning h.written

/-! ## What a step leaves as it was -/

/-- What was written stays written; while the command goes on, so do STATUS and the source of its descriptors. -/
structure GoesOn (s t : State) : Prop where
  written : FullyWritten s → FullyWritten t
  same : t.status.busy = true → t.status = s.status ∧ t.fromWd = s.fromWd

theorem goesOn_failCapsule (e : Err) (i : Word) (s : State) : GoesOn s (failCapsule e i s) :=
  ⟨fun h => fullyWritten_failCapsule h e i, by simp⟩

/-- After a descriptor that left STATUS and the source alone. -/
theorem goesOn_advance {s t : State} (written : FullyWritten s → FullyWritten t) (status : t.status = s.status)
    (fromWd : t.fromWd = s.fromWd) : GoesOn s (advance t) where
  written := fun h => fullyWritten_of_mem (written h) (advance_mem t)
  same := by
    cases hw : t.fromWd with
    | true => simp [hw, flagsComplete]
    | false => simp [advance, hw, status, ← fromWd]

theorem goesOn_runDescriptor {s t : State} {k : Kind} {ft : FType} {d : Desc} (h : runDescriptor k ft d s = .next t) :
    GoesOn s t := by
  obtain ⟨-, ⟨-, ⟨s1, h1, rfl⟩ | ⟨e, -, rfl⟩⟩ | ⟨-, ⟨s1, h1, rfl⟩ | ⟨e, -, rfl⟩⟩⟩ := runDescriptor_eq_next h
  · obtain ⟨-, ⟨-, rfl⟩ | ⟨raw, rf, -, -, -, -, -, -, rfl⟩⟩ := extractField_eq_ok h1
    · exact goesOn_advance id rfl rfl
    · exact goesOn_advance (fullyWritten_outAppended · rf) rfl rfl
  · exact goesOn_failCapsule _ _ _
  · obtain ⟨-, ⟨-, rfl⟩ | ⟨v, fb, rf, -, -, -, -, -, -, rfl⟩⟩ := emitField_eq_ok h1
    · exact goesOn_advance id rfl rfl
    · exact goesOn_advance (fun hs => fullyWritten_frameAppended (fullyWritten_outAppended hs rf) fb) rfl rfl
  · exact goesOn_failCapsule _ _ _

theorem goesOn_runWords {s t : State} {w : DescWords} (h : runWords exec w s = .next t) : GoesOn s t := by
  obtain ⟨e, -, hw⟩ | ⟨i, k, ft, d, -, -, hw⟩ := runWords_eq w s
  · rw [hw] at h
    injection h with h
    exact h ▸ goesOn_failCapsule _ _ _
  · exact goesOn_runDescriptor (hw ▸ h)

/-- The command goes on from a step, or has ended. -/
theorem Executable.seqStep {s t : State} (h : Executable s) (hs : seqStep exec s = .next t)
    (busy : t.status.busy = true) : Executable t := by
  have inPlan : InPlan t := by
    obtain ended | ⟨inPlan, -⟩ := h.toInPlan.seqStep hs
    · simp [ended.status.idle] at busy
    · exact inPlan
  have goesOn : GoesOn s t := by
    obtain ⟨-, -, ⟨-, hw⟩ | ⟨-, -, w, -, hw⟩ | ⟨-, -, e, -, rfl⟩ | ⟨hw, -, he⟩⟩ := seqStep_eq_next hs
    · exact goesOn_runWords hw
    · exact goesOn_runWords hw
    · exact goesOn_failCapsule _ _ _
    · simp [(h.toInPlan.endOfPlan hw he).status.idle] at busy
  obtain ⟨regs, -⟩ := seqStep_sameHostState hs
  obtain ⟨status, fromWd⟩ := goesOn.same busy
  exact ⟨inPlan, goesOn.written h.written, status ▸ h.direction, by rw [fromWd, regs]; exact h.value⟩

/-- A run of a command under way never stops. -/
theorem Executable.completes_runSeq {s : State} (h : Executable s) (n : Nat) : Completes (runSeq execDescriptor n s) := by
  rw [runSeq_execDescriptor]
  induction n generalizing s with
  | zero => exact ⟨s, rfl⟩
  | succ n ih =>
    obtain ⟨t, ht⟩ := h.completes_seqStep
    simp only [runSeq, h.busy, if_true, ht]
    by_cases busy : t.status.busy = true
    · exact ih (h.seqStep ht busy)
    · exact ⟨t, runSeq_of_not_busy (by simpa using busy)⟩

end Sys2Proof.Machine
end

section
/-! O5, the commands: each is refused, or runs its parts one after the other on states that stay fully written. -/

namespace Sys2Proof.Machine

open Sys2Proof.Safety

/-! ## The reader and the writer -/

theorem completes_execDecode {s : State} (inv : Inv s) (h : FullyWritten s) (a : BitVec 24) :
    Completes (execDecode a s) := by
  unfold execDecode
  split
  · rename_i accepted
    have hm := accepts_decode.mp (commandAccepted_iff.mp accepted).1
    have begun : Running (beginDecode s) := .beginDecode inv (.inl hm)
    have extracting : Running (setReader .extractFields (beginDecode s)) := begun.setReader rfl (by decide)
    have written : FullyWritten (beginDecode s) := fullyWritten_of_mem h rfl
    refine completes_attempt (faultless_checkHead begun.store written) fun _ hc =>
      completes_attempt (faultless_loadTemp extracting.store (fullyWritten_of_mem h rfl)) fun t ht => ?_
    obtain ⟨b, fits, rfl⟩ := loadTemp_eq_ok ht
    have planLen : s.regs.planLen.toNat ≤ Config.planMax := planLen_le_of_checkHead (s := beginDecode s) hc
    have executable : Executable (tempFilled b (setReader .extractFields (beginDecode s))) :=
      { extracting.tempFilled fits with
        busy := rfl
        source := .inr ⟨rfl, Nat.zero_le _, planLen⟩
        written := fullyWritten_tempFilled (fullyWritten_of_mem h rfl) b
        direction := .inl rfl
        value := by simp }
    exact executable.completes_runSeq _
  · exact ⟨_, rfl⟩

theorem faultless_rawField {s : State} (h : FullyWritten s) : Faultless (rawField s) := by
  unfold rawField
  dsimp only
  split
  · exact .raise _
  · rename_i checked
    simp only [not_or, Bool.not_eq_true] at checked
    obtain ⟨wv, ws, title⟩ := checked
    exact .bind (faultless_tblStr h wv) fun _ _ => .bind (faultless_tblStr h ws) fun _ _ =>
      .bind (faultless_tblStr h title) fun _ _ => faultless_appendFrame _ _ s

theorem completes_execWriteFieldRaw {s : State} (h : FullyWritten s) : Completes (execWriteFieldRaw s) := by
  unfold execWriteFieldRaw
  split
  · exact completes_attempt (faultless_rawField (fullyWritten_of_mem h rfl)) fun _ _ => ⟨_, rfl⟩
  · exact ⟨_, rfl⟩

theorem faultless_checkWriteField (s : State) : Faultless (checkWriteField s) := by
  unfold checkWriteField
  split
  · exact .raise _
  · exact .ok _

/-- The configuration check of the encode form covers the value pointer (rule R242). -/
theorem valuePointer_of_checkWriteField {s : State} (h : checkWriteField s = .ok ()) :
    ptrOutside (valPtr s.regs.wvPtr) = false := by
  unfold checkWriteField at h
  split at h
  · simp at h
  · rename_i checked
    simpa using fun ho => checked (.inr ho)

theorem completes_execWriteFieldEnc {s : State} (inv : Inv s) (h : FullyWritten s) :
    Completes (execWriteFieldEnc s) := by
  unfold execWriteFieldEnc
  split
  · rename_i accepted
    refine completes_attempt (faultless_checkWriteField _) fun _ hc => ?_
    have begun : Running (beginWriter s) := .beginWriter inv (accepts_writeField.mp (commandAccepted_iff.mp accepted).1)
    have store : StoreInv { beginWriter s with fromWd := true } :=
      ⟨begun.store.regs, { begun.store.lengths with }, begun.store.memory⟩
    have executable : Executable { beginWriter s with fromWd := true } :=
      { begun.restore store rfl rfl with
        busy := rfl
        source := .inl ⟨rfl, by simp⟩
        written := fullyWritten_of_mem h rfl
        direction := .inr rfl
        value := fun _ => valuePointer_of_checkWriteField hc }
    exact executable.completes_runSeq 1
  · exact ⟨_, rfl⟩

theorem faultless_checkEncodePlan {s : State} (h : FullyWritten s) : Faultless (checkEncodePlan s) := by
  unfold checkEncodePlan
  split
  · exact .raise _
  · refine .bind (faultless_valueTable h) fun t _ => ?_
    cases t
    · exact .raise _
    · exact .pure _

theorem completes_execEncodePlan {s : State} (inv : Inv s) (h : FullyWritten s) (a : BitVec 24) :
    Completes (execEncodePlan a s) := by
  unfold execEncodePlan
  split
  · rename_i accepted
    have written : FullyWritten { beginWriter s with planPc := 0 } := fullyWritten_of_mem h rfl
    refine completes_attempt (faultless_checkEncodePlan written) fun _ hc => ?_
    have begun : Running (beginWriter s) := .beginWriter inv (accepts_encodePlan.mp (commandAccepted_iff.mp accepted).1)
    have store : StoreInv { beginWriter s with planPc := 0 } :=
      ⟨begun.store.regs, { begun.store.lengths with planPc := Nat.zero_le _ }, begun.store.memory⟩
    have executable : Executable { beginWriter s with planPc := 0 } :=
      { begun.restore store rfl rfl with
        busy := rfl
        source := .inr ⟨rfl, Nat.zero_le _, planLen_le_of_checkEncodePlan hc⟩
        written := written
        direction := .inr rfl
        value := by simp }
    exact executable.completes_runSeq _
  · exact ⟨_, rfl⟩

/-! ## FINALIZE (rules R246 to R250) -/

section

variable {s : State} (store : StoreInv s) (h : FullyWritten s)

include store h

theorem faultless_encryptPayload : Faultless (encryptPayload s) := by
  unfold encryptPayload
  dsimp only
  split
  · refine .bind (faultless_regRange _ _ _) fun ⟨ps, pe⟩ hr => ?_
    obtain ⟨order, inside⟩ := regRange_bounds hr
    refine .bind (faultless_encryptFrame store h order inside) fun ct _ => ?_
    dsimp only
    split
    · exact .raise _
    · exact .bind (faultless_frameBytes store h (by omega)) fun _ _ => .pure _
  · exact .ok _

theorem faultless_writeCrc : Faultless (writeCrc s) := by
  unfold writeCrc
  split
  · refine .bind (faultless_regRange _ _ _) fun ⟨cs, ce⟩ hr => ?_
    obtain ⟨order, inside⟩ := regRange_bounds hr
    exact .bind (faultless_crcFieldIndex s) fun _ _ => .bind (.liftE _) fun _ _ =>
      .bind (faultless_frameBytes store h (by omega)) fun _ _ => .pure _
  · exact .ok _

end

theorem faultless_writeLength (s : State) : Faultless (writeLength s) := by
  unfold writeLength
  split
  · exact .bind (faultless_lengthField s) fun _ _ => .pure _
  · exact .ok _

theorem fullyWritten_encryptPayload {s t : State} (h : FullyWritten s) (ht : encryptPayload s = .ok t) :
    FullyWritten t := by
  obtain ⟨-, rfl⟩ | ⟨ps, n, b, -, -, rfl⟩ := encryptPayload_eq_ok ht
  · exact h
  · exact fullyWritten_of_mem (fullyWritten_writeBytes h .frame ps b) rfl

theorem fullyWritten_writeLength {s t : State} (h : FullyWritten s) (ht : writeLength s = .ok t) : FullyWritten t := by
  obtain ⟨-, rfl⟩ | ⟨f, -, -, rfl⟩ := writeLength_eq_ok ht
  · exact h
  · exact fullyWritten_writeBytes h _ _ _

theorem completes_execFinalize {s : State} (inv : Inv s) (h : FullyWritten s) (a : BitVec 24) :
    Completes (execFinalize a s) := by
  unfold execFinalize
  split
  · rename_i accepted
    have begun : Running (acceptCommand s) := .accept inv (accepts_finalize.mp (commandAccepted_iff.mp accepted).1)
    have written : FullyWritten (acceptCommand s) := fullyWritten_of_mem h rfl
    refine completes_attempt (faultless_encryptPayload begun.store written) fun s2 h2 => ?_
    obtain ⟨encrypted, -⟩ := begun.encryptPayload h2
    have written2 := fullyWritten_encryptPayload written h2
    refine completes_attempt (faultless_writeLength s2) fun s3 h3 => ?_
    obtain ⟨measured, -⟩ := encrypted.writeLength h3
    have written3 := fullyWritten_writeLength written2 h3
    exact completes_attempt (faultless_writeCrc measured.store written3) fun _ _ => ⟨_, rfl⟩
  · exact ⟨_, rfl⟩

/-! ## The engine commands (rules R127, R128, R153, R154) -/

section

variable {s : State} (store : StoreInv s) (h : FullyWritten s)

include store h

theorem faultless_cbufData : Faultless (readBytes s .cbuf 0 s.cbufLen.toNat) :=
  have size : spaceSize .cbuf = Config.cbufMax := rfl
  have := store.lengths.cbuf
  faultless_readBytes h (by omega)

theorem faultless_crcOfCbuf : Faultless (crcOfCbuf s) :=
  .bind (.liftE _) fun _ _ => .bind (faultless_cbufData store h) fun _ _ => .pure _

theorem faultless_cipherCbuf (dec : Bool) : Faultless (cipherCbuf s dec) := by
  refine .bind (.liftE _) fun _ _ => .bind (faultless_cipherKey store h) fun _ _ =>
    .bind (faultless_cipherIv store h) fun _ _ => .bind (faultless_cbufData store h) fun _ _ => ?_
  split
  · exact .liftE _
  · exact .liftE _

end

theorem faultless_fillCbuf (r : Bytes) (s : State) : Faultless (fillCbuf r s) := by
  unfold fillCbuf
  split
  · exact .raise _
  · exact .ok _

theorem completes_execCrcCalc {s : State} (inv : Inv s) (h : FullyWritten s) (a : BitVec 24) :
    Completes (execCrcCalc a s) := by
  unfold execCrcCalc
  split
  · exact completes_attempt (faultless_crcOfCbuf inv.store.accept (fullyWritten_of_mem h rfl)) fun _ _ => ⟨_, rfl⟩
  · exact ⟨_, rfl⟩

theorem completes_execCrcCompare {s : State} (inv : Inv s) (h : FullyWritten s) (a : BitVec 24) :
    Completes (execCrcCompare a s) := by
  unfold execCrcCompare
  split
  · have accepted := inv.store.accept
    have store : StoreInv (setCrcSwapped false (acceptCommand s)) :=
      ⟨accepted.regs, { accepted.lengths with }, accepted.memory⟩
    exact completes_attempt (faultless_crcOfCbuf store (fullyWritten_of_mem h rfl)) fun _ _ =>
      completes_attempt (.liftE _) fun _ _ => ⟨_, rfl⟩
  · exact ⟨_, rfl⟩

theorem completes_cipherCommand {s : State} (inv : Inv s) (h : FullyWritten s) (dec : Bool) :
    Completes (cipherCommand dec s) := by
  unfold cipherCommand
  split
  · exact completes_attempt
      (.bind (faultless_cipherCbuf inv.store.accept (fullyWritten_of_mem h rfl) dec) fun _ _ => faultless_fillCbuf _ _)
      fun _ _ => ⟨_, rfl⟩
  · exact ⟨_, rfl⟩

/-! ## NOP and NEW_CAPSULE read no memory (rules R266, R267) -/

theorem completes_execNop (a : BitVec 24) (s : State) : Completes (execNop a s) := by
  unfold execNop
  split <;> exact ⟨_, rfl⟩

theorem completes_execNewCapsule (a : BitVec 24) (s : State) : Completes (execNewCapsule a s) := by
  unfold execNewCapsule
  split <;> exact ⟨_, rfl⟩

end Sys2Proof.Machine

open Sys2Proof Sys2Proof.Machine Sys2Proof.Safety

/-- Settles O5, command by command. -/
theorem commandsCompleteOnWrittenMemory : Obligations.CommandsCompleteOnWrittenMemory := by
  intro i s command inv h
  cases i
  case nop a => exact completes_execNop a s
  case newCapsule a => exact completes_execNewCapsule a s
  case decode a => exact completes_execDecode inv h a
  case writeFieldRaw => exact completes_execWriteFieldRaw h
  case writeFieldEnc => exact completes_execWriteFieldEnc inv h
  case encodePlan a => exact completes_execEncodePlan inv h a
  case finalize a => exact completes_execFinalize inv h a
  case crcCalc a => exact completes_execCrcCalc inv h a
  case crcCompare a => exact completes_execCrcCompare inv h a
  case encrypt a => exact completes_cipherCommand inv h false
  case decrypt a => exact completes_cipherCommand inv h true
  all_goals cases command

end

section
/-! O6, O7, O8, O9: the encoding. The two directions of the round trip meet in three places: the codes of kinds and
field types, the fields of a descriptor's words, and the two fields of a command word. -/

namespace Sys2Proof

/-! ## Codes (rules R63, R64) -/

theorem kindOf_eq_some_iff {c : BitVec 4} {k : Kind} : kindOf c = some k ↔ c = kindCode k := by
  revert c
  cases k <;> decide

theorem ftypeOf_eq_some_iff {c : BitVec 4} {ft : FType} : ftypeOf c = some ft ↔ c = ftypeCode ft := by
  revert c
  cases ft <;> decide

/-! ## Two fields of one word -/

section

variable {m n : Nat} (hi : BitVec m) (lo : BitVec n)

theorem extractLsb'_append_low : (hi ++ lo).extractLsb' 0 n = lo := by
  rw [BitVec.extractLsb'_append_eq_of_add_le (by omega), BitVec.extractLsb'_eq_self]

theorem extractLsb'_append_high : (hi ++ lo).extractLsb' n m = hi := by
  rw [BitVec.extractLsb'_append_eq_of_le le_rfl, Nat.sub_self, BitVec.extractLsb'_eq_self]

end

/-- A word is its upper and its lower part. -/
theorem append_of_extractLsb' {m n : Nat} (w : BitVec (m + n)) : w.extractLsb' n m ++ w.extractLsb' 0 n = w := by
  rw [BitVec.extractLsb'_append_extractLsb'_eq_extractLsb' (Nat.zero_add n).symm, BitVec.extractLsb'_eq_self]

/-! ## Command words (rule R72) -/

@[simp] theorem commandWord_opc (opc : BitVec 8) (arg : BitVec 24) : (commandWord opc arg).extractLsb' 0 8 = opc :=
  extractLsb'_append_low arg opc

@[simp] theorem commandWord_arg (opc : BitVec 8) (arg : BitVec 24) : (commandWord opc arg).extractLsb' 8 24 = arg :=
  extractLsb'_append_high arg opc

theorem commandWord_of_fields (w : Word) : commandWord (w.extractLsb' 0 8) (w.extractLsb' 8 24) = w :=
  append_of_extractLsb' (m := 24) (n := 8) w

/-! ## Descriptor words (rule R61) -/

theorem encodeW0_kind (k : Kind) (ft : FType) (d : Desc) : (encodeW0 k ft d).extractLsb' 0 4 = kindCode k :=
  extractLsb'_append_low _ _

theorem encodeW0_ftype (k : Kind) (ft : FType) (d : Desc) : (encodeW0 k ft d).extractLsb' 4 4 = ftypeCode ft := by
  rw [encodeW0, BitVec.extractLsb'_append_eq_of_le le_rfl]
  exact extractLsb'_append_low _ _

theorem encodeW0_flags (k : Kind) (ft : FType) (d : Desc) :
    (encodeW0 k ft d).getLsbD 8 = d.swap ∧ (encodeW0 k ft d).getLsbD 9 = d.scaleEn ∧
      (encodeW0 k ft d).getLsbD 10 = d.symEn ∧ (encodeW0 k ft d).getLsbD 13 = d.req ∧
      (encodeW0 k ft d).getLsbD 14 = d.defEn ∧ (encodeW0 k ft d).getLsbD 15 = d.rsv0 := by
  simp only [encodeW0, bitOf, BitVec.getLsbD_append, BitVec.getLsbD_ofBool]
  simp

theorem encodeW0_dir (k : Kind) (ft : FType) (d : Desc) : (encodeW0 k ft d).extractLsb' 11 2 = d.dir := by
  apply BitVec.eq_of_getLsbD_eq
  intro i hi
  simp only [encodeW0, bitOf, BitVec.getLsbD_extractLsb', BitVec.getLsbD_append, BitVec.getLsbD_ofBool]
  grind

theorem encodeW0_tag (k : Kind) (ft : FType) (d : Desc) : (encodeW0 k ft d).extractLsb' 16 16 = d.tag := by
  apply BitVec.eq_of_getLsbD_eq
  intro i hi
  simp only [encodeW0, bitOf, BitVec.getLsbD_extractLsb', BitVec.getLsbD_append, BitVec.getLsbD_ofBool]
  grind

/-- The three fields of W5. -/
theorem encodeW5_fields (d : Desc) :
    (d.symbol ++ d.titleLen ++ d.titleOff : Word).extractLsb' 0 16 = d.titleOff ∧
      (d.symbol ++ d.titleLen ++ d.titleOff : Word).extractLsb' 16 8 = d.titleLen ∧
      (d.symbol ++ d.titleLen ++ d.titleOff : Word).extractLsb' 24 8 = d.symbol := by
  have upper (i n : Nat) : (d.symbol ++ d.titleLen ++ d.titleOff : Word).extractLsb' (16 + i) n =
      (d.symbol ++ d.titleLen).extractLsb' i n := by
    rw [BitVec.extractLsb'_append_eq_of_le (Nat.le_add_right 16 i), Nat.add_sub_cancel_left]
  exact ⟨extractLsb'_append_low _ _, (upper 0 8).trans (extractLsb'_append_low _ _),
    (upper 8 8).trans (extractLsb'_append_high _ _)⟩

/-- The operands stand where they are read back from. -/
theorem descFields_encodeDescriptor (k : Kind) (ft : FType) (d : Desc) : descFields (encodeDescriptor k ft d) = d := by
  obtain ⟨swap, scaleEn, symEn, req, defEn, rsv0⟩ := encodeW0_flags k ft d
  obtain ⟨titleOff, titleLen, symbol⟩ := encodeW5_fields d
  simp only [descFields, encodeDescriptor, swap, scaleEn, symEn, req, defEn, rsv0, titleOff, titleLen, symbol,
    encodeW0_dir, encodeW0_tag, extractLsb'_append_low d.rsv1 d.pos, extractLsb'_append_high d.rsv1 d.pos,
    extractLsb'_append_low d.scaleM d.scaleE, extractLsb'_append_high d.scaleM d.scaleE,
    extractLsb'_append_low d.auxLen d.auxOff, extractLsb'_append_high d.auxLen d.auxOff]

/-- The eight words are put together again from their fields. -/
theorem encodeDescriptor_descFields {k : Kind} {ft : FType} {w : DescWords} (hk : w.w0.extractLsb' 0 4 = kindCode k)
    (hf : w.w0.extractLsb' 4 4 = ftypeCode ft) : encodeDescriptor k ft (descFields w) = w := by
  have w0 : encodeW0 k ft (descFields w) = w.w0 := by
    rw [encodeW0, ← hk, ← hf]
    apply BitVec.eq_of_getLsbD_eq
    intro i hi
    simp only [descFields, bitOf, BitVec.getLsbD_extractLsb', BitVec.getLsbD_append, BitVec.getLsbD_ofBool]
    interval_cases i <;> simp
  have w5 : (descFields w).symbol ++ (descFields w).titleLen ++ (descFields w).titleOff = w.w5 := by
    have upper : w.w5.extractLsb' 24 8 ++ w.w5.extractLsb' 16 8 = w.w5.extractLsb' 16 16 :=
      BitVec.extractLsb'_append_extractLsb'_eq_extractLsb' rfl
    simp only [descFields, upper]
    exact append_of_extractLsb' (m := 16) (n := 16) w.w5
  have w1 : (descFields w).rsv1 ++ (descFields w).pos = w.w1 := append_of_extractLsb' (m := 16) (n := 16) w.w1
  have w4 : (descFields w).scaleM ++ (descFields w).scaleE = w.w4 := append_of_extractLsb' (m := 24) (n := 8) w.w4
  have w6 : (descFields w).auxLen ++ (descFields w).auxOff = w.w6 := append_of_extractLsb' (m := 16) (n := 16) w.w6
  simp only [encodeDescriptor, w0, w1, w4, w5, w6]
  rfl

/-! ## The two classes (rules R60, R208) -/

/-- A kind and a type that go together: COMPARE and ENUM take FTYPE 0 (rule R64). -/
abbrev FormExists (k : Kind) (ft : FType) : Prop := k = .convert ∨ ft = .bcd

theorem encode_mkDescriptor {k : Kind} {ft : FType} (h : FormExists k ft) (d : Desc) :
    encode (mkDescriptor k ft d) = descWordList (encodeDescriptor k ft d) := by
  obtain rfl | rfl := h
  · cases ft <;> rfl
  · cases k <;> rfl

/-- Decoding eight words, with the codes of rules R63 and R64 read as what they stand for. -/
theorem decodeDescriptor_eq_ok_iff {w : DescWords} {i : Instr} :
    decodeDescriptor w = .ok i ↔ ∃ k ft, FormExists k ft ∧ w.w0.extractLsb' 0 4 = kindCode k ∧
      w.w0.extractLsb' 4 4 = ftypeCode ft ∧ i = mkDescriptor k ft (descFields w) := by
  simp only [← kindOf_eq_some_iff, ← ftypeOf_eq_some_iff]
  unfold decodeDescriptor
  cases kindOf (w.w0.extractLsb' 0 4) with
  | none => simp
  | some k =>
    cases ftypeOf (w.w0.extractLsb' 4 4) with
    | none => simp
    | some ft =>
      have form : FormExists k ft ↔ ¬ (k ≠ .convert ∧ ft ≠ .bcd) := by
        simp only [FormExists]
        tauto
      by_cases h : k ≠ .convert ∧ ft ≠ .bcd
      · simp [h]
      · have exists_form := form.mpr h
        simp only [if_neg h, Except.ok.injEq, Option.some.injEq]
        exact ⟨fun e => ⟨k, ft, exists_form, rfl, rfl, e.symm⟩, fun ⟨_, _, _, rfl, rfl, e⟩ => e.symm⟩

theorem decodeWords_encodeDescriptor {k : Kind} {ft : FType} (h : FormExists k ft) (d : Desc) :
    decodeWords (descWordList (encodeDescriptor k ft d)) = .ok (mkDescriptor k ft d) :=
  decodeDescriptor_eq_ok_iff.mpr
    ⟨k, ft, h, encodeW0_kind k ft d, encodeW0_ftype k ft d, by rw [descFields_encodeDescriptor]⟩

/-- A descriptor instruction is the form of its kind and type. -/
theorem eq_mkDescriptor {i : Instr} {k : Kind} {ft : FType} {d : Desc} (h : i.descriptor? = some (k, ft, d)) :
    i = mkDescriptor k ft d ∧ FormExists k ft := by
  cases i <;> cases h <;> exact ⟨rfl, by decide⟩

theorem decodeWords_encode_descriptor {i : Instr} (h : i.isDescriptor = true) : decodeWords (encode i) = .ok i := by
  obtain ⟨⟨k, ft, d⟩, hd⟩ := Option.isSome_iff_exists.mp h
  obtain ⟨rfl, form⟩ := eq_mkDescriptor hd
  rw [encode_mkDescriptor form, decodeWords_encodeDescriptor form]

theorem decodeWords_encode_command {i : Instr} (h : i.isDescriptor = false) : decodeWords (encode i) = .ok i := by
  cases i
  case writeFieldRaw | writeFieldEnc => decide
  case nop | newCapsule | decode | encodePlan | finalize | crcCalc | crcCompare | encrypt | decrypt =>
    simp [encode, decodeWords, decodeCommand]
  all_goals cases h

/-- A command word that decodes is its instruction's: each row of the table of R72 has one `OPC`, and WRITE_FIELD's two
rows have one word each. -/
theorem encode_of_decodeCommand {w : Word} {i : Instr} (h : decodeCommand w = .ok i) : encode i = [w] := by
  have word {n : Nat} (ho : (w.extractLsb' 0 8).toNat = n) :
      [commandWord (BitVec.ofNat 8 n) (w.extractLsb' 8 24)] = [w] := by
    rw [← ho, BitVec.ofNat_toNat, BitVec.setWidth_eq, commandWord_of_fields]
  unfold decodeCommand at h
  dsimp only at h
  split at h
  case h_4 ho =>
    split at h
    · rename_i ha
      cases h
      rw [← word ho, ha]
      rfl
    · split at h
      · rename_i ha
        cases h
        rw [← word ho, ha]
        rfl
      · cases h
  case h_11 => cases h
  all_goals
    rename_i ho
    cases h
    exact word ho

theorem encode_of_decodeDescriptor {w : DescWords} {i : Instr} (h : decodeDescriptor w = .ok i) :
    encode i = descWordList w := by
  obtain ⟨k, ft, form, hk, hf, rfl⟩ := decodeDescriptor_eq_ok_iff.mp h
  rw [encode_mkDescriptor form, encodeDescriptor_descFields hk hf]

/-! ## Reserved command words (rules R72, R269) -/

/-- The `OPC` values of the table of rule R72. -/
def definedOpcodes : List (BitVec 8) := [0x00, 0x01, 0x02, 0x03, 0x04, 0x05, 0x10, 0x11, 0x20, 0x21]

/-- A word of a command has a defined `OPC`, and of WRITE_FIELD's `ARG` at most bit 0. -/
theorem opc_of_encode {i : Instr} {w : Word} (h : encode i = [w]) :
    w.extractLsb' 0 8 ∈ definedOpcodes ∧ (w.extractLsb' 0 8 = 0x03#8 → w.extractLsb' 9 23 = 0#23) := by
  cases i
  case writeFieldRaw | writeFieldEnc =>
    cases h
    decide
  case nop | newCapsule | decode | encodePlan | finalize | crcCalc | crcCompare | encrypt | decrypt =>
    cases h
    rw [commandWord_opc]
    exact ⟨by decide, fun hw => absurd hw (by decide)⟩
  all_goals cases h

end Sys2Proof

open Sys2Proof Sys2Proof.Machine

/-- Settles O6: a descriptor by its kind, type and operands, a command by its `OPC` and `ARG`. -/
theorem decodeOfEncodeIsIdentity : Obligations.DecodeOfEncodeIsIdentity := by
  intro i
  cases h : i.isDescriptor with
  | true => exact decodeWords_encode_descriptor h
  | false => exact decodeWords_encode_command h

/-- Settles O7: only one word or eight words decode. -/
theorem encodeOfDecodeIsIdentity : Obligations.EncodeOfDecodeIsIdentity := by
  intro ws i h
  unfold decodeWords at h
  split at h
  · exact encode_of_decodeCommand h
  · exact encode_of_decodeDescriptor h
  · cases h

/-- Settles O8, by evaluating the decoder on the four closed word lists. -/
theorem opcodeWordsDecode : Obligations.OpcodeWordsDecode := by
  refine ⟨?descriptor, ?writeField, ?decrypt, ?crcCalc⟩
  case descriptor => decide
  case writeField => decide
  case decrypt => decide
  case crcCalc => decide

/-- Settles O9: a reserved word is no instruction's, since by O7 it would have to be that instruction's word. -/
theorem reservedCommandWordsAreRefused : Obligations.ReservedCommandWordsAreRefused := by
  intro s w rest hb hi reserved
  rw [step_input hb hi, hostMove_write_cmd exec w (s := { s with inputs := rest }) hb]
  obtain ⟨i, hw, -⟩ | ⟨e, -, refused⟩ := presentCommand_eq w { s with inputs := rest }
  · obtain ⟨opc, arg⟩ := opc_of_encode (encodeOfDecodeIsIdentity [w] i hw)
    obtain undefined | ⟨writeField, high⟩ := reserved
    · exact absurd opc undefined
    · exact absurd (arg writeField) high
  · exact refused

end

section
/-! O41, O42: what is raised for an illegal descriptor. -/

namespace Sys2Proof.Machine

open Sys2Proof.Safety

/-! ## The conditions no. 4 to 13 (rule R71) -/

theorem intType_isSome_eq_any (ft : FType) : (intType ft).isSome = integerTypes.any fun p => p.1 == ft := by
  cases ft <;> rfl

/-- The conditions no. 4 to 12 in their order, each with whether it holds. -/
def wordConditions (k : Kind) (ft : FType) (d : Desc) : List (Nat × Bool) :=
  [(4, d.scaleEn && (k != .convert || !(integerTypes.any fun p => p.1 == ft))), (5, d.scaleEn && 9 < d.scaleE.toNat),
   (6, d.symEn && k != .convert), (7, d.symEn && (Config.symbolTag d.symbol).isNone), (8, d.dir == 0),
   (9, d.defEn && k != .convert), (10, d.rsv0 || d.rsv1 != 0 || d.rsv7 != 0),
   (11, 65536 < d.titleOff.toNat + d.titleLen.toNat),
   (12, (k == .compare || (k == .convert && d.defEn)) && 65536 < d.auxOff.toNat + d.auxLen.toNat)]

/-- The number of the first condition that holds. -/
theorem illegalWords_eq_find (k : Kind) (ft : FType) (d : Desc) :
    illegalWords k ft d = ((wordConditions k ft d).find? (·.2)).map (·.1) := by
  have first (n : Nat) (b : Bool) (l : List (Nat × Bool)) :
      (((n, b) :: l).find? (·.2)).map (·.1) = if b then some n else (l.find? (·.2)).map (·.1) := by
    cases b <;> rfl
  have scale : (k != .convert || !(integerTypes.any fun p => p.1 == ft)) = !(k == .convert && (intType ft).isSome) := by
    rw [intType_isSome_eq_any, Bool.not_and]
    rfl
  simp only [wordConditions, first, scale]
  rfl

section

variable {s : State} {k : Kind} {ft : FType} {d : Desc}

theorem illegalCondition_of_some {n : Nat} (h : illegalWords k ft d = some n) :
    illegalCondition s k ft d = .ok (some n) := by simp [illegalCondition, h]

theorem illegalCondition_of_no_table (h : illegalWords .enum ft d = none) (ht : enumTable s d = .ok none) :
    illegalCondition s .enum ft d = .ok (some 13) := by simp [illegalCondition, h, ht]

/-- In both directions legality comes first, and an illegal descriptor fails the capsule with its number. -/
theorem exec_illegal {i : Instr} {n : Nat} (hi : i.descriptor? = some (k, ft, d)) (running : Decoding s ∨ Encoding s)
    (h : illegalCondition s k ft d = .ok (some n)) :
    exec i s = .next (failCapsule (illegalErr n) (descIndex s) s) := by
  rw [exec_descriptor hi]
  obtain ⟨busy, main, -⟩ | ⟨busy, main⟩ := running
  · simp [runDescriptor_reading busy main, extractField, h]
  · simp [runDescriptor_encoding busy main, emitField, h]

end

/-! ## The conditions no. 1 to 3 (rules R63, R64) -/

theorem kindOf_eq_none_iff {c : BitVec 4} : kindOf c = none ↔ c.toNat = 0 ∨ 3 < c.toNat := by
  revert c
  decide

theorem ftypeOf_eq_none_iff {c : BitVec 4} : ftypeOf c = none ↔ 12 ≤ c.toNat := by
  revert c
  decide

/-- The first of the conditions no. 1 to 3 that the words hold, if any. -/
def ReservedWords (w : DescWords) (n : Nat) : Prop :=
  let kind := (w.w0.extractLsb' 0 4).toNat
  let ftype := (w.w0.extractLsb' 4 4).toNat
  ((kind = 0 ∨ 3 < kind) ∧ n = 1) ∨ ((1 ≤ kind ∧ kind ≤ 3) ∧ 12 ≤ ftype ∧ n = 2) ∨
    ((2 ≤ kind ∧ kind ≤ 3) ∧ (1 ≤ ftype ∧ ftype ≤ 11) ∧ n = 3)

/-- Such words are no instruction, and the decoder's error has their number. -/
theorem decodeWords_reserved {w : DescWords} {n : Nat} (h : ReservedWords w n) :
    ∃ e, decodeWords (descWordList w) = .error e ∧ decodeErrorCondition e = n := by
  have words : decodeWords (descWordList w) = decodeDescriptor w := rfl
  rw [words, decodeDescriptor]
  unfold ReservedWords at h
  dsimp only at h
  cases hk : kindOf (w.w0.extractLsb' 0 4) with
  | none =>
    have reserved := kindOf_eq_none_iff.mp hk
    exact ⟨_, rfl, by rw [decodeErrorCondition]; omega⟩
  | some k =>
    have legalKind := kindOf_eq_none_iff.not.mp (hk ▸ Option.some_ne_none k)
    cases hf : ftypeOf (w.w0.extractLsb' 4 4) with
    | none =>
      have reserved := ftypeOf_eq_none_iff.mp hf
      exact ⟨_, rfl, by rw [decodeErrorCondition]; omega⟩
    | some ft =>
      have legalType := ftypeOf_eq_none_iff.not.mp (hf ▸ Option.some_ne_none ft)
      have notConvert : k ≠ .convert := by
        rintro rfl
        have one : (w.w0.extractLsb' 0 4).toNat = 1 := by rw [kindOf_eq_some_iff.mp hk]; rfl
        omega
      have notBcd : ft ≠ .bcd := by
        rintro rfl
        have zero : (w.w0.extractLsb' 4 4).toNat = 0 := by rw [ftypeOf_eq_some_iff.mp hf]; rfl
        omega
      exact ⟨_, if_pos ⟨notConvert, notBcd⟩, by rw [decodeErrorCondition]; omega⟩

end Sys2Proof.Machine

open Sys2Proof Sys2Proof.Machine Sys2Proof.Safety

/-- Settles O41: no. 4 to 12 by `illegalWords_eq_find`, no. 13 by the table that does not parse. -/
theorem illegalDescriptorNamesItsCondition : Obligations.IllegalDescriptorNamesItsCondition := by
  intro i k ft d s hi running isInt conditions fails
  have found : illegalWords k ft d = (conditions.find? (·.2)).map (·.1) := illegalWords_eq_find k ft d
  refine ⟨fun p hp => exec_illegal hi running (illegalCondition_of_some (by rw [found, hp]; rfl)), ?_⟩
  rintro none rfl table
  exact exec_illegal hi running (illegalCondition_of_no_table (by rw [found, none]; rfl) table)

/-- Settles O42: the sequencer's step takes the decoder's error. -/
theorem reservedDescriptorWordsFail : Obligations.ReservedDescriptorWordsFail := by
  intro s w n reached reserved
  obtain ⟨e, words, condition⟩ := decodeWords_reserved (w := w) (n := n) reserved
  rw [step_busy reached.busy, seqStep_at_descriptor reached, runWords, words]
  dsimp only
  rw [condition]
  rfl

end

section
/-! O39: the value a descriptor encodes. A value table that stands in TBL parses as its entries, and looking a tag up in
it finds the value of the first entry with that tag. -/

namespace Sys2Proof.Machine

open Sys2Proof.Safety

/-! ## The value table (rule R77) -/

/-- Where the entries of a value table that starts at `p` stand. -/
def valueEntriesAt : Nat → List (BitVec 16 × Bytes) → List ValueEntry
  | _, [] => []
  | p, e :: r => ⟨e.1.toNat, ⟨p + 4, e.2.length⟩⟩ :: valueEntriesAt (p + 4 + e.2.length) r

/-- The parts of a table's first entry: its tag, the length of its value and the value, and the table after it. -/
structure FirstValue (s : State) (p : Nat) (e : BitVec 16 × Bytes) (r : List (BitVec 16 × Bytes)) : Prop where
  tag : InTbl s p (beN e.1.toNat 2)
  length : InTbl s (p + 2) (beN e.2.length 2)
  value : InTbl s (p + 4) e.2
  rest : InTbl s (p + 4 + e.2.length) (valueImage r)

theorem firstValue_of_image {s : State} {p : Nat} {e : BitVec 16 × Bytes} {r : List (BitVec 16 × Bytes)}
    (h : InTbl s p (valueImage (e :: r))) : FirstValue s p e r := by
  have image : valueImage (e :: r) = beN e.1.toNat 2 ++ (beN e.2.length 2 ++ (e.2 ++ valueImage r)) := by
    simp [valueImage]
  rw [image] at h
  obtain ⟨tag, h⟩ := inTbl_append h
  obtain ⟨length, h⟩ := inTbl_append h
  obtain ⟨value, rest⟩ := inTbl_append h
  simp only [beN_length] at length value rest
  exact ⟨tag, length, value, rest⟩

/-- A table that stands in TBL parses as its entries. -/
theorem parseValues_image {s : State} {p : Nat} {entries : List (BitVec 16 × Bytes)}
    (lengths : ∀ e ∈ entries, e.2.length < 65536) (h : InTbl s p (valueImage entries)) :
    parseValues s p entries.length = .ok (some (valueEntriesAt p entries)) := by
  induction entries generalizing p with
  | nil => rfl
  | cons e r ih =>
    obtain ⟨hl, hr⟩ := List.forall_mem_cons.mp lengths
    have entry := firstValue_of_image h
    have fits : ¬ Config.tblMax < p + 4 + e.2.length := Nat.not_lt.mpr entry.value.inside
    have header : ¬ Config.tblMax < p + 4 := by omega
    have tag : readBytes s .tbl p 2 = .ok (beN e.1.toNat 2) := beN_length e.1.toNat 2 ▸ entry.tag.bytes
    have length : readBytes s .tbl (p + 2) 2 = .ok (beN e.2.length 2) := beN_length e.2.length 2 ▸ entry.length.bytes
    have tagValue : be (beN e.1.toNat 2) = e.1.toNat := be_beN_two (by omega)
    have lengthValue : be (beN e.2.length 2) = e.2.length := be_beN_two (by omega)
    simp only [List.length_cons, parseValues, if_neg header, tag, length, res_ok_bind, tagValue, lengthValue,
      if_neg fits, ih hr entry.rest, valueEntriesAt, res_pure_eq]

theorem valueTable_of_hasValues {s : State} {entries : List (BitVec 16 × Bytes)} (h : HasValues s entries) :
    valueTable s = .ok (some (valueEntriesAt (valPtr s.regs.valsPtr).off entries)) := by
  rw [valueTable, ← h.count]
  exact parseValues_image h.lengths h.table

/-- The value of the first entry with the tag. -/
theorem lookupValue_image {s : State} {p : Nat} {entries : List (BitVec 16 × Bytes)}
    (h : InTbl s p (valueImage entries)) (tag : BitVec 16) :
    lookupValue s tag.toNat (valueEntriesAt p entries) = .ok ((entries.find? (·.1 == tag)).map (·.2)) := by
  induction entries generalizing p with
  | nil => rfl
  | cons e r ih =>
    have entry := firstValue_of_image h
    have same : (e.1.toNat == tag.toNat) = (e.1 == tag) := by
      rw [Bool.eq_iff_iff, beq_iff_eq, beq_iff_eq, BitVec.toNat_inj]
    have ih := ih entry.rest
    unfold lookupValue at ih ⊢
    rw [valueEntriesAt, List.find?_cons, List.find?_cons, same]
    cases e.1 == tag with
    | true => simp [tblStr, entry.value.bytes]
    | false => exact ih

/-! ## VALUE_FOR (rule R245) -/

section

variable {s : State} {k : Kind} {d : Desc}

theorem suppliedValue_compare (s : State) (d : Desc) : suppliedValue s .compare d = .ok (some []) := by
  unfold suppliedValue valueFor
  split <;> rfl

/-- In WRITE_FIELD the value is the string of WV_PTR (rule R242). -/
theorem suppliedValue_of_writeField {v : Bytes} (hw : s.fromWd = true) (hk : k ≠ .compare)
    (hv : tblStr s (valPtr s.regs.wvPtr) = .ok v) : suppliedValue s k d = .ok (some v) := by
  simp [suppliedValue, hw, hk, hv]

/-- In a plan the value is the table's, or what the descriptor says of a value that is absent. -/
theorem suppliedValue_of_plan {entries : List (BitVec 16 × Bytes)} (hw : s.fromWd = false) (hk : k ≠ .compare)
    (h : HasValues s entries) :
    suppliedValue s k d = match (entries.find? (·.1 == d.tag)).map (·.2) with
      | some v => .ok (some v)
      | none =>
        if d.defEn then tblStr s (auxPtr d) >>= fun v => .ok (some v)
        else if d.req then raise { cause := .requiredMissing, actNum := num d.tag.toNat }
        else .ok none := by
  simp only [suppliedValue, valueFor, hw, Bool.false_eq_true, if_false, beq_iff_eq, hk, valueTable_of_hasValues h,
    res_ok_bind, lookupValue_image h.table]
  cases (entries.find? (·.1 == d.tag)).map (·.2) <;> rfl

end

end Sys2Proof.Machine

open Sys2Proof Sys2Proof.Machine Sys2Proof.Safety

/-- Settles O39. -/
theorem suppliedValueRule : Obligations.SuppliedValueRule := by
  intro s k d
  refine ⟨suppliedValue_compare s d, fun v => suppliedValue_of_writeField, fun entries hw hk h => ?plan⟩
  case plan =>
    have tag : num d.tag.toNat = d.tag.setWidth 32 := BitVec.ofNat_toNat 32 d.tag
    rw [suppliedValue_of_plan hw hk h, tag]
    cases entries.find? fun e => e.1 == d.tag with
    | some e => rfl
    | none =>
      dsimp only [Option.map_none]
      split
      · unfold tblStr auxPtr
        cases readBytes s .tbl d.auxOff.toNat d.auxLen.toNat <;> rfl
      · rfl

end

section
/-! O45: ENCODE_PLAN. A plan folded descriptor by descriptor is a run of the sequencer, one step each; the step after
the last descriptor completes the command. -/

namespace Sys2Proof.Machine

open Sys2Proof.Safety

/-! ## What a descriptor on encode leaves as it was -/

/-- The two states belong to the same command: STATUS, error record, registers and the source of the descriptors. -/
structure SameCommand (s t : State) : Prop where
  status : t.status = s.status
  err : t.err = s.err
  regs : t.regs = s.regs
  fromWd : t.fromWd = s.fromWd

theorem SameCommand.refl (s : State) : SameCommand s s := ⟨rfl, rfl, rfl, rfl⟩

theorem SameCommand.trans {s t u : State} (h : SameCommand s t) (h' : SameCommand t u) : SameCommand s u :=
  ⟨h'.status.trans h.status, h'.err.trans h.err, h'.regs.trans h.regs, h'.fromWd.trans h.fromWd⟩

theorem emitField_sameCommand {s t : State} {k : Kind} {ft : FType} {d : Desc} (h : emitField s k ft d = .ok t) :
    SameCommand s t ∧ t.planPc = s.planPc := by
  obtain ⟨-, ⟨-, rfl⟩ | ⟨v, fb, rf, -, -, -, -, -, -, rfl⟩⟩ := emitField_eq_ok h
  · exact ⟨.refl _, rfl⟩
  · exact ⟨⟨rfl, rfl, rfl, rfl⟩, rfl⟩

/-! ## The plan as a run (rules R17, R55, R244) -/

/-- ENCODE_PLAN is under way with `left` descriptors still to be executed. -/
structure EncodingPlan (s : State) (left : Nat) : Prop where
  encoding : Encoding s
  fromPlan : s.fromWd = false
  pc : s.planPc.toNat + left = s.regs.planLen.toNat

/-- The descriptor count goes down by one as PLAN_PC goes up by one. -/
theorem EncodingPlan.next {s t : State} {n : Nat} (h : EncodingPlan s (n + 1)) (same : SameCommand s t)
    (pc : t.planPc = s.planPc + 1) : EncodingPlan t n where
  encoding := ⟨same.status ▸ h.encoding.busy, same.status ▸ h.encoding.main⟩
  fromPlan := same.fromWd ▸ h.fromPlan
  pc := by
    have := h.pc
    have := s.regs.planLen.isLt
    have step : t.planPc.toNat = s.planPc.toNat + 1 := by
      rw [pc, BitVec.toNat_add]
      exact Nat.mod_eq_of_lt (by simp; omega)
    rw [same.regs]
    omega

/-- One step below PLAN_LEN is one descriptor emitted and PLAN_PC counted up. -/
theorem EncodingPlan.seqStep {s t : State} {n : Nat} {w : DescWords} {k : Kind} {ft : FType} {d : Desc}
    (h : EncodingPlan s (n + 1)) (hw : fetchPlan s s.planPc.toNat = .ok w)
    (hd : (decodeWords (descWordList w)).toOption.bind Instr.descriptor? = some (k, ft, d))
    (ht : emitField s k ft d = .ok t) : seqStep exec s = .next { t with planPc := t.planPc + 1 } := by
  have below : s.planPc.toNat < s.regs.planLen.toNat := by
    have := h.pc
    omega
  have reached : AtDescriptor s w := ⟨h.encoding.busy, .inr h.encoding.main, .inl ⟨h.fromPlan, below, hw⟩⟩
  obtain ⟨same, -⟩ := emitField_sameCommand ht
  have advanced : advance t = { t with planPc := t.planPc + 1 } := if_neg (by simp [same.fromWd, h.fromPlan])
  rw [seqStep_at_descriptor reached]
  cases hi : decodeWords (descWordList w) with
  | error e =>
    rw [hi] at hd
    cases hd
  | ok i =>
    rw [hi] at hd
    rw [runWords, hi]
    dsimp only
    rw [exec_descriptor hd, runDescriptor_encoding h.encoding.busy h.encoding.main, ht, attempt_ok, advanced]

/-- The fold over the descriptors still to be executed is that many steps, with PLAN_PC at PLAN_LEN after them. -/
theorem runSeq_of_planFold {n : Nat} {s t : State} (h : EncodingPlan s n) (ht : planFold emitField n s = .ok t)
    (m : Nat) : runSeq exec (n + m) s = runSeq exec m t ∧ SameCommand s t ∧ EncodingPlan t 0 := by
  induction n generalizing s with
  | zero =>
    cases ht
    rw [Nat.zero_add]
    exact ⟨rfl, .refl _, h⟩
  | succ n ih =>
    unfold planFold at ht
    obtain ⟨w, hw, ht⟩ := res_bind_eq_ok.mp ht
    split at ht
    · cases ht
    · rename_i k ft d hd
      obtain ⟨s1, h1, ht⟩ := res_bind_eq_ok.mp ht
      obtain ⟨same, pc⟩ := emitField_sameCommand h1
      have first : SameCommand s { s1 with planPc := s1.planPc + 1 } := { same with }
      obtain ⟨run, rest, ended⟩ := ih (h.next first (by rw [pc])) ht
      refine ⟨?_, first.trans rest, ended⟩
      rw [Nat.succ_add, runSeq, if_pos h.encoding.busy, h.seqStep hw hd h1]
      exact run

/-- At PLAN_LEN the next step completes the command. -/
theorem EncodingPlan.complete {t : State} (h : EncodingPlan t 0) : runSeq exec 1 t = .next (completeWriter t) := by
  have finished : t.regs.planLen.toNat ≤ t.planPc.toNat := h.pc.symm.le
  have notReading : t.status.main ≠ .reading := by simp [h.encoding.main]
  rw [runSeq, if_pos h.encoding.busy, seqStep_at_end h.encoding.busy h.fromPlan finished (.inr h.encoding.main),
    endOfPlan, if_neg notReading]
  rfl

/-! ## The checks before the first descriptor (rule R244) -/

theorem hasValues_congr {s t : State} {entries : List (BitVec 16 × Bytes)} (h : HasValues s entries)
    (mem : t.mem = s.mem) (regs : t.regs = s.regs) : HasValues t entries := by
  obtain ⟨count, lengths, inside, bytes⟩ := h
  rw [← regs] at count inside bytes
  exact ⟨count, lengths, inside, (readBytes_congr_mem mem _ _ _).trans bytes⟩

theorem checkEncodePlan_of_hasValues {s : State} {entries : List (BitVec 16 × Bytes)} (dir : capDir s.regs ≠ 0)
    (len : s.regs.planLen.toNat ≤ Config.planMax) (h : HasValues s entries) : checkEncodePlan s = .ok () := by
  have legal : ¬ (capDir s.regs = 0 ∨ Config.planMax < s.regs.planLen.toNat) := by
    rintro (zero | long)
    · exact dir zero
    · exact absurd len (Nat.not_le.mpr long)
  rw [checkEncodePlan, if_neg legal, valueTable_of_hasValues h]
  rfl

end Sys2Proof.Machine

open Sys2Proof Sys2Proof.Machine Sys2Proof.Safety

/-- Settles O45, through `runSeq_of_planFold` for the plan. -/
theorem encodePlanRunsInOrder : Obligations.EncodePlanRunsInOrder := by
  intro a s t entries accepted dir len values folded
  have started : EncodingPlan { beginWriter s with planPc := 0 } s.regs.planLen.toNat :=
    ⟨⟨rfl, rfl⟩, rfl, Nat.zero_add _⟩
  have checked : checkEncodePlan { beginWriter s with planPc := 0 } = .ok () :=
    checkEncodePlan_of_hasValues dir len (hasValues_congr values rfl rfl)
  obtain ⟨run, ⟨status, err, regs, -⟩, ended⟩ := runSeq_of_planFold started folded 1
  have pc : t.planPc = s.regs.planLen :=
    BitVec.eq_of_toNat_eq (ended.pc.trans (congrArg (fun r => r.planLen.toNat) regs))
  have final : completeWriter t =
      { completed t with status := { (completed s).status with main := .accum }, fromWd := false } := by
    simp only [completeWriter, completed, status, err]
    rfl
  refine ⟨pc, ?_⟩
  rw [exec_encodePlan_of_accepted accepted, encodePlanWith]
  simp only [checked, attempt_ok, runSeq_execDescriptor]
  rw [← final, ← ended.complete]
  exact run

end

section
/-! O38, the numbers: the bytes an integer type gives a number at every capacity, and which strings are hex. -/

namespace Sys2Proof.Machine

open Sys2Proof.Safety

/-! ## Big-endian bytes (rule R6) -/

/-- Only the low `n` bytes of a number show in `n` bytes. -/
theorem beN_mod (v n : Nat) : beN (v % 2 ^ (8 * n)) n = beN v n := by
  have h := beN_be (beN v n)
  rwa [be_beN, beN_length] at h

/-- The upper bytes and the lower bytes. -/
theorem beN_add (v m n : Nat) : beN v (m + n) = beN (v / 2 ^ (8 * n)) m ++ beN v n := by
  induction n generalizing v with
  | zero => simp [beN]
  | succ n ih =>
    have shift : v / 256 / 2 ^ (8 * n) = v / 2 ^ (8 * (n + 1)) := by
      rw [Nat.div_div_eq_div_mul, show 8 * (n + 1) = 8 + 8 * n by ring, Nat.pow_add]
    rw [← Nat.add_assoc, beN, ih, shift, List.append_assoc]
    rfl

theorem beN_drop (v m n : Nat) : (beN v (m + n)).drop m = beN v n := by
  rw [beN_add, List.drop_left' (beN_length _ _)]

theorem beN_zero (n : Nat) : beN 0 n = List.replicate n 0 := by
  induction n with
  | zero => rfl
  | succ n ih =>
    rw [beN, Nat.zero_div, ih, List.replicate_succ']
    rfl

theorem beN_ones (n : Nat) : beN (2 ^ (8 * n) - 1) n = List.replicate n 0xFF := by
  induction n with
  | zero => rfl
  | succ n ih =>
    have pos : 0 < 2 ^ (8 * n) := Nat.two_pow_pos _
    have shift : 2 ^ (8 * (n + 1)) = 256 * 2 ^ (8 * n) := by
      rw [show 8 * (n + 1) = 8 + 8 * n by ring, Nat.pow_add]
    have upper : (2 ^ (8 * (n + 1)) - 1) / 256 = 2 ^ (8 * n) - 1 := by omega
    have last : BitVec.ofNat 8 (2 ^ (8 * (n + 1)) - 1) = 0xFF := by
      apply BitVec.eq_of_toNat_eq
      have value : (0xFF : Byte).toNat = 255 := rfl
      rw [BitVec.toNat_ofNat, value]
      omega
    rw [beN, upper, ih, last, List.replicate_succ']

/-! ## Two's complement (rules R6, R93, R187, R188) -/

section

variable {w cap : Nat} {signed : Bool} {raw : Int}

/-- The raw value lies in the range of its type (rule R187). -/
def InRange (w : Nat) (signed : Bool) (raw : Int) : Prop :=
  if signed then -(2 ^ (8 * w - 1)) ≤ raw ∧ raw < 2 ^ (8 * w - 1) else 0 ≤ raw ∧ raw < 2 ^ (8 * w)

theorem wrap_eq (bits : Nat) (v : Int) : wrap bits v = (v % 2 ^ bits).toNat := by simp [wrap]

theorem wrap_mod {m n : Nat} (h : n ≤ m) (v : Int) : wrap m v % 2 ^ n = wrap n v := by
  have nonneg : (0 : Int) ≤ v % 2 ^ m := Int.emod_nonneg v (by positivity)
  rw [wrap_eq, wrap_eq, ← Int.emod_emod_of_dvd v (pow_dvd_pow 2 h), Int.toNat_emod nonneg (by positivity)]
  rfl

theorem wrap_of_nonneg {bits : Nat} (h0 : 0 ≤ raw) (h : raw < 2 ^ bits) : wrap bits raw = raw.toNat := by
  rw [wrap_eq, Int.emod_eq_of_lt h0 h]

theorem wrap_of_neg {bits : Nat} (h0 : raw < 0) (h : -(2 ^ bits) ≤ raw) : wrap bits raw = (raw + 2 ^ bits).toNat := by
  rw [wrap_eq, ← Int.add_emod_right, Int.emod_eq_of_lt (by omega) (by omega)]

/-- A value in range fits its bits, and a negative one only a signed type's. -/
theorem InRange.bounds (h : InRange w signed raw) (hw : 0 < w) :
    (0 ≤ raw → raw < 2 ^ (8 * w)) ∧ (raw < 0 → signed = true ∧ -(2 ^ (8 * w - 1)) ≤ raw) := by
  have double : (2 : Int) ^ (8 * w) = 2 * 2 ^ (8 * w - 1) := by
    rw [← pow_succ', show 8 * w - 1 + 1 = 8 * w by omega]
  cases signed with
  | true =>
    obtain ⟨lo, hi⟩ : -(2 ^ (8 * w - 1)) ≤ raw ∧ raw < 2 ^ (8 * w - 1) := h
    exact ⟨fun _ => by omega, fun _ => ⟨rfl, lo⟩⟩
  | false =>
    obtain ⟨lo, hi⟩ : 0 ≤ raw ∧ raw < 2 ^ (8 * w) := h
    exact ⟨fun _ => hi, fun _ => by omega⟩

/-- The top bit of a signed type's bytes is the sign. -/
theorem msb_intBytes (hw : 0 < w) (h : InRange w true raw) : ((intBytes w raw).headD 0).msb = decide (raw < 0) := by
  obtain ⟨w, rfl⟩ : ∃ n, w = 1 + n := ⟨w - 1, by omega⟩
  obtain ⟨lo, hi⟩ : -(2 ^ (8 * (1 + w) - 1)) ≤ raw ∧ raw < 2 ^ (8 * (1 + w) - 1) := h
  have half : (2 : Int) ^ (8 * (1 + w) - 1) = 128 * (2 ^ (8 * w) : Nat) := by
    rw [show 8 * (1 + w) - 1 = 7 + 8 * w by omega, pow_add]
    norm_num
  have whole : (2 : Int) ^ (8 * (1 + w)) = 256 * (2 ^ (8 * w) : Nat) := by
    rw [show 8 * (1 + w) = 8 + 8 * w by omega, pow_add]
    norm_num
  have head : (intBytes (1 + w) raw).headD 0 = BitVec.ofNat 8 (wrap (8 * (1 + w)) raw / 2 ^ (8 * w)) := by
    rw [intBytes, beN_add]
    rfl
  have value : (wrap (8 * (1 + w)) raw : Int) = if raw < 0 then raw + 256 * (2 ^ (8 * w) : Nat) else raw := by
    split
    · rw [wrap_of_neg (by omega) (by omega), whole]
      omega
    · rw [wrap_of_nonneg (by omega) (by omega)]
      omega
  have pos : 0 < 2 ^ (8 * w) := Nat.two_pow_pos _
  have top := Nat.le_div_iff_mul_le (x := 128) (y := wrap (8 * (1 + w)) raw) pos
  have byte := Nat.div_lt_iff_lt_mul (x := wrap (8 * (1 + w)) raw) (y := 256) pos
  rw [head, BitVec.msb_eq_decide, BitVec.toNat_ofNat, decide_eq_decide]
  generalize wrap (8 * (1 + w)) raw / 2 ^ (8 * w) = q at *
  split at value <;> omega

/-- The bytes above the native ones are all ones below 0, and all zeros from 0 on. -/
theorem wrap_div (hw : 0 < w) (h : InRange w signed raw) (hc : w ≤ cap) :
    wrap (8 * cap) raw / 2 ^ (8 * w) = if raw < 0 then 2 ^ (8 * (cap - w)) - 1 else 0 := by
  obtain ⟨nonneg, neg⟩ := h.bounds hw
  have half : (2 : Int) ^ (8 * w - 1) ≤ 2 ^ (8 * w) := pow_le_pow_right₀ (by decide) (Nat.sub_le _ _)
  have whole : 2 ^ (8 * cap) = 2 ^ (8 * (cap - w)) * 2 ^ (8 * w) := by
    rw [← pow_add]
    congr 1
    omega
  have below : (2 ^ (8 * (cap - w)) - 1) * 2 ^ (8 * w) = 2 ^ (8 * cap) - 2 ^ (8 * w) := by
    rw [whole, Nat.sub_mul, Nat.one_mul]
  have native : 2 ^ (8 * w) ≤ 2 ^ (8 * cap) := Nat.pow_le_pow_right (by decide) (by omega)
  have nativeCast : ((2 ^ (8 * w) : Nat) : Int) = 2 ^ (8 * w) := by norm_num
  have wholeCast : ((2 ^ (8 * cap) : Nat) : Int) = 2 ^ (8 * cap) := by norm_num
  have pos : 0 < 2 ^ (8 * (cap - w)) := Nat.two_pow_pos _
  split
  · rename_i negative
    obtain ⟨-, lo⟩ := neg negative
    rw [wrap_of_neg negative (by omega)]
    refine Nat.div_eq_of_lt_le (by omega) ?_
    rw [Nat.sub_add_cancel pos, ← whole]
    omega
  · rename_i positive
    have hi := nonneg (by omega)
    rw [wrap_of_nonneg (by omega) (by omega)]
    exact Nat.div_eq_of_lt (by omega)

/-- The native bytes resized are the bytes at the capacity: the low ones, or those sign- or zero-extended. -/
theorem resize_intBytes (hw : 0 < w) (h : InRange w signed raw) :
    resize (intBytes w raw) signed ((intBytes w raw).headD 0).msb cap = beN (wrap (8 * cap) raw) cap := by
  rw [resize, show (intBytes w raw).length = w from beN_length _ _]
  split
  · rename_i hc
    have drop := beN_drop (wrap (8 * w) raw) (w - cap) cap
    rw [Nat.sub_add_cancel hc] at drop
    rw [intBytes, drop, ← beN_mod, wrap_mod (by omega)]
  · rename_i hc
    have parts := beN_add (wrap (8 * cap) raw) (cap - w) w
    rw [Nat.sub_add_cancel (by omega), ← beN_mod _ w, wrap_mod (by omega), wrap_div hw h (by omega)] at parts
    rw [parts]
    congr 1
    by_cases negative : raw < 0
    · obtain ⟨rfl, -⟩ := (h.bounds hw).2 negative
      rw [if_pos negative, beN_ones, msb_intBytes hw h]
      simp [negative]
    · have plain : (signed && ((intBytes w raw).headD 0).msb) = false := by
        cases signed with
        | true =>
          rw [msb_intBytes hw h]
          simp [negative]
        | false => rfl
      rw [if_neg negative, beN_zero, plain]
      rfl

end

/-! ## Hex strings (rules R91, R92) -/

/-- A string has bytes where its length is even and all its characters are hex digits. -/
theorem unhex?_isSome : ∀ v : Bytes, (unhex? v).isSome = (v.length % 2 == 0 && v.all fun c => (hexVal c).isSome)
  | [] => rfl
  | [_] => rfl
  | a :: b :: r => by
    have ih := unhex?_isSome r
    have even : (a :: b :: r).length % 2 = r.length % 2 := Nat.add_mod_right r.length 2
    have pair : (unhex? (a :: b :: r)).isSome = ((hexVal a).isSome && (hexVal b).isSome && (unhex? r).isSome) := by
      simp only [unhex?]
      cases hexVal a <;> cases hexVal b <;> cases unhex? r <;> rfl
    rw [pair, ih, even, List.all_cons, List.all_cons]
    ac_rfl

theorem hexVal_of_isDigit {c : Byte} (h : isDigit c = true) : (hexVal c).isSome = true := by
  simp only [isDigit, Bool.and_eq_true, decide_eq_true_eq] at h
  simp [hexVal, h]

/-- The three shapes are one: BCD and ASCII-hex strings are hex strings. -/
theorem isMachineCode_eq_isHex (v : Bytes) : isMachineCode v = isHex v := by
  have bcd (h : isBcd v = true) : isHex v = true := by
    simp only [isBcd, isHex, Bool.and_eq_true, List.all_eq_true] at h ⊢
    exact ⟨h.1, fun c hc => hexVal_of_isDigit (h.2 c hc)⟩
  have asciiHex (h : isAsciiHex v = true) : isHex v = true := by
    rw [isAsciiHex, Bool.and_eq_true] at h
    exact h.1
  unfold isMachineCode
  cases hh : isHex v with
  | true => rfl
  | false =>
    rw [Bool.false_or, Bool.or_eq_false_iff]
    exact ⟨Bool.eq_false_iff.mpr (mt bcd (by simp [hh])), Bool.eq_false_iff.mpr (mt asciiHex (by simp [hh]))⟩

theorem isMachineCode_iff {v : Bytes} : isMachineCode v = true ↔ v ≠ [] ∧ (unhex? v).isSome = true := by
  rw [isMachineCode_eq_isHex, unhex?_isSome, isHex]
  simp [and_assoc]

end Sys2Proof.Machine
end

section
/-! O38, one descriptor on encode: the field types' encoders and their errors, the bytes of every kind, and what becomes
of a descriptor that is ready (rules R204, R243, R244). -/

namespace Sys2Proof.Machine

open Sys2Proof.Safety

/-! ## The field types on encode (rules R173, R183 to R188) -/

section

variable {d : Desc} {v b : Bytes} {ft : FType} {w : Nat} {signed : Bool}

theorem intType_of_mem (h : (ft, w, signed) ∈ integerTypes) : intType ft = some (w, signed) ∧ 0 < w := by
  simp only [integerTypes, List.mem_cons, Prod.mk.injEq, List.not_mem_nil, or_false] at h
  rcases h with ⟨rfl, rfl, rfl⟩ | ⟨rfl, rfl, rfl⟩ | ⟨rfl, rfl, rfl⟩ | ⟨rfl, rfl, rfl⟩ | ⟨rfl, rfl, rfl⟩ |
    ⟨rfl, rfl, rfl⟩ | ⟨rfl, rfl, rfl⟩ | ⟨rfl, rfl, rfl⟩ <;> exact ⟨rfl, by decide⟩

/-- The integer types encode by one function (rule R187). -/
theorem ftEncodeRaw_integer (h : intType ft = some (w, signed)) (sc : Option Scale) (v : Bytes) :
    ftEncodeRaw ft sc v = intEncode w signed sc v := by
  cases ft <;> cases h <;> rfl

theorem zeroScale_of_scaleOf (h : (scaleOf d).1 ≠ 0) : zeroScale (descScale d) = false := by
  cases he : d.scaleEn with
  | false => simp [zeroScale, descScale, he]
  | true =>
    simp only [scaleOf, he, if_true] at h
    simpa [zeroScale, descScale, he] using h

/-- The rounded raw value of a number under a descriptor's scale (rules R171, R187). -/
def rawValue (d : Desc) (a : Int) (e : Nat) : Int := roundHA (a * 10 ^ (scaleOf d).2) (10 ^ e * (scaleOf d).1)

/-- One past the highest raw value of a type (rule R187). -/
def pastHighest (w : Nat) (signed : Bool) : Int := if signed then 2 ^ (8 * w - 1) else 2 ^ (8 * w)

theorem intLo_eq (w : Nat) (signed : Bool) : intLo w signed = if signed then -(2 ^ (8 * w - 1)) else 0 := by
  cases signed <;> simp [intLo]

theorem intHi_lt_iff {raw : Int} : intHi w signed < raw ↔ pastHighest w signed ≤ raw := by
  cases signed <;> simp only [intHi, pastHighest, if_true, if_false, Bool.false_eq_true] <;> push_cast <;> omega

/-- The range test of a type is `InRange`. -/
theorem inRange_iff (w : Nat) (signed : Bool) (raw : Int) :
    InRange w signed raw ↔ ¬ (raw < intLo w signed ∨ intHi w signed < raw) := by
  rw [not_or, Int.not_lt, intHi_lt_iff, Int.not_le, intLo_eq, InRange, pastHighest]
  cases signed <;> rfl

theorem intEncode_zero_scale (he : d.scaleEn = true) (hz : d.scaleM = 0) :
    intEncode w signed (descScale d) v = .error { cause := .zeroScale } := by
  simp [intEncode, intEncodeRaw, zeroScale_descScale, he, hz, Except.map]

theorem intEncode_bad_number (hs : (scaleOf d).1 ≠ 0) (hp : decParse? v = none) :
    intEncode w signed (descScale d) v = .error (stringErr .badNumber v) := by
  simp [intEncode, intEncodeRaw, zeroScale_of_scaleOf hs, decParse, hp, Except.map]

/-- A number scaled and rounded, then tested against its type's range (rule R187). -/
theorem intEncodeRaw_of_number {a : Int} {e : Nat} (hs : (scaleOf d).1 ≠ 0) (hp : decParse? v = some (a, e)) :
    intEncodeRaw w signed (descScale d) v =
      if rawValue d a e < intLo w signed ∨ intHi w signed < rawValue d a e then
        .error { cause := .valueOutOfRange, expNum := num w,
                 actNum := if intHi w signed < rawValue d a e then 1 else 0, actBytes := v }
      else .ok (rawValue d a e) := by
  simp only [intEncodeRaw, zeroScale_of_scaleOf hs, decParse, hp, effectiveScale_descScale, Bool.false_eq_true,
    if_false]
  rfl

theorem intEncode_out_of_range {a : Int} {e : Nat} (hs : (scaleOf d).1 ≠ 0) (hp : decParse? v = some (a, e))
    (out : rawValue d a e < intLo w signed ∨ intHi w signed < rawValue d a e) :
    intEncode w signed (descScale d) v =
      .error { cause := .valueOutOfRange, expNum := num w,
               actNum := if intHi w signed < rawValue d a e then 1 else 0, actBytes := v } := by
  rw [intEncode, intEncodeRaw_of_number hs hp, if_pos out]
  rfl

theorem intEncode_in_range {a : Int} {e : Nat} (hs : (scaleOf d).1 ≠ 0) (hp : decParse? v = some (a, e))
    (inside : InRange w signed (rawValue d a e)) :
    intEncode w signed (descScale d) v = .ok (intBytes w (rawValue d a e)) := by
  rw [intEncode, intEncodeRaw_of_number hs hp, if_neg ((inRange_iff _ _ _).mp inside)]
  rfl

theorem ftEncodeRaw_bcd_error (h : v = [] ∨ unhex? v = none) :
    ftEncodeRaw .bcd (descScale d) v = .error (stringErr .notMachineCode v) := by
  have notHex : ¬ isMachineCode v = true := by
    rw [isMachineCode_iff]
    rintro ⟨nonempty, bytes⟩
    obtain rfl | none := h
    · exact nonempty rfl
    · simp [none] at bytes
  simp [ftEncodeRaw, notHex]

theorem ftEncodeRaw_bcd (hv : v ≠ []) (hb : unhex? v = some b) : ftEncodeRaw .bcd (descScale d) v = .ok b := by
  have isHex : isMachineCode v = true := isMachineCode_iff.mpr ⟨hv, by simp [hb]⟩
  simp [ftEncodeRaw, isHex, hb]

theorem ftEncodeRaw_ascii_error {j : Nat} (h : firstNonAscii v = some j) :
    ftEncodeRaw .ascii (descScale d) v = .error { cause := .notAscii, actNum := num j, actBytes := v } := by
  simp [ftEncodeRaw, asciiCheck, h]

theorem ftEncodeRaw_ascii (h : ∀ c ∈ v, c.toNat ≤ 0x7F) : ftEncodeRaw .ascii (descScale d) v = .ok v := by
  have none : firstNonAscii v = none := by simpa [firstNonAscii] using h
  simp [ftEncodeRaw, asciiCheck, none]

/-- FLOAT and DOUBLE by their width: the parser's bytes, or BAD_NUMBER (rules R183, R184). -/
theorem ftEncodeRaw_float {parsed : Bool} (h : (ft, w, parsed) ∈ [(FType.float, 4, (Config.floatText.parse v).isSome),
    (FType.double, 8, (Config.doubleText.parse v).isSome)]) :
    intType ft = none ∧ ((parsed = false ∧ ftEncodeRaw ft (descScale d) v = .error (stringErr .badNumber v)) ∨
      (parsed = true ∧ ∃ b, b.length = w ∧ ftEncodeRaw ft (descScale d) v = .ok b)) := by
  simp only [List.mem_cons, Prod.mk.injEq, List.not_mem_nil, or_false] at h
  obtain ⟨rfl, rfl, rfl⟩ | ⟨rfl, rfl, rfl⟩ := h
  · refine ⟨rfl, ?_⟩
    cases hp : Config.floatText.parse v with
    | none => exact .inl ⟨rfl, by simp [ftEncodeRaw, hp]⟩
    | some p => exact .inr ⟨rfl, beN p.toNat 4, beN_length _ _, by simp [ftEncodeRaw, hp]⟩
  · refine ⟨rfl, ?_⟩
    cases hp : Config.doubleText.parse v with
    | none => exact .inl ⟨rfl, by simp [ftEncodeRaw, hp]⟩
    | some p => exact .inr ⟨rfl, beN p.toNat 8, beN_length _ _, by simp [ftEncodeRaw, hp]⟩

/-! ## The fit to the capacity (rules R188, R204) -/

/-- Bytes of another type than the integers that are not the capacity. -/
theorem fitCapacity_error (ht : intType ft = none) (h0 : capacity d ≠ 0) (hl : b.length ≠ capacity d) :
    fitCapacity ft (capacity d) b =
      .error { cause := .fieldLength, ft := some ft, expNum := num (capacity d), actNum := num b.length } := by
  simp [fitCapacity, ht, h0, hl]

theorem fitCapacity_of_fits (ht : intType ft = none) (h : FitsCapacity d b) :
    fitCapacity ft (capacity d) b = .ok b := by
  have fits : ¬ (capacity d ≠ 0 ∧ b.length ≠ capacity d) := by
    rintro ⟨h0, hl⟩
    exact h.elim h0 hl
  simp only [fitCapacity, ht, if_neg fits]

/-- An integer at the capacity, or at its native width where the capacity is 0. -/
theorem fitCapacity_integer {raw : Int} (ht : intType ft = some (w, signed)) (hw : 0 < w) (h : InRange w signed raw) :
    fitCapacity ft (capacity d) (intBytes w raw) =
      (let cap := if fieldCapacity d = 0 then w else fieldCapacity d
       .ok (beN (raw % 2 ^ (8 * cap)).toNat cap)) := by
  have same : capacity d = fieldCapacity d := rfl
  simp only [fitCapacity, ht, same, ← wrap_eq]
  by_cases h0 : fieldCapacity d = 0
  · simp only [h0, true_or, if_true]
    rfl
  · by_cases hcw : fieldCapacity d = w
    · simp only [hcw, or_true, if_true, ite_self]
      rfl
    · simp only [h0, hcw, or_self, if_false, resize_intBytes hw h]

/-! ## CONVERT (rule R204) -/

/-- An error of a type's encoder becomes the error of CONVERT, naming the type. -/
theorem encodeValue_convert_error {s : State} {e : Err} (h : ftEncodeRaw ft (descScale d) v = .error e) :
    encodeValue s .convert ft d v = raise { e with ft := some ft } := by
  simp [encodeValue, convertEncode, ftEncode, h, nameType, Except.map]

theorem encodeValue_convert {s : State} (h : ftEncodeRaw ft (descScale d) v = .ok b) :
    encodeValue s .convert ft d v = liftE ((fitCapacity ft (capacity d) b).map fun b => (b, v)) := by
  simp [encodeValue, convertEncode, ftEncode, h, nameType]

theorem encodeValue_convert_length {s : State} (h : ftEncodeRaw ft (descScale d) v = .ok b) (ht : intType ft = none)
    (h0 : capacity d ≠ 0) (hl : b.length ≠ capacity d) :
    encodeValue s .convert ft d v =
      raise { cause := .fieldLength, ft := some ft, expNum := num (capacity d), actNum := num b.length } := by
  rw [encodeValue_convert h, fitCapacity_error ht h0 hl]
  rfl

theorem encodeValue_convert_fits {s : State} (h : ftEncodeRaw ft (descScale d) v = .ok b) (ht : intType ft = none)
    (fits : FitsCapacity d b) : encodeValue s .convert ft d v = .ok (b, v) := by
  rw [encodeValue_convert h, fitCapacity_of_fits ht fits]
  rfl

end

/-! ## COMPARE and ENUM (rules R205, R206) -/

section

variable {s : State} {k : Kind} {ft : FType} {d : Desc} {v title : Bytes}

/-- The pattern of the first entry whose label is `v`. -/
theorem enumPattern_image {p : Nat} {entries : List (Bytes × Bytes)} (h : InTbl s p (enumImage entries)) (v : Bytes) :
    enumPattern s v (enumEntriesAt p entries) = .ok ((entries.find? (·.2 == v)).map (·.1)) := by
  induction entries generalizing p with
  | nil => rfl
  | cons e r ih =>
    have entry := firstEntry_of_image h
    rw [enumEntriesAt, enumPattern, tblEq_of_inTbl entry.label, res_ok_bind, List.find?_cons]
    cases e.2 == v with
    | true => simp [tblStr, entry.pat.bytes]
    | false => simpa using ih entry.rest

theorem checkCapacity_of_fits {b : Bytes} (h : FitsCapacity d b) : checkCapacity d b = .ok b := by
  have fits : ¬ (capacity d ≠ 0 ∧ b.length ≠ capacity d) := by
    rintro ⟨h0, hl⟩
    exact h.elim h0 hl
  rw [checkCapacity, if_neg fits]

/-- Where a descriptor gives a value bytes, those are what the translator computes. -/
theorem encodeValue_encodedBytes {b value : Bytes} (h : EncodedBytes s d v k ft b value) :
    encodeValue s k ft d v = .ok (b, value) := by
  cases h with
  | integer ft w signed a raw e cap member parsed scale hraw range hcap =>
    obtain ⟨ht, hw⟩ := intType_of_mem member
    subst hraw hcap
    have inside : InRange w signed (rawValue d a e) := range
    have encoded : ftEncodeRaw ft (descScale d) v = .ok (intBytes w (rawValue d a e)) :=
      (ftEncodeRaw_integer ht _ v).trans (intEncode_in_range scale parsed inside)
    rw [encodeValue_convert encoded, fitCapacity_integer ht hw inside]
    rfl
  | bcd b nonempty bytes fits => exact encodeValue_convert_fits (ftEncodeRaw_bcd nonempty bytes) rfl fits
  | ascii small fits => exact encodeValue_convert_fits (ftEncodeRaw_ascii small) rfl fits
  | compare target read fits =>
    have : tblStr s (auxPtr d) = .ok b := read
    simp [encodeValue, compareEncode, this, checkCapacity_of_fits fits]
  | pattern entries e table found fits =>
    simp [encodeValue, enumEncode, enumTable_of_hasEnum table, enumPattern_image table.table, found,
      checkCapacity_of_fits fits]
  | noPattern entries b table none nonempty bytes fits =>
    have isHex : isMachineCode v = true := isMachineCode_iff.mpr ⟨nonempty, by simp [bytes]⟩
    simp [encodeValue, enumEncode, enumTable_of_hasEnum table, enumPattern_image table.table, none, isHex, bytes,
      checkCapacity_of_fits fits]

/-- An ENUM with a table is legal where its words are, as every other kind is. -/
theorem illegalCondition_of_hasEnum (words : illegalWords k ft d = none)
    (table : k = .enum → ∃ entries, HasEnum s d entries) : illegalCondition s k ft d = .ok none := by
  by_cases hk : k = .enum
  · subst hk
    obtain ⟨entries, h⟩ := table rfl
    exact illegalCondition_of_table words (enumTable_of_hasEnum h)
  · exact illegalCondition_of_words words hk

theorem hasEnum_of_encodedBytes {b value : Bytes} (h : EncodedBytes s d v k ft b value) :
    k = .enum → ∃ entries, HasEnum s d entries := by
  intro hk
  cases h with
  | integer | bcd | ascii | compare => cases hk
  | pattern entries e table | noPattern entries b table => exact ⟨entries, table⟩

/-! ## One descriptor on encode (rules R204, R243, R244) -/

/-- A descriptor that is legal, applies and has a value is encoded and appended. -/
theorem emitField_of_value (legal : illegalCondition s k ft d = .ok none) (app : d.dir &&& capDir s.regs ≠ 0)
    (value : suppliedValue s k d = .ok (some v)) :
    emitField s k ft d = encodeField s k ft d v >>= fun p => appendFrame p.1 p.2 s := by
  simp only [emitField, legal, value, res_ok_bind, (applies_iff d s.regs).mpr app, Bool.not_true, Bool.false_eq_true,
    if_false]

theorem encodeField_range (h : d.endIndex.toNat < d.startIndex.toNat) :
    encodeField s k ft d v = raise { cause := .range, expNum := d.startIndex, actNum := d.endIndex } := if_pos h

/-- A descriptor that is ready goes on with its value's bytes, then the two appends. -/
theorem emitField_of_ready (h : EncodeReady s k ft d v title) (legal : illegalCondition s k ft d = .ok none) :
    emitField s k ft d = encodeValue s k ft d v >>= fun p =>
      appendFrame (swapped d p.1) (fieldRecord d (swapped d p.1) title p.2) s := by
  have named : tblStr s (titlePtr d) = .ok title := h.title
  rw [emitField_of_value legal h.runs.applies h.value, encodeField, if_neg (Nat.not_lt.mpr h.order)]
  simp only [named, swapBytes_eq_swapped]
  cases encodeValue s k ft d v <;> rfl

/-- Only the lengths of a record decide whether it fits OUT (rule R78). -/
theorem outFits_fieldRecord_iff {b b' value : Bytes} (h : b.length = b'.length) :
    outFits (fieldRecord d b title value) s ↔ outFits (fieldRecord d b' title value) s := by
  simp only [outFits, outNeed, fieldRecord, h]

/-- An error on encode fails the capsule with the index of the descriptor (rules R14, R290). -/
theorem exec_encode_error {i : Instr} {e : Err} (hi : i.descriptor? = some (k, ft, d)) (h : Encoding s)
    (he : emitField s k ft d = raise e) : exec i s = .next (failCapsule e (descIndex s) s) := by
  rw [exec_descriptor hi, runDescriptor_encoding h.busy h.main, he, raise_eq, attempt_raise]

/-- A value that has no bytes. -/
theorem exec_encodeValue_error {i : Instr} {e : Err} (hi : i.descriptor? = some (k, ft, d))
    (h : EncodeReady s k ft d v title) (legal : illegalCondition s k ft d = .ok none)
    (he : encodeValue s k ft d v = raise e) : exec i s = .next (failCapsule e (descIndex s) s) := by
  refine exec_encode_error hi h.encoding ?_
  rw [emitField_of_ready h legal, he]
  rfl

/-- Bytes that do not fit FRAME, then a record that does not fit OUT (rules R78, R243). -/
theorem exec_encode_overflow {i : Instr} {b value : Bytes} (hi : i.descriptor? = some (k, ft, d))
    (h : EncodeReady s k ft d v title) (legal : illegalCondition s k ft d = .ok none)
    (hb : encodeValue s k ft d v = .ok (b, value)) :
    (Config.frameMax < s.frameLen.toNat + b.length → exec i s = .next (failCapsule
      { cause := .bufferOverflow, expNum := num Config.frameMax, actNum := num (s.frameLen.toNat + b.length) }
      (descIndex s) s)) ∧
    (s.frameLen.toNat + b.length ≤ Config.frameMax → ¬ outFits (fieldRecord d (swapped d b) title value) s →
      exec i s = .next (failCapsule
        { cause := .bufferOverflow, expNum := num Config.outMax,
          actNum := num (s.outBytes.toNat + (10 + b.length + value.length + title.length)) } (descIndex s) s)) := by
  have len := swapped_length d b
  have emitted := emitField_of_ready h legal
  rw [hb, res_ok_bind] at emitted
  refine ⟨fun long => exec_encode_error hi h.encoding ?frame, fun short unfit => exec_encode_error hi h.encoding ?out⟩
  case frame =>
    rw [emitted, appendFrame, if_pos (len.symm ▸ long), frameOverflow, len]
  case out =>
    rw [emitted, appendFrame, if_neg (by rw [len]; omega), appendOut_eq_error.mpr ⟨unfit, rfl⟩, outOverflow, outNeed]
    simp only [fieldRecord, len]
    rfl

end

end Sys2Proof.Machine

open Sys2Proof Sys2Proof.Machine Sys2Proof.Safety

/-- Settles O38: each error at the point of R204 where it arises, a value without bytes by `exec_encodeValue_error`, the
two overflows by `exec_encode_overflow`. -/
theorem descriptorErrorsOnEncode : Obligations.DescriptorErrorsOnEncode := by
  intro i k ft d s v title hi fails cap badNumber fieldLength overflow outNeeded
  refine ⟨fun encoding runs table value order => ?range, fun ready hk => ?convert, fun b value ready bytes => ?overflow⟩
  case range =>
    have legal := illegalCondition_of_hasEnum (illegalWords_of_runs runs) table
    refine exec_encode_error hi encoding ?_
    rw [emitField_of_value legal runs.applies value, encodeField_range order]
    rfl
  case overflow =>
    have legal := illegalCondition_of_hasEnum (illegalWords_of_runs ready.runs) (hasEnum_of_encodedBytes bytes)
    exact exec_encode_overflow hi ready legal (encodeValue_encodedBytes bytes)
  case convert =>
    subst hk
    have legal := illegalCondition_of_words (s := s) (illegalWords_of_runs ready.runs) (by decide)
    have fail {e : Err} (h : encodeValue s .convert ft d v = raise e) : fails e :=
      exec_encodeValue_error hi ready legal h
    have failType {e : Err} (h : ftEncodeRaw ft (descScale d) v = .error e) : fails { e with ft := some ft } :=
      fail (encodeValue_convert_error h)
    refine ⟨fun w signed member => ?integer, fun hf => ?bcd, fun hf => ?ascii, fun w parsed member => ?float⟩
    case integer =>
      have encoder := ftEncodeRaw_integer (intType_of_mem member).1 (descScale d) v
      refine ⟨fun he hz => ?zeroScale, fun hs hp => ?badNumber, fun a e hs hp out => ?outOfRange⟩
      case zeroScale => exact (failType (encoder.trans (intEncode_zero_scale he hz)) :)
      case badNumber => exact (failType (encoder.trans (intEncode_bad_number hs hp)) :)
      case outOfRange =>
        have outside : rawValue d a e < intLo w signed ∨ intHi w signed < rawValue d a e := by
          rw [intHi_lt_iff, intLo_eq]
          exact out
        have failed := failType (encoder.trans (intEncode_out_of_range hs hp outside))
        simp only [intHi_lt_iff] at failed
        exact failed
    case bcd =>
      subst hf
      refine ⟨fun h => ?notHex, fun b hv hb h0 hl => ?length⟩
      case notHex => exact (failType (ftEncodeRaw_bcd_error h) :)
      case length => exact fail (encodeValue_convert_length (ftEncodeRaw_bcd hv hb) rfl h0 hl)
    case ascii =>
      subst hf
      refine ⟨fun j hj => ?notAscii, fun small h0 hl => ?length⟩
      case notAscii => exact (failType (ftEncodeRaw_ascii_error hj) :)
      case length => exact fail (encodeValue_convert_length (ftEncodeRaw_ascii small) rfl h0 hl)
    case float =>
      obtain ⟨ht, ⟨rfl, bad⟩ | ⟨rfl, b, rfl, good⟩⟩ := ftEncodeRaw_float (d := d) member
      · have failed : fails badNumber := (failType bad :)
        exact ⟨fun _ _ => failed, fun _ _ => failed, fun _ _ _ => failed⟩
      · have overflows (hc : cap = 0 ∨ cap = b.length) :=
          exec_encode_overflow hi ready legal (encodeValue_convert_fits good ht (hc.imp id Eq.symm))
        refine ⟨fun h0 hl => fail (encodeValue_convert_length good ht h0 (Ne.symm hl)),
          fun hc long => (overflows hc).1 long, fun hc short unfit => (overflows hc).2 short ?_⟩
        rwa [outFits_fieldRecord_iff (b' := List.replicate b.length 0) (by simp [swapped_length])]

end

section
/-! O29: CONVERT on decode where the text's length is open. A descriptor that is ready and gives a value appends its
record, or fails the capsule where the record does not fit OUT (rules R78, R201, R219). -/

namespace Sys2Proof.Machine

open Sys2Proof.Safety

variable {s : State} {k : Kind} {ft : FType} {d : Desc} {raw title v : Bytes}

/-- Inside DECODE the next descriptor is PLAN's next one (rules R17, R219). -/
theorem advance_of_plan (h : s.fromWd = false) : advance s = { s with planPc := s.planPc + 1 } := if_neg (by simp [h])

/-- One descriptor on decode once its value is known: whether the record fits OUT is all that is left to decide. -/
theorem exec_of_decodedValue {i : Instr} (hi : i.descriptor? = some (k, ft, d)) (ready : DecodeReady s k ft d raw title)
    (value : DecodedValue s d raw k ft v) :
    exec i s = .next
      (if outFits (fieldRecord d raw title v) s then
        { outAppended (fieldRecord d raw title v) s with planPc := s.planPc + 1 }
      else failCapsule (outOverflow (fieldRecord d raw title v) s) s.planPc s) := by
  have legal := illegalCondition_of_decodedValue value (illegalWords_of_runs ready.runs)
  have extracted := extractField_of_ready ready legal
  rw [decodeValue_decodedValue value, res_ok_bind] at extracted
  split
  · rename_i fits
    rw [appendOut_eq_ok.mpr ⟨fits, rfl⟩] at extracted
    rw [exec_descriptor hi, runDescriptor_reading ready.decoding.busy ready.decoding.main, extracted, attempt_ok]
    exact congrArg Host.Outcome.next (advance_of_plan (s := outAppended _ s) ready.decoding.plan)
  · rename_i unfit
    rw [appendOut_eq_error.mpr ⟨unfit, rfl⟩] at extracted
    exact exec_decode_error hi ready.decoding extracted

end Sys2Proof.Machine

open Sys2Proof Sys2Proof.Machine Sys2Proof.Safety

/-- Settles O29: the text of the pattern is the field's value (`DecodedText`), and `exec_of_decodedValue` runs it. -/
theorem convertFloatDecodes : Obligations.ConvertFloatDecodes := by
  intro d s raw title
  have width := swapped_length d raw
  refine ⟨fun ready bytes => ?float, fun ready bytes => ?double⟩
  case float => exact exec_of_decodedValue rfl ready (.convert _ _ (.float _ (width.trans bytes)))
  case double => exact exec_of_decodedValue rfl ready (.convert _ _ (.double _ (width.trans bytes)))

end

section
/-! O60: the hex and the binary form of an integer. Both write the pattern of its two's complement, most significant
digit first, and read it back; on the type's range the pattern determines the integer (rules R93 to R95). -/

namespace Sys2Proof.Machine

/-! ## Two's complement read back (rules R6, R93) -/

/-- The integer a pattern of `bits` bits stands for, as both converters read it (rules R94, R95). -/
def patternValue (signed : Bool) (bits pattern : Nat) : Int := if signed then sext bits pattern else pattern

theorem wrap_lt (bits : Nat) (v : Int) : wrap bits v < 2 ^ bits := by
  rw [← wrap_mod (Nat.le_refl bits) v]
  exact Nat.mod_lt _ (Nat.two_pow_pos _)

theorem patternValue_wrap {w : Nat} {signed : Bool} {v : Int} (hw : 0 < w) (h : InRange w signed v) :
    patternValue signed (8 * w) (wrap (8 * w) v) = v := by
  have double : (2 : Int) ^ (8 * w) = 2 * 2 ^ (8 * w - 1) := by
    rw [← pow_succ', show 8 * w - 1 + 1 = 8 * w by omega]
  have half : ((2 ^ (8 * w - 1) : Nat) : Int) = 2 ^ (8 * w - 1) := by norm_num
  cases signed with
  | false =>
    obtain ⟨lo, hi⟩ : 0 ≤ v ∧ v < 2 ^ (8 * w) := h
    rw [wrap_of_nonneg lo hi]
    exact Int.toNat_of_nonneg lo
  | true =>
    obtain ⟨lo, hi⟩ : -(2 ^ (8 * w - 1)) ≤ v ∧ v < 2 ^ (8 * w - 1) := h
    simp only [patternValue, sext, if_true]
    by_cases negative : v < 0
    · rw [wrap_of_neg negative (by omega), if_neg (by omega)]
      omega
    · rw [wrap_of_nonneg (by omega) (by omega), if_pos (by omega)]
      omega

/-! ## The hex form (rules R93, R94) -/

theorem resize_same (b : Bytes) (signed negative : Bool) : resize b signed negative b.length = b := by simp [resize]

theorem isHex_hex {b : Bytes} (h : b ≠ []) : isHex (hex b) = true := by
  rw [← isMachineCode_eq_isHex, isMachineCode_iff, unhex_hex]
  refine ⟨fun none => h ?_, rfl⟩
  have := hex_length b
  rw [none] at this
  exact List.length_eq_zero_iff.mp (by simpa using this.symm)

theorem intToHex_native (v : Int) (w : Nat) (signed : Bool) : intToHex v w signed w = hex (beN (wrap (8 * w) v) w) := by
  have := resize_same (beN (wrap (8 * w) v) w) signed (v < 0)
  rw [beN_length] at this
  rw [intToHex, this]

/-- The hex of bytes of the native width reads as the integer those bytes are. -/
theorem hexToInt_hex {b : Bytes} (h : 0 < b.length) (signed : Bool) :
    hexToInt (hex b) b.length signed = .ok (patternValue signed (8 * b.length) (be b)) := by
  simp [hexToInt, isHex_hex (List.length_pos_iff.mp h), unhex_hex, patternValue]

theorem hexToInt_intToHex {w : Nat} {signed : Bool} {v : Int} (hw : 0 < w) (h : InRange w signed v) :
    hexToInt (intToHex v w signed w) w signed = .ok v := by
  have read := hexToInt_hex (b := beN (wrap (8 * w) v) w) (by rwa [beN_length]) signed
  rw [beN_length, be_beN, Nat.mod_eq_of_lt (wrap_lt _ _), patternValue_wrap hw h] at read
  rwa [intToHex_native]

/-! ## The binary form (rule R95) -/

/-- The number a string of binary digits writes, as `binToInt` reads it. -/
def binValue (s : Bytes) : Nat := s.foldl (fun acc c => 2 * acc + (c.toNat - 0x30)) 0

@[simp] theorem binDigits_length (v n : Nat) : (binDigits v n).length = n := by
  induction n generalizing v with
  | zero => rfl
  | succ n ih => simp [binDigits, ih]

theorem binDigits_all (v n : Nat) : (binDigits v n).all (fun c => c == 0x30 || c == 0x31) = true := by
  induction n generalizing v with
  | zero => rfl
  | succ n ih =>
    rw [binDigits, List.all_append, ih]
    split <;> rfl

theorem binValue_concat (s : Bytes) (c : Byte) : binValue (s ++ [c]) = 2 * binValue s + (c.toNat - 0x30) := by
  simp [binValue, List.foldl_append]

/-- The digits write the low bits of their number. -/
theorem binValue_binDigits (v n : Nat) : binValue (binDigits v n) = v % 2 ^ n := by
  induction n generalizing v with
  | zero => simp [binDigits, binValue, Nat.mod_one]
  | succ n ih =>
    have digit : (if v % 2 = 1 then (0x31 : Byte) else 0x30).toNat - 0x30 = v % 2 := by
      obtain even | odd := Nat.mod_two_eq_zero_or_one v
      · rw [even]; rfl
      · rw [odd]; rfl
    rw [binDigits, binValue_concat, ih, digit, Nat.pow_succ', Nat.mod_mul]
    omega

theorem intToBin_native (v : Int) (n : Nat) : intToBin v n n = binDigits (wrap n v) n := by simp [intToBin]

/-- The digits of a pattern of 8, 16, 32 or 64 bits read as the integer the pattern is. -/
theorem binToInt_binDigits {n : Nat} (h : n ∈ [8, 16, 32, 64]) (v : Nat) (signed : Bool) :
    binToInt (binDigits v n) signed = .ok (patternValue signed n (v % 2 ^ n)) := by
  have shape : ([8, 16, 32, 64].contains (binDigits v n).length &&
      (binDigits v n).all fun c => c == 0x30 || c == 0x31) = true := by
    rw [binDigits_all, binDigits_length, Bool.and_true, List.contains_iff_mem]
    exact h
  have value : (binDigits v n).foldl (fun acc c => 2 * acc + (c.toNat - 0x30)) 0 = v % 2 ^ n := binValue_binDigits v n
  rw [binToInt, if_pos shape, value, binDigits_length]
  rfl

theorem binToInt_intToBin {w : Nat} {signed : Bool} {v : Int} (bits : 8 * w ∈ [8, 16, 32, 64])
    (positive : 0 < w) (h : InRange w signed v) : binToInt (intToBin v (8 * w) (8 * w)) signed = .ok v := by
  rw [intToBin_native, binToInt_binDigits bits, Nat.mod_eq_of_lt (wrap_lt _ _), patternValue_wrap positive h]

end Sys2Proof.Machine

open Sys2Proof Sys2Proof.Machine Sys2Proof.Safety

/-- Settles O60: the pattern of an integer comes back from its hex digits (`hexToInt_intToHex`) and from its binary
digits (`binToInt_intToBin`). -/
theorem hexAndBinaryFormsRoundTrip : Obligations.HexAndBinaryFormsRoundTrip := by
  intro w signed v width range
  have legal : 8 * w ∈ [8, 16, 32, 64] ∧ 0 < w := by
    simp only [List.mem_cons, List.not_mem_nil, or_false] at width ⊢
    omega
  obtain ⟨bits, positive⟩ := legal
  exact ⟨hexToInt_intToHex positive range, binToInt_intToBin bits positive range⟩

end

section
/-! O47: FINALIZE with a cipher alone. Its first step replaces the payload range by the encryption and writes what
followed the payload after it; the frame's bytes before the payload are not touched (rules R98, R247). -/

namespace Sys2Proof.Machine

open Sys2Proof.Safety

/-! ## A string overwritten from an index on -/

/-- The bytes before the write are the old ones. -/
theorem readBytes_writeBytes_overlay {s : State} {sp : Space} {n p : Nat} {b r : Bytes} (read : readBytes s sp 0 n = .ok b)
    (hp : p ≤ n) (fits : p + r.length ≤ spaceSize sp) :
    readBytes (writeBytes s sp p r) sp 0 (p + r.length) = .ok (b.take p ++ r) := by
  have before : readBytes (writeBytes s sp p r) sp 0 p = .ok (b.take p) := by
    rw [readBytes_writeBytes_of_disjoint (.inr (.inl (by omega)))]
    simpa [slice] using readBytes_part read (i := 0) (k := p) (by omega)
  refine readBytes_append before ?_
  rw [Nat.zero_add]
  exact readBytes_writeBytes_self fits

/-! ## ENC over a range of FRAME (rules R138, R247) -/

/-- What an encryption that passed the check demanded, with the register lengths in place of the operands' own. -/
theorem encryptLengths_of_cipherEnc {bc : Config.BlockCipher} {mode : BitVec 8} {key iv data ct : Bytes}
    (enc : cipherEnc bc mode key iv data = .ok ct) {k i : Nat} (hk : mode.toNat ≠ 0 → k = 16)
    (hi : 1 < mode.toNat → i = 16) : EncryptLengths mode k i data.length := by
  have passed : cipherCheck mode key.length iv.length data.length false = .ok () := by
    unfold cipherEnc at enc
    split at enc
    · cases enc
    · assumption
  refine ⟨?known, hk, hi, fun cts => ?long⟩
  case known =>
    by_contra unknown
    rw [cipherCheck, if_pos (by omega)] at passed
    cases passed
  case long =>
    obtain rfl : mode = 6 := by bv_omega
    rw [cipherCheck, if_neg (by decide), if_neg (by decide)] at passed
    split_ifs at passed with noKey noIv short
    exact Nat.le_of_not_lt fun hl => short ⟨rfl, hl⟩

/-- The engine encrypts a range of FRAME with its operands, once the lengths in the registers pass the check. -/
theorem encryptFrame_of_operands {s : State} {key iv data : Bytes} {p q : Nat} (h : CipherOperands s key iv)
    (read : readBytes s .frame p (q - p) = .ok data)
    (lengths : EncryptLengths (cipherMode s.regs) s.regs.keyLen.toNat s.regs.ivLen.toNat (q - p)) :
    encryptFrame s p q = liftE (cipherEnc Config.blockCipher (cipherMode s.regs) key iv data) := by
  rw [← cipherEnc_ignored_operands]
  simp only [encryptFrame, lengths.check, cipherKey_of_operands h, cipherIv_of_operands h, read, liftE_ok, res_ok_bind]

/-! ## The first step of FINALIZE (rule R247) -/

/-- The state after the payload was encrypted to `ct`, with `tail` after it. -/
def payloadReplaced (s : State) (p : Nat) (ct tail : Bytes) : State :=
  { writeBytes s .frame p (ct ++ tail) with frameLen := num (p + (ct ++ tail).length) }

/-- The frame with its payload replaced reads back, and nothing else has changed. -/
theorem payloadReplaced_memory {s : State} {frame ct tail : Bytes} {n p : Nat}
    (read : readBytes s .frame 0 n = .ok frame) (hp : p ≤ n) (fits : p + (ct ++ tail).length ≤ Config.frameMax) :
    readBytes (payloadReplaced s p ct tail) .frame 0 (p + (ct ++ tail).length) = .ok (frame.take p ++ (ct ++ tail)) ∧
      ∀ sp x, ¬ (sp = .frame ∧ p ≤ x ∧ x < p + (ct ++ tail).length) →
        readByte (payloadReplaced s p ct tail) sp x = readByte s sp x := by
  have mem : (payloadReplaced s p ct tail).mem = (writeBytes s .frame p (ct ++ tail)).mem := rfl
  refine ⟨?_, fun sp x outside => ?_⟩
  · rw [readBytes_congr_mem mem]
    exact readBytes_writeBytes_overlay read hp fits
  · rw [readByte_congr mem, readByte_writeBytes, if_neg]
    exact fun ⟨hsp, lo, hi, _⟩ => outside ⟨hsp, lo, hi⟩

/-- Encryption of a payload range whose result fits FRAME. -/
theorem encryptPayload_of_fits {s : State} {frame ct : Bytes} {p q : Nat} (cipher : cipherOn s.regs = true)
    (read : readBytes s .frame 0 s.frameLen.toNat = .ok frame)
    (payload : regRange s.frameLen.toNat s.regs.payStart s.regs.payEnd = .ok (p, q))
    (enc : encryptFrame s p q = .ok ct) (fits : p + (ct ++ frame.drop q).length ≤ Config.frameMax) :
    encryptPayload s = .ok (payloadReplaced s p ct (frame.drop q)) := by
  obtain ⟨order, inside⟩ := regRange_bounds payload
  have len : frame.length = s.frameLen.toNat := readBytes_length read
  have tail : readBytes s .frame q (s.frameLen.toNat - q) = .ok (frame.drop q) := by
    have := readBytes_part read (i := q) (k := s.frameLen.toNat - q) (by omega)
    rw [Nat.zero_add, show q + (s.frameLen.toNat - q) = frame.length by omega] at this
    simpa [slice] using this
  have newLength : s.frameLen.toNat - (q - p) + ct.length = p + (ct ++ frame.drop q).length := by
    rw [List.length_append, List.length_drop]
    omega
  simp only [encryptPayload, cipher, if_true, payload, enc, res_ok_bind, newLength, if_neg (Nat.not_lt.mpr fits), tail,
    res_pure_eq]
  rfl

/-! ## FINALIZE (rules R246, R250) -/

theorem writeLength_of_off {s : State} (h : lenEn s.regs = false) : writeLength s = .ok s := if_neg (by simp [h])

theorem writeCrc_of_off {s : State} (h : crcEn s.regs = false) : writeCrc s = .ok s := if_neg (by simp [h])

/-- FINALIZE accepted is its three steps in order. -/
theorem exec_finalize_of_accepted {a : BitVec 24} {s : State} (h : Accepted (.finalize a) s) :
    exec (.finalize a) s =
      attempt (encryptPayload (acceptCommand s)) (fun e => failCapsule e noIndex (acceptCommand s)) fun s2 =>
        attempt (writeLength s2) (fun e => failCapsule e noIndex s2) fun s3 =>
          attempt (writeCrc s3) (fun e => failCapsule e noIndex s3) fun s4 => .next (finalizeDone s4) :=
  if_pos (commandAccepted_of_accepted (by simp [acceptedStates, accepts]) h)

/-- With neither a length field nor a checksum, FINALIZE ends with its encryption. -/
theorem exec_finalize_of_encryption {a : BitVec 24} {s t : State} (h : Accepted (.finalize a) s)
    (enc : encryptPayload (acceptCommand s) = .ok t) (len : lenEn t.regs = false) (crc : crcEn t.regs = false) :
    exec (.finalize a) s = .next (finalizeDone t) := by
  rw [exec_finalize_of_accepted h, enc, attempt_ok, writeLength_of_off len, attempt_ok, writeCrc_of_off crc, attempt_ok]

end Sys2Proof.Machine

open Sys2Proof Sys2Proof.Machine Sys2Proof.Safety

/-- Settles O47: on the accepted state the engine gives the encryption (`encryptFrame_of_operands`), which
`encryptPayload_of_fits` puts in the payload's place; the two other steps are off. -/
theorem finalizeEncryptsThePayload : Obligations.FinalizeEncryptsThePayload := by
  intro a s frame key iv ct p q accepted steps read payload operands lengths enc frame' fits
  have frameLen : frame.length = s.frameLen.toNat := readBytes_length read
  rw [frameLen] at payload
  have payloadReg : regRange s.frameLen.toNat s.regs.payStart s.regs.payEnd = .ok (p, q) := liftE_eq_ok.mpr payload
  obtain ⟨order, inside⟩ := regRange_bounds payloadReg
  have newFrame : frame' = frame.take p ++ (ct ++ frame.drop q) := List.append_assoc _ _ _
  have newLength : frame'.length = p + (ct ++ frame.drop q).length := by
    rw [newFrame, List.length_append, List.length_take, Nat.min_eq_left (by omega)]
  have readAccepted : readBytes (acceptCommand s) .frame 0 s.frameLen.toNat = .ok frame :=
    (readBytes_congr_mem (acceptCommand_mem s) _ _ _).trans read
  have data : readBytes (acceptCommand s) .frame p (q - p) = .ok (slice frame p q) := by
    have := readBytes_part readAccepted (i := p) (k := q - p) (by omega)
    rwa [Nat.zero_add, Nat.add_sub_cancel' order] at this
  have registers : EncryptLengths (cipherMode s.regs) s.regs.keyLen.toNat s.regs.ivLen.toNat (q - p) := by
    obtain ⟨keyLen, ivLen⟩ := lengths
    rw [← readBytes_length data]
    exact encryptLengths_of_cipherEnc enc (fun hm => by rw [keyLen (by bv_omega)]; rfl) fun hm => by rw [ivLen hm]; rfl
  have engine : encryptFrame (acceptCommand s) p q = .ok ct := by
    rw [encryptFrame_of_operands (cipherOperands_accept operands) data registers, acceptCommand_regs, enc, liftE_ok]
  rw [newLength] at fits ⊢
  have cipher : cipherOn s.regs = true := decide_eq_true (steps.cipher.mp rfl)
  have encrypted := encryptPayload_of_fits (s := acceptCommand s) cipher readAccepted payloadReg engine fits
  obtain ⟨readBack, outside⟩ := payloadReplaced_memory readAccepted (by omega : p ≤ s.frameLen.toNat) fits
  refine ⟨_, exec_finalize_of_encryption accepted encrypted steps.len steps.crc, rfl, ?frame, fun sp x hx => ?others⟩
  case frame =>
    rw [newFrame, ← readBack]
    exact readBytes_congr_mem (finalizeDone_mem _) _ _ _
  case others =>
    rw [readByte_congr (finalizeDone_mem _), outside sp x hx, readByte_congr (acceptCommand_mem s)]

end

section
/-! O19 to O22, the CRC as a function: a halfword as two bytes, the comparison in either order, and the register of
R121, whose every step is injective where the polynomial is odd. -/

namespace Sys2Proof.Machine

/-! ## A halfword as two bytes (rules R124, R126) -/

/-- A halfword with its two bytes in the other order. -/
def swapHalf (c : BitVec 16) : BitVec 16 := c.extractLsb' 0 8 ++ c.extractLsb' 8 8

theorem beN_two (c : BitVec 16) : beN c.toNat 2 = [c.extractLsb' 8 8, c.extractLsb' 0 8] := by
  have high : BitVec.ofNat 8 (c.toNat / 256) = c.extractLsb' 8 8 := by
    rw [BitVec.extractLsb', Nat.shiftRight_eq_div_pow]
  have low : BitVec.ofNat 8 c.toNat = c.extractLsb' 0 8 := rfl
  rw [← high, ← low]
  rfl

theorem rev_beN_two (c : BitVec 16) : rev (beN c.toNat 2) = beN (swapHalf c).toNat 2 := by
  have high : (swapHalf c).extractLsb' 8 8 = c.extractLsb' 0 8 := BitVec.extractLsb'_append_eq_left
  have low : (swapHalf c).extractLsb' 0 8 = c.extractLsb' 8 8 := BitVec.extractLsb'_append_eq_right
  rw [beN_two, beN_two, high, low]
  rfl

/-- The two bytes determine the halfword. -/
theorem beN_two_inj {c d : BitVec 16} : beN c.toNat 2 = beN d.toNat 2 ↔ c = d :=
  ⟨fun h => by rw [← ofNat_be_beN c, h, ofNat_be_beN], fun h => h ▸ rfl⟩

/-- A pattern of any width in a 32-bit register. -/
theorem num_toNat_eq_setWidth {w : Nat} (c : BitVec w) : num c.toNat = c.setWidth 32 := BitVec.ofNat_toNat 32 c

theorem num_be_beN_two (c : BitVec 16) : num (be (beN c.toNat 2)) = c.setWidth 32 := by
  rw [be_beN_two (by omega), num_toNat_eq_setWidth]

/-- The two bytes of a checksum as the register CRC_BYTES holds them (rules R124, R127). -/
theorem num_be_crcRender (c : BitVec 16) (le : Bool) :
    num (be (crcRender c le)) = if le then (swapHalf c).setWidth 32 else c.setWidth 32 := by
  cases le with
  | false => exact num_be_beN_two c
  | true => exact (congrArg (fun b => num (be b)) (rev_beN_two c)).trans (num_be_beN_two (swapHalf c))

/-! ## The comparison (rule R126) -/

/-- A candidate is accepted exactly where one of its two orders is the checksum's bytes. -/
theorem crcCompareBytes_accepts_iff {cand : Bytes} {c : BitVec 16} :
    (∃ swap, crcCompareBytes cand c = .ok swap) ↔ cand = beN c.toNat 2 ∨ rev cand = beN c.toNat 2 := by
  by_cases straight : cand = beN c.toNat 2
  · simp [crcCompareBytes, straight]
  · by_cases swapped : rev cand = beN c.toNat 2 <;> simp [crcCompareBytes, straight, swapped]

theorem crcCompareBytes_mismatch {cand : Bytes} {c : BitVec 16} (straight : cand ≠ beN c.toNat 2)
    (swapped : rev cand ≠ beN c.toNat 2) :
    crcCompareBytes cand c = .error { cause := .crcMismatch, expBytes := beN c.toNat 2, actBytes := cand,
                                      expNum := num c.toNat, actNum := num (be cand) } :=
  (if_neg straight).trans (if_neg swapped)

/-- The comparison of two halfwords by their bytes. -/
theorem crcCompareBytes_beN (x c : BitVec 16) :
    crcCompareBytes (beN x.toNat 2) c =
      if x = c then .ok false
      else if swapHalf x = c then .ok true
      else .error { cause := .crcMismatch, expBytes := beN c.toNat 2, actBytes := beN x.toNat 2,
                    expNum := c.setWidth 32, actNum := x.setWidth 32 } := by
  simp only [crcCompareBytes, rev_beN_two, beN_two_inj, num_toNat_eq_setWidth, num_be_beN_two]

/-- What the writer renders, in either order, is accepted (rules R124, R126). -/
theorem crcCompareBytes_crcRender (c : BitVec 16) (le : Bool) :
    ∃ swap, crcCompareBytes (crcRender c le) c = .ok swap := by
  cases le with
  | false => exact crcCompareBytes_accepts_iff.mpr (.inl rfl)
  | true => exact crcCompareBytes_accepts_iff.mpr (.inr (rev_rev _))

/-- What CRC_EMIT gives is the checksum and its two bytes in the order asked for (rule R124). -/
theorem crcEmit_eq_ok {alg : BitVec 4} {b two four : Bytes} {le : Bool} {c : BitVec 16}
    (h : crcEmit alg b le = .ok (c, two, four)) : crc16 alg b = .ok c ∧ two = crcRender c le := by
  unfold crcEmit at h
  cases crc : crc16 alg b with
  | error e => simp [crc, Except.map] at h
  | ok v =>
    simp only [crc, Except.map, Except.ok.injEq, Prod.mk.injEq] at h
    obtain ⟨rfl, rfl, -⟩ := h
    exact ⟨rfl, rfl⟩

/-- Of two bytes that are a checksum in one of the two orders, neither can change alone: with the order kept this is
plain, and with the order crossed the byte that stays makes both bytes of the checksum the same. -/
theorem pair_eq_of_accepted {h l x y x' y' : Byte} (accepted : [x, y] = [h, l] ∨ [y, x] = [h, l])
    (accepted' : [x', y'] = [h, l] ∨ [y', x'] = [h, l]) (one : x' = x ∨ y' = y) : x' = x ∧ y' = y := by
  simp only [List.cons.injEq, and_true] at accepted accepted'
  obtain ⟨rfl, rfl⟩ | ⟨rfl, rfl⟩ := accepted <;> obtain ⟨rfl, rfl⟩ | ⟨rfl, rfl⟩ := accepted'
  case inl.inl | inr.inr => exact ⟨rfl, rfl⟩
  case inl.inr | inr.inl =>
    obtain rfl | rfl := one
    · exact ⟨rfl, rfl⟩
    · exact ⟨rfl, rfl⟩

/-! ## The register is injective in what goes in (rules R121, R129) -/

section

variable {p : Config.CrcParams}

/-- With an odd polynomial the bit shifted out stands in the bit shifted in. -/
theorem crcBit_low {poly : BitVec 16} (odd : poly.getLsbD 0 = true) (c : BitVec 16) :
    (crcBit poly c).getLsbD 0 = c.getLsbD 15 := by
  unfold crcBit
  split <;> simp_all

theorem eq_of_shiftLeft_eq {c d : BitVec 16} (top : c.getLsbD 15 = d.getLsbD 15) (h : c <<< 1 = d <<< 1) : c = d := by
  apply BitVec.eq_of_getLsbD_eq
  intro i hi
  by_cases last : i = 15
  · rw [last, top]
  · have shifted : (c <<< 1).getLsbD (i + 1) = (d <<< 1).getLsbD (i + 1) := by rw [h]
    simpa [BitVec.getLsbD_eq_getElem, hi, show i + 1 < 16 by omega] using shifted

theorem crcBit_injective {poly : BitVec 16} (odd : poly.getLsbD 0 = true) : Function.Injective (crcBit poly) := by
  intro c d h
  have top : c.getLsbD 15 = d.getLsbD 15 := by rw [← crcBit_low odd, h, crcBit_low odd]
  apply eq_of_shiftLeft_eq top
  unfold crcBit at h
  rw [top] at h
  split at h
  · exact (BitVec.xor_left_inj _).mp h
  · exact h

theorem crcBits_injective {poly : BitVec 16} (odd : poly.getLsbD 0 = true) (n : Nat) :
    Function.Injective (crcBits poly n) := by
  induction n with
  | zero => exact fun _ _ h => h
  | succ n ih => exact ih.comp (crcBit_injective odd)

/-- One byte into two different accumulators leaves them different. -/
theorem crcByte_injective_acc (odd : p.poly.getLsbD 0 = true) (b : Byte) : Function.Injective (crcByte p · b) :=
  fun _ _ h => (BitVec.xor_left_inj _).mp (crcBits_injective odd 8 h)

/-- Two different bytes into one accumulator leave it different. -/
theorem crcByte_injective_byte (odd : p.poly.getLsbD 0 = true) (c : BitVec 16) : Function.Injective (crcByte p c) := by
  intro x y h
  have padded := (BitVec.xor_right_inj _).mp (crcBits_injective odd 8 h)
  have fed : (if p.refin then x.reverse else x) = if p.refin then y.reverse else y := by
    have := congrArg (BitVec.extractLsb' 8 8) padded
    rwa [BitVec.extractLsb'_append_eq_left, BitVec.extractLsb'_append_eq_left] at this
  split at fed
  · rw [← BitVec.reverse_reverse_eq (x := x), fed, BitVec.reverse_reverse_eq]
  · exact fed

theorem crcFold_injective (odd : p.poly.getLsbD 0 = true) (b : Bytes) :
    Function.Injective (fun c => b.foldl (crcByte p) c) := by
  induction b with
  | nil => exact fun _ _ h => h
  | cons x b ih => exact ih.comp (crcByte_injective_acc odd x)

/-- The output stage (rule R121) loses nothing of the register. -/
theorem crc16P_inj {b d : Bytes} :
    crc16P p b = crc16P p d ↔ b.foldl (crcByte p) p.init = d.foldl (crcByte p) p.init := by
  refine ⟨fun h => ?_, fun h => by simp only [crc16P, h]⟩
  have out := (BitVec.xor_left_inj _).mp h
  split at out
  · rw [← BitVec.reverse_reverse_eq (x := b.foldl _ _), out, BitVec.reverse_reverse_eq]
  · exact out

/-- One byte replaced by another changes the checksum. -/
theorem crc16P_set_ne (odd : p.poly.getLsbD 0 = true) {b : Bytes} {k : Nat} (hk : k < b.length) {x : Byte}
    (hx : x ≠ b[k]) : crc16P p (b.set k x) ≠ crc16P p b := by
  intro h
  have same : crc16P p (b.set k x) = crc16P p (b.set k b[k]) := h.trans (by rw [List.set_getElem_self])
  simp only [crc16P_inj, List.set_eq_take_append_cons_drop, if_pos hk, List.foldl_append] at same
  exact hx (crcByte_injective_byte odd _ (crcFold_injective odd _ same))

end

/-- Flipping a bit of a byte changes it. -/
theorem xor_bit_ne (b : Byte) {j : Nat} (hj : j < 8) : b ^^^ (1#8 <<< j) ≠ b := by
  intro h
  have flipped : (b ^^^ (1#8 <<< j)).getLsbD j = b.getLsbD j := by rw [h]
  simp [hj] at flipped

end Sys2Proof.Machine

open Sys2Proof Sys2Proof.Machine Sys2Proof.Safety

/-- Settles O21: a flipped bit is a replaced byte (`crc16P_set_ne`); big-endian and reversed bytes are the two
renderings of CRC_EMIT. -/
theorem crcEngineProperties : Obligations.CrcEngineProperties := by
  refine ⟨?flip, fun c => ⟨crcCompareBytes_crcRender c false, crcCompareBytes_crcRender c true⟩, ?emit⟩
  case flip =>
    intro p b k j hk odd hj
    exact crc16P_set_ne odd hk (xor_bit_ne _ hj)
  case emit =>
    intro alg b le c two four emitted
    obtain ⟨crc, rfl⟩ := crcEmit_eq_ok emitted
    exact ⟨crc, crcCompareBytes_crcRender c le⟩

/-- Settles O22: were the changed bytes accepted too, they would be the same two bytes (`pair_eq_of_accepted`). -/
theorem corruptedChecksumByteIsCaught : Obligations.CorruptedChecksumByteIsCaught := by
  intro x y x' y' c swap accepted changed
  have before := crcCompareBytes_accepts_iff.mp ⟨swap, accepted⟩
  have refused : ¬ ([x', y'] = beN c.toNat 2 ∨ rev [x', y'] = beN c.toNat 2) := by
    intro after
    rw [beN_two] at before after
    obtain ⟨hx, hy⟩ := pair_eq_of_accepted before after (changed.symm.imp And.left And.right)
    obtain ⟨first, -⟩ | ⟨-, second⟩ := changed
    · exact first hx
    · exact second hy
  obtain ⟨straight, swapped⟩ := not_or.mp refused
  exact ⟨_, crcCompareBytes_mismatch straight swapped, rfl, rfl, rfl⟩

end

section
/-! O19, O20: the two CRC commands, on an accepted state with CBUF readable. -/

namespace Sys2Proof.Machine

open Sys2Proof.Safety

/-- The engine's answer for a selector that the table defines (rules R123, R127). -/
theorem crcOfCbuf_of_table {s : State} {data : Bytes} {p : Config.CrcParams}
    (table : Config.crcTable (crcAlg s.regs) = some p) (read : readBytes s .cbuf 0 s.cbufLen.toNat = .ok data) :
    crcOfCbuf s = .ok (crc16P p data) := by
  rw [crcOfCbuf, crcSelect, table, read]
  rfl

/-- A selector that the table does not define is found before any byte is read (rule R123). -/
theorem crcOfCbuf_of_undefined {s : State} (table : Config.crcTable (crcAlg s.regs) = none) :
    crcOfCbuf s = .error (.raise { cause := .unsupportedCrcAlg, actNum := (crcAlg s.regs).setWidth 32 }) := by
  rw [crcOfCbuf, crcSelect, table, num_toNat_eq_setWidth]
  rfl

/-- CRC_CALC accepted is the engine on the accepted state, and its result stored (rule R127). -/
theorem exec_crcCalc_of_accepted {a : BitVec 24} {s : State} (h : Accepted (.crcCalc a) s) :
    exec (.crcCalc a) s =
      attempt (crcOfCbuf (acceptCommand s)) (fun e => failEngine e (acceptCommand s)) fun c =>
        .next (completeCommand (setCrcResult c (crcRender c (crcLe s.regs)) (acceptCommand s))) :=
  if_pos (commandAccepted_of_accepted (by simp [acceptedStates, accepts]) h)

/-- CRC_COMPARE accepted is the engine on the accepted state, its result stored, then the comparison (rule R128). -/
theorem exec_crcCompare_of_accepted {a : BitVec 24} {s : State} (h : Accepted (.crcCompare a) s) :
    exec (.crcCompare a) s =
      attempt (crcOfCbuf (setCrcSwapped false (acceptCommand s)))
        (fun e => failEngine e (setCrcSwapped false (acceptCommand s))) fun c =>
          attempt (liftE (crcCompareBytes (candidate s.regs) c))
            (fun e => failEngine e (setCrcResult c (crcRender c false) (setCrcSwapped false (acceptCommand s))))
            fun swap => .next (completeCommand (setCrcSwapped swap
              (setCrcResult c (crcRender c false) (setCrcSwapped false (acceptCommand s))))) :=
  if_pos (commandAccepted_of_accepted (by simp [acceptedStates, accepts]) h)

/-- The candidate is the two bytes of CAND[15:0] (rule R23). -/
theorem candidate_eq_beN (r : Regs) : candidate r = beN (r.cand.extractLsb' 0 16 : BitVec 16).toNat 2 := by
  rw [beN_two, BitVec.extractLsb'_extractLsb'_of_le (by decide), BitVec.extractLsb'_extractLsb'_of_le (by decide)]
  rfl

end Sys2Proof.Machine

open Sys2Proof Sys2Proof.Machine Sys2Proof.Safety

/-- Settles O19, by whether the table defines the selector. -/
theorem crcCalcWritesTheChecksum : Obligations.CrcCalcWritesTheChecksum := by
  intro a s data accepted read
  rw [exec_crcCalc_of_accepted accepted]
  cases table : Config.crcTable (s.regs.crcCtrl.extractLsb' 4 4) with
  | none =>
    rw [crcOfCbuf_of_undefined (s := acceptCommand s) table]
    rfl
  | some p =>
    have readAccepted := (readBytes_congr_mem (acceptCommand_mem s) .cbuf 0 s.cbufLen.toNat).trans read
    rw [crcOfCbuf_of_table (s := acceptCommand s) table readAccepted, attempt_ok, setCrcResult, num_toNat_eq_setWidth,
      num_be_crcRender]
    rfl

/-- Settles O20: `crcCompareBytes_beN` splits the comparison of a defined selector into the statement's three cases. -/
theorem crcCompareChecksTheCandidate : Obligations.CrcCompareChecksTheCandidate := by
  intro a s data accepted read cand flipped flagged
  have run := exec_crcCompare_of_accepted accepted
  cases table : Config.crcTable (s.regs.crcCtrl.extractLsb' 4 4) with
  | none =>
    rw [crcOfCbuf_of_undefined (s := setCrcSwapped false (acceptCommand s)) table] at run
    exact run
  | some p =>
    have readAccepted : readBytes (setCrcSwapped false (acceptCommand s)) .cbuf 0 s.cbufLen.toNat = .ok data :=
      (readBytes_congr_mem (by rw [setCrcSwapped_mem, acceptCommand_mem]) _ _ _).trans read
    rw [crcOfCbuf_of_table (s := setCrcSwapped false (acceptCommand s)) table readAccepted, attempt_ok,
      candidate_eq_beN, crcCompareBytes_beN, setCrcResult, num_toNat_eq_setWidth, num_be_crcRender] at run
    refine ⟨fun equal => ?_, fun different swapped => ?_, fun different unswapped => ?_⟩
    · rw [if_pos equal] at run
      exact run
    · rw [if_neg different, if_pos (show swapHalf cand = crc16P p data from swapped)] at run
      exact run
    · rw [if_neg different, if_neg (show swapHalf cand ≠ crc16P p data from unswapped), beN_two, beN_two] at run
      exact run

end

section
/-! O54: the frames of the engine commands. What every one of them keeps is `CapsuleKept`, carried through each
operation of a command; the CRC commands and the ciphers add the destination of their own. -/

namespace Sys2Proof.Machine

open Sys2Proof.Safety

/-! ## What an engine command leaves alone (rule R292) -/

/-- The host's state and the capsule are those of `s`. -/
structure CapsuleKept (s t : State) : Prop where
  host : SameHostState s t
  frameLen : t.frameLen = s.frameLen
  tempLen : t.tempLen = s.tempLen
  outCount : t.outCount = s.outCount
  outBytes : t.outBytes = s.outBytes
  planPc : t.planPc = s.planPc
  fromWd : t.fromWd = s.fromWd
  main : t.status.main = s.status.main
  rstate : t.status.rstate = s.status.rstate
  failFrom : t.status.failFrom = s.status.failFrom
  success : t.status.success = s.status.success

section

variable {s t : State}

theorem CapsuleKept.reject (s : State) : CapsuleKept s (rejectCommand s) :=
  ⟨⟨rfl, rfl, rfl, rfl⟩, rfl, rfl, rfl, rfl, rfl, rfl, rfl, rfl, rfl, rfl⟩

theorem CapsuleKept.accept (s : State) : CapsuleKept s (acceptCommand s) :=
  ⟨⟨rfl, rfl, rfl, rfl⟩, rfl, rfl, rfl, rfl, rfl, rfl, rfl, rfl, rfl, rfl⟩

theorem CapsuleKept.setCrcSwapped (h : CapsuleKept s t) (b : Bool) : CapsuleKept s (setCrcSwapped b t) := { h with }

theorem CapsuleKept.setCrcResult (h : CapsuleKept s t) (c : BitVec 16) (b : Bytes) :
    CapsuleKept s (setCrcResult c b t) := { h with }

theorem CapsuleKept.cbufFilled (h : CapsuleKept s t) (b : Bytes) : CapsuleKept s (cbufFilled b t) := { h with }

theorem CapsuleKept.complete (h : CapsuleKept s t) : CapsuleKept s (completeCommand t) := { h with }

theorem CapsuleKept.fail (h : CapsuleKept s t) (e : Err) : CapsuleKept s (failEngine e t) := { h with }

/-! ## The bytes an engine command leaves alone -/

/-- An engine error taken from a state with the memory of `s` changes no byte that its record does not count. -/
theorem readByte_failEngine_of_mem (mem : t.mem = s.mem) (e : Err) {sp : Space} {x : Nat}
    (h : ¬ InErrorBuffers (failEngine e t) sp x) : readByte (failEngine e t) sp x = readByte s sp x :=
  ((failEngine_hasRecord e t).otherBytes sp x h).trans (readByte_congr mem sp x)

theorem not_inErrorBuffers_cbuf (t : State) (x : Nat) : ¬ InErrorBuffers t .cbuf x := by simp [InErrorBuffers]

/-- CBUF filled within its capacity changes it below its new length only. -/
theorem readByte_cbufFilled {b : Bytes} (fits : b.length ≤ Config.cbufMax) {sp : Space} {x : Nat}
    (h : ¬ (sp = .cbuf ∧ x < (cbufFilled b s).cbufLen.toNat)) : readByte (cbufFilled b s) sp x = readByte s sp x := by
  have capacity : Config.cbufMax = 4096 := rfl
  have length : (cbufFilled b s).cbufLen.toNat = b.length := num_toNat (by omega)
  have written : (cbufFilled b s).mem = (writeBytes s .cbuf 0 b).mem := rfl
  rw [readByte_congr written, readByte_writeBytes, if_neg]
  rintro ⟨rfl, -, inside, -⟩
  exact h ⟨rfl, by omega⟩

/-! ## The frames of the commands -/

/-- What holds of an engine command however it ends: the capsule and BUSY kept, and CBUF too where it fails (R292). -/
structure EngineFrame (s t : State) : Prop extends CapsuleKept s t where
  busy : t.status.busy = s.status.busy
  failed : t.status.err = true → t.cbufLen = s.cbufLen ∧ ∀ x, readByte t .cbuf x = readByte s .cbuf x

/-- A CRC command changes its registers, CRC_SWAPPED, the flags of R271 and the record (rules R127, R128, R292). -/
structure CrcFrame (s t : State) : Prop extends EngineFrame s t where
  cbufLen : t.cbufLen = s.cbufLen
  bytes : ∀ sp x, ¬ InErrorBuffers t sp x → readByte t sp x = readByte s sp x

/-- A cipher command changes CBUF and CBUF_LEN, the flags of R271 and the record (rules R153, R154, R292). -/
structure CipherFrame (s t : State) : Prop extends EngineFrame s t where
  crcValue : t.crcValue = s.crcValue
  crcBytes : t.crcBytes = s.crcBytes
  crcSwapped : t.status.crcSwapped = s.status.crcSwapped
  bytes : ∀ sp x, ¬ InErrorBuffers t sp x → ¬ (sp = .cbuf ∧ x < t.cbufLen.toNat) → readByte t sp x = readByte s sp x

/-- A refusal changes CMD_REJ only (rule R269). -/
theorem EngineFrame.reject (s : State) : EngineFrame s (rejectCommand s) :=
  { CapsuleKept.reject s with busy := rfl, failed := fun _ => ⟨rfl, fun _ => rfl⟩ }

/-- An error taken before CBUF is written. -/
theorem EngineFrame.fail (h : CapsuleKept s t) (idle : s.status.busy = false) (mem : t.mem = s.mem)
    (len : t.cbufLen = s.cbufLen) (e : Err) : EngineFrame s (failEngine e t) :=
  { h.fail e with
    busy := idle.symm
    failed := fun _ => ⟨len, fun x => readByte_failEngine_of_mem mem e (not_inErrorBuffers_cbuf _ x)⟩ }

theorem EngineFrame.complete (h : CapsuleKept s t) (idle : s.status.busy = false) (noError : t.status.err = false) :
    EngineFrame s (completeCommand t) :=
  { h.complete with
    busy := idle.symm
    failed := fun err => absurd (noError.symm.trans err) Bool.false_ne_true }

theorem CrcFrame.fail (h : CapsuleKept s t) (idle : s.status.busy = false) (mem : t.mem = s.mem)
    (len : t.cbufLen = s.cbufLen) (e : Err) : CrcFrame s (failEngine e t) :=
  { EngineFrame.fail h idle mem len e with
    cbufLen := len
    bytes := fun _ _ => readByte_failEngine_of_mem mem e }

theorem CrcFrame.complete (h : CapsuleKept s t) (idle : s.status.busy = false) (noError : t.status.err = false)
    (mem : t.mem = s.mem) (len : t.cbufLen = s.cbufLen) : CrcFrame s (completeCommand t) :=
  { EngineFrame.complete h idle noError with
    cbufLen := len
    bytes := fun sp x _ => readByte_congr mem sp x }

/-- CRC_CALC keeps its frame, and its registers where it fails (rule R127). -/
theorem execCrcCalc_frame {a : BitVec 24} (h : execCrcCalc a s = .next t) :
    CrcFrame s t ∧ (t.status.err = true → t.crcValue = s.crcValue ∧ t.crcBytes = s.crcBytes) := by
  have accepted := CapsuleKept.accept s
  obtain ⟨-, rfl⟩ | ⟨ha, h⟩ := execCrcCalc_eq_next h
  · exact ⟨{ EngineFrame.reject s with cbufLen := rfl, bytes := fun _ _ _ => rfl }, fun _ => ⟨rfl, rfl⟩⟩
  · obtain ⟨-, idle⟩ := commandAccepted_iff.mp ha
    obtain ⟨e, rfl⟩ | ⟨c, -, rfl⟩ := h
    · exact ⟨.fail accepted idle rfl rfl e, fun _ => ⟨rfl, rfl⟩⟩
    · exact ⟨.complete (accepted.setCrcResult c _) idle rfl rfl rfl, fun err => by cases err⟩

/-- CRC_COMPARE keeps its frame (rule R128). -/
theorem execCrcCompare_frame {a : BitVec 24} (h : execCrcCompare a s = .next t) : CrcFrame s t := by
  have cleared := (CapsuleKept.accept s).setCrcSwapped false
  obtain ⟨-, rfl⟩ | ⟨ha, h⟩ := execCrcCompare_eq_next h
  · exact { EngineFrame.reject s with cbufLen := rfl, bytes := fun _ _ _ => rfl }
  · obtain ⟨-, idle⟩ := commandAccepted_iff.mp ha
    obtain ⟨e, rfl⟩ | ⟨c, -, ⟨e, rfl⟩ | ⟨swapped, rfl⟩⟩ := h
    · exact .fail cleared idle rfl rfl e
    · exact .fail (cleared.setCrcResult c _) idle rfl rfl e
    · exact .complete ((cleared.setCrcResult c _).setCrcSwapped swapped) idle rfl rfl rfl

/-- ENCRYPT and DECRYPT keep their frame (rules R153, R154). -/
theorem cipherCommand_frame {dec : Bool} (h : cipherCommand dec s = .next t) : CipherFrame s t := by
  have accepted := CapsuleKept.accept s
  obtain ⟨-, rfl⟩ | ⟨ha, h⟩ := cipherCommand_eq_next h
  · exact
      { EngineFrame.reject s with crcValue := rfl, crcBytes := rfl, crcSwapped := rfl, bytes := fun _ _ _ _ => rfl }
  · obtain ⟨-, idle⟩ := commandAccepted_iff.mp ha
    obtain ⟨e, rfl⟩ | ⟨r, -, fits, rfl⟩ := h
    · exact
        { EngineFrame.fail accepted idle rfl rfl e with
          crcValue := rfl, crcBytes := rfl, crcSwapped := rfl
          bytes := fun _ _ outside _ => readByte_failEngine_of_mem rfl e outside }
    · exact
        { EngineFrame.complete (accepted.cbufFilled r) idle rfl with
          crcValue := rfl, crcBytes := rfl, crcSwapped := rfl
          bytes := fun _ _ _ outside => readByte_cbufFilled (s := acceptCommand s) fits outside }

end

end Sys2Proof.Machine

open Sys2Proof Sys2Proof.Machine Sys2Proof.Safety

/-- Settles O54, from the frames of the four commands. -/
theorem engineCommandFrames : Obligations.EngineCommandFrames := by
  intro a i s t engine run
  have crc (h : i ∈ [Instr.crcCalc a, .crcCompare a]) : CrcFrame s t := by
    obtain rfl | rfl := List.mem_pair.mp h
    · exact (execCrcCalc_frame (a := a) run).1
    · exact execCrcCompare_frame (a := a) run
  have cipher (h : i ∈ [Instr.encrypt a, .decrypt a]) : CipherFrame s t := by
    obtain rfl | rfl := List.mem_pair.mp h
    · exact cipherCommand_frame run
    · exact cipherCommand_frame run
  have registers (err : t.status.err = true) (h : i = .crcCalc a) :
      t.crcValue = s.crcValue ∧ t.crcBytes = s.crcBytes := by
    subst h
    exact (execCrcCalc_frame (a := a) run).2 err
  have frame : EngineFrame s t :=
    (List.mem_append (s := [Instr.crcCalc a, .crcCompare a]).mp engine).elim (fun h => (crc h).toEngineFrame)
      fun h => (cipher h).toEngineFrame
  exact ⟨frame.host, frame.frameLen, frame.tempLen, frame.outCount, frame.outBytes, frame.planPc, frame.fromWd,
    frame.main, frame.rstate, frame.failFrom, frame.success, frame.busy, fun h => ⟨(crc h).cbufLen, (crc h).bytes⟩,
    fun h => ⟨(cipher h).crcValue, (cipher h).crcBytes, (cipher h).crcSwapped, (cipher h).bytes⟩, frame.failed,
    registers⟩

end

section
/-! O25: in every mode decryption undoes encryption (R156). ECB and CBC undo each block and then the pad; CFB, OFB and
CTR XOR the data with the same stream of pads twice; CTS undoes CBC up to the last two blocks, which it treats apart. -/

namespace Sys2Proof.Machine

/-! ## Splitting into blocks (rule R137) -/

theorem blocks_append_block {b : Bytes} (h : b.length = 16) (x : Bytes) : blocks (b ++ x) = b :: blocks x := by
  have ne : b ++ x ≠ [] := List.ne_nil_of_length_pos (by simp; omega)
  rw [blocks_cons ne, List.take_left' h, List.drop_left' h]

theorem blocks_of_short {b : Bytes} (ne : b ≠ []) (h : b.length ≤ 16) : blocks b = [b] := by
  rw [blocks_cons ne, List.take_of_length_le h, List.drop_eq_nil_of_le h, blocks_nil]

theorem blocks_append_of_whole {x : Bytes} (h : x.length % 16 = 0) (y : Bytes) :
    blocks (x ++ y) = blocks x ++ blocks y := by
  have joined (l : List Bytes) (whole : ∀ b ∈ l, b.length = 16) : blocks (l.flatten ++ y) = l ++ blocks y := by
    induction l with
    | nil => rfl
    | cons b l ih =>
      obtain ⟨hb, hl⟩ := List.forall_mem_cons.mp whole
      rw [List.flatten_cons, List.append_assoc, blocks_append_block hb, ih hl, List.cons_append]
  have := joined (blocks x) (blocks_whole h)
  rwa [blocks_flatten] at this

/-- A string is empty, one short block, or a whole block before a string. -/
theorem block_induction {P : Bytes → Prop} (nil : P []) (short : ∀ b, b ≠ [] → b.length < 16 → P b)
    (block : ∀ b x, b.length = 16 → P x → P (b ++ x)) (x : Bytes) : P x := by
  induction hn : x.length using Nat.strong_induction_on generalizing x with
  | _ n ih =>
    by_cases empty : x = []
    · exact empty ▸ nil
    · by_cases hx : x.length < 16
      · exact short x empty hx
      · have rest : P (x.drop 16) := ih _ (by simp; omega) _ rfl
        rw [← List.take_append_drop 16 x]
        exact block _ _ (by simp; omega) rest

theorem xorBytes_zeros {n : Nat} {b : Bytes} (h : b.length ≤ n) : xorBytes (List.replicate n 0) b = b := by
  induction b generalizing n with
  | nil => simp [xorBytes]
  | cons x b ih =>
    cases n with
    | zero => simp at h
    | succ n =>
      have := ih (n := n) (by simpa using h)
      simpa [xorBytes, List.replicate_succ] using this

/-! ## CFB, OFB and CTR: a stream of pads (rules R146 to R149) -/

/-- The shape of CFB, OFB and CTR: each block is XORed with the pad of a state, and the next state may depend on the
block and on its result. -/
def streamBlocks {σ : Type} (pad : σ → Bytes) (next : σ → Bytes → Bytes → σ) : σ → List Bytes → Bytes
  | _, [] => []
  | s, x :: r => xorBytes x (pad s) ++ streamBlocks pad next (next s x (xorBytes x (pad s))) r

theorem cfbEncBlocks_eq_stream (bc : Config.BlockCipher) (key s : Bytes) (l : List Bytes) :
    cfbEncBlocks bc key s l = streamBlocks (blockEnc bc key) (fun _ _ c => c) s l := by
  induction l generalizing s with
  | nil => rfl
  | cons x r ih => rw [cfbEncBlocks, ih, streamBlocks]

theorem cfbDecBlocks_eq_stream (bc : Config.BlockCipher) (key s : Bytes) (l : List Bytes) :
    cfbDecBlocks bc key s l = streamBlocks (blockEnc bc key) (fun _ c _ => c) s l := by
  induction l generalizing s with
  | nil => rfl
  | cons x r ih => rw [cfbDecBlocks, ih, streamBlocks]

theorem ofbBlocks_eq_stream (bc : Config.BlockCipher) (key s : Bytes) (l : List Bytes) :
    ofbBlocks bc key s l = streamBlocks (blockEnc bc key) (fun s _ _ => blockEnc bc key s) s l := by
  induction l generalizing s with
  | nil => rfl
  | cons x r ih => rw [ofbBlocks, ih, streamBlocks]

theorem ctrBlocks_eq_stream (bc : Config.BlockCipher) (key : Bytes) (ctr : Nat) (l : List Bytes) :
    ctrBlocks bc key ctr l =
      streamBlocks (fun n => blockEnc bc key (beN (n % 2 ^ 128) 16)) (fun n _ _ => n + 1) ctr l := by
  induction l generalizing ctr with
  | nil => rfl
  | cons x r ih => rw [ctrBlocks, ih, streamBlocks]

/-- A stream undoes a stream whose states go the same way, the plain and the cipher block exchanged. -/
theorem streamBlocks_undo {σ : Type} {pad : σ → Bytes} (next : σ → Bytes → Bytes → σ)
    (sixteen : ∀ s, (pad s).length = 16) (s : σ) (x : Bytes) :
    streamBlocks pad (fun s c p => next s p c) s (blocks (streamBlocks pad next s (blocks x))) = x := by
  induction x using block_induction generalizing s with
  | nil => rfl
  | short b ne hb =>
    have len : (xorBytes b (pad s)).length = b.length := by rw [xorBytes_length, sixteen]; omega
    have ne' : xorBytes b (pad s) ≠ [] := by
      rw [← List.length_pos_iff, len]
      exact List.length_pos_iff.mpr ne
    rw [blocks_of_short ne hb.le, streamBlocks, streamBlocks, List.append_nil, blocks_of_short ne' (by omega),
      streamBlocks, streamBlocks, List.append_nil, xorBytes_self (by rw [sixteen]; omega)]
  | block b x hb ih =>
    have len : (xorBytes b (pad s)).length = 16 := by rw [xorBytes_length, sixteen]; omega
    rw [blocks_append_block hb, streamBlocks, blocks_append_block len, streamBlocks,
      xorBytes_self (by rw [sixteen]; omega), ih]

section

variable (bc : Config.BlockCipher) (key : Bytes)

theorem cfbDec_cfbEnc (iv x : Bytes) : cfbDecBlocks bc key iv (blocks (cfbEncBlocks bc key iv (blocks x))) = x := by
  rw [cfbDecBlocks_eq_stream, cfbEncBlocks_eq_stream]
  exact streamBlocks_undo (fun _ _ c => c) (blockEnc_length bc key) iv x

theorem ofb_ofb (iv x : Bytes) : ofbBlocks bc key iv (blocks (ofbBlocks bc key iv (blocks x))) = x := by
  rw [ofbBlocks_eq_stream, ofbBlocks_eq_stream]
  exact streamBlocks_undo (fun s _ _ => blockEnc bc key s) (blockEnc_length bc key) iv x

theorem ctr_ctr (ctr : Nat) (x : Bytes) : ctrBlocks bc key ctr (blocks (ctrBlocks bc key ctr (blocks x))) = x := by
  rw [ctrBlocks_eq_stream, ctrBlocks_eq_stream]
  exact streamBlocks_undo (fun n _ _ => n + 1) (fun _ => blockEnc_length bc key _) ctr x

/-! ## ECB and CBC over whole blocks (rules R142 to R145) -/

theorem ecbDec_ecbEnc {x : Bytes} (h : x.length % 16 = 0) :
    ecbMap (blockDec bc key) (ecbMap (blockEnc bc key) x) = x := by
  have undone (l : List Bytes) (whole : ∀ b ∈ l, b.length = 16) :
      ecbMap (blockDec bc key) (l.flatMap (blockEnc bc key)) = l.flatten := by
    induction l with
    | nil => rfl
    | cons b l ih =>
      obtain ⟨hb, hl⟩ := List.forall_mem_cons.mp whole
      rw [List.flatMap_cons, ecbMap, blocks_append_block (blockEnc_length bc key b), List.flatMap_cons,
        blockDec_blockEnc bc key hb, List.flatten_cons, ← ih hl, ecbMap]
  have := undone (blocks x) (blocks_whole h)
  rwa [blocks_flatten] at this

theorem cbcDecBlocks_cbcEncBlocks {prev : Bytes} (hp : prev.length = 16) {l : List Bytes}
    (whole : ∀ b ∈ l, b.length = 16) :
    cbcDecBlocks bc key prev (blocks (cbcEncBlocks bc key prev l)) = l.flatten := by
  induction l generalizing prev with
  | nil => rfl
  | cons b l ih =>
    obtain ⟨hb, hl⟩ := List.forall_mem_cons.mp whole
    have mixed : (xorBytes b prev).length = 16 := by rw [xorBytes_length]; omega
    rw [cbcEncBlocks, blocks_append_block (blockEnc_length bc key _), cbcDecBlocks, ih (blockEnc_length bc key _) hl,
      blockDec_blockEnc bc key mixed, xorBytes_self (by omega), List.flatten_cons]

theorem cbcRawDec_cbcRawEnc {iv x : Bytes} (hiv : iv.length = 16) (h : x.length % 16 = 0) :
    cbcRawDec bc key iv (cbcRawEnc bc key iv x) = x := by
  rw [cbcRawDec, cbcRawEnc, cbcDecBlocks_cbcEncBlocks bc key hiv (blocks_whole h), blocks_flatten]

/-- The block the next one is chained to: the last of the whole blocks `c`, or the IV where there is none. -/
def chainBlock (iv c : Bytes) : Bytes := if c.isEmpty then iv else c.drop (c.length - 16)

theorem chainBlock_length {iv c : Bytes} (hiv : iv.length = 16) (h : c.length % 16 = 0) :
    (chainBlock iv c).length = 16 := by
  unfold chainBlock
  split
  · exact hiv
  · rename_i ne
    have : 0 < c.length := List.length_pos_iff.mpr (by simpa using ne)
    rw [List.length_drop]
    omega

theorem chainBlock_append {b : Bytes} (hb : b.length = 16) (iv : Bytes) {c : Bytes} (h : c.length % 16 = 0) :
    chainBlock iv (b ++ c) = chainBlock b c := by
  cases c with
  | nil =>
    have ne : ¬ b.isEmpty = true := fun e => by simp [List.isEmpty_iff.mp e] at hb
    rw [List.append_nil, chainBlock, if_neg ne, hb]
    rfl
  | cons y c =>
    have ne : ¬ (b ++ y :: c).isEmpty = true := by simp
    rw [chainBlock, if_neg ne, chainBlock, if_neg (by simp), List.length_append,
      Nat.add_sub_assoc (by simp at h ⊢; omega), List.drop_append]
    simp

/-- CBC of one more whole block is one more cipher block. -/
theorem cbcRawEnc_concat (iv : Bytes) {x p : Bytes} (hx : x.length % 16 = 0) (hp : p.length = 16) :
    cbcRawEnc bc key iv (x ++ p) =
      cbcRawEnc bc key iv x ++ blockEnc bc key (xorBytes p (chainBlock iv (cbcRawEnc bc key iv x))) := by
  have chained (prev : Bytes) (l : List Bytes) : cbcEncBlocks bc key prev (l ++ [p]) =
      cbcEncBlocks bc key prev l ++ blockEnc bc key (xorBytes p (chainBlock prev (cbcEncBlocks bc key prev l))) := by
    induction l generalizing prev with
    | nil => simp [cbcEncBlocks, chainBlock]
    | cons b l ih =>
      have rest : (cbcEncBlocks bc key (blockEnc bc key (xorBytes b prev)) l).length % 16 = 0 := by
        rw [cbcEncBlocks_length]
        omega
      rw [List.cons_append, cbcEncBlocks, ih, cbcEncBlocks, chainBlock_append (blockEnc_length bc key _) prev rest,
        List.append_assoc]
  have ne : p ≠ [] := List.ne_nil_of_length_pos (by omega)
  rw [cbcRawEnc, blocks_append_of_whole hx, blocks_of_short ne hp.le, chained, cbcRawEnc]

/-! ## CTS with a short last block (rules R150, R151) -/

/-- CTS of whole blocks `h`, a block `p` and a short block `t`: with `c` and `u` the CBC blocks of `h` and of `p`, the
last block is padded with zeros and chained to `u`, and `u` is cut to the length of `t`. -/
theorem ctsEnc_of_parts {iv h p t c u : Bytes} (hh : h.length % 16 = 0) (hp : p.length = 16) (ht : 0 < t.length)
    (short : t.length < 16) (cbc : cbcRawEnc bc key iv (h ++ p) = c ++ u) (hu : u.length = 16) :
    ctsEnc bc key iv (h ++ p ++ t) =
      c ++ blockEnc bc key (xorBytes (t ++ List.replicate (16 - t.length) 0) u) ++ u.take t.length := by
  have last : (h ++ p ++ t).length % 16 = t.length := by simp only [List.length_append]; omega
  have front : (h ++ p ++ t).length - t.length = (h ++ p).length := by simp only [List.length_append]; omega
  have before : (c ++ u).length - 16 = c.length := by rw [List.length_append]; omega
  unfold ctsEnc
  dsimp only
  rw [last, if_neg (by omega), front, List.take_left, List.drop_left, cbc, before, List.take_left, List.drop_left]

/-- CTS undone from whole blocks `c`, a block `x` and a short block `y`. -/
theorem ctsDec_of_parts {iv c x y : Bytes} (hc : c.length % 16 = 0) (hx : x.length = 16) (hy : 0 < y.length)
    (short : y.length < 16) :
    ctsDec bc key iv (c ++ x ++ y) =
      cbcRawDec bc key iv c ++ xorBytes (blockDec bc key (y ++ (blockDec bc key x).drop y.length)) (chainBlock iv c) ++
        xorBytes ((blockDec bc key x).take y.length) y := by
  have last : (c ++ x ++ y).length % 16 = y.length := by simp only [List.length_append]; omega
  have front : (c ++ x ++ y).length - y.length = (c ++ x).length := by simp only [List.length_append]; omega
  have head : (c ++ x ++ y).length - 16 - y.length = c.length := by simp only [List.length_append]; omega
  have block : slice (c ++ x ++ y) c.length (c ++ x).length = x := by rw [slice, List.take_left, List.drop_left]
  unfold ctsDec
  dsimp only
  rw [last, if_neg (by omega), front, head, block, List.drop_left, List.append_assoc c x y, List.take_left]
  rfl

/-- Data of 16 bytes or more that is no whole number of blocks, cut before its last whole block and before its end. -/
theorem exists_cts_parts {data : Bytes} (long : 16 ≤ data.length) (ragged : data.length % 16 ≠ 0) :
    ∃ h p t : Bytes, data = h ++ p ++ t ∧ h.length % 16 = 0 ∧ p.length = 16 ∧ 0 < t.length ∧ t.length < 16 := by
  let k := data.length - data.length % 16
  refine ⟨data.take (k - 16), (data.take k).drop (k - 16), data.drop k, ?joined, ?_, ?_, ?_, ?_⟩
  case joined =>
    have : data.take (k - 16) = (data.take k).take (k - 16) := by rw [List.take_take]; congr 1; omega
    rw [this, List.take_append_drop, List.take_append_drop]
  all_goals
    simp only [List.length_take, List.length_drop]
    omega

theorem ctsDec_ctsEnc {iv data : Bytes} (hiv : iv.length = 16) (long : 16 ≤ data.length) :
    ctsDec bc key iv (ctsEnc bc key iv data) = data := by
  by_cases whole : data.length % 16 = 0
  · have enc : ctsEnc bc key iv data = cbcRawEnc bc key iv data := if_pos whole
    have len : (cbcRawEnc bc key iv data).length % 16 = 0 := by rwa [cbcRawEnc_length bc key iv whole]
    rw [enc]
    exact (if_pos len).trans (cbcRawDec_cbcRawEnc bc key hiv whole)
  · obtain ⟨h, p, t, rfl, hh, hp, ht, short⟩ := exists_cts_parts long whole
    have cbc := cbcRawEnc_concat bc key iv hh hp
    have undone := cbcRawDec_cbcRawEnc bc key hiv hh
    have hc : (cbcRawEnc bc key iv h).length % 16 = 0 := by rwa [cbcRawEnc_length bc key iv hh]
    generalize cbcRawEnc bc key iv h = c at cbc undone hc
    have link := chainBlock_length hiv hc
    have mixed : (xorBytes p (chainBlock iv c)).length = 16 := by rw [xorBytes_length]; omega
    have plain := blockDec_blockEnc bc key mixed
    have hu := blockEnc_length bc key (xorBytes p (chainBlock iv c))
    rw [ctsEnc_of_parts bc key hh hp ht short cbc hu]
    generalize blockEnc bc key (xorBytes p (chainBlock iv c)) = u at plain hu
    have cut : (u.take t.length).length = t.length := by rw [List.length_take]; omega
    -- the padded last block, chained to `u`: its front hides `t`, its end is the end of `u`
    have padded : (xorBytes (t ++ List.replicate (16 - t.length) 0) u).length = 16 := by
      rw [xorBytes_length, List.length_append, List.length_replicate]
      omega
    have halves : xorBytes (t ++ List.replicate (16 - t.length) 0) u =
        xorBytes t (u.take t.length) ++ u.drop t.length := by
      conv_lhs => rw [← List.take_append_drop t.length u]
      rw [xorBytes, List.zipWith_append cut.symm]
      exact congrArg _ (xorBytes_zeros (by rw [List.length_drop]; omega))
    have front : (xorBytes t (u.take t.length)).length = t.length := by rw [xorBytes_length]; omega
    rw [ctsDec_of_parts bc key hc (blockEnc_length bc key _) (by omega) (by omega), blockDec_blockEnc bc key padded,
      halves, cut, List.drop_left' front, List.take_left' front, List.take_append_drop, plain, undone,
      xorBytes_self (by omega), xorBytes_self (by omega)]

end

/-! ## The pad (rules R139, R140) -/

theorem pkcs7Pad_eq (x : Bytes) :
    pkcs7Pad x = x ++ List.replicate (16 - x.length % 16) (BitVec.ofNat 8 (16 - x.length % 16)) := by
  have short : ¬ 255 < 16 - x.length % 16 := by omega
  simp [pkcs7Pad, padBlock, short, placeFill]

theorem pkcs7Unpad_pkcs7Pad (x : Bytes) : pkcs7Unpad (pkcs7Pad x) = .ok x := by
  rw [pkcs7Pad_eq]
  obtain ⟨p, hp⟩ : ∃ p, 16 - x.length % 16 = p := ⟨_, rfl⟩
  have byte : (BitVec.ofNat 8 p).toNat = p := by rw [BitVec.toNat_ofNat]; omega
  have last : (x ++ List.replicate p (BitVec.ofNat 8 p)).getLast? = some (BitVec.ofNat 8 p) := by
    rw [List.getLast?_append, List.getLast?_replicate, if_neg (by omega)]
    rfl
  have data : (x ++ List.replicate p (BitVec.ofNat 8 p)).length - p = x.length := by simp
  rw [hp, pkcs7Unpad, last, Option.getD_some, byte, data, List.drop_left, List.take_left, if_neg]
  rintro (h | h | h)
  · omega
  · omega
  · exact h rfl

/-! ## DEC where the preconditions hold (rule R138) -/

theorem ite_error_eq_ok {c : Prop} [Decidable c] {α : Type} {e : Err} {x : Except Err α} {a : α} :
    (if c then .error e else x) = .ok a ↔ ¬ c ∧ x = .ok a := by
  by_cases h : c <;> simp [h]

/-- The check passes exactly for the lengths an encryption demands, and in ECB and CBC decrypts whole blocks only. -/
theorem cipherCheck_eq_ok_iff {mode : BitVec 8} {k i n : Nat} {dec : Bool} :
    cipherCheck mode k i n dec = .ok () ↔
      EncryptLengths mode k i n ∧ (dec = true → mode.toNat = 1 ∨ mode.toNat = 2 → n ≠ 0 ∧ n % 16 = 0) := by
  have zero : mode = 0 ↔ mode.toNat = 0 := by bv_omega
  have one : mode = 1 ↔ mode.toNat = 1 := by bv_omega
  have two : mode = 2 ↔ mode.toNat = 2 := by bv_omega
  have six : mode = 6 ↔ mode.toNat = 6 := by bv_omega
  rw [cipherCheck, ite_error_eq_ok]
  simp only [zero, one, two, six, ne_eq]
  split
  · exact ⟨fun _ => ⟨⟨by omega, by omega, by omega, by omega⟩, by omega⟩, fun _ => ⟨by omega, rfl⟩⟩
  · simp only [ite_error_eq_ok, and_true]
    constructor
    · rintro ⟨known, key, iv, data, whole⟩
      refine ⟨⟨by omega, by omega, by omega, by omega⟩, fun hd hm => ?_⟩
      have : ¬ (n = 0 ∨ ¬ n % 16 = 0) := fun ragged => whole ⟨hd, hm, ragged⟩
      omega
    · rintro ⟨⟨known, key, iv, data⟩, whole⟩
      exact ⟨by omega, by omega, by omega, by omega, fun ⟨hd, hm, ragged⟩ => by have := whole hd hm; omega⟩

/-- DEC undoes ENC in every mode (rule R156). -/
theorem cipherDec_cipherEnc {bc : Config.BlockCipher} {mode : BitVec 8} {key iv data c : Bytes}
    (hiv : iv.length = 16) (lengths : EncryptLengths mode key.length iv.length data.length)
    (enc : cipherEnc bc mode key iv data = .ok c) : cipherDec bc mode key iv c = .ok data := by
  have padded : (pkcs7Pad data).length % 16 = 0 := by
    rw [pkcs7Pad_length]
    omega
  obtain ⟨r, enc', len⟩ := cipherEnc_of_lengths bc lengths
  obtain rfl : r = c := Except.ok.inj (enc'.symm.trans enc)
  have known := lengths.known
  have long := lengths.data
  have passed : cipherCheck mode key.length iv.length r.length true = .ok () := by
    unfold encryptedLength at len
    refine cipherCheck_eq_ok_iff.mpr ⟨⟨known, lengths.key, lengths.iv, fun cts => ?_⟩, fun _ blockMode => ?_⟩
    · rw [len, if_neg (by omega)]
      exact long cts
    · rw [len, if_pos blockMode]
      omega
  unfold cipherEnc at enc
  unfold cipherDec
  rw [lengths.check] at enc
  rw [passed]
  clear lengths enc' len passed
  generalize mode.toNat = m at enc known long
  -- modes NONE, ECB, CBC, CFB, OFB, CTR and CTS, in the order of their numbers (rule R74)
  interval_cases m <;> obtain rfl := Except.ok.inj enc
  · rfl
  · exact (congrArg pkcs7Unpad (ecbDec_ecbEnc bc key padded)).trans (pkcs7Unpad_pkcs7Pad data)
  · exact (congrArg pkcs7Unpad (cbcRawDec_cbcRawEnc bc key hiv padded)).trans (pkcs7Unpad_pkcs7Pad data)
  · exact congrArg Except.ok (cfbDec_cfbEnc bc key iv data)
  · exact congrArg Except.ok (ofb_ofb bc key iv data)
  · exact congrArg Except.ok (ctr_ctr bc key (be iv) data)
  · exact congrArg Except.ok (ctsDec_ctsEnc bc key hiv (long rfl))

/-- The pad of whole blocks is one more block, so CBC of the padded data only adds a block. -/
theorem cbcRawEnc_pkcs7Pad_take (bc : Config.BlockCipher) (key iv : Bytes) {data : Bytes} (h : data.length % 16 = 0) :
    (cbcRawEnc bc key iv (pkcs7Pad data)).take data.length = cbcRawEnc bc key iv data := by
  rw [pkcs7Pad_eq, cbcRawEnc_concat bc key iv h (by rw [List.length_replicate]; omega),
    List.take_left' (cbcRawEnc_length bc key iv h)]

end Sys2Proof.Machine

open Sys2Proof Sys2Proof.Machine Sys2Proof.Safety

/-- Settles O25, from the round trip of each mode (`cipherDec_cipherEnc`). -/
theorem cipherRoundTrip : Obligations.CipherRoundTrip := by
  intro bc m key iv data known hk hiv long
  have lengths : EncryptLengths m key.length iv.length data.length := ⟨known, fun _ => hk, fun _ => hiv, long⟩
  obtain ⟨c, enc, -⟩ := cipherEnc_of_lengths bc lengths
  refine ⟨c, enc, cipherDec_cipherEnc hiv lengths enc, fun cts whole => ?_⟩
  have cbcLengths : EncryptLengths 2 key.length iv.length data.length :=
    ⟨by decide, fun _ => hk, fun _ => hiv, fun h => absurd h (by decide)⟩
  have cbc : cipherEnc bc 2 key iv data = .ok (cbcRawEnc bc key iv (pkcs7Pad data)) := by
    rw [cipherEnc, cbcLengths.check]
    rfl
  have ctsIsCbc : c = cbcRawEnc bc key iv data := by
    obtain rfl : m = 6 := by bv_omega
    rw [cipherEnc, lengths.check] at enc
    exact (Except.ok.inj enc).symm.trans (if_pos whole)
  exact ⟨_, cbc, ctsIsCbc.trans (cbcRawEnc_pkcs7Pad_take bc key iv whole).symm⟩

end

section
/-! O26: the cipher preconditions in R138's order. The check looks at the registers alone and stands before every read,
so what it answers first is the command's error. -/

namespace Sys2Proof.Machine

open Sys2Proof.Safety

theorem num_toNat_word (w : Word) : num w.toNat = w := (num_toNat_eq_setWidth w).trans (BitVec.setWidth_eq w)

/-! ## What the check answers on the registers (rule R138) -/

section

variable {mode : BitVec 8} {keyLen ivLen dataLen : Word} {dec : Bool}

theorem cipherCheck_unknownMode (h : 6 < mode.toNat) :
    cipherCheck mode keyLen.toNat ivLen.toNat dataLen.toNat dec =
      .error { cause := .unsupportedMode, actNum := num mode.toNat } :=
  if_pos h

theorem cipherCheck_keyLength (h : 1 ≤ mode.toNat) (known : mode.toNat ≤ 6) (key : keyLen ≠ 16) :
    cipherCheck mode keyLen.toNat ivLen.toNat dataLen.toNat dec =
      .error { cause := .invalidKeyLength, expNum := 16, actNum := keyLen } := by
  rw [cipherCheck, if_neg (by omega), if_neg (by bv_omega), if_pos (by bv_omega), num_toNat_word]

theorem cipherCheck_ivLength (h : 2 ≤ mode.toNat) (known : mode.toNat ≤ 6) (key : keyLen = 16) (iv : ivLen ≠ 16) :
    cipherCheck mode keyLen.toNat ivLen.toNat dataLen.toNat dec =
      .error { cause := .badIvLength, expNum := 16, actNum := ivLen } := by
  rw [cipherCheck, if_neg (by omega), if_neg (by bv_omega), if_neg (by bv_omega), if_pos (by bv_omega), num_toNat_word]

theorem cipherCheck_inputTooShort (h : mode.toNat = 6) (key : keyLen = 16) (iv : ivLen = 16)
    (short : dataLen.toNat < 16) :
    cipherCheck mode keyLen.toNat ivLen.toNat dataLen.toNat dec =
      .error { cause := .inputTooShort, expNum := 16, actNum := dataLen } := by
  rw [cipherCheck, if_neg (by omega), if_neg (by bv_omega), if_neg (by bv_omega), if_neg (by bv_omega),
    if_pos (by bv_omega), num_toNat_word]

theorem cipherCheck_ciphertextLength (h : mode.toNat = 1 ∨ mode.toNat = 2 ∧ ivLen = 16) (key : keyLen = 16)
    (ragged : dataLen = 0 ∨ dataLen.toNat % 16 ≠ 0) :
    cipherCheck mode keyLen.toNat ivLen.toNat dataLen.toNat true =
      .error { cause := .badCiphertextLength, expNum := 16, actNum := dataLen } := by
  have blockMode : mode = 1 ∨ mode = 2 := by bv_omega
  rw [cipherCheck, if_neg (by omega), if_neg (by bv_omega), if_neg (by bv_omega), if_neg (by bv_omega),
    if_neg (by bv_omega), if_pos ⟨rfl, blockMode, by bv_omega⟩, num_toNat_word]

end

/-! ## The commands (rules R153, R154) -/

/-- DECRYPT accepted is the engine on the accepted state, and CBUF filled (rule R154). -/
theorem exec_decrypt_of_accepted {a : BitVec 24} {s : State} (h : Accepted (.decrypt a) s) :
    exec (.decrypt a) s =
      attempt (cipherCbuf (acceptCommand s) true >>= fun r => fillCbuf r (acceptCommand s))
        (fun e => failEngine e (acceptCommand s)) fun t => .next (completeCommand t) :=
  if_pos (commandAccepted_of_accepted (by simp [acceptedStates, accepts]) h)

theorem exec_cipher_of_accepted {a : BitVec 24} {dec : Bool} {s : State}
    (h : Accepted (if dec then .decrypt a else .encrypt a) s) :
    exec (if dec then .decrypt a else .encrypt a) s =
      attempt (cipherCbuf (acceptCommand s) dec >>= fun r => fillCbuf r (acceptCommand s))
        (fun e => failEngine e (acceptCommand s)) fun t => .next (completeCommand t) := by
  cases dec with
  | false => exact exec_encrypt_of_accepted h
  | true => exact exec_decrypt_of_accepted h

/-- What the check raises is what the engine raises, whatever the memories hold. -/
theorem cipherCbuf_of_check {s : State} {dec : Bool} {e : Err}
    (check : cipherCheck (cipherMode s.regs) s.regs.keyLen.toNat s.regs.ivLen.toNat s.cbufLen.toNat dec = .error e) :
    cipherCbuf s dec = .error (.raise e) := by
  rw [cipherCbuf, check, liftE_error, res_error_bind]

/-- An engine error is the command's error, with CBUF unchanged (rule R292). -/
theorem exec_cipher_of_engine_error {a : BitVec 24} {dec : Bool} {s : State} {e : Err}
    (h : Accepted (if dec then .decrypt a else .encrypt a) s)
    (engine : cipherCbuf (acceptCommand s) dec = .error (.raise e)) :
    exec (if dec then .decrypt a else .encrypt a) s = .next (failEngine e (completed s)) := by
  rw [exec_cipher_of_accepted h, engine, res_error_bind, attempt_raise]
  rfl

end Sys2Proof.Machine

open Sys2Proof Sys2Proof.Machine Sys2Proof.Safety

/-- Settles O26: each clause is one answer of the check (`cipherCheck_unknownMode` and the lemmas after it). -/
theorem cipherPreconditionsInOrder : Obligations.CipherPreconditionsInOrder := by
  intro a dec s i m kl il n fails accepted
  have raised {e : Err} (check : cipherCheck (cipherMode s.regs) kl.toNat il.toNat n.toNat dec = .error e) : fails e :=
    exec_cipher_of_engine_error accepted (cipherCbuf_of_check check)
  refine ⟨fun unknown => raised (cipherCheck_unknownMode unknown),
    fun keyed known key => raised (cipherCheck_keyLength keyed known key),
    fun chained known key iv => raised (cipherCheck_ivLength chained known key iv),
    fun cts key iv short => raised (cipherCheck_inputTooShort cts key iv short),
    fun blockMode key decrypts ragged => ?ragged⟩
  case ragged =>
    subst decrypts
    exact raised (cipherCheck_ciphertextLength blockMode key ragged)

end

section
/-! O24: DECRYPT. No mode makes its data longer, so the result always fits CBUF and the command answers what DEC answers
(R138, R140, R154). -/

namespace Sys2Proof.Machine

open Sys2Proof.Safety

/-! ## Lengths of DEC's results -/

theorem pkcs7Unpad_length_le {x r : Bytes} (h : pkcs7Unpad x = .ok r) : r.length ≤ x.length := by
  unfold pkcs7Unpad at h
  dsimp only at h
  split at h
  · cases h
  · obtain rfl := Except.ok.inj h
    simp

theorem streamBlocks_length_le {σ : Type} (pad : σ → Bytes) (next : σ → Bytes → Bytes → σ) (s : σ) (x : Bytes) :
    (streamBlocks pad next s (blocks x)).length ≤ x.length := by
  rw [← blocks_lengths_sum x]
  generalize blocks x = l
  induction l generalizing s with
  | nil => exact Nat.le_refl 0
  | cons b l ih =>
    have rest := ih (next s b (xorBytes b (pad s)))
    rw [streamBlocks, List.length_append, xorBytes_length, List.map_cons, List.sum_cons]
    omega

section

variable (bc : Config.BlockCipher) (key : Bytes)

theorem ecbMap_blockDec_length {x : Bytes} (h : x.length % 16 = 0) : (ecbMap (blockDec bc key) x).length = x.length := by
  rw [← blocks_count h, ecbMap, List.length_flatMap]
  simp [blockDec_length, Nat.mul_comm]

theorem xorBytes_blockDec_length_le (c b : Bytes) : (xorBytes (blockDec bc key c) b).length ≤ 16 := by
  rw [xorBytes_length, blockDec_length]
  exact Nat.min_le_left _ _

theorem cbcRawDec_length_le (iv : Bytes) {x : Bytes} (h : x.length % 16 = 0) :
    (cbcRawDec bc key iv x).length ≤ x.length := by
  rw [← blocks_count h, cbcRawDec]
  generalize blocks x = l
  induction l generalizing iv with
  | nil => exact Nat.le_refl 0
  | cons c l ih =>
    have first := xorBytes_blockDec_length_le bc key c iv
    have rest := ih c
    rw [cbcDecBlocks, List.length_append, List.length_cons]
    omega

theorem ctsDec_length_le (iv : Bytes) {data : Bytes} (long : 16 ≤ data.length) :
    (ctsDec bc key iv data).length ≤ data.length := by
  by_cases whole : data.length % 16 = 0
  · have dec : ctsDec bc key iv data = cbcRawDec bc key iv data := if_pos whole
    rw [dec]
    exact cbcRawDec_length_le bc key iv whole
  · obtain ⟨c, x, y, rfl, hc, hx, hy, short⟩ := exists_cts_parts long whole
    have front := cbcRawDec_length_le bc key iv hc
    have block := xorBytes_blockDec_length_le bc key (y ++ (blockDec bc key x).drop y.length) (chainBlock iv c)
    have last : (xorBytes ((blockDec bc key x).take y.length) y).length ≤ y.length :=
      (xorBytes_length _ _).trans_le (Nat.min_le_right _ _)
    rw [ctsDec_of_parts bc key hc hx hy short]
    simp only [List.length_append]
    omega

end

/-- No mode makes its data longer. -/
theorem cipherDec_length_le {bc : Config.BlockCipher} {mode : BitVec 8} {key iv data r : Bytes}
    (h : cipherDec bc mode key iv data = .ok r) : r.length ≤ data.length := by
  unfold cipherDec at h
  split at h
  · cases h
  · rename_i passed
    obtain ⟨⟨known, -, -, long⟩, whole⟩ := cipherCheck_eq_ok_iff.mp passed
    have whole := fun m => (whole rfl m).2
    clear passed
    generalize mode.toNat = m at h known long whole
    -- modes NONE, ECB, CBC, CFB, OFB, CTR and CTS, in the order of their numbers (rule R74)
    interval_cases m
    · obtain rfl := Except.ok.inj h
      exact Nat.le_refl _
    · exact (pkcs7Unpad_length_le h).trans_eq (ecbMap_blockDec_length bc key (whole (.inl rfl)))
    · exact (pkcs7Unpad_length_le h).trans (cbcRawDec_length_le bc key iv (whole (.inr rfl)))
    · obtain rfl := Except.ok.inj h
      rw [cfbDecBlocks_eq_stream]
      exact streamBlocks_length_le _ _ _ _
    · obtain rfl := Except.ok.inj h
      rw [ofbBlocks_eq_stream]
      exact streamBlocks_length_le _ _ _ _
    · obtain rfl := Except.ok.inj h
      rw [ctrBlocks_eq_stream]
      exact streamBlocks_length_le _ _ _ _
    · obtain rfl := Except.ok.inj h
      exact ctsDec_length_le bc key iv (long rfl)

/-! ## The engine over CBUF (rules R138, R154) -/

/-- The check does not look at a key with mode NONE, nor at an IV with mode NONE or ECB. -/
theorem cipherCheck_congr {mode : BitVec 8} {k k' i i' : Nat} (n : Nat) (dec : Bool) (hk : mode ≠ 0 → k = k')
    (hi : 1 < mode.toNat → i = i') : cipherCheck mode k i n dec = cipherCheck mode k' i' n dec := by
  by_cases none : mode = 0
  · subst none
    simp [cipherCheck]
  · obtain rfl := hk none
    by_cases ecb : mode = 1
    · subst ecb
      simp [cipherCheck]
    · rw [hi (by bv_omega)]

theorem cipherDec_ignored_operands (bc : Config.BlockCipher) (mode : BitVec 8) (key iv data : Bytes) :
    cipherDec bc mode (if mode = 0 then [] else key) (if mode.toNat ≤ 1 then [] else iv) data =
      cipherDec bc mode key iv data := by
  by_cases none : mode = 0
  · subst none
    simp [cipherDec, cipherCheck]
  · rw [if_neg none]
    by_cases ecb : mode = 1
    · subst ecb
      simp [cipherDec, cipherCheck]
    · rw [if_neg (by bv_omega)]

theorem cipherDec_of_check {bc : Config.BlockCipher} {mode : BitVec 8} {key iv data : Bytes} {e : Err}
    (h : cipherCheck mode key.length iv.length data.length true = .error e) :
    cipherDec bc mode key iv data = .error e := by
  rw [cipherDec, h]

/-- The engine answers what DEC answers on CBUF with its operands: the check on the registers is DEC's own. -/
theorem cipherCbuf_decrypt {s : State} {key iv data : Bytes} (h : CipherOperands s key iv)
    (hd : readBytes s .cbuf 0 s.cbufLen.toNat = .ok data) :
    cipherCbuf s true = liftE (cipherDec Config.blockCipher (cipherMode s.regs) key iv data) := by
  have lengths : cipherCheck (cipherMode s.regs) s.regs.keyLen.toNat s.regs.ivLen.toNat s.cbufLen.toNat true =
      cipherCheck (cipherMode s.regs) key.length iv.length data.length true := by
    rw [readBytes_length hd]
    exact cipherCheck_congr _ _ (fun m => (readBytes_length (h.key m)).symm) fun m => (readBytes_length (h.iv m)).symm
  cases check : cipherCheck (cipherMode s.regs) key.length iv.length data.length true with
  | error e => rw [cipherCbuf_of_check (lengths.trans check), cipherDec_of_check check, liftE_error]
  | ok _ =>
    rw [← cipherDec_ignored_operands]
    simp only [cipherCbuf, lengths, check, cipherKey_of_operands h, cipherIv_of_operands h, hd, liftE_ok, res_ok_bind,
      if_true]

/-- A byte that reads is a byte of its space. -/
theorem readByte_offset_lt {s : State} {sp : Space} {x : Nat} {b : Byte} (h : readByte s sp x = .ok b) :
    x < spaceSize sp := by
  unfold readByte at h
  split at h
  · cases h
  · omega

theorem readBytes_length_le_size {s : State} {sp : Space} {n : Nat} {b : Bytes} (h : readBytes s sp 0 n = .ok b) :
    b.length ≤ spaceSize sp := by
  obtain ⟨len, bytes⟩ := readBytes_eq_ok_iff.mp h
  cases n with
  | zero => omega
  | succ n =>
    have := readByte_offset_lt (bytes n (by omega))
    omega

/-! ## The unpadding (rule R140) -/

theorem pkcs7Unpad_of_padded {x : Bytes} {p : Nat} (last : (x.getLastD 0).toNat = p) (low : 1 ≤ p) (high : p ≤ 16)
    (pad : x.drop (x.length - p) = List.replicate p (BitVec.ofNat 8 p)) :
    pkcs7Unpad x = .ok (x.take (x.length - p)) := by
  rw [List.getLastD_eq_getLast?] at last
  rw [pkcs7Unpad, last, if_neg]
  rintro (h | h | h)
  · omega
  · omega
  · exact h pad

theorem pkcs7Unpad_of_not_padded {x : Bytes} {p : Nat} (last : (x.getLastD 0).toNat = p)
    (bad : p = 0 ∨ 16 < p ∨ x.drop (x.length - p) ≠ List.replicate p (BitVec.ofNat 8 p)) :
    pkcs7Unpad x = .error { cause := .badPadding, actNum := num p } := by
  rw [List.getLastD_eq_getLast?] at last
  rw [pkcs7Unpad, last, if_pos bad]

end Sys2Proof.Machine

open Sys2Proof Sys2Proof.Machine Sys2Proof.Safety

/-- Settles O24: the engine answers what DEC answers (`cipherCbuf_decrypt`), and its result fits CBUF because it is not
longer than the data (`cipherDec_length_le`). -/
theorem decryptReplacesTheBuffer : Obligations.DecryptReplacesTheBuffer := by
  intro a s key iv data accepted operands read
  have engine : cipherCbuf (acceptCommand s) true =
      liftE (cipherDec Config.blockCipher (cipherMode s.regs) key iv data) :=
    cipherCbuf_decrypt (cipherOperands_accept operands) ((readBytes_congr_mem (acceptCommand_mem s) _ _ _).trans read)
  refine ⟨fun r dec => ?replaced, fun e dec => ?failed, fun x _ _ => ?unpadded⟩
  case replaced =>
    have shorter : r.length ≤ data.length := cipherDec_length_le dec
    have fits : r.length ≤ Config.cbufMax := shorter.trans (readBytes_length_le_size read)
    refine ⟨shorter, ?_⟩
    rw [exec_decrypt_of_accepted accepted, engine, dec, liftE_ok, res_ok_bind, fillCbuf_eq_ok.mpr ⟨fits, rfl⟩,
      attempt_ok]
    rfl
  case failed =>
    rw [dec, liftE_error] at engine
    exact exec_cipher_of_engine_error (dec := true) accepted engine
  case unpadded => exact ⟨pkcs7Unpad_of_padded rfl, pkcs7Unpad_of_not_padded rfl⟩

end

section
/-! O27, O28: CONVERT on decode of the types whose text is fixed. A record that fits is appended, and what the type gives
the swapped bytes is the field's value (rules R174 to R182, R185, R186, R201). -/

namespace Sys2Proof.Machine

open Sys2Proof.Safety

variable {s : State} {k : Kind} {ft : FType} {d : Desc} {raw title v : Bytes}

theorem exec_of_decodedValue_fits {i : Instr} (hi : i.descriptor? = some (k, ft, d))
    (ready : DecodeReady s k ft d raw title) (value : DecodedValue s d raw k ft v)
    (fits : outFits (fieldRecord d raw title v) s) :
    exec i s = .next { outAppended (fieldRecord d raw title v) s with planPc := s.planPc + 1 } := by
  rw [exec_of_decodedValue hi ready value, if_pos fits]

theorem mem_swapped {x : Byte} : x ∈ swapped d raw ↔ x ∈ raw := by
  unfold swapped
  split <;> simp

end Sys2Proof.Machine

open Sys2Proof Sys2Proof.Machine Sys2Proof.Safety

/-- Settles O27: the decimal text of the scaled integer is the field's value (`DecodedText.integer`), and
`exec_of_decodedValue_fits` runs it. -/
theorem convertIntegerDecodes : Obligations.ConvertIntegerDecodes := by
  intro i ft w signed d s raw title member hi ready width scale value rf fits
  have text : DecodedText d ft (swapped d raw) _ :=
    .integer ft w signed _ member ((swapped_length d raw).trans width) scale
  exact exec_of_decodedValue_fits hi ready (.convert _ _ text) fits

/-- Settles O28: BCD gives every field a text, ASCII the fields of bytes at most 0x7F, which the swap keeps so
(`mem_swapped`). -/
theorem convertTextDecodes : Obligations.ConvertTextDecodes := by
  intro d s raw title
  refine ⟨?bcd, ?ascii⟩
  case bcd =>
    intro ready rf fits
    exact exec_of_decodedValue_fits rfl ready (.convert _ _ (.bcd _)) fits
  case ascii =>
    intro ready small rf fits
    have text : DecodedText d .ascii (swapped d raw) (swapped d raw) := .ascii _ fun x hx => small x (mem_swapped.mp hx)
    exact exec_of_decodedValue_fits rfl ready (.convert _ _ text) fits

end

section
/-! O33, O34, O35: CONVERT on encode. A descriptor that is ready and gives its value-string bytes appends them to FRAME
and a record to OUT where both fit, then advances (rules R204, R243). -/

namespace Sys2Proof.Machine

open Sys2Proof.Safety

variable {s : State} {k : Kind} {ft : FType} {d : Desc} {v title b value : Bytes}

/-- One descriptor on encode once its bytes are known, with room for them and for their record. -/
theorem exec_of_encodeValue {i : Instr} (hi : i.descriptor? = some (k, ft, d)) (ready : EncodeReady s k ft d v title)
    (legal : illegalCondition s k ft d = .ok none) (bytes : encodeValue s k ft d v = .ok (b, value))
    (frame : s.frameLen.toNat + (swapped d b).length ≤ Config.frameMax)
    (out : outFits (fieldRecord d (swapped d b) title value) s) :
    exec i s = .next (advance (frameAppended (swapped d b) (outAppended (fieldRecord d (swapped d b) title value) s))) := by
  have emitted := emitField_of_ready ready legal
  rw [bytes, res_ok_bind, appendFrame_eq_ok.mpr ⟨frame, out, rfl⟩] at emitted
  rw [exec_descriptor hi, runDescriptor_encoding ready.encoding.busy ready.encoding.main, emitted, attempt_ok]

theorem exec_of_encodedBytes {i : Instr} (hi : i.descriptor? = some (k, ft, d)) (ready : EncodeReady s k ft d v title)
    (bytes : EncodedBytes s d v k ft b value) (frame : s.frameLen.toNat + (swapped d b).length ≤ Config.frameMax)
    (out : outFits (fieldRecord d (swapped d b) title value) s) :
    exec i s = .next (advance (frameAppended (swapped d b) (outAppended (fieldRecord d (swapped d b) title value) s))) :=
  exec_of_encodeValue hi ready (illegalCondition_of_hasEnum (illegalWords_of_runs ready.runs) (hasEnum_of_encodedBytes bytes))
    (encodeValue_encodedBytes bytes) frame out

/-- An ordered range has capacity 0 exactly where its ends are equal (rules R61, R188). -/
theorem fieldCapacity_eq_zero_iff (order : d.startIndex.toNat ≤ d.endIndex.toNat) :
    fieldCapacity d = 0 ↔ d.endIndex = d.startIndex := by
  rw [fieldCapacity, ← BitVec.toNat_inj]
  omega

theorem fitsCapacity_of_eq (h : d.endIndex = d.startIndex ∨ b.length = d.endIndex.toNat - d.startIndex.toNat) :
    FitsCapacity d b :=
  h.imp (fun same => by rw [fieldCapacity, same, Nat.sub_self]) id

/-- A value-string that a type does not encode. -/
theorem exec_convert_encode_error {i : Instr} {e : Err} (hi : i.descriptor? = some (.convert, ft, d))
    (ready : EncodeReady s .convert ft d v title) (he : ftEncodeRaw ft (descScale d) v = .error e) :
    exec i s = .next (failCapsule { e with ft := some ft } (descIndex s) s) :=
  exec_encodeValue_error hi ready (illegalCondition_of_words (illegalWords_of_runs ready.runs) (by decide))
    (encodeValue_convert_error he)

/-- The `w` bytes a type without an integer form gives a value-string; only their number decides whether they fit (rules
R183, R184, R204). -/
theorem exec_of_pattern {i : Instr} {w : Nat} (hi : i.descriptor? = some (.convert, ft, d)) (type : intType ft = none)
    (encoded : ftEncodeRaw ft (descScale d) v = .ok b) (width : b.length = w)
    (ready : EncodeReady s .convert ft d v title)
    (cap : d.endIndex = d.startIndex ∨ d.endIndex.toNat - d.startIndex.toNat = w)
    (frame : s.frameLen.toNat + w ≤ Config.frameMax) (out : outFits (fieldRecord d (List.replicate w 0) title v) s) :
    exec i s = .next (advance (frameAppended (swapped d b) (outAppended (fieldRecord d (swapped d b) title v) s))) := by
  have len : (swapped d b).length = w := (swapped_length d b).trans width
  have fits : FitsCapacity d b := fitsCapacity_of_eq (cap.imp id fun h => width.trans h.symm)
  exact exec_of_encodeValue hi ready (illegalCondition_of_words (illegalWords_of_runs ready.runs) (by decide))
    (encodeValue_convert_fits encoded type fits) (len.symm ▸ frame)
    ((outFits_fieldRecord_iff (by rw [len, List.length_replicate])).mpr out)

end Sys2Proof.Machine

open Sys2Proof Sys2Proof.Machine Sys2Proof.Safety

/-- Settles O33: the rounded raw value has the bytes of `EncodedBytes.integer`, and `exec_of_encodedBytes` appends
them. -/
theorem convertIntegerEncodes : Obligations.ConvertIntegerEncodes := by
  intro i ft w signed d s v title a e member hi ready parsed scale raw cap fb rf range frame out
  have capacity : cap = if fieldCapacity d = 0 then w else fieldCapacity d := by
    simp only [fieldCapacity_eq_zero_iff ready.order]
    rfl
  exact exec_of_encodedBytes hi ready (.integer ft w signed a raw e cap member parsed scale rfl range capacity) frame out

/-- Settles O34: BCD and ASCII have the bytes of `EncodedBytes` where these have the field's capacity. -/
theorem convertTextEncodes : Obligations.ConvertTextEncodes := by
  intro d s v b title fb rf cap frame out
  have fits : FitsCapacity d b := fitsCapacity_of_eq cap
  refine ⟨fun ready nonempty bytes => ?bcd, fun ready same small => ?ascii⟩
  case bcd =>
    have string : v ≠ [] := by
      rintro rfl
      exact nonempty (Option.some.inj bytes).symm
    exact exec_of_encodedBytes rfl ready (.bcd b string bytes fits) frame out
  case ascii =>
    subst same
    exact exec_of_encodedBytes rfl ready (.ascii small fits) frame out

/-- Settles O35: the pattern of the type's parser is appended (`exec_of_pattern`), no pattern is BAD_NUMBER
(`exec_convert_encode_error`). -/
theorem convertFloatEncodes : Obligations.ConvertFloatEncodes := by
  intro d s v title record bad
  refine ⟨fun ready cap frame out => ?float, fun ready cap frame out => ?double⟩
  case float =>
    cases parsed : Config.floatText.parse v with
    | none =>
      have rejected : ftEncodeRaw .float (descScale d) v = .error (stringErr .badNumber v) := by simp [ftEncodeRaw, parsed]
      exact (exec_convert_encode_error (i := .convertFloat d) rfl ready rejected :)
    | some p =>
      have bytes : ftEncodeRaw .float (descScale d) v = .ok (beN p.toNat 4) := by simp [ftEncodeRaw, parsed]
      exact exec_of_pattern (i := .convertFloat d) rfl rfl bytes (beN_length _ _) ready cap frame out
  case double =>
    cases parsed : Config.doubleText.parse v with
    | none =>
      have rejected : ftEncodeRaw .double (descScale d) v = .error (stringErr .badNumber v) := by simp [ftEncodeRaw, parsed]
      exact (exec_convert_encode_error (i := .convertDouble d) rfl ready rejected :)
    | some p =>
      have bytes : ftEncodeRaw .double (descScale d) v = .ok (beN p.toNat 8) := by simp [ftEncodeRaw, parsed]
      exact exec_of_pattern (i := .convertDouble d) rfl rfl bytes (beN_length _ _) ready cap frame out

end

section
/-! O58: decimal text. A rendered number is a numeral, sign, whole digits and fraction digits; the parser reads every
numeral back, and the rendering's fraction is six digits without the zeros at its end (rules R172, R173). -/

namespace Sys2Proof.Machine

/-! ## Rounding (rule R172) -/

theorem roundHA_eq_floor (a : Int) {b : Nat} (hb : 0 < b) : roundHA a b = a.sign * ⌊|(a : ℚ) / b| + 1 / 2⌋ := by
  have half : |(a : ℚ) / b| + 1 / 2 = ((2 * a.natAbs + b : Nat) : ℚ) / ((2 * b : Nat) : ℚ) := by
    have nonzero : (b : ℚ) ≠ 0 := by positivity
    rw [abs_div, Nat.abs_cast, ← Int.cast_abs, Int.abs_eq_natAbs, Int.cast_natCast]
    push_cast
    field_simp
  rw [half, Rat.floor_natCast_div_natCast]
  simp [roundHA]

/-! ## Strings of digits -/

section

variable {s t : Bytes} {c : Byte}

theorem toNat_digit (n : Nat) : (BitVec.ofNat 8 (0x30 + n % 10)).toNat = 0x30 + n % 10 := by
  rw [BitVec.toNat_ofNat]
  omega

theorem isDigit_digit (n : Nat) : isDigit (BitVec.ofNat 8 (0x30 + n % 10)) = true := by
  rw [isDigit, toNat_digit, Bool.and_eq_true, decide_eq_true_eq, decide_eq_true_eq]
  omega

theorem digitsValue_concat (s : Bytes) (c : Byte) : digitsValue (s ++ [c]) = 10 * digitsValue s + (c.toNat - 0x30) := by
  simp [digitsValue, List.foldl_append]

theorem digitsValue_append (s t : Bytes) : digitsValue (s ++ t) = digitsValue s * 10 ^ t.length + digitsValue t := by
  induction t using List.reverseRecOn with
  | nil => simp [digitsValue]
  | append_singleton t c ih =>
    rw [← List.append_assoc, digitsValue_concat, digitsValue_concat, ih, List.length_append, List.length_singleton]
    ring

/-- A string of digits that does not end in '0' is no multiple of ten. -/
theorem digitsValue_mod_ten_ne_zero (digit : isDigit c = true) (h : c ≠ 0x30) : digitsValue (s ++ [c]) % 10 ≠ 0 := by
  have bounds : 0x30 ≤ c.toNat ∧ c.toNat ≤ 0x39 := by simpa [isDigit] using digit
  have other : c.toNat ≠ 0x30 := fun e => h (BitVec.eq_of_toNat_eq e)
  rw [digitsValue_concat]
  omega

/-! ### The whole part -/

theorem decDigits_all (f n : Nat) : (decDigits f n).all isDigit = true := by
  induction f generalizing n with
  | zero => rfl
  | succ f ih =>
    rw [decDigits, List.all_append, List.all_cons, isDigit_digit]
    split <;> simp [ih]

theorem digitsValue_decDigits {f n : Nat} (h : n < 10 ^ f) : digitsValue (decDigits f n) = n := by
  induction f generalizing n with
  | zero => simp_all [decDigits, digitsValue]
  | succ f ih =>
    rw [decDigits, digitsValue_concat, toNat_digit]
    split
    · simp only [digitsValue, List.foldl_nil]
      omega
    · rw [ih (by rw [pow_succ] at h; omega)]
      omega

theorem decimal_all (n : Nat) : (decimal n).all isDigit = true := decDigits_all _ n

theorem decimal_ne_nil (n : Nat) : decimal n ≠ [] := by simp [decimal, decDigits]

theorem digitsValue_decimal (n : Nat) : digitsValue (decimal n) = n :=
  digitsValue_decDigits (Nat.lt_log2_self.trans_le (Nat.pow_le_pow_left (by decide) _))

/-! ### The fraction -/

@[simp] theorem decPadded_length (n k : Nat) : (decPadded n k).length = k := by
  induction k generalizing n with
  | zero => rfl
  | succ k ih => simp [decPadded, ih]

theorem decPadded_all (n k : Nat) : (decPadded n k).all isDigit = true := by
  induction k generalizing n with
  | zero => rfl
  | succ k ih => simp [decPadded, ih, isDigit_digit]

theorem digitsValue_decPadded {n k : Nat} (h : n < 10 ^ k) : digitsValue (decPadded n k) = n := by
  induction k generalizing n with
  | zero => simp_all [decPadded, digitsValue]
  | succ k ih =>
    rw [decPadded, digitsValue_concat, toNat_digit, ih (by rw [pow_succ] at h; omega)]
    omega

theorem stripZeros_eq_rdropWhile (s : Bytes) : stripZeros s = s.rdropWhile (· == 0x30) := rfl

theorem stripZeros_isPrefix (s : Bytes) : stripZeros s <+: s := List.rdropWhile_prefix _ _

theorem stripZeros_all (h : s.all isDigit = true) : (stripZeros s).all isDigit = true := by
  rw [List.all_eq_true] at h ⊢
  exact fun c hc => h c ((stripZeros_isPrefix s).subset hc)

/-- The zeros taken off are the missing powers of ten. -/
theorem digitsValue_stripZeros (s : Bytes) :
    digitsValue (stripZeros s) * 10 ^ (s.length - (stripZeros s).length) = digitsValue s := by
  induction s using List.reverseRecOn with
  | nil => rfl
  | append_singleton s c ih =>
    rw [stripZeros_eq_rdropWhile, List.rdropWhile_concat, ← stripZeros_eq_rdropWhile]
    split
    · rename_i zero
      obtain rfl : c = 0x30 := by simpa using zero
      have shorter := (stripZeros_isPrefix s).length_le
      rw [digitsValue_concat, List.length_append, List.length_singleton, Nat.sub_add_comm shorter, pow_succ, ← ih]
      simp
      ring
    · simp

/-- What is left of a string of digits ends in no zero. -/
theorem digitsValue_append_stripZeros_mod_ten (s : Bytes) (digits : t.all isDigit = true) (h : stripZeros t ≠ []) :
    digitsValue (s ++ stripZeros t) % 10 ≠ 0 := by
  have last : (stripZeros t).getLast h ≠ 0x30 := fun e => List.rdropWhile_last_not (· == 0x30) t h (beq_iff_eq.mpr e)
  have digit : isDigit ((stripZeros t).getLast h) = true :=
    List.all_eq_true.mp (stripZeros_all digits) _ (List.getLast_mem h)
  rw [← List.dropLast_append_getLast h, ← List.append_assoc]
  exact digitsValue_mod_ten_ne_zero digit last

end

/-! ## Numerals (rule R173) -/

section

variable {negative : Bool} {whole fraction : Bytes}

/-- A numeral of the parser's grammar by its three parts. -/
def numeral (negative : Bool) (whole fraction : Bytes) : Bytes :=
  (if negative then [0x2D] else []) ++ whole ++ (if fraction.isEmpty then [] else 0x2E :: fraction)

/-- The whole part of a string ends at the point. -/
theorem span_digits (hw : whole.all isDigit = true) (f : Bytes) :
    (whole ++ 0x2E :: f).takeWhile isDigit = whole ∧ (whole ++ 0x2E :: f).dropWhile isDigit = 0x2E :: f := by
  rw [List.all_eq_true] at hw
  rw [List.takeWhile_append_of_pos hw, List.dropWhile_append_of_pos hw]
  exact ⟨List.append_nil whole, rfl⟩

/-- The parser takes the sign off. -/
theorem sign_numeral (digits : whole.all isDigit = true) (nonempty : whole ≠ []) (r : Bytes) :
    let s := (if negative then [0x2D] else []) ++ whole ++ r
    (s.head? == some 0x2D) = negative ∧ (if negative then s.tail else s) = whole ++ r := by
  obtain ⟨c, rest, rfl⟩ := List.exists_cons_of_ne_nil nonempty
  have noSign : c ≠ 0x2D := by
    rintro rfl
    simp [isDigit] at digits
  cases negative with
  | true => exact ⟨rfl, rfl⟩
  | false => exact ⟨beq_eq_false_iff_ne.mpr fun e => noSign (Option.some.inj e), rfl⟩

/-- The parser reads a numeral as its digits without the point, and the number of its fraction digits. -/
theorem decParse?_numeral (wholeDigits : whole.all isDigit = true) (nonempty : whole ≠ [])
    (fractionDigits : fraction.all isDigit = true) :
    decParse? (numeral negative whole fraction) =
      some (if negative then -(digitsValue (whole ++ fraction) : Int) else digitsValue (whole ++ fraction),
        fraction.length) := by
  obtain ⟨sign, unsigned⟩ := sign_numeral (negative := negative) wholeDigits nonempty
    (if fraction.isEmpty then [] else 0x2E :: fraction)
  simp only [decParse?, numeral, sign, unsigned]
  cases fraction with
  | nil =>
    have all := List.all_eq_true.mp wholeDigits
    have taken : whole.takeWhile isDigit = whole := List.takeWhile_eq_self_iff.mpr all
    have dropped : whole.dropWhile isDigit = [] := List.dropWhile_eq_nil_iff.mpr all
    simp [taken, dropped, nonempty]
  | cons c f =>
    obtain ⟨taken, dropped⟩ := span_digits wholeDigits (c :: f)
    simp only [List.isEmpty_cons, Bool.false_eq_true, if_false, taken, dropped, List.isEmpty_iff, nonempty, fractionDigits,
      and_self, if_true]

end

/-! ## The rendering (rule R172) -/

/-- The fraction digits of a rendering of `n` millionths. -/
def fractionText (n : Nat) : Bytes := stripZeros (decPadded (n % 10 ^ 6) 6)

theorem fractionText_all (n : Nat) : (fractionText n).all isDigit = true := stripZeros_all (decPadded_all _ _)

theorem fractionText_length_le (n : Nat) : (fractionText n).length ≤ 6 :=
  (stripZeros_isPrefix _).length_le.trans_eq (decPadded_length _ 6)

/-- The digits of a rendering are those of its millionths, zeros at the end apart. -/
theorem digitsValue_rendered (n : Nat) :
    digitsValue (decimal (n / 10 ^ 6) ++ fractionText n) * 10 ^ (6 - (fractionText n).length) = n := by
  have fraction : digitsValue (fractionText n) * 10 ^ (6 - (fractionText n).length) = n % 10 ^ 6 := by
    have stripped := digitsValue_stripZeros (decPadded (n % 10 ^ 6) 6)
    rwa [decPadded_length, digitsValue_decPadded (Nat.mod_lt _ (by decide))] at stripped
  calc digitsValue (decimal (n / 10 ^ 6) ++ fractionText n) * 10 ^ (6 - (fractionText n).length)
      = n / 10 ^ 6 * 10 ^ ((fractionText n).length + (6 - (fractionText n).length)) +
          digitsValue (fractionText n) * 10 ^ (6 - (fractionText n).length) := by
        rw [digitsValue_append, digitsValue_decimal, pow_add]
        ring
    _ = n := by
        rw [fraction, Nat.add_sub_cancel' (fractionText_length_le n)]
        exact Nat.div_add_mod' n (10 ^ 6)

section

variable {a v : Int} {e : Nat}

theorem decRender_of_zero (h : roundHA (a * 10 ^ 6) (10 ^ e) = 0) : decRender a e = numeral false (decimal 0) [] := by
  rw [decRender, h]
  rfl

theorem decRender_of_ne_zero (hv : roundHA (a * 10 ^ 6) (10 ^ e) = v) (h : v ≠ 0) :
    decRender a e = numeral (decide (v < 0)) (decimal (v.natAbs / 10 ^ 6)) (fractionText v.natAbs) := by
  simp only [decRender, hv, if_neg h, numeral, fractionText, decide_eq_true_eq]
  rfl

/-- A rendered number parses back to its value rounded to six digits, without a zero at the end of its fraction. -/
theorem decParse?_decRender (a : Int) (e : Nat) :
    ∃ a' e', decParse? (decRender a e) = some (a', e') ∧ e' ≤ 6 ∧ a' * 10 ^ (6 - e') = roundHA (a * 10 ^ 6) (10 ^ e) ∧
      (0 < e' → a' % 10 ≠ 0) := by
  generalize hv : roundHA (a * 10 ^ 6) (10 ^ e) = v
  by_cases zero : v = 0
  · subst zero
    rw [decRender_of_zero hv, decParse?_numeral (decimal_all 0) (decimal_ne_nil 0) rfl]
    exact ⟨0, 0, rfl, by decide, rfl, fun h => absurd h (by decide)⟩
  · rw [decRender_of_ne_zero hv zero, decParse?_numeral (decimal_all _) (decimal_ne_nil _) (fractionText_all _)]
    have value := digitsValue_rendered v.natAbs
    have ending : 0 < (fractionText v.natAbs).length →
        digitsValue (decimal (v.natAbs / 10 ^ 6) ++ fractionText v.natAbs) % 10 ≠ 0 := fun h =>
      digitsValue_append_stripZeros_mod_ten _ (decPadded_all _ _) (List.ne_nil_of_length_pos h)
    refine ⟨_, _, rfl, fractionText_length_le _, ?value, fun h => ?ending⟩
    case value =>
      have value : (digitsValue (decimal (v.natAbs / 10 ^ 6) ++ fractionText v.natAbs) : Int) *
          10 ^ (6 - (fractionText v.natAbs).length) = v.natAbs := mod_cast value
      simp only [decide_eq_true_eq]
      split
      · rw [neg_mul, value]
        omega
      · rw [value]
        omega
    case ending =>
      have := ending h
      simp only [decide_eq_true_eq]
      split <;> omega

end

end Sys2Proof.Machine

open Sys2Proof Sys2Proof.Machine

/-- Settles O58: rounding by `roundHA_eq_floor`, the rendering by `decParse?_decRender`. -/
theorem renderedNumbersParseBack : Obligations.RenderedNumbersParseBack :=
  ⟨fun a _ hb => roundHA_eq_floor a hb, decParse?_decRender⟩

end

section
/-! O59: part (a) of R190. With at most six decimals nothing is lost to rounding, so the number parses back exactly, the
division by the scale is exact, and the pattern of an integer gives its bytes (rules R174, R187). -/

namespace Sys2Proof.Machine

open Sys2Proof.Safety

/-! ## Exact quotients (rule R172) -/

theorem roundHA_mul_self (q : Int) {b : Nat} (hb : 0 < b) : roundHA (q * b) b = q := by
  have quotient : (2 * (q.natAbs * b) + b) / (2 * b) = q.natAbs := by
    rw [show 2 * (q.natAbs * b) + b = b + q.natAbs * (2 * b) by ring, Nat.add_mul_div_right _ _ (by omega),
      Nat.div_eq_of_lt (by omega), Nat.zero_add]
  rw [roundHA, Int.natAbs_mul, Int.natAbs_natCast, quotient, Int.sign_mul, Int.sign_natCast_of_ne_zero hb.ne', Int.mul_one,
    Int.sign_mul_natAbs]

/-- A number of at most six decimals is rendered without rounding: it parses back as an equal fraction. -/
theorem decParse?_decRender_exact (a : Int) {e : Nat} (he : e ≤ 6) :
    ∃ a' e', decParse? (decRender a e) = some (a', e') ∧ a' * 10 ^ e = a * 10 ^ e' := by
  obtain ⟨a', e', parsed, he', value, -⟩ := decParse?_decRender a e
  have millionths : (10 : Int) ^ 6 = 10 ^ (6 - e) * 10 ^ e ∧ (10 : Int) ^ 6 = 10 ^ (6 - e') * 10 ^ e' := by
    rw [← pow_add, ← pow_add, Nat.sub_add_cancel he, Nat.sub_add_cancel he']
    exact ⟨rfl, rfl⟩
  have exactly : a' * 10 ^ (6 - e') = a * 10 ^ (6 - e) := by
    have rounded := roundHA_mul_self (a * 10 ^ (6 - e)) (b := 10 ^ e) (by positivity)
    rw [value, ← rounded, millionths.1]
    push_cast
    rw [mul_assoc]
  refine ⟨a', e', parsed, mul_right_cancel₀ (b := (10 : Int) ^ (6 - e')) (by positivity) ?_⟩
  calc a' * 10 ^ e * 10 ^ (6 - e') = a * (10 ^ (6 - e) * 10 ^ e) := by
        rw [mul_right_comm, exactly, mul_assoc]
    _ = a * 10 ^ e' * 10 ^ (6 - e') := by
        rw [← millionths.1, millionths.2]
        ring

/-! ## The integer of a byte string (rules R43, R105) -/

section

variable {signed : Bool} {b : Bytes}

theorem integerOf_inRange (nonempty : 0 < b.length) : InRange b.length signed (integerOf signed b) := by
  have bound := be_lt b
  have double : 2 ^ (8 * b.length) = 2 * 2 ^ (8 * b.length - 1) := by
    rw [← pow_succ', show 8 * b.length - 1 + 1 = 8 * b.length by omega]
  cases signed with
  | false =>
    have cast : (be b : Int) < 2 ^ (8 * b.length) := mod_cast bound
    exact ⟨Int.natCast_nonneg _, cast⟩
  | true =>
    have half : ((2 ^ (8 * b.length - 1) : Nat) : Int) = 2 ^ (8 * b.length - 1) := by norm_num
    have whole : ((2 ^ (8 * b.length) : Nat) : Int) = 2 ^ (8 * b.length) := by norm_num
    simp only [InRange, integerOf, sext, if_true]
    split <;> omega

/-- The bytes of the integer a byte string stands for are that string. -/
theorem intBytes_integerOf (signed : Bool) (b : Bytes) : intBytes b.length (integerOf signed b) = b := by
  have pattern : wrap (8 * b.length) (integerOf signed b) = be b := by
    have natural : ((be b : Int) % 2 ^ (8 * b.length)).toNat = be b := by
      rw [Int.emod_eq_of_lt (Int.natCast_nonneg _) (mod_cast be_lt b), Int.toNat_natCast]
    rw [wrap_eq, integerOf, sext]
    split
    · split
      · exact natural
      · rw [Int.sub_emod_right, natural]
    · exact natural
  rw [intBytes, pattern, beN_be]

end

/-! ## The integer types in both directions (rules R174, R187) -/

section

variable {w : Nat} {signed : Bool} {sc : Option Scale} {s : Bytes} {a : Int} {e : Nat}

theorem intDecode_of_scale (signed : Bool) (hs : zeroScale sc = false) (b : Bytes) :
    intDecode b.length signed sc b =
      .ok (decRender (integerOf signed b * (effectiveScale sc).m) (effectiveScale sc).e) := by
  rw [intDecode, if_neg (by simp), if_neg (by simp [hs])]
  rfl

/-- A string that parses to an exact multiple of the scale encodes to the bytes of the factor. -/
theorem intEncode_of_exact {raw : Int} (hs : zeroScale sc = false) (scale : 0 < (effectiveScale sc).m)
    (parsed : decParse? s = some (a, e))
    (exactly : a * 10 ^ (effectiveScale sc).e = raw * (effectiveScale sc).m * 10 ^ e) (range : InRange w signed raw) :
    intEncode w signed sc s = .ok (intBytes w raw) := by
  have rounded : roundHA (a * 10 ^ (effectiveScale sc).e) (10 ^ e * (effectiveScale sc).m) = raw := by
    rw [exactly, show raw * (effectiveScale sc).m * 10 ^ e = raw * ((10 ^ e * (effectiveScale sc).m : Nat) : Int) by
      push_cast; ring]
    exact roundHA_mul_self raw (by positivity)
  simp only [intEncode, intEncodeRaw, hs, decParse, parsed, rounded, Bool.false_eq_true, if_false,
    if_neg ((inRange_iff w signed raw).mp range), Except.map]

/-- A scale of the statement: not zero, and of at most six decimals. -/
theorem effectiveScale_bounds (h : ∀ x, sc = some x → x.m ≠ 0 ∧ x.e ≤ 6) :
    zeroScale sc = false ∧ 0 < (effectiveScale sc).m ∧ (effectiveScale sc).e ≤ 6 := by
  cases sc with
  | none => exact ⟨rfl, Nat.one_pos, Nat.zero_le 6⟩
  | some x =>
    obtain ⟨nonzero, decimals⟩ := h x rfl
    exact ⟨beq_eq_false_iff_ne.mpr nonzero, Nat.pos_of_ne_zero nonzero, decimals⟩

end

end Sys2Proof.Machine

open Sys2Proof Sys2Proof.Machine Sys2Proof.Safety

/-- Settles O59: the decoded text parses back exactly (`decParse?_decRender_exact`), the encoder divides by the scale
without rounding (`intEncode_of_exact`), and the integer's bytes are the field's (`intBytes_integerOf`). -/
theorem integerFieldsRoundTrip : Obligations.IntegerFieldsRoundTrip := by
  rintro ft w signed sc b member rfl scale
  obtain ⟨type, width⟩ := intType_of_mem member
  obtain ⟨hs, nonzero, decimals⟩ := effectiveScale_bounds scale
  obtain ⟨a, e, parsed, exactly⟩ := decParse?_decRender_exact (integerOf signed b * (effectiveScale sc).m) decimals
  refine ⟨decRender (integerOf signed b * (effectiveScale sc).m) (effectiveScale sc).e, ?decodes, ?encodes⟩
  case decodes => rw [ftDecode, ftDecodeRaw_integer member, intDecode_of_scale signed hs, nameType]
  case encodes =>
    rw [ftEncode, ftEncodeRaw_integer type, intEncode_of_exact hs nonzero parsed exactly (integerOf_inRange width),
      intBytes_integerOf, nameType]

end

section
/-! O30, O31: COMPARE and ENUM on decode. A field that gives a value is run by `exec_of_decodedValue_fits`; the one error
of the two translators is COMPARE's mismatch (rules R202, R203). -/

namespace Sys2Proof.Machine

open Sys2Proof.Safety

variable {s : State} {ft : FType} {d : Desc} {b target : Bytes}

/-- Bytes that are not the target (rule R202). -/
theorem decodeValue_compare_mismatch (read : tblStr s (auxPtr d) = .ok target) (different : b ≠ target) :
    decodeValue s .compare ft d b =
      raise { cause := .compareMismatch, expBytes := target, actBytes := b, expNum := num target.length,
              actNum := num b.length } := by
  rw [decodeValue, compareValue, read, res_ok_bind, if_pos different]

end Sys2Proof.Machine

open Sys2Proof Sys2Proof.Machine Sys2Proof.Safety

/-- Settles O30: bytes equal to the target have the value of `DecodedValue.compare`, others raise
(`decodeValue_compare_mismatch`). -/
theorem compareDecodes : Obligations.CompareDecodes := by
  intro d s raw title target ready read rf
  refine ⟨fun same fits => ?equal, fun different => ?mismatch⟩
  case equal =>
    subst same
    exact exec_of_decodedValue_fits rfl ready (.compare read) fits
  case mismatch =>
    have legal : illegalCondition s .compare .bcd d = .ok none :=
      illegalCondition_of_words (illegalWords_of_runs ready.runs) (by decide)
    refine exec_decode_error rfl ready.decoding ?_
    rw [extractField_of_ready ready legal, decodeValue_compare_mismatch read different, swapped_length]
    rfl

/-- Settles O31: with an entry for the bytes the value is `DecodedValue.label`'s, without one `DecodedValue.noLabel`'s. -/
theorem enumDecodes : Obligations.EnumDecodes := by
  intro d s raw title entries ready table value rf fits
  have decoded : DecodedValue s d raw .enum .bcd value := by
    dsimp only [value]
    split
    next e found => exact .label entries e table found
    next none => exact .noLabel entries table none
  exact exec_of_decodedValue_fits rfl ready decoded fits

end

section
/-! O36, O37: COMPARE and ENUM on encode. The target, or what the table or the hex form gives the value-string, is checked
against the capacity and appended (rules R205, R206). -/

namespace Sys2Proof.Machine

open Sys2Proof.Safety

/-- The bytes ENUM gives a value-string before its capacity is looked at: the pattern of the first entry with that label,
else the bytes of a non-empty hex string (rule R206). -/
def enumBytes (entries : List (Bytes × Bytes)) (v : Bytes) : Option Bytes :=
  match entries.find? (·.2 == v) with
  | some e => some e.1
  | none => if v = [] then none else unhex? v

section

variable {s : State} {ft : FType} {d : Desc} {v b target : Bytes} {entries : List (Bytes × Bytes)}

theorem checkCapacity_error (h0 : fieldCapacity d ≠ 0) (hl : b.length ≠ fieldCapacity d) :
    checkCapacity d b = raise { cause := .fieldLength, expNum := num (fieldCapacity d), actNum := num b.length } :=
  if_pos ⟨h0, hl⟩

theorem encodeValue_compare (read : tblStr s (auxPtr d) = .ok target) :
    encodeValue s .compare ft d v = checkCapacity d target >>= fun b => .ok (b, hex target) := by
  rw [encodeValue, compareEncode, read]
  rfl

theorem enumEncode_of_hasEnum (table : HasEnum s d entries) :
    enumEncode s d v = match (entries.find? (·.2 == v)).map (·.1) with
      | some p => checkCapacity d p >>= fun b => .ok (b, v)
      | none =>
        if isMachineCode v then checkCapacity d ((unhex? v).getD []) >>= fun b => .ok (b, v)
        else raise (stringErr .notMachineCode v) := by
  rw [enumEncode, enumTable_of_hasEnum table, res_ok_bind]
  dsimp only
  rw [enumPattern_image table.table, res_ok_bind]
  cases (entries.find? (·.2 == v)).map (·.1) <;> rfl

theorem encodeValue_enum_some (table : HasEnum s d entries) (found : enumBytes entries v = some b) :
    encodeValue s .enum ft d v = checkCapacity d b >>= fun b => .ok (b, v) := by
  rw [encodeValue, enumEncode_of_hasEnum table]
  unfold enumBytes at found
  split at found
  next e entry =>
    cases found
    rw [entry]
    rfl
  next none =>
    obtain ⟨nonempty, bytes⟩ : v ≠ [] ∧ unhex? v = some b := by simpa using found
    have isHex : isMachineCode v = true := isMachineCode_iff.mpr ⟨nonempty, by simp [bytes]⟩
    simp [none, isHex, bytes]

theorem encodeValue_enum_none (table : HasEnum s d entries) (found : enumBytes entries v = none) :
    encodeValue s .enum ft d v = raise (stringErr .notMachineCode v) := by
  rw [encodeValue, enumEncode_of_hasEnum table]
  unfold enumBytes at found
  split at found
  next e entry => cases found
  next none =>
    have notHex : ¬ isMachineCode v = true := by
      rw [isMachineCode_iff]
      rintro ⟨nonempty, bytes⟩
      rw [if_neg nonempty] at found
      simp [found] at bytes
    simp [none, notHex]

end

section

variable {s : State} {k : Kind} {ft : FType} {d : Desc} {v title b value : Bytes} {i : Instr}

/-- Bytes checked against the capacity: they are appended where they have it, and FIELD_LENGTH where they do not. -/
theorem exec_of_checkCapacity (hi : i.descriptor? = some (k, ft, d)) (ready : EncodeReady s k ft d v title)
    (legal : illegalCondition s k ft d = .ok none)
    (checked : encodeValue s k ft d v = checkCapacity d b >>= fun b => .ok (b, value)) :
    (FitsCapacity d b → s.frameLen.toNat + (swapped d b).length ≤ Config.frameMax →
      outFits (fieldRecord d (swapped d b) title value) s →
      exec i s = .next
        (advance (frameAppended (swapped d b) (outAppended (fieldRecord d (swapped d b) title value) s)))) ∧
    (fieldCapacity d ≠ 0 → b.length ≠ fieldCapacity d → exec i s = .next
      (failCapsule { cause := .fieldLength, expNum := num (fieldCapacity d), actNum := num b.length } (descIndex s) s)) := by
  refine ⟨fun fits frame out => ?appended, fun h0 hl => ?length⟩
  case appended =>
    rw [checkCapacity_of_fits fits, res_ok_bind] at checked
    exact exec_of_encodeValue hi ready legal checked frame out
  case length =>
    rw [checkCapacity_error h0 hl] at checked
    exact exec_encodeValue_error hi ready legal checked

end

end Sys2Proof.Machine

open Sys2Proof Sys2Proof.Machine Sys2Proof.Safety

/-- Settles O36, by `exec_of_checkCapacity` for the target. -/
theorem compareEncodes : Obligations.CompareEncodes := by
  intro d s title target ready read cap fb rf
  have legal : illegalCondition s .compare .bcd d = .ok none :=
    illegalCondition_of_words (illegalWords_of_runs ready.runs) (by decide)
  exact exec_of_checkCapacity rfl ready legal (encodeValue_compare read)

/-- Settles O37: what `enumBytes` finds goes through `exec_of_checkCapacity`, and nothing found is NotMachineCode. -/
theorem enumEncodes : Obligations.EnumEncodes := by
  intro d s v title entries ready table cap found
  have lookup : found = enumBytes entries v := rfl
  have legal : illegalCondition s .enum .bcd d = .ok none :=
    illegalCondition_of_table (illegalWords_of_runs ready.runs) (enumTable_of_hasEnum table)
  have run {b : Bytes} (h : found = some b) :=
    exec_of_checkCapacity (i := .enum d) rfl ready legal (encodeValue_enum_some table (lookup ▸ h))
  refine ⟨fun b h => (run h).1, fun b h => (run h).2, fun h => ?notMachineCode⟩
  case notMachineCode =>
    exact exec_encodeValue_error rfl ready legal (encodeValue_enum_none table (lookup ▸ h))

end

section
/-! O40: what becomes of a legal descriptor before its translator: the direction test in both directions, and on encode
the value that may be omitted or raise (rules R207, R245). -/

namespace Sys2Proof.Machine

open Sys2Proof.Safety

variable {s t : State} {k : Kind} {ft : FType} {d : Desc}

theorem applies_eq_false_iff (d : Desc) (r : Regs) : applies d r = false ↔ d.dir &&& capDir r = 0 := by simp [applies]

theorem extractField_of_not_applies (legal : illegalCondition s k ft d = .ok none)
    (app : d.dir &&& capDir s.regs = 0) : extractField s k ft d = .ok s := by
  simp [extractField, legal, (applies_eq_false_iff d s.regs).mpr app]

theorem emitField_of_not_applies (legal : illegalCondition s k ft d = .ok none)
    (app : d.dir &&& capDir s.regs = 0) : emitField s k ft d = .ok s := by
  simp [emitField, legal, (applies_eq_false_iff d s.regs).mpr app]

theorem emitField_of_omitted (legal : illegalCondition s k ft d = .ok none) (app : d.dir &&& capDir s.regs ≠ 0)
    (omitted : suppliedValue s k d = .ok none) : emitField s k ft d = .ok s := by
  simp [emitField, legal, (applies_iff d s.regs).mpr app, omitted]

theorem emitField_of_value_error {e : Err} (legal : illegalCondition s k ft d = .ok none)
    (app : d.dir &&& capDir s.regs ≠ 0) (value : suppliedValue s k d = .error (.raise e)) :
    emitField s k ft d = raise e := by
  simp [emitField, legal, (applies_iff d s.regs).mpr app, value]

/-- A descriptor that took effect on decode, and the advance after it. -/
theorem exec_of_extractField {i : Instr} (hi : i.descriptor? = some (k, ft, d)) (h : Decoding s)
    (extracted : extractField s k ft d = .ok t) : exec i s = .next (advance t) := by
  rw [exec_descriptor hi, runDescriptor_reading h.busy h.main, extracted, attempt_ok]

/-- A descriptor that took effect on encode, and the advance after it. -/
theorem exec_of_emitField {i : Instr} (hi : i.descriptor? = some (k, ft, d)) (h : Encoding s)
    (emitted : emitField s k ft d = .ok t) : exec i s = .next (advance t) := by
  rw [exec_descriptor hi, runDescriptor_encoding h.busy h.main, emitted, attempt_ok]

end Sys2Proof.Machine

open Sys2Proof Sys2Proof.Machine Sys2Proof.Safety

/-- Settles O40. -/
theorem filteredDescriptorIsSkipped : Obligations.FilteredDescriptorIsSkipped := by
  intro i k ft d s hi legal
  refine ⟨?direction, fun encoding app omitted => ?omitted, fun e encoding app value => ?raised⟩
  case direction =>
    rintro (decoding | encoding) app
    · exact exec_of_extractField hi decoding (extractField_of_not_applies legal app)
    · exact exec_of_emitField hi encoding (emitField_of_not_applies legal app)
  case omitted => exact exec_of_emitField hi encoding (emitField_of_omitted legal app omitted)
  case raised => exact exec_encode_error hi encoding (emitField_of_value_error legal app value)

end

section
/-! O44: WRITE_FIELD in its encode form. Once its configuration is checked it is one step of the sequencer, which is at
the write descriptor; that step is the instruction's meaning (rules R240, R242). -/

namespace Sys2Proof.Machine

open Sys2Proof.Safety

/-- One step of a running command ends its run of length 1. -/
theorem runSeq_one {run : Instr → State → Out} {s : State} (h : s.status.busy = true) : runSeq run 1 s = seqStep run s := by
  simp only [runSeq, h, if_true]
  cases seqStep run s <;> rfl

theorem checkWriteField_of_inside {s : State} (dir : capDir s.regs ≠ 0)
    (inside : ptrOutside (valPtr s.regs.wvPtr) = false) : checkWriteField s = .ok () := by
  refine if_neg ?_
  rintro (zero | past)
  · exact dir zero
  · exact Bool.false_ne_true (inside.symm.trans past)

theorem checkWriteField_of_bad_config {s : State} (h : capDir s.regs = 0 ∨ ptrOutside (valPtr s.regs.wvPtr) = true) :
    checkWriteField s = raise { cause := .badConfig } := if_pos h

/-- The write descriptor is about to run: the accepted command, taking its descriptor from WD0 to WD7 (rule R242). -/
def writeFieldReady (s : State) : State := { beginWriter s with fromWd := true }

theorem encoding_writeFieldReady (s : State) : Encoding (writeFieldReady s) := ⟨rfl, rfl⟩

theorem atDescriptor_writeFieldReady (s : State) : AtDescriptor (writeFieldReady s) s.regs.wd :=
  ⟨rfl, .inr rfl, .inr ⟨rfl, rfl⟩⟩

/-- The run of the write descriptor is the meaning of the instruction it decodes to. -/
theorem runSeq_writeFieldReady {s : State} {i : Instr} (words : decodeWords (descWordList s.regs.wd) = .ok i) :
    runSeq execDescriptor 1 (writeFieldReady s) = exec i (writeFieldReady s) := by
  rw [runSeq_execDescriptor, runSeq_one rfl, seqStep_at_descriptor (atDescriptor_writeFieldReady s), runWords, words]

/-- The accepted command refused by its configuration check. -/
theorem exec_writeFieldEnc_of_bad_config {s : State} (h : Accepted .writeFieldEnc s)
    (bad : capDir s.regs = 0 ∨ ptrOutside (valPtr s.regs.wvPtr) = true) :
    exec .writeFieldEnc s = .next (failCapsule { cause := .badConfig } noIndex (beginWriter s)) :=
  (if_pos (commandAccepted_of_accepted (by simp [acceptedStates, accepts]) h)).trans
    (by rw [checkWriteField_of_bad_config (s := beginWriter s) bad, raise_eq, attempt_raise])

/-- What the write descriptor leaves, advanced, is the command's completed state (rules R270, R271). -/
theorem advance_of_writeFieldReady {s t : State} (same : SameCommand (writeFieldReady s) t) :
    advance t = { completed t with status := { (completed s).status with main := .accum }, fromWd := false } := by
  have fromWd : t.fromWd = true := same.fromWd
  have err : t.err = ErrRecord.none := same.err
  rw [advance, if_pos fromWd]
  simp only [completeWriter, completed, same.status, err]
  rfl

end Sys2Proof.Machine

open Sys2Proof Sys2Proof.Machine Sys2Proof.Safety

/-- Settles O44: the command is the write descriptor's meaning by `runSeq_writeFieldReady`, and where that emits its field
the advance completes the command (`advance_of_writeFieldReady`). -/
theorem writeFieldEncRunsTheWriteDescriptor : Obligations.WriteFieldEncRunsTheWriteDescriptor := by
  intro s accepted ready outside
  have pointer : ptrOutside (valPtr s.regs.wvPtr) = true ↔ outside := ptrOutside_iff
  refine ⟨fun i k ft d words hi dir inside => ?runs, fun bad => ?badConfig⟩
  case runs =>
    have checked : checkWriteField (beginWriter s) = .ok () :=
      checkWriteField_of_inside dir (Bool.eq_false_iff.mpr (mt pointer.mp inside))
    have runs : exec .writeFieldEnc s = exec i ready :=
      (exec_writeFieldEnc_of_accepted accepted checked).trans (runSeq_writeFieldReady words)
    refine ⟨runs, fun t emitted => ?_⟩
    obtain ⟨same, -⟩ := emitField_sameCommand emitted
    have advanced : exec i ready = .next (advance t) := exec_of_emitField hi (encoding_writeFieldReady s) emitted
    rw [runs, advanced, advance_of_writeFieldReady same]
  case badConfig => exact exec_writeFieldEnc_of_bad_config accepted (bad.imp id pointer.mpr)

end

section
/-! O55: the frames of the descriptors. What one that does not fail leaves is `AppendedTo`, which the two appends meet and
which goes through their sequence; one that fails leaves the error record (rules R208, R219, R243, R291). -/

namespace Sys2Proof.Machine

open Sys2Proof.Safety

/-- `t` is `s` but for bytes and counts appended at the ends of OUT and FRAME. -/
structure AppendedTo (s t : State) : Prop extends SameCommand s t where
  planPc : t.planPc = s.planPc
  tempLen : t.tempLen = s.tempLen
  cbufLen : t.cbufLen = s.cbufLen
  crcValue : t.crcValue = s.crcValue
  crcBytes : t.crcBytes = s.crcBytes
  outBytes : s.outBytes.toNat ≤ t.outBytes.toNat
  frameLen : s.frameLen.toNat ≤ t.frameLen.toNat
  bytes : ∀ sp x, ¬ (sp = .out ∧ s.outBytes.toNat ≤ x ∧ x < t.outBytes.toNat) →
    ¬ (sp = .frame ∧ s.frameLen.toNat ≤ x ∧ x < t.frameLen.toNat) → readByte t sp x = readByte s sp x

section

variable {s t u : State} {k : Kind} {ft : FType} {d : Desc}

theorem AppendedTo.refl (s : State) : AppendedTo s s :=
  { SameCommand.refl s with
    planPc := rfl, tempLen := rfl, cbufLen := rfl, crcValue := rfl, crcBytes := rfl, outBytes := le_rfl
    frameLen := le_rfl, bytes := fun _ _ _ _ => rfl }

/-- The two ranges of two appends in a row lie in the range of both. -/
theorem AppendedTo.trans (h : AppendedTo s t) (h' : AppendedTo t u) : AppendedTo s u where
  toSameCommand := h.toSameCommand.trans h'.toSameCommand
  planPc := h'.planPc.trans h.planPc
  tempLen := h'.tempLen.trans h.tempLen
  cbufLen := h'.cbufLen.trans h.cbufLen
  crcValue := h'.crcValue.trans h.crcValue
  crcBytes := h'.crcBytes.trans h.crcBytes
  outBytes := h.outBytes.trans h'.outBytes
  frameLen := h.frameLen.trans h'.frameLen
  bytes sp x out frame :=
    (h'.bytes sp x (fun ⟨hs, lo, hi⟩ => out ⟨hs, h.outBytes.trans lo, hi⟩)
      (fun ⟨hs, lo, hi⟩ => frame ⟨hs, h.frameLen.trans lo, hi⟩)).trans
    (h.bytes sp x (fun ⟨hs, lo, hi⟩ => out ⟨hs, lo, hi.trans_le h'.outBytes⟩)
      (fun ⟨hs, lo, hi⟩ => frame ⟨hs, lo, hi.trans_le h'.frameLen⟩))

/-- A record that fits OUT is appended at its end (rule R78). -/
theorem appendedTo_outAppended {rf : Rawfield} (fits : outFits rf s) : AppendedTo s (outAppended rf s) := by
  obtain ⟨-, -, inside⟩ := fits
  have capacity : Config.outMax = 65536 := rfl
  have length : (outAppended rf s).outBytes.toNat = s.outBytes.toNat + outNeed rf := num_toNat (by omega)
  exact
    { SameCommand.refl s with
      planPc := rfl, tempLen := rfl, cbufLen := rfl, crcValue := rfl, crcBytes := rfl, frameLen := le_rfl
      outBytes := by omega
      bytes := fun sp x out _ => readByte_outAppended rf s sp x (length ▸ out) }

/-- Bytes that fit FRAME are appended at its end (rule R243). -/
theorem appendedTo_frameAppended {fb : Bytes} (fits : s.frameLen.toNat + fb.length ≤ Config.frameMax) :
    AppendedTo s (frameAppended fb s) := by
  have capacity : Config.frameMax = 4096 := rfl
  have length : (frameAppended fb s).frameLen.toNat = s.frameLen.toNat + fb.length := num_toNat (by omega)
  exact
    { SameCommand.refl s with
      planPc := rfl, tempLen := rfl, cbufLen := rfl, crcValue := rfl, crcBytes := rfl, outBytes := le_rfl
      frameLen := by omega
      bytes := fun sp x _ frame => readByte_frameAppended fb s sp x (length ▸ frame) }

theorem extractField_appendedTo (h : extractField s k ft d = .ok t) : AppendedTo s t ∧ t.frameLen = s.frameLen := by
  obtain ⟨-, ⟨-, rfl⟩ | ⟨raw, rf, -, -, -, -, -, fits, rfl⟩⟩ := extractField_eq_ok h
  · exact ⟨.refl _, rfl⟩
  · exact ⟨appendedTo_outAppended fits, rfl⟩

theorem emitField_appendedTo (h : emitField s k ft d = .ok t) : AppendedTo s t := by
  obtain ⟨-, ⟨-, rfl⟩ | ⟨v, fb, rf, -, -, -, -, frame, out, rfl⟩⟩ := emitField_eq_ok h
  · exact .refl _
  · exact (appendedTo_outAppended out).trans (appendedTo_frameAppended frame)

/-- A descriptor that does not fail appends, on decode to OUT alone, and advances; one that fails takes its error. -/
theorem runDescriptor_effect (h : runDescriptor k ft d s = .next t) :
    (∃ u, AppendedTo s u ∧ (Decoding s → u.frameLen = s.frameLen) ∧ t = advance u) ∨
      ∃ e, t = failCapsule e (descIndex s) s := by
  obtain ⟨-, ⟨-, ⟨u, extracted, rfl⟩ | ⟨e, -, rfl⟩⟩ | ⟨encoding, ⟨u, emitted, rfl⟩ | ⟨e, -, rfl⟩⟩⟩ := runDescriptor_eq_next h
  · obtain ⟨appended, frameLen⟩ := extractField_appendedTo extracted
    exact .inl ⟨u, appended, fun _ => frameLen, rfl⟩
  · exact .inr ⟨e, rfl⟩
  · exact .inl ⟨u, emitField_appendedTo emitted,
      fun decoding => absurd (decoding.main.symm.trans encoding) (by decide), rfl⟩
  · exact .inr ⟨e, rfl⟩

/-- The advance writes BUSY, DONE and MAIN at most (rules R17, R242, R270, R271). -/
theorem advance_flags (t : State) :
    (advance t).status.err = t.status.err ∧ (advance t).status.success = t.status.success ∧
      (advance t).status.crcSwapped = t.status.crcSwapped ∧ (advance t).status.rstate = t.status.rstate ∧
      (advance t).status.failFrom = t.status.failFrom := by
  rw [advance_status]
  cases t.fromWd <;> exact ⟨rfl, rfl, rfl, rfl, rfl⟩

theorem advance_main_ne_failed (h : t.status.main ≠ .failed) : (advance t).status.main ≠ .failed := by
  rw [advance_status]
  cases t.fromWd with
  | false => exact h
  | true => exact MainState.noConfusion

end

end Sys2Proof.Machine

open Sys2Proof Sys2Proof.Machine Sys2Proof.Safety

/-- Settles O55: a descriptor fails, which writes the record and the flags (`failCapsule_hasRecord`), or what it leaves is
`AppendedTo`, advanced (`runDescriptor_effect`). -/
theorem descriptorFrames : Obligations.DescriptorFrames := by
  intro i s t descriptor running run
  obtain ⟨⟨k, ft, d⟩, hi⟩ := Option.isSome_iff_exists.mp descriptor
  rw [exec_descriptor hi] at run
  have host : SameHostState s t := runDescriptor_sameHostState run
  obtain ⟨u, appended, onDecode, rfl⟩ | ⟨e, rfl⟩ := runDescriptor_effect run
  case inl =>
    have notFailed : u.status.main ≠ .failed := by
      rw [appended.status]
      obtain h | h := running <;> simp [h.main]
    obtain ⟨err, success, crcSwapped, rstate, failFrom⟩ := advance_flags u
    rw [appended.status] at err success crcSwapped rstate failFrom
    simp only [advance_tempLen, advance_cbufLen, advance_crcValue, advance_crcBytes, advance_err, advance_planPc,
      advance_outBytes, advance_frameLen]
    refine ⟨host, appended.tempLen, appended.cbufLen, appended.crcValue, appended.crcBytes,
      fun failed => absurd failed (advance_main_ne_failed notFailed),
      fun _ => ⟨appended.err, err, success, crcSwapped, rstate, failFrom, ?planPc, appended.outBytes, appended.frameLen,
        fun decoding => ⟨?status, onDecode decoding⟩, fun sp x out frame => ?bytes⟩⟩
    case planPc => rw [appended.fromWd, appended.planPc]
    case status => rw [advance_status, appended.fromWd, if_neg (by simp [decoding.plan]), appended.status]
    case bytes => exact (readByte_congr (advance_mem u) sp x).trans (appended.bytes sp x out frame)
  case inr =>
    have failed : (failCapsule e (descIndex s) s).status.main = .failed := flagsFailCapsule_main s.status
    have record := failCapsule_hasRecord e (descIndex s) s
    exact ⟨host, rfl, rfl, rfl, rfl,
      fun _ => ⟨rfl, rfl, rfl, rfl, rfl, flagsFailCapsule_err s.status, record.otherBytes⟩,
      fun notFailed => absurd failed notFailed⟩

end

section
/-! O13: DECODE as its parts. A plan folded descriptor by descriptor is a run of the sequencer, one step each; the step
after the last descriptor runs the checks of the end. What the plan leaves as it was is `PlanExtracted`: the reader's
input, the flags, the error record. -/

namespace Sys2Proof.Machine

open Sys2Proof.Safety

/-! ## What the reader reads (rules R216 to R222) -/

/-- The two states give the reader the same configuration, frame and tables: the same registers and the same memories
but for TEMP and OUT. -/
structure SameInput (s t : State) : Prop where
  regs : t.regs = s.regs
  frameLen : t.frameLen = s.frameLen
  bytes : ∀ sp x, sp ≠ .temp → sp ≠ .out → readByte t sp x = readByte s sp x

section

variable {s t u : State} {k : Kind} {ft : FType} {d : Desc}

theorem SameInput.of_mem (regs : t.regs = s.regs) (frameLen : t.frameLen = s.frameLen) (mem : t.mem = s.mem) :
    SameInput s t := ⟨regs, frameLen, fun sp x _ _ => readByte_congr mem sp x⟩

theorem SameInput.trans (h : SameInput s t) (h' : SameInput t u) : SameInput s u where
  regs := h'.regs.trans h.regs
  frameLen := h'.frameLen.trans h.frameLen
  bytes sp x temp out := (h'.bytes sp x temp out).trans (h.bytes sp x temp out)

theorem SameInput.readBytes (h : SameInput s t) {sp : Space} (temp : sp ≠ .temp) (out : sp ≠ .out) (off n : Nat) :
    Machine.readBytes t sp off n = Machine.readBytes s sp off n :=
  readBytes_congr fun _ _ => h.bytes sp _ temp out

theorem sameInput_beginDecode (s : State) : SameInput s (beginDecode s) := .of_mem rfl rfl rfl

theorem SameInput.setReader (h : SameInput s t) (r : ReaderState) : SameInput s (setReader r t) :=
  h.trans (.of_mem rfl rfl rfl)

theorem SameInput.setCrcSwapped (h : SameInput s t) (b : Bool) : SameInput s (setCrcSwapped b t) :=
  h.trans (.of_mem rfl rfl rfl)

theorem SameInput.tempFilled (h : SameInput s t) (b : Bytes) : SameInput s (tempFilled b t) :=
  h.trans ⟨rfl, rfl, fun _ x temp _ => readByte_writeBytes_of_ne (s := t) temp 0 b x⟩

theorem sameInput_extractField (h : extractField s k ft d = .ok t) : SameInput s t := by
  obtain ⟨appended, frameLen⟩ := extractField_appendedTo h
  refine ⟨appended.regs, frameLen, fun sp x _ out => appended.bytes sp x (fun ⟨hs, _⟩ => out hs) ?_⟩
  rintro ⟨-, lo, hi⟩
  rw [frameLen] at hi
  omega

/-- The tag check reads FRAME, its length, and the tag in TBL. -/
theorem SameInput.tagCheck (h : SameInput s t) (i w : Word) (c : ErrCause) :
    tagCheck t i w c = tagCheck s i w c := by
  unfold Machine.tagCheck tblStr
  simp only [h.readBytes (sp := .tbl) (by decide) (by decide), h.readBytes (sp := .frame) (by decide) (by decide),
    h.frameLen]

/-! ## The plan as a run (rules R17, R55, R219) -/

/-- DECODE is under way with `left` descriptors still to be executed. -/
structure DecodingPlan (s : State) (left : Nat) : Prop where
  decoding : Decoding s
  pc : s.planPc.toNat + left = s.regs.planLen.toNat

/-- What the plan leaves as it was. -/
structure PlanExtracted (s t : State) : Prop extends SameCommand s t where
  input : SameInput s t

theorem PlanExtracted.refl (s : State) : PlanExtracted s s := ⟨.refl s, .of_mem rfl rfl rfl⟩

theorem PlanExtracted.trans (h : PlanExtracted s t) (h' : PlanExtracted t u) : PlanExtracted s u :=
  ⟨h.toSameCommand.trans h'.toSameCommand, h.input.trans h'.input⟩

/-- One descriptor extracted and PLAN_PC counted up (rule R219). -/
theorem planExtracted_extractField (h : extractField s k ft d = .ok t) :
    PlanExtracted s { t with planPc := t.planPc + 1 } :=
  ⟨{ (extractField_appendedTo h).1.toSameCommand with }, (sameInput_extractField h).trans (.of_mem rfl rfl rfl)⟩

/-- The descriptor count goes down by one as PLAN_PC goes up by one. -/
theorem DecodingPlan.next {n : Nat} (h : DecodingPlan s (n + 1)) (same : SameCommand s t)
    (pc : t.planPc = s.planPc + 1) : DecodingPlan t n where
  decoding := ⟨same.status ▸ h.decoding.busy, same.status ▸ h.decoding.main, same.fromWd ▸ h.decoding.plan⟩
  pc := by
    have := h.pc
    have := s.regs.planLen.isLt
    have step : t.planPc.toNat = s.planPc.toNat + 1 := by
      rw [pc, BitVec.toNat_add]
      exact Nat.mod_eq_of_lt (by simp; omega)
    rw [same.regs]
    omega

/-- One step below PLAN_LEN is one descriptor extracted and PLAN_PC counted up. -/
theorem DecodingPlan.seqStep {n : Nat} {w : DescWords} (h : DecodingPlan s (n + 1))
    (hw : fetchPlan s s.planPc.toNat = .ok w)
    (hd : (decodeWords (descWordList w)).toOption.bind Instr.descriptor? = some (k, ft, d))
    (ht : extractField s k ft d = .ok t) : seqStep exec s = .next { t with planPc := t.planPc + 1 } := by
  have below : s.planPc.toNat < s.regs.planLen.toNat := by
    have := h.pc
    omega
  have reached : AtDescriptor s w := ⟨h.decoding.busy, .inl h.decoding.main, .inl ⟨h.decoding.plan, below, hw⟩⟩
  have plan : t.fromWd = false := (extractField_appendedTo ht).1.fromWd.trans h.decoding.plan
  rw [seqStep_at_descriptor reached]
  cases hi : decodeWords (descWordList w) with
  | error e =>
    rw [hi] at hd
    cases hd
  | ok i =>
    rw [hi] at hd
    rw [runWords, hi]
    dsimp only
    rw [exec_descriptor hd, runDescriptor_reading h.decoding.busy h.decoding.main, ht, attempt_ok, advance_of_plan plan]

/-- The fold over the descriptors still to be executed is that many steps, with PLAN_PC at PLAN_LEN after them. -/
theorem DecodingPlan.runSeq {n : Nat} (h : DecodingPlan s n) (ht : planFold extractField n s = .ok t) (m : Nat) :
    runSeq exec (n + m) s = runSeq exec m t ∧ PlanExtracted s t ∧ DecodingPlan t 0 := by
  induction n generalizing s with
  | zero =>
    cases ht
    rw [Nat.zero_add]
    exact ⟨rfl, .refl _, h⟩
  | succ n ih =>
    unfold planFold at ht
    obtain ⟨w, hw, ht⟩ := res_bind_eq_ok.mp ht
    split at ht
    · cases ht
    · rename_i k ft d hd
      obtain ⟨s1, h1, ht⟩ := res_bind_eq_ok.mp ht
      have first := planExtracted_extractField h1
      have pc : s1.planPc = s.planPc := (extractField_appendedTo h1).1.planPc
      obtain ⟨run, rest, ended⟩ := ih (h.next first.toSameCommand (by rw [pc])) ht
      refine ⟨?_, first.trans rest, ended⟩
      rw [Nat.succ_add, Machine.runSeq, if_pos h.decoding.busy, h.seqStep hw hd h1]
      exact run

/-- At PLAN_LEN the next step runs the checks of the end. -/
theorem DecodingPlan.finish (h : DecodingPlan t 0) : Machine.runSeq exec 1 t = finishDecode t := by
  have finished : t.regs.planLen.toNat ≤ t.planPc.toNat := h.pc.symm.le
  rw [runSeq_one h.decoding.busy, seqStep_at_end h.decoding.busy h.decoding.plan finished (.inl h.decoding.main),
    endOfPlan, if_pos h.decoding.main]

/-- TEMP filled leaves the reader's input, the flags and the error record alone (rule R218). -/
theorem planExtracted_loadTemp (h : loadTemp s = .ok t) : PlanExtracted s t := by
  obtain ⟨b, -, rfl⟩ := loadTemp_eq_ok h
  exact ⟨⟨rfl, rfl, rfl, rfl⟩, (SameInput.of_mem rfl rfl rfl).tempFilled b⟩

/-! ## DECODE (rules R215, R216, R225) -/

/-- DECODE has its head accepted and is about to fill TEMP (rules R217, R218). -/
def headAccepted (s : State) : State := Machine.setReader .extractFields (beginDecode s)

section

variable {a : BitVec 24} {s2 s3 : State}

theorem exec_decode_of_head (accepted : Accepted (.decode a) s) (head : checkHead (beginDecode s) = .ok ()) :
    exec (.decode a) s =
      attempt (loadTemp (headAccepted s)) (fun e => failCapsule e noIndex (headAccepted s)) fun s2 =>
        Machine.runSeq exec (planFuel s2) s2 := by
  rw [exec_decode_of_accepted accepted, decodeWith]
  simp only [head, attempt_ok, runSeq_execDescriptor]
  rfl

/-- Where the plan of DECODE has been executed, the command is what the checks after it answer. -/
theorem exec_decode_of_planFold (accepted : Accepted (.decode a) s) (head : checkHead (beginDecode s) = .ok ())
    (loaded : loadTemp (headAccepted s) = .ok s2) (folded : planFold extractField s.regs.planLen.toNat s2 = .ok s3) :
    exec (.decode a) s = finishDecode s3 ∧ PlanExtracted (headAccepted s) s3 ∧ s3.planPc = s.regs.planLen := by
  have filled := planExtracted_loadTemp loaded
  have regs : s2.regs = s.regs := filled.regs
  have planPc : s2.planPc = 0 := by
    obtain ⟨b, -, rfl⟩ := loadTemp_eq_ok loaded
    rfl
  have started : DecodingPlan s2 s.regs.planLen.toNat :=
    ⟨⟨by rw [filled.status]; rfl, by rw [filled.status]; rfl, filled.fromWd⟩, by simp [planPc, regs]⟩
  obtain ⟨run, extracted, ended⟩ := started.runSeq folded 1
  have extracted := filled.trans extracted
  have pc : s3.planPc.toNat = s.regs.planLen.toNat := by
    rw [show s.regs = s3.regs from extracted.regs.symm]
    exact ended.pc
  refine ⟨?_, extracted, BitVec.eq_of_toNat_eq pc⟩
  rw [exec_decode_of_head accepted head, loaded, attempt_ok, planFuel, regs, run, ended.finish]

/-- The checks after the plan, all passed, end in Done (rules R220 to R223). -/
theorem finishDecode_of_checks {swap : Bool} (len : checkLength (Machine.setReader .expectChecksum s) = .ok ())
    (crc : checkCrc (Machine.setReader .expectChecksum s) = .ok swap)
    (tail : tagCheck s s.regs.tailIdx s.regs.tailTag .invalidTail = .ok ()) :
    finishDecode s = .next (readerDone (Machine.setReader .expectTail
      (Machine.setCrcSwapped swap (Machine.setReader .expectChecksum s)))) := by
  have view := (((PlanExtracted.refl s).input.setReader .expectChecksum).setCrcSwapped swap).setReader .expectTail
  rw [finishDecode]
  simp only [len, crc, attempt_ok, view.regs, view.tagCheck, tail]

end

end

end Sys2Proof.Machine

open Sys2Proof Sys2Proof.Machine Sys2Proof.Safety

/-- Settles O13: the plan's fold is its run (`exec_decode_of_planFold`), and the passed checks end it
(`finishDecode_of_checks`). -/
theorem decodeRunsThePlanInOrder : Obligations.DecodeRunsThePlanInOrder := by
  intro a s s2 s3 swap accepted head loaded folded len crc tail
  obtain ⟨run, extracted, pc⟩ := exec_decode_of_planFold accepted head loaded folded
  have regs : s.regs = s3.regs := extracted.regs.symm
  rw [regs] at tail
  exact ⟨run.trans (finishDecode_of_checks len crc tail), pc⟩

end

section
/-! O14, and what O15 shares with it: the tag check and the load of TEMP as functions of the frame's bytes, and the end
of a plan with no descriptor. -/

namespace Sys2Proof.Machine

open Sys2Proof.Safety

/-! ## A part of the frame -/

theorem slice_length (b : Bytes) (i j : Nat) : (slice b i j).length = min j b.length - i := by simp [slice]

/-- A part of a string that has been read, by its two ends. -/
theorem readBytes_slice {s : State} {sp : Space} {n i j : Nat} {b : Bytes} (read : readBytes s sp 0 n = .ok b)
    (order : i ≤ j) (inside : j ≤ b.length) : readBytes s sp i (j - i) = .ok (slice b i j) := by
  have len : b.length = n := readBytes_length read
  have part := readBytes_part read (i := i) (k := j - i) (by omega)
  rwa [Nat.zero_add, Nat.add_sub_cancel' order] at part

/-! ## A tag in the frame (rule R217) -/

/-- The bytes that a tag of `len` bytes at index `i` is compared with, clipped to the frame. -/
def bytesAt (frame : Bytes) (i : Int) (len : Nat) : Bytes :=
  let h := idx frame.length i
  let lo := clamp frame.length h
  slice frame lo (max lo (clamp frame.length (h + len)))

/-- Bytes that stand at the index whole are not clipped. -/
theorem bytesAt_of_slice {frame tag : Bytes} {i : Int} {h : Nat} (index : idx frame.length i = (h : Int))
    (found : slice frame h (h + tag.length) = tag) (nonempty : tag ≠ []) : bytesAt frame i tag.length = tag := by
  have pos : 0 < tag.length := List.length_pos_iff.mpr nonempty
  have inside : h + tag.length ≤ frame.length := by
    have := slice_length frame h (h + tag.length)
    rw [found] at this
    omega
  have lo : clamp frame.length h = h := by
    unfold clamp
    omega
  have hi : max h (clamp frame.length (h + tag.length)) = h + tag.length := by
    unfold clamp
    omega
  rw [bytesAt]
  simp only [index, lo, hi, found]

/-- The tag register names `tag` in TBL (rules R18, R217). -/
structure HasTag (s : State) (w : Word) (tag : Bytes) : Prop where
  table : InTbl s (tagPtr w).off tag
  length : tag.length = (tagPtr w).len
  nonempty : tag ≠ []

/-- The error of bytes that differ from the tag (rules R217, R222, R288). -/
def tagErr (c : ErrCause) (tag actual : Bytes) : Err :=
  { cause := c, expBytes := tag, actBytes := actual, expNum := num tag.length, actNum := num actual.length }

section

variable {s t : State} {frame tag : Bytes} {i w : Word} {c : ErrCause}

theorem SameInput.hasTag (h : SameInput s t) (tagged : HasTag s w tag) : HasTag t w tag :=
  ⟨⟨tagged.table.inside, (h.readBytes (by decide) (by decide) _ _).trans tagged.table.bytes⟩, tagged.length,
    tagged.nonempty⟩

/-- With its tag configured the check compares it with the bytes at the index. -/
theorem HasTag.tagCheck (h : HasTag s w tag) (read : readBytes s .frame 0 s.frameLen.toNat = .ok frame) :
    tagCheck s i w c =
      if bytesAt frame i.toInt tag.length = tag then .ok ()
      else raise (tagErr c tag (bytesAt frame i.toInt tag.length)) := by
  have legal : ¬ ((tagPtr w).len = 0 ∨ ptrOutside (tagPtr w) = true) := by
    rw [ptrOutside_iff, ← h.length, List.length_eq_zero_iff]
    rintro (empty | outside)
    · exact h.nonempty empty
    · exact absurd h.table.inside (Nat.not_le.mpr outside)
  have tagRead : tblStr s (tagPtr w) = .ok tag := by
    rw [tblStr, ← h.length]
    exact h.table.bytes
  have actualRead := readBytes_slice read (Nat.le_max_left _ _)
    (Nat.max_le.mpr ⟨clamp_le _ (idx frame.length i.toInt), clamp_le _ (idx frame.length i.toInt + tag.length)⟩)
  unfold Machine.tagCheck s32
  simp only [if_neg legal]
  simp only [tagRead, res_ok_bind, ← readBytes_length read, ← h.length, actualRead, ite_not, res_pure_eq]
  rfl

/-- Legal configuration leaves of DECODE's head check the comparison with the head tag. -/
theorem checkHead_beginDecode (dir : capDir s.regs ≠ 0) (len : s.regs.planLen.toNat ≤ Config.planMax)
    (h : HasTag s s.regs.headTag tag) (read : readBytes s .frame 0 s.frameLen.toNat = .ok frame) :
    checkHead (beginDecode s) =
      if bytesAt frame s.regs.headIdx.toInt tag.length = tag then .ok ()
      else raise (tagErr .invalidHead tag (bytesAt frame s.regs.headIdx.toInt tag.length)) := by
  have legal : ¬ (capDir s.regs = 0 ∨ Config.planMax < s.regs.planLen.toNat) := by
    rintro (zero | long)
    · exact dir zero
    · exact absurd len (Nat.not_le.mpr long)
  rw [← h.tagCheck read, ← (sameInput_beginDecode s).tagCheck]
  exact if_neg legal

end

/-! ## TEMP filled (rule R218) -/

section

variable {s t : State} {frame key iv : Bytes} {p q : Nat}

theorem SameInput.cipherOperands (h : SameInput s t) (operands : CipherOperands s key iv) :
    CipherOperands t key iv where
  key mode := by
    rw [h.regs] at mode ⊢
    exact (h.readBytes (by decide) (by decide) _ _).trans (operands.key mode)
  iv mode := by
    rw [h.regs] at mode ⊢
    exact (h.readBytes (by decide) (by decide) _ _).trans (operands.iv mode)

/-- With no cipher TEMP is the frame. -/
theorem loadTemp_of_plain (off : cipherOn s.regs = false)
    (read : readBytes s .frame 0 s.frameLen.toNat = .ok frame) : loadTemp s = .ok (tempFilled frame s) := by
  rw [loadTemp]
  simp only [off, Bool.false_eq_true, if_false, read, res_ok_bind]
  exact fillTemp_eq_ok.mpr ⟨readBytes_length_le_size read, rfl⟩

/-- The engine answers what DEC answers on a range of FRAME: the check on the registers is DEC's own. -/
theorem decryptFrame_of_operands {data : Bytes} (h : CipherOperands s key iv)
    (read : readBytes s .frame p (q - p) = .ok data) :
    decryptFrame s p q = liftE (cipherDec Config.blockCipher (cipherMode s.regs) key iv data) := by
  have lengths : cipherCheck (cipherMode s.regs) s.regs.keyLen.toNat s.regs.ivLen.toNat (q - p) true =
      cipherCheck (cipherMode s.regs) key.length iv.length data.length true := by
    rw [readBytes_length read]
    exact cipherCheck_congr _ _ (fun m => (readBytes_length (h.key m)).symm) fun m => (readBytes_length (h.iv m)).symm
  cases check : cipherCheck (cipherMode s.regs) key.length iv.length data.length true with
  | error e => rw [decryptFrame, lengths, check, cipherDec_of_check check, liftE_error, liftE_error, res_error_bind]
  | ok _ =>
    rw [← cipherDec_ignored_operands]
    simp only [decryptFrame, lengths, check, cipherKey_of_operands h, cipherIv_of_operands h, read, liftE_ok,
      res_ok_bind]

/-- With a cipher TEMP is the frame with the payload range replaced by what DEC gives for it. -/
theorem loadTemp_of_cipher (on : cipherOn s.regs = true) (read : readBytes s .frame 0 s.frameLen.toNat = .ok frame)
    (payload : range frame.length s.regs.payStart.toInt s.regs.payEnd.toInt = .ok (p, q))
    (operands : CipherOperands s key iv) :
    loadTemp s = liftE (cipherDec Config.blockCipher (cipherMode s.regs) key iv (slice frame p q)) >>= fun pt =>
      fillTemp (frame.take p ++ pt ++ frame.drop q) s := by
  have resolved : regRange frame.length s.regs.payStart s.regs.payEnd = .ok (p, q) := liftE_eq_ok.mpr payload
  obtain ⟨order, inside⟩ := regRange_bounds resolved
  have before : readBytes s .frame 0 p = .ok (frame.take p) :=
    readBytes_slice read (Nat.zero_le p) (order.trans inside)
  have after : readBytes s .frame q (frame.length - q) = .ok (frame.drop q) := by
    rw [readBytes_slice read inside le_rfl, slice, List.take_length]
  rw [loadTemp]
  simp only [on, if_true, ← readBytes_length read, resolved, res_ok_bind,
    decryptFrame_of_operands operands (readBytes_slice read order inside), before, after]

/-- The decrypted frame fits TEMP, because DEC makes nothing longer. -/
theorem loadTemp_of_decrypted {pt : Bytes} (on : cipherOn s.regs = true)
    (read : readBytes s .frame 0 s.frameLen.toNat = .ok frame)
    (payload : range frame.length s.regs.payStart.toInt s.regs.payEnd.toInt = .ok (p, q))
    (operands : CipherOperands s key iv)
    (dec : cipherDec Config.blockCipher (cipherMode s.regs) key iv (slice frame p q) = .ok pt) :
    loadTemp s = .ok (tempFilled (frame.take p ++ pt ++ frame.drop q) s) := by
  obtain ⟨order, inside⟩ := regRange_bounds (liftE_eq_ok.mpr payload)
  have shorter : pt.length ≤ (slice frame p q).length := cipherDec_length_le dec
  have capacity : frame.length ≤ Config.frameMax := readBytes_length_le_size read
  rw [loadTemp_of_cipher on read payload operands, dec, liftE_ok, res_ok_bind, fillTemp_eq_ok]
  refine ⟨?_, rfl⟩
  rw [slice_length] at shorter
  simp only [List.length_append, List.length_take, List.length_drop]
  omega

end

/-! ## The end of a plan with no descriptor (rules R220 to R223) -/

theorem checkLength_of_off {s : State} (h : lenEn s.regs = false) : checkLength s = .ok () := if_neg (by simp [h])

theorem checkCrc_of_off {s : State} (h : crcEn s.regs = false) : checkCrc s = .ok s.status.crcSwapped :=
  if_neg (by simp [h])

/-- DECODE with no plan, length field or checksum, its tags found, ends with TEMP as it was filled. -/
theorem exec_decode_of_empty_plan {a : BitVec 24} {s : State} {temp : Bytes} (accepted : Accepted (.decode a) s)
    (empty : s.regs.planLen = 0) (len : lenEn s.regs = false) (crc : crcEn s.regs = false)
    (head : checkHead (beginDecode s) = .ok ())
    (loaded : loadTemp (headAccepted s) = .ok (tempFilled temp (headAccepted s)))
    (tail : tagCheck s s.regs.tailIdx s.regs.tailTag .invalidTail = .ok ()) :
    exec (.decode a) s = .next
      { completed (writeBytes s .temp 0 temp) with
        tempLen := num temp.length, planPc := 0, fromWd := false,
        status := { (completed s).status with
          crcSwapped := false, rstate := .done, main := .done, success := true } } := by
  have folded : planFold extractField s.regs.planLen.toNat (tempFilled temp (headAccepted s)) =
      .ok (tempFilled temp (headAccepted s)) := by
    rw [empty]
    rfl
  obtain ⟨run, extracted, -⟩ := exec_decode_of_planFold accepted head loaded folded
  have view : SameInput s (tempFilled temp (headAccepted s)) :=
    ((sameInput_beginDecode s).setReader .extractFields).trans extracted.input
  rw [← view.tagCheck] at tail
  exact run.trans (finishDecode_of_checks (checkLength_of_off len) (checkCrc_of_off crc) tail)

end Sys2Proof.Machine

open Sys2Proof Sys2Proof.Machine Sys2Proof.Safety

/-- Settles O14: both tags are found (`HasTag.tagCheck`), and TEMP is filled with the frame or with its decryption
(`loadTemp_of_plain`, `loadTemp_of_decrypted`). -/
theorem decodeWithEmptyPlanFillsTemp : Obligations.DecodeWithEmptyPlanFillsTemp := by
  intro a s frame head tail h t accepted dir empty read headTable headLength headNonempty headIndex headFound tailTable
    tailLength tailNonempty tailIndex tailFound done
  have view : SameInput s (headAccepted s) := (sameInput_beginDecode s).setReader .extractFields
  have readLoading := (view.readBytes (sp := .frame) (by decide) (by decide) 0 s.frameLen.toNat).trans read
  have headOk : checkHead (beginDecode s) = .ok () := by
    rw [checkHead_beginDecode dir (by simp [empty]) ⟨headTable, headLength, headNonempty⟩ read]
    exact if_pos (bytesAt_of_slice headIndex headFound headNonempty)
  have tailOk : tagCheck s s.regs.tailIdx s.regs.tailTag .invalidTail = .ok () := by
    rw [HasTag.tagCheck ⟨tailTable, tailLength, tailNonempty⟩ read]
    exact if_pos (bytesAt_of_slice tailIndex tailFound tailNonempty)
  refine ⟨fun steps => ?plain, fun key iv pt p q steps payload operands dec => ?cipher⟩
  case plain =>
    have off : cipherOn s.regs = false := decide_eq_false fun on => Bool.false_ne_true (steps.cipher.mpr on)
    exact exec_decode_of_empty_plan accepted empty steps.len steps.crc headOk
      (loadTemp_of_plain (s := headAccepted s) off readLoading) tailOk
  case cipher =>
    have on : cipherOn s.regs = true := decide_eq_true (steps.cipher.mp rfl)
    exact exec_decode_of_empty_plan accepted empty steps.len steps.crc headOk
      (loadTemp_of_decrypted (s := headAccepted s) on readLoading payload (view.cipherOperands operands) dec) tailOk

end

section
/-! O15: the reader's errors. Each check is evaluated on the frame's bytes, and the first one that raises fails the
capsule from the state of the reader that saw it (rule R224). -/

namespace Sys2Proof.Machine

open Sys2Proof.Safety

/-! ## The checks of ExpectChecksum (rules R220, R221) -/

section

variable {s t : State} {frame : Bytes}

/-- The places of the length field and of the checksum depend on the configuration and the frame's length alone. -/
theorem lengthField_congr (regs : t.regs = s.regs) (frameLen : t.frameLen = s.frameLen) :
    lengthField t = lengthField s := by
  unfold lengthField
  rw [regs, frameLen]

theorem crcFieldIndex_congr (regs : t.regs = s.regs) (frameLen : t.frameLen = s.frameLen) :
    crcFieldIndex t = crcFieldIndex s := by
  unfold crcFieldIndex
  rw [regs, frameLen]

/-- The length check reads FRAME, its length and the configuration. -/
theorem SameInput.checkLength (h : SameInput s t) : checkLength t = checkLength s := by
  unfold Machine.checkLength
  simp only [lengthField_congr h.regs h.frameLen, h.regs, h.readBytes (sp := .frame) (by decide) (by decide)]

/-- The checksum check reads FRAME, its length and the configuration, where it is enabled. -/
theorem SameInput.checkCrc (h : SameInput s t) (on : crcEn s.regs = true) : checkCrc t = checkCrc s := by
  unfold Machine.checkCrc
  simp only [crcFieldIndex_congr h.regs h.frameLen, h.regs, h.frameLen, on, if_true,
    h.readBytes (sp := .frame) (by decide) (by decide)]

/-- The number in a stored length field (rules R220, R248). -/
def lengthValue (r : Regs) (stored : Bytes) : Nat := be (if lenSwap r then rev stored else stored)

/-- The error of a length field that is not the count (rules R220, R288). -/
def lengthFieldErr (count : Nat) (r : Regs) (stored : Bytes) : Err :=
  { cause := .lengthFieldMismatch, expNum := num count, actNum := num (lengthValue r stored), actBytes := stored }

/-- With the field resolved and read the length check compares its number with the count. -/
theorem checkLength_of_field {f : LengthField} {stored : Bytes} (on : lenEn s.regs = true)
    (field : lengthField s = .ok f) (read : readBytes s .frame f.start (f.stop - f.start) = .ok stored) :
    checkLength s =
      if lengthValue s.regs stored = f.count then .ok () else raise (lengthFieldErr f.count s.regs stored) := by
  unfold Machine.checkLength
  simp only [on, if_true, field, res_ok_bind, read, res_pure_eq]
  exact ite_not _ _ _

/-- A length field of one to eight bytes, resolved. -/
theorem lengthField_of_ranges {i j p q : Nat} (len : s.frameLen.toNat = frame.length)
    (field : range frame.length s.regs.lenfStart.toInt s.regs.lenfEnd.toInt = .ok (i, j)) (low : 1 ≤ j - i)
    (high : j - i ≤ 8) (counted : range frame.length s.regs.lenrStart.toInt s.regs.lenrEnd.toInt = .ok (p, q)) :
    lengthField s = .ok ⟨i, j, q - p⟩ := by
  have fieldReg : regRange frame.length s.regs.lenfStart s.regs.lenfEnd = .ok (i, j) := liftE_eq_ok.mpr field
  have countedReg : regRange frame.length s.regs.lenrStart s.regs.lenrEnd = .ok (p, q) := liftE_eq_ok.mpr counted
  have size : ¬ (j - i < 1 ∨ 8 < j - i) := by omega
  unfold Machine.lengthField
  simp only [len, fieldReg, countedReg, res_ok_bind, if_neg size, res_pure_eq]

/-- A checksum whose two bytes lie in the frame, resolved. -/
theorem crcFieldIndex_of_inside {i : Nat} (index : idx s.frameLen.toNat s.regs.crcIndex.toInt = (i : Int))
    (inside : i + 2 ≤ s.frameLen.toNat) : crcFieldIndex s = .ok i := by
  unfold Machine.crcFieldIndex s32
  simp only [index, Int.toNat_natCast]
  exact if_neg (by omega)

/-- With its ranges resolved the checksum check selects the algorithm, and then compares (rule R126). -/
theorem checkCrc_of_operands {p q i : Nat} {data cand : Bytes} (on : crcEn s.regs = true)
    (covered : regRange s.frameLen.toNat s.regs.crcrStart s.regs.crcrEnd = .ok (p, q))
    (index : crcFieldIndex s = .ok i) (dataRead : readBytes s .frame p (q - p) = .ok data)
    (candRead : readBytes s .frame i 2 = .ok cand) :
    checkCrc s = liftE (crcSelect (crcAlg s.regs)) >>= fun params =>
      liftE (crcCompareBytes cand (crc16P params data)) := by
  unfold Machine.checkCrc
  simp only [on, if_true, covered, index, res_ok_bind, dataRead, candRead]

/-- The checksum check on the bytes of the frame. -/
theorem checkCrc_of_frame {p q i : Nat} (on : crcEn s.regs = true)
    (read : readBytes s .frame 0 s.frameLen.toNat = .ok frame)
    (covered : range frame.length s.regs.crcrStart.toInt s.regs.crcrEnd.toInt = .ok (p, q))
    (index : idx frame.length s.regs.crcIndex.toInt = (i : Int)) (inside : i + 2 ≤ frame.length) :
    checkCrc s = liftE (crcSelect (crcAlg s.regs)) >>= fun params =>
      liftE (crcCompareBytes (slice frame i (i + 2)) (crc16P params (slice frame p q))) := by
  have frameLen : frame.length = s.frameLen.toNat := readBytes_length read
  have coveredReg : regRange frame.length s.regs.crcrStart s.regs.crcrEnd = .ok (p, q) := liftE_eq_ok.mpr covered
  obtain ⟨order, within⟩ := regRange_bounds coveredReg
  have candRead : readBytes s .frame i 2 = .ok (slice frame i (i + 2)) := by
    have := readBytes_slice read (Nat.le_add_right i 2) inside
    rwa [Nat.add_sub_cancel_left] at this
  exact checkCrc_of_operands on (frameLen ▸ coveredReg)
    (crcFieldIndex_of_inside (frameLen ▸ index) (frameLen ▸ inside)) (readBytes_slice read order within) candRead

theorem crcSelect_of_some {alg : BitVec 4} {params : Config.CrcParams} (h : Config.crcTable alg = some params) :
    crcSelect alg = .ok params := by rw [crcSelect, h]

theorem crcSelect_of_none {alg : BitVec 4} (h : Config.crcTable alg = none) :
    crcSelect alg = .error { cause := .unsupportedCrcAlg, actNum := alg.setWidth 32 } := by
  rw [crcSelect, h, num_toNat_eq_setWidth]

end

/-! ## The checks after the plan, one of which raises (rules R220 to R222, R224) -/

section

variable {s : State} {e : Err} {swap : Bool}

theorem finishDecode_of_length_error (len : checkLength (setReader .expectChecksum s) = raise e) :
    finishDecode s = .next (failCapsule e noIndex (setReader .expectChecksum s)) := by
  rw [finishDecode, len]
  rfl

theorem finishDecode_of_crc_error (len : checkLength (setReader .expectChecksum s) = .ok ())
    (crc : checkCrc (setReader .expectChecksum s) = raise e) :
    finishDecode s = .next (failCapsule e noIndex (setReader .expectChecksum s)) := by
  rw [finishDecode]
  simp only [len, crc, attempt_ok]
  rfl

theorem finishDecode_of_tail_error (len : checkLength (setReader .expectChecksum s) = .ok ())
    (crc : checkCrc (setReader .expectChecksum s) = .ok swap)
    (tail : tagCheck s s.regs.tailIdx s.regs.tailTag .invalidTail = raise e) :
    finishDecode s = .next (failCapsule e noIndex (setReader .expectTail (setCrcSwapped swap s))) := by
  have view := (((PlanExtracted.refl s).input.setReader .expectChecksum).setCrcSwapped swap).setReader .expectTail
  rw [finishDecode]
  simp only [len, crc, attempt_ok, view.regs, view.tagCheck, tail]
  rfl

end

/-! ## What an error of the reader leaves (rules R224, R290) -/

section

variable {s u : State} {e : Err} {r x : ReaderState} {swap : Bool} {i : Word} {tag actual frame : Bytes} {w : Word}

/-- The flags of a DECODE that failed where the reader stood in `r`. -/
theorem failCapsule_status_of_reader
    (running : u.status = { (beginDecode s).status with rstate := x, crcSwapped := swap }) :
    (failCapsule e i (setReader r u)).status =
      { (completed s).status with
        err := true, success := false, crcSwapped := swap, main := .failed, rstate := .failed, failFrom := r } := by
  rw [failCapsule_status, flagsFailCapsule_eq, setReader_status, running]
  rfl

/-- The bytes a tag is compared with are at most as many. -/
theorem bytesAt_length_le (frame : Bytes) (i : Int) (len : Nat) : (bytesAt frame i len).length ≤ len := by
  unfold bytesAt clamp
  rw [slice_length]
  omega

theorem HasTag.length_lt (h : HasTag s w tag) : tag.length < 256 := by
  rw [h.length]
  exact BitVec.isLt _

/-- The record of a head tag that does not match holds both strings whole: they are shorter than the buffers. -/
theorem failCapsule_invalidHead (shortTag : tag.length < 256) (shortActual : actual.length < 256) :
    (let t := failCapsule (tagErr .invalidHead tag actual) i u
     t.err = { kind := 1, index := i, expLen := num tag.length, actLen := num actual.length,
               expNum := num tag.length, actNum := num actual.length } ∧
       readBytes t .errExp 0 tag.length = .ok tag ∧ readBytes t .errAct 0 actual.length = .ok actual) := by
  have record := failCapsule_hasRecord (tagErr .invalidHead tag actual) i u
  have wholeTag : tag.take 256 = tag := List.take_of_length_le (by omega)
  have wholeActual : actual.take 256 = actual := List.take_of_length_le (by omega)
  have tagRead := record.expBytes
  have actualRead := record.actBytes
  have kind : errKindWord (tagErr .invalidHead tag actual) = 1 := by simp only [errKindWord, tagErr]; decide
  simp only [tagErr, wholeTag, wholeActual, Nat.min_eq_left shortTag.le, Nat.min_eq_left shortActual.le]
    at tagRead actualRead
  refine ⟨?_, tagRead, actualRead⟩
  rw [record.err, recordError_err, kind]
  simp only [tagErr, Config.errbufMax, wholeTag, wholeActual]

end

end Sys2Proof.Machine

open Sys2Proof Sys2Proof.Machine Sys2Proof.Safety

/-- Settles O15: each check is its comparison on the frame's bytes, and where it raises `finishDecode` or the head of
DECODE fails with it. -/
theorem readerErrorsRejectTheFrame : Obligations.ReaderErrorsRejectTheFrame := by
  intro a s frame accepted dir planLen read n found isTag failedFrom fails
  have frameLen : s.frameLen.toNat = n := (readBytes_length read).symm
  have failing {r x : ReaderState} {swap : Bool} {e : Err} {u : State}
      (run : exec (.decode a) s = .next (failCapsule e noIndex (setReader r u)))
      (running : u.status = { (beginDecode s).status with rstate := x, crcSwapped := swap }) : fails r swap e u :=
    ⟨run, failCapsule_status_of_reader running⟩
  have configured {w : Word} {tag : Bytes} : isTag w tag → HasTag s w tag :=
    fun ⟨table, length, nonempty⟩ => ⟨table, length, nonempty⟩
  refine ⟨fun tag tagged => ?head, fun head => ⟨fun key iv p q e on payload operands dec => ?decrypt,
    fun s2 s3 loaded folded => ?checks⟩⟩
  case head =>
    intro actual differs
    have hasTag := configured tagged
    have shorter : actual.length ≤ tag.length := bytesAt_length_le frame _ _
    have raised : checkHead (beginDecode s) = raise (tagErr .invalidHead tag actual) :=
      (checkHead_beginDecode dir planLen hasTag read).trans (if_neg differs)
    have run : exec (.decode a) s = .next (failCapsule (tagErr .invalidHead tag actual) noIndex (beginDecode s)) := by
      rw [exec_decode_of_accepted accepted, decodeWith, raised]
      rfl
    obtain ⟨err, expRead, actRead⟩ := failCapsule_invalidHead (i := noIndex) (u := beginDecode s) hasTag.length_lt
      (shorter.trans_lt hasTag.length_lt)
    exact ⟨_, run, failCapsule_status_of_reader (r := .expectHead) (u := beginDecode s) rfl, err, expRead, actRead, rfl,
      rfl, rfl, rfl, (failCapsule_hasRecord _ _ (beginDecode s)).otherBytes⟩
  case decrypt =>
    have view : SameInput s (headAccepted s) := (sameInput_beginDecode s).setReader .extractFields
    have raised : loadTemp (headAccepted s) = raise e := by
      rw [loadTemp_of_cipher (s := headAccepted s) (decide_eq_true on)
        ((view.readBytes (by decide) (by decide) _ _).trans read) payload (view.cipherOperands operands)]
      exact congrArg (fun r => liftE r >>= _) dec
    refine failing ?_ rfl
    rw [exec_decode_of_head accepted head, raised]
    rfl
  case checks =>
    obtain ⟨run, extracted, -⟩ := exec_decode_of_planFold accepted head loaded folded
    have view : SameInput s s3 := ((sameInput_beginDecode s).setReader .extractFields).trans extracted.input
    have checking : SameInput s (setReader .expectChecksum s3) := view.setReader .expectChecksum
    refine ⟨fun i j p q on field low high counted => ?length,
      fun i p q len on covered index inside => ?crc, fun swap tag len crc tagged => ?tail⟩
    case length =>
      intro stored v differs
      have resolved := lengthField_of_ranges frameLen field low high counted
      obtain ⟨order, inside⟩ := lengthField_bounds resolved
      refine failing (run.trans (finishDecode_of_length_error ?_)) extracted.status
      have storedRead := readBytes_slice read order (inside.trans_eq frameLen)
      rw [checking.checkLength, checkLength_of_field on resolved storedRead]
      exact if_neg differs
    case crc =>
      have compared := checkCrc_of_frame on read covered index inside
      rw [← checking.checkCrc on] at compared
      split
      case h_1 params table =>
        intro c cand straight swapped
        refine failing (run.trans (finishDecode_of_crc_error len ?_)) extracted.status
        rw [compared, crcSelect_of_some (alg := crcAlg s.regs) table, liftE_ok, res_ok_bind]
        exact congrArg liftE (crcCompareBytes_mismatch straight swapped)
      case h_2 table =>
        refine failing (run.trans (finishDecode_of_crc_error len ?_)) extracted.status
        rw [compared, crcSelect_of_none (alg := crcAlg s.regs) table]
        rfl
    case tail =>
      intro actual differs
      refine failing (x := .extractFields) (run.trans (finishDecode_of_tail_error len crc ?_)) ?_
      · rw [view.regs, view.tagCheck, (configured tagged).tagCheck read]
        exact if_neg differs
      · exact congrArg (fun t => { t with crcSwapped := swap }) extracted.status

end

section
/-! O48: what FINALIZE writes the reader accepts. Its length step and its checksum step each write what the reader's
check compares with; the checksum is written last, so the length field must lie outside its two bytes, and the checksum
outside the range it protects. -/

namespace Sys2Proof.Machine

open Sys2Proof.Safety

/-! ## FINALIZE without an error (rules R246, R250) -/

/-- An accepted FINALIZE that ends without an error is its three steps, each on the result of the one before. -/
theorem finalize_steps_of_no_error {a : BitVec 24} {s t : State} (accepted : Accepted (.finalize a) s)
    (run : exec (.finalize a) s = .next t) (noError : t.status.err = false) :
    ∃ s2 s3 s4, encryptPayload (acceptCommand s) = .ok s2 ∧ writeLength s2 = .ok s3 ∧ writeCrc s3 = .ok s4 ∧
      t = finalizeDone s4 := by
  have failed {e : Err} {u : State} : t ≠ failCapsule e noIndex u := by
    rintro rfl
    simp at noError
  rw [exec_finalize_of_accepted accepted] at run
  obtain ⟨s2, h2, run⟩ | ⟨e, -, h⟩ := attempt_eq_next run
  case inr => exact absurd h failed
  obtain ⟨s3, h3, run⟩ | ⟨e, -, h⟩ := attempt_eq_next run
  case inr => exact absurd h failed
  obtain ⟨s4, h4, run⟩ | ⟨e, -, h⟩ := attempt_eq_next run
  case inr => exact absurd h failed
  injection run with run
  exact ⟨s2, s3, s4, h2, h3, h4, run.symm⟩

section

variable {s t : State}

/-- Encryption leaves the frame within its capacity. -/
theorem encryptPayload_frameLen_le (h : encryptPayload s = .ok t) (fits : s.frameLen.toNat ≤ Config.frameMax) :
    t.frameLen.toNat ≤ Config.frameMax := by
  have capacity : Config.frameMax = 4096 := rfl
  obtain ⟨-, rfl⟩ | ⟨ps, n, b, -, inside, rfl⟩ := encryptPayload_eq_ok h
  · exact fits
  · exact (num_toNat (n := n) (by omega)).trans_le inside

/-- The two steps after the encryption keep the configuration and the frame's length. -/
theorem writeLength_keeps (h : writeLength s = .ok t) : t.regs = s.regs ∧ t.frameLen = s.frameLen := by
  obtain ⟨-, rfl⟩ | ⟨f, -, -, rfl⟩ := writeLength_eq_ok h <;> exact ⟨rfl, rfl⟩

theorem writeCrc_keeps (h : writeCrc s = .ok t) : t.regs = s.regs ∧ t.frameLen = s.frameLen := by
  obtain ⟨-, rfl⟩ | ⟨ci, c, -, -, rfl⟩ := writeCrc_eq_ok h <;> exact ⟨rfl, rfl⟩

/-! ## The checksum (rules R221, R249) -/

/-- Only the little-endian rendering is accepted with its bytes in the other order. -/
theorem crcLe_of_swapped {c : BitVec 16} {le : Bool} (h : crcCompareBytes (crcRender c le) c = .ok true) :
    le = true := by
  cases le with
  | true => rfl
  | false =>
    have straight : crcCompareBytes (crcRender c false) c = .ok false := if_pos rfl
    rw [straight] at h
    cases h

/-- The checksum step writes the checksum of the protected range at its index. -/
theorem writeCrc_of_on (on : crcEn s.regs = true) (h : writeCrc s = .ok t) :
    ∃ p q ci params data, regRange s.frameLen.toNat s.regs.crcrStart s.regs.crcrEnd = .ok (p, q) ∧
      crcFieldIndex s = .ok ci ∧ crcSelect (crcAlg s.regs) = .ok params ∧ readBytes s .frame p (q - p) = .ok data ∧
      t = writeBytes s .frame ci (crcRender (crc16P params data) (crcLe s.regs)) := by
  unfold writeCrc at h
  rw [if_pos on] at h
  obtain ⟨⟨p, q⟩, covered, h⟩ := res_bind_eq_ok.mp h
  obtain ⟨ci, index, h⟩ := res_bind_eq_ok.mp h
  obtain ⟨params, alg, h⟩ := res_bind_eq_ok.mp h
  obtain ⟨data, read, h⟩ := res_bind_eq_ok.mp h
  exact ⟨p, q, ci, params, data, covered, index, liftE_eq_ok.mp alg, read, (Except.ok.inj h).symm⟩

/-- The checksum step leaves a range of the frame alone that its two bytes lie outside of. -/
theorem readBytes_writeCrc {i j : Nat} (h : writeCrc s = .ok t) (order : i ≤ j)
    (apart : crcEn s.regs = true → ∀ ci, crcFieldIndex s = .ok ci → ci + 2 ≤ i ∨ j ≤ ci) :
    readBytes t .frame i (j - i) = readBytes s .frame i (j - i) := by
  obtain ⟨-, rfl⟩ | ⟨ci, c, on, index, rfl⟩ := writeCrc_eq_ok h
  · rfl
  · have disjoint := apart on ci index
    have two := crcRender_length c (crcLe s.regs)
    exact readBytes_writeBytes_of_disjoint (.inr (by omega))

/-- The reader's check accepts the checksum just written, where its bytes lie outside the range they protect. -/
theorem checkCrc_of_writeCrc {ci p q : Nat} (on : crcEn s.regs = true) (fits : s.frameLen.toNat ≤ Config.frameMax)
    (h : writeCrc s = .ok t) (index : crcFieldIndex s = .ok ci)
    (covered : regRange s.frameLen.toNat s.regs.crcrStart s.regs.crcrEnd = .ok (p, q)) (apart : ci + 2 ≤ p ∨ q ≤ ci) :
    ∃ swap, checkCrc t = .ok swap ∧ (swap = true → crcLe s.regs = true) := by
  obtain ⟨regs, frameLen⟩ := writeCrc_keeps h
  obtain ⟨order, -⟩ := regRange_bounds covered
  have untouched : readBytes t .frame p (q - p) = readBytes s .frame p (q - p) :=
    readBytes_writeCrc h order fun _ _ index' => Except.ok.inj (index.symm.trans index') ▸ apart
  obtain ⟨p', q', ci', params, data, covered', index', alg, read, written⟩ := writeCrc_of_on on h
  obtain ⟨rfl, rfl⟩ := Prod.mk.inj (Except.ok.inj (covered.symm.trans covered'))
  obtain rfl := Except.ok.inj (index.symm.trans index')
  have candRead : readBytes t .frame ci 2 = .ok (crcRender (crc16P params data) (crcLe s.regs)) := by
    have two := crcRender_length (crc16P params data) (crcLe s.regs)
    rw [written, ← two]
    exact readBytes_writeBytes_self (by rw [two]; exact (crcFieldIndex_bound index).trans fits)
  obtain ⟨swap, accepted⟩ := crcCompareBytes_crcRender (crc16P params data) (crcLe s.regs)
  refine ⟨swap, ?_, fun swapped => crcLe_of_swapped (swapped ▸ accepted)⟩
  rw [← regs] at on alg
  rw [← regs, ← frameLen] at covered
  rw [checkCrc_of_operands on covered ((crcFieldIndex_congr regs frameLen).trans index) (untouched.trans read) candRead,
    alg, liftE_ok, res_ok_bind, accepted, liftE_ok]

/-! ## The length field (rules R220, R248) -/

/-- The bytes FINALIZE stores for a count in a length field. -/
def lengthBytes (r : Regs) (f : LengthField) : Bytes :=
  if lenSwap r then rev (resize (beN f.count 8) false false (f.stop - f.start))
  else resize (beN f.count 8) false false (f.stop - f.start)

/-- A length field that resolves has at most eight bytes. -/
theorem lengthField_size {f : LengthField} (h : lengthField s = .ok f) : f.stop - f.start ≤ 8 := by
  obtain ⟨⟨ls, le⟩, -, h⟩ := res_bind_eq_ok.mp h
  dsimp only at h
  split at h
  · cases h
  · rename_i size
    obtain ⟨⟨rs, re⟩, -, h⟩ := res_bind_eq_ok.mp h
    obtain rfl := Except.ok.inj h
    dsimp only
    omega

/-- Fewer bytes than eight are the low ones. -/
theorem resize_beN {v n : Nat} (h : n ≤ 8) : resize (beN v 8) false false n = beN v n := by
  have split : beN v 8 = beN v ((8 - n) + n) := by rw [Nat.sub_add_cancel h]
  rw [resize, beN_length, if_pos h, split, beN_drop]

theorem lengthBytes_eq {r : Regs} {f : LengthField} (h : f.stop - f.start ≤ 8) :
    lengthBytes r f = if lenSwap r then rev (beN f.count (f.stop - f.start)) else beN f.count (f.stop - f.start) := by
  rw [lengthBytes, resize_beN h]

theorem lengthBytes_length {r : Regs} {f : LengthField} (h : f.stop - f.start ≤ 8) :
    (lengthBytes r f).length = f.stop - f.start := by
  rw [lengthBytes_eq h]
  split <;> simp

/-- A count that fits the field is the number the reader sees in it. -/
theorem lengthValue_lengthBytes {r : Regs} {f : LengthField} (h : f.stop - f.start ≤ 8)
    (fits : f.count < 256 ^ (f.stop - f.start)) : lengthValue r (lengthBytes r f) = f.count := by
  have value : be (beN f.count (f.stop - f.start)) = f.count := by
    rw [be_beN, Nat.pow_mul]
    exact Nat.mod_eq_of_lt fits
  rw [lengthValue, lengthBytes_eq h]
  split
  · rw [rev_rev, value]
  · exact value

/-- The length step writes the count's bytes at the field. -/
theorem writeLength_of_field {f : LengthField} (on : lenEn s.regs = true) (field : lengthField s = .ok f) :
    writeLength s = .ok (writeBytes s .frame f.start (lengthBytes s.regs f)) := by
  unfold writeLength
  simp only [on, if_true, field, res_ok_bind, res_pure_eq]
  rfl

/-- What the length step stored reads back. -/
theorem readBytes_of_writeLength {f : LengthField} (on : lenEn s.regs = true) (field : lengthField s = .ok f)
    (fits : s.frameLen.toNat ≤ Config.frameMax) (h : writeLength s = .ok t) :
    readBytes t .frame f.start (f.stop - f.start) = .ok (lengthBytes s.regs f) := by
  have small := lengthField_size field
  obtain ⟨order, inside⟩ := lengthField_bounds field
  have size : spaceSize .frame = Config.frameMax := rfl
  obtain rfl := Except.ok.inj ((writeLength_of_field on field).symm.trans h)
  rw [← lengthBytes_length (r := s.regs) small]
  refine readBytes_writeBytes_self ?_
  rw [lengthBytes_length small]
  omega

end

end Sys2Proof.Machine

open Sys2Proof Sys2Proof.Machine Sys2Proof.Safety

/-- Settles O48: the checksum step writes what the checksum check accepts (`checkCrc_of_writeCrc`), and what the length
step stored (`readBytes_of_writeLength`) is still there for the length check. -/
theorem finalizedFrameIsAccepted : Obligations.FinalizedFrameIsAccepted := by
  intro a s t inv accepted run noError
  obtain ⟨s2, s3, s4, encrypted, measured, summed, rfl⟩ := finalize_steps_of_no_error accepted run noError
  obtain ⟨regs3, frameLen3⟩ := writeLength_keeps measured
  obtain ⟨regs4, frameLen4⟩ := writeCrc_keeps summed
  have fits2 : s2.frameLen.toNat ≤ Config.frameMax := encryptPayload_frameLen_le encrypted inv.lengths.frame
  have fits3 : s3.frameLen.toNat ≤ Config.frameMax := by rwa [frameLen3]
  have sameIndex : crcFieldIndex (finalizeDone s4) = crcFieldIndex s3 := crcFieldIndex_congr regs4 frameLen4
  have sameField : lengthField (finalizeDone s4) = lengthField s2 :=
    lengthField_congr (regs4.trans regs3) (frameLen4.trans frameLen3)
  refine ⟨fun ci p q on index covered apart => ?checksum, fun f on field fits apart => ?length⟩
  case checksum =>
    have done : checkCrc (finalizeDone s4) = checkCrc s4 := SameInput.checkCrc (s := s4) (.of_mem rfl rfl rfl) on
    rw [sameIndex] at index
    have coveredReg : regRange s4.frameLen.toNat s4.regs.crcrStart s4.regs.crcrEnd = .ok (p, q) :=
      liftE_eq_ok.mpr covered
    rw [frameLen4, regs4] at coveredReg
    rw [finalizeDone_regs, regs4] at on ⊢
    rw [done]
    exact checkCrc_of_writeCrc on fits3 summed index coveredReg apart
  case length =>
    have on2 : lenEn s2.regs = true := by rwa [finalizeDone_regs, regs4, regs3] at on
    have field2 : lengthField s2 = .ok f := sameField.symm.trans field
    obtain ⟨order, -⟩ := lengthField_bounds field2
    have small := lengthField_size field2
    have kept : readBytes s4 .frame f.start (f.stop - f.start) = readBytes s3 .frame f.start (f.stop - f.start) :=
      readBytes_writeCrc summed order fun crc ci index =>
        apart (by rwa [finalizeDone_regs, regs4]) ci (sameIndex.trans index)
    have stored : readBytes (finalizeDone s4) .frame f.start (f.stop - f.start) = .ok (lengthBytes s2.regs f) :=
      (readBytes_congr_mem (finalizeDone_mem s4) _ _ _).trans
        (kept.trans (readBytes_of_writeLength on2 field2 fits2 measured))
    rw [checkLength_of_field on field stored, finalizeDone_regs, regs4, regs3]
    exact if_pos (lengthValue_lengthBytes small fits)

end

section
/-! O56: the frames of the capsule commands. A run of the sequencer writes the ends of OUT and FRAME (`EndsWritten`),
step by step until the command ends (`RunFrame`); DECODE fills TEMP before it. FINALIZE rewrites FRAME in its three
steps (`FrameRewritten`). -/

namespace Sys2Proof.Machine

open Sys2Proof.Safety

section

variable {s t u : State}

/-- No configuration register, no register of the engines and no byte of memory has changed, but for the locations
written and the error buffers. -/
structure KeptOutside (written : Space → Nat → Prop) (s t : State) : Prop where
  host : SameHostState s t
  cbufLen : t.cbufLen = s.cbufLen
  crcValue : t.crcValue = s.crcValue
  crcBytes : t.crcBytes = s.crcBytes
  bytes : ∀ sp x, ¬ written sp x → ¬ InErrorBuffers t sp x → readByte t sp x = readByte s sp x

theorem KeptOutside.reject (written : Space → Nat → Prop) (s : State) : KeptOutside written s (rejectCommand s) :=
  ⟨⟨rfl, rfl, rfl, rfl⟩, rfl, rfl, rfl, fun _ _ _ _ => rfl⟩

theorem sameHostState_trans (h : SameHostState s t) (h' : SameHostState t u) : SameHostState s u := by
  obtain ⟨regs, inputs, hostData, freeCount⟩ := h
  obtain ⟨regs', inputs', hostData', freeCount'⟩ := h'
  exact ⟨regs'.trans regs, inputs'.trans inputs, hostData'.trans hostData, freeCount'.trans freeCount⟩

theorem not_inErrorBuffers_of_none (clean : t.err = ErrRecord.none) (sp : Space) (x : Nat) :
    ¬ InErrorBuffers t sp x := by
  rw [InErrorBuffers, clean]
  rintro (⟨-, h⟩ | ⟨-, h⟩) <;> exact Nat.not_lt_zero x h

/-! ## The ends of OUT and FRAME (rules R78, R243) -/

/-- Of registers and memory only the ends of OUT and FRAME, PLAN_PC and the error record have changed. -/
structure EndsWritten (s t : State) : Prop where
  host : SameHostState s t
  tempLen : t.tempLen = s.tempLen
  cbufLen : t.cbufLen = s.cbufLen
  crcValue : t.crcValue = s.crcValue
  crcBytes : t.crcBytes = s.crcBytes
  outBytes : s.outBytes.toNat ≤ t.outBytes.toNat
  frameLen : s.frameLen.toNat ≤ t.frameLen.toNat
  bytes : ∀ sp x, ¬ (sp = .out ∧ s.outBytes.toNat ≤ x ∧ x < t.outBytes.toNat) →
    ¬ (sp = .frame ∧ s.frameLen.toNat ≤ x ∧ x < t.frameLen.toNat) → ¬ InErrorBuffers t sp x →
    readByte t sp x = readByte s sp x

theorem EndsWritten.refl (s : State) : EndsWritten s s :=
  ⟨⟨rfl, rfl, rfl, rfl⟩, rfl, rfl, rfl, rfl, le_rfl, le_rfl, fun _ _ _ _ _ => rfl⟩

/-- The flags, PLAN_PC and the source of the descriptors are no part of it. -/
theorem EndsWritten.setFlags (h : EndsWritten s t) (status : Status) (pc : Word) (fromWd : Bool) :
    EndsWritten s { t with status := status, planPc := pc, fromWd := fromWd } := { h with }

/-- The two ranges of what was written and of an append lie in the range of both. -/
theorem EndsWritten.append (h : EndsWritten s t) (clean : t.err = ErrRecord.none) (host : SameHostState t u)
    (appended : AppendedTo t u) : EndsWritten s u where
  host := sameHostState_trans h.host host
  tempLen := appended.tempLen.trans h.tempLen
  cbufLen := appended.cbufLen.trans h.cbufLen
  crcValue := appended.crcValue.trans h.crcValue
  crcBytes := appended.crcBytes.trans h.crcBytes
  outBytes := h.outBytes.trans appended.outBytes
  frameLen := h.frameLen.trans appended.frameLen
  bytes sp x out frame _ :=
    (appended.bytes sp x (fun ⟨hs, lo, hi⟩ => out ⟨hs, h.outBytes.trans lo, hi⟩)
      (fun ⟨hs, lo, hi⟩ => frame ⟨hs, h.frameLen.trans lo, hi⟩)).trans
    (h.bytes sp x (fun ⟨hs, lo, hi⟩ => out ⟨hs, lo, hi.trans_le appended.outBytes⟩)
      (fun ⟨hs, lo, hi⟩ => frame ⟨hs, lo, hi.trans_le appended.frameLen⟩) (not_inErrorBuffers_of_none clean sp x))

/-- The first error of a command writes its record (rule R290). -/
theorem EndsWritten.fail (h : EndsWritten s t) (clean : t.err = ErrRecord.none) (e : Err) (i : Word) :
    EndsWritten s (failCapsule e i t) :=
  { h with
    bytes := fun sp x out frame buffers => ((failCapsule_hasRecord e i t).otherBytes sp x buffers).trans
      (h.bytes sp x out frame (not_inErrorBuffers_of_none clean sp x)) }

theorem EndsWritten.keptOutside {written : Space → Nat → Prop} (h : EndsWritten s t)
    (out : ∀ x, s.outBytes.toNat ≤ x → x < t.outBytes.toNat → written .out x)
    (frame : ∀ x, s.frameLen.toNat ≤ x → x < t.frameLen.toNat → written .frame x) : KeptOutside written s t :=
  { h with
    bytes := fun sp x outside => h.bytes sp x
      (by rintro ⟨rfl, lo, hi⟩; exact outside (out x lo hi)) (by rintro ⟨rfl, lo, hi⟩; exact outside (frame x lo hi)) }

/-! ## A command under way (rules R219, R242, R244) -/

/-- The frame of a run of the sequencer from `s`: while the command runs no error is recorded and its direction stays;
DECODE leaves FRAME alone and a writer the reader's flags. -/
structure RunFrame (s t : State) : Prop extends EndsWritten s t where
  running : t.status.busy = true → t.err = ErrRecord.none ∧ t.status.main = s.status.main
  decoding : s.status.main = .reading → t.frameLen = s.frameLen
  encoding : s.status.main = .encoding → t.status.rstate = s.status.rstate ∧ t.status.crcSwapped = s.status.crcSwapped

theorem RunFrame.refl (clean : s.err = ErrRecord.none) : RunFrame s s :=
  ⟨.refl s, fun _ => ⟨clean, rfl⟩, fun _ => rfl, fun _ => ⟨rfl, rfl⟩⟩

theorem RunFrame.fail (h : RunFrame s t) (busy : t.status.busy = true) (e : Err) (i : Word) :
    RunFrame s (failCapsule e i t) := by
  obtain ⟨clean, main⟩ := h.running busy
  refine ⟨h.toEndsWritten.fail clean e i, fun b => ?_, h.decoding, fun encoding => ?_⟩
  · simp at b
  · rw [failCapsule_status, flagsFailCapsule_rstate, flagsFailCapsule_crcSwapped, if_neg (by simp [main, encoding])]
    exact h.encoding encoding

theorem RunFrame.append (h : RunFrame s t) (busy : t.status.busy = true) (host : SameHostState t u)
    (appended : AppendedTo t u) (frame : t.status.main = .reading → u.frameLen = t.frameLen) : RunFrame s u := by
  obtain ⟨clean, main⟩ := h.running busy
  refine ⟨h.toEndsWritten.append clean host appended, fun _ => ?_, fun decoding => ?_, fun encoding => ?_⟩
  · rw [appended.err, appended.status]
    exact ⟨clean, main⟩
  · exact (frame (main.trans decoding)).trans (h.decoding decoding)
  · rw [appended.status]
    exact h.encoding encoding

/-- A command that has ended keeps its frame, whatever its flags, where a writer leaves the reader's. -/
theorem RunFrame.complete (h : RunFrame s t) {status : Status} (busy : status.busy = false)
    (reader : s.status.main = .encoding → status.rstate = t.status.rstate ∧ status.crcSwapped = t.status.crcSwapped)
    (fromWd : Bool) : RunFrame s { t with status := status, fromWd := fromWd } where
  toEndsWritten := h.toEndsWritten.setFlags status t.planPc fromWd
  running b := absurd (busy.symm.trans b) Bool.false_ne_true
  decoding := h.decoding
  encoding encoding := by
    obtain ⟨rstate, crcSwapped⟩ := h.encoding encoding
    obtain ⟨rstate', crcSwapped'⟩ := reader encoding
    exact ⟨rstate'.trans rstate, crcSwapped'.trans crcSwapped⟩

theorem RunFrame.completeWriter (h : RunFrame s t) : RunFrame s (completeWriter t) :=
  h.complete (status := { flagsComplete t.status with main := .accum }) rfl (fun _ => ⟨rfl, rfl⟩) false

theorem RunFrame.advance (h : RunFrame s t) : RunFrame s (advance t) := by
  unfold Machine.advance
  split
  · exact h.completeWriter
  · exact { h with }

/-- In DECODE the flags of the reader move. -/
theorem RunFrame.setReader (h : RunFrame s t) (busy : t.status.busy = true) (main : t.status.main = .reading)
    (r : ReaderState) : RunFrame s (setReader r t) := by
  obtain ⟨-, same⟩ := h.running busy
  exact ⟨h.toEndsWritten.setFlags _ t.planPc t.fromWd, h.running, h.decoding,
    fun encoding => absurd (main.symm.trans (same.trans encoding)) (by decide)⟩

theorem RunFrame.setCrcSwapped (h : RunFrame s t) (busy : t.status.busy = true) (main : t.status.main = .reading)
    (b : Bool) : RunFrame s (setCrcSwapped b t) := by
  obtain ⟨-, same⟩ := h.running busy
  exact ⟨h.toEndsWritten.setFlags _ t.planPc t.fromWd, h.running, h.decoding,
    fun encoding => absurd (main.symm.trans (same.trans encoding)) (by decide)⟩

theorem RunFrame.readerDone (h : RunFrame s t) (busy : t.status.busy = true) (main : t.status.main = .reading) :
    RunFrame s (readerDone t) := by
  obtain ⟨-, same⟩ := h.running busy
  exact h.complete rfl (fun encoding => absurd (main.symm.trans (same.trans encoding)) (by decide)) t.fromWd

/-! ## The steps of the sequencer -/

theorem RunFrame.runDescriptor {k : Kind} {ft : FType} {d : Desc} (h : RunFrame s t)
    (run : runDescriptor k ft d t = .next u) : RunFrame s u := by
  obtain ⟨busy, ⟨-, ⟨v, extracted, rfl⟩ | ⟨e, -, rfl⟩⟩ | ⟨encoding, ⟨v, emitted, rfl⟩ | ⟨e, -, rfl⟩⟩⟩ :=
    runDescriptor_eq_next run
  · obtain ⟨appended, frameLen⟩ := extractField_appendedTo extracted
    exact (h.append busy (extractField_sameHostState extracted) appended fun _ => frameLen).advance
  · exact h.fail busy e _
  · exact (h.append busy (emitField_sameHostState emitted) (emitField_appendedTo emitted) fun reading =>
      absurd (reading.symm.trans encoding) (by decide)).advance
  · exact h.fail busy e _

theorem RunFrame.runWords {w : DescWords} (h : RunFrame s t) (busy : t.status.busy = true)
    (run : runWords exec w t = .next u) : RunFrame s u := by
  obtain ⟨e, -, failed⟩ | ⟨i, k, ft, d, -, -, ran⟩ := runWords_eq w t
  · rw [failed] at run
    injection run with run
    exact run ▸ h.fail busy _ _
  · exact h.runDescriptor (ran ▸ run)

theorem RunFrame.finishDecode (h : RunFrame s t) (busy : t.status.busy = true) (main : t.status.main = .reading)
    (run : finishDecode t = .next u) : RunFrame s u := by
  have checking := h.setReader busy main .expectChecksum
  obtain ⟨e, rfl⟩ | ⟨swap, -, -, ended⟩ := finishDecode_eq_next run
  · exact checking.fail busy e _
  · have tail := (checking.setCrcSwapped busy main swap).setReader busy main .expectTail
    obtain ⟨e, rfl⟩ | rfl := ended
    · exact tail.fail busy e _
    · exact tail.readerDone busy main

theorem RunFrame.seqStep (h : RunFrame s t) (run : seqStep exec t = .next u) : RunFrame s u := by
  obtain ⟨busy, -, ⟨-, ran⟩ | ⟨-, -, w, -, ran⟩ | ⟨-, -, e, -, rfl⟩ | ⟨-, -, ended⟩⟩ := seqStep_eq_next run
  · exact h.runWords busy ran
  · exact h.runWords busy ran
  · exact h.fail busy e _
  · unfold endOfPlan at ended
    split at ended
    · rename_i main
      exact h.finishDecode busy main ended
    · injection ended with ended
      exact ended ▸ h.completeWriter

theorem runFrame_runSeq {n : Nat} (clean : s.err = ErrRecord.none) (run : runSeq exec n s = .next t) : RunFrame s t :=
  runSeq_keeps (P := RunFrame s) (fun _ _ h _ step => h.seqStep step) n s t (.refl clean) run

/-! ## DECODE (rules R216, R218, R227) -/

/-- What DECODE writes: TEMP below its new length, and the end of OUT. -/
def decodeWrites (s t : State) (sp : Space) (x : Nat) : Prop :=
  (sp = .temp ∧ x < t.tempLen.toNat) ∨ (sp = .out ∧ s.outBytes.toNat ≤ x ∧ x < t.outBytes.toNat)

/-- TEMP filled within its capacity changes it below its new length only. -/
theorem readByte_tempFilled {b : Bytes} (fits : b.length ≤ Config.frameMax) {sp : Space} {x : Nat}
    (h : ¬ (sp = .temp ∧ x < (tempFilled b s).tempLen.toNat)) : readByte (tempFilled b s) sp x = readByte s sp x := by
  have capacity : Config.frameMax = 4096 := rfl
  have length : (tempFilled b s).tempLen.toNat = b.length := num_toNat (by omega)
  have written : (tempFilled b s).mem = (writeBytes s .temp 0 b).mem := rfl
  rw [readByte_congr written, readByte_writeBytes, if_neg]
  rintro ⟨rfl, -, inside, -⟩
  exact h ⟨rfl, by omega⟩

/-- A run of DECODE's plan writes the end of OUT and leaves FRAME alone. -/
theorem RunFrame.decodeKept (h : RunFrame u t) (reading : u.status.main = .reading)
    (outBytes : u.outBytes = s.outBytes) : t.frameLen = u.frameLen ∧ KeptOutside (decodeWrites s t) u t := by
  have frameLen := h.decoding reading
  refine ⟨frameLen, h.toEndsWritten.keptOutside (fun x lo hi => .inr ⟨rfl, outBytes ▸ lo, hi⟩) fun x lo hi => ?_⟩
  rw [frameLen] at hi
  exact absurd hi (Nat.not_lt.mpr lo)

theorem execDecode_frame {a : BitVec 24} (run : execDecode a s = .next t) :
    t.frameLen = s.frameLen ∧ KeptOutside (decodeWrites s t) s t := by
  have begun : RunFrame (beginDecode s) (beginDecode s) := .refl rfl
  have unloaded (h : RunFrame (beginDecode s) t) :
      t.frameLen = s.frameLen ∧ KeptOutside (decodeWrites s t) s t := by
    obtain ⟨frameLen, kept⟩ := h.decodeKept (s := s) rfl rfl
    exact ⟨frameLen, { kept with }⟩
  obtain ⟨-, rfl⟩ | ⟨-, ⟨e, rfl⟩ | ⟨-, ⟨e, rfl⟩ | ⟨b, fits, -, plan⟩⟩⟩ := execDecode_eq_next run
  · exact ⟨rfl, .reject _ s⟩
  · exact unloaded (begun.fail rfl e _)
  · exact unloaded ((begun.setReader rfl rfl .extractFields).fail rfl e _)
  · have h := runFrame_runSeq (s := tempFilled b (setReader .extractFields (beginDecode s))) rfl plan
    obtain ⟨frameLen, kept⟩ := h.decodeKept (s := s) rfl rfl
    refine ⟨frameLen, { kept with bytes := fun sp x outside buffers => (kept.bytes sp x outside buffers).trans ?_ }⟩
    refine readByte_tempFilled (s := setReader .extractFields (beginDecode s)) fits fun temp => outside (.inl ?_)
    rwa [h.tempLen]

/-! ## WRITE_FIELD and ENCODE_PLAN (rules R240 to R244) -/

/-- What WRITE_FIELD and ENCODE_PLAN write: FRAME from its start, which is 0 from Idle, and the end of OUT. -/
def writerWrites (s t : State) (sp : Space) (x : Nat) : Prop :=
  (sp = .frame ∧ (beginWriter s).frameLen.toNat ≤ x ∧ x < t.frameLen.toNat) ∨
    (sp = .out ∧ s.outBytes.toNat ≤ x ∧ x < t.outBytes.toNat)

/-- The frame of WRITE_FIELD and ENCODE_PLAN. -/
structure WriterFrame (s t : State) : Prop extends KeptOutside (writerWrites s t) s t where
  tempLen : t.tempLen = s.tempLen
  rstate : t.status.rstate = s.status.rstate
  crcSwapped : t.status.crcSwapped = s.status.crcSwapped

theorem WriterFrame.reject (s : State) : WriterFrame s (rejectCommand s) := ⟨.reject _ s, rfl, rfl, rfl⟩

/-- Wherever the run of an accepted writer's command ends, its frame is kept. -/
theorem RunFrame.writerFrame (h : RunFrame (beginWriter s) t) : WriterFrame s t := by
  have kept := h.toEndsWritten.keptOutside (written := writerWrites s t) (fun x lo hi => .inr ⟨rfl, lo, hi⟩)
    fun x lo hi => .inl ⟨rfl, lo, hi⟩
  obtain ⟨rstate, crcSwapped⟩ := h.encoding rfl
  exact { kept with tempLen := h.tempLen, rstate := rstate, crcSwapped := crcSwapped }

theorem runFrame_beginWriter (s : State) : RunFrame (beginWriter s) (beginWriter s) := .refl rfl

theorem execWriteFieldRaw_frame (run : execWriteFieldRaw s = .next t) : WriterFrame s t := by
  obtain ⟨-, rfl⟩ | ⟨-, ⟨e, rfl⟩ | ⟨s1, written, rfl⟩⟩ := execWriteFieldRaw_eq_next run
  · exact .reject s
  · exact ((runFrame_beginWriter s).fail rfl e _).writerFrame
  · obtain ⟨b, rf, -, -, frame, out, rfl⟩ := rawField_eq_ok written
    have appended := (appendedTo_outAppended out).trans (appendedTo_frameAppended (s := outAppended rf _) frame)
    have reading : (beginWriter s).status.main ≠ .reading := by simp
    have emitted : RunFrame (beginWriter s) (frameAppended b (outAppended rf (beginWriter s))) :=
      (runFrame_beginWriter s).append rfl ⟨rfl, rfl, rfl, rfl⟩ appended fun main => absurd main reading
    exact emitted.completeWriter.writerFrame

theorem execWriteFieldEnc_frame (run : execWriteFieldEnc s = .next t) : WriterFrame s t := by
  obtain ⟨-, rfl⟩ | ⟨-, ⟨e, rfl⟩ | ⟨-, plan⟩⟩ := execWriteFieldEnc_eq_next run
  · exact .reject s
  · exact ((runFrame_beginWriter s).fail rfl e _).writerFrame
  · have h := runFrame_runSeq (s := { beginWriter s with fromWd := true }) rfl plan
    exact RunFrame.writerFrame { h with }

theorem execEncodePlan_frame {a : BitVec 24} (run : execEncodePlan a s = .next t) : WriterFrame s t := by
  have begun : RunFrame { beginWriter s with planPc := 0 } { beginWriter s with planPc := 0 } := .refl rfl
  have ofBegun (h : RunFrame { beginWriter s with planPc := 0 } t) : WriterFrame s t := RunFrame.writerFrame { h with }
  obtain ⟨-, rfl⟩ | ⟨-, ⟨e, rfl⟩ | ⟨-, plan⟩⟩ := execEncodePlan_eq_next run
  · exact .reject s
  · exact ofBegun (begun.fail rfl e _)
  · exact ofBegun (runFrame_runSeq rfl plan)

/-! ## FINALIZE (rules R246 to R250, R253) -/

/-- FRAME below its new length, and its length, are all that has changed. -/
structure FrameRewritten (s t : State) : Prop where
  same : t = { s with mem := t.mem, frameLen := t.frameLen }
  bytes : ∀ sp x, ¬ (sp = .frame ∧ x < t.frameLen.toNat) → readByte t sp x = readByte s sp x

theorem FrameRewritten.refl (s : State) : FrameRewritten s s := ⟨rfl, fun _ _ _ => rfl⟩

theorem FrameRewritten.trans (h : FrameRewritten s t) (h' : FrameRewritten t u) (frameLen : u.frameLen = t.frameLen) :
    FrameRewritten s u where
  same := by rw [h'.same, h.same]
  bytes sp x outside := (h'.bytes sp x outside).trans (h.bytes sp x (frameLen ▸ outside))

/-- A write that ends within the new length. -/
theorem frameRewritten_writeBytes {off : Nat} {b : Bytes} {len : Word} (inside : off + b.length ≤ len.toNat) :
    FrameRewritten s { writeBytes s .frame off b with frameLen := len } where
  same := rfl
  bytes sp x outside := by
    refine (readByte_congr (s := writeBytes s .frame off b) rfl sp x).trans ?_
    rw [readByte_writeBytes, if_neg]
    rintro ⟨rfl, -, hi, -⟩
    exact outside ⟨rfl, hi.trans_le inside⟩

theorem frameRewritten_encryptPayload (h : encryptPayload s = .ok t) : FrameRewritten s t := by
  have capacity : Config.frameMax = 4096 := rfl
  unfold encryptPayload at h
  dsimp only at h
  split at h
  · obtain ⟨⟨p, q⟩, payload, h⟩ := res_bind_eq_ok.mp h
    obtain ⟨order, inside⟩ := regRange_bounds payload
    obtain ⟨ct, -, h⟩ := res_bind_eq_ok.mp h
    dsimp only at h
    split at h
    · cases h
    · obtain ⟨tail, read, h⟩ := res_bind_eq_ok.mp h
      have length := readBytes_length read
      obtain rfl := Except.ok.inj h
      refine frameRewritten_writeBytes ?_
      rw [num_toNat (by omega), List.length_append]
      omega
  · obtain rfl := Except.ok.inj h
    exact .refl _

theorem frameRewritten_writeLength (h : writeLength s = .ok t) : FrameRewritten s t := by
  obtain ⟨-, rfl⟩ | ⟨f, on, field, -⟩ := writeLength_eq_ok h
  · exact .refl _
  · obtain rfl := Except.ok.inj ((writeLength_of_field on field).symm.trans h)
    obtain ⟨order, inside⟩ := lengthField_bounds field
    refine frameRewritten_writeBytes (len := s.frameLen) ?_
    rw [lengthBytes_length (lengthField_size field)]
    omega

theorem frameRewritten_writeCrc (h : writeCrc s = .ok t) : FrameRewritten s t := by
  obtain ⟨-, rfl⟩ | ⟨ci, c, -, index, rfl⟩ := writeCrc_eq_ok h
  · exact .refl _
  · refine frameRewritten_writeBytes (len := s.frameLen) ?_
    rw [crcRender_length]
    exact crcFieldIndex_bound index

/-- The frame of FINALIZE. -/
structure FinalizeFrame (s t : State) : Prop extends
    KeptOutside (fun sp x => sp = .frame ∧ x < t.frameLen.toNat) s t where
  tempLen : t.tempLen = s.tempLen
  outCount : t.outCount = s.outCount
  outBytes : t.outBytes = s.outBytes
  planPc : t.planPc = s.planPc
  rstate : t.status.rstate = s.status.rstate
  crcSwapped : t.status.crcSwapped = s.status.crcSwapped

/-- The frame rewritten by an accepted FINALIZE, the record and the flags of its end apart. -/
theorem FrameRewritten.finalizeFrame (h : FrameRewritten (acceptCommand s) t) : FinalizeFrame s t where
  host := by rw [h.same]; exact ⟨rfl, rfl, rfl, rfl⟩
  cbufLen := by rw [h.same]; rfl
  crcValue := by rw [h.same]; rfl
  crcBytes := by rw [h.same]; rfl
  bytes sp x outside _ := h.bytes sp x outside
  tempLen := by rw [h.same]; rfl
  outCount := by rw [h.same]; rfl
  outBytes := by rw [h.same]; rfl
  planPc := by rw [h.same]; rfl
  rstate := by rw [h.same]; rfl
  crcSwapped := by rw [h.same]; rfl

theorem FrameRewritten.fail (h : FrameRewritten (acceptCommand s) t) (main : s.status.main = .accum) (e : Err) :
    FinalizeFrame s (failCapsule e noIndex t) := by
  have kept := h.finalizeFrame
  have notReading : t.status.main ≠ .reading := by
    rw [h.same]
    simp [flagsAccept, main]
  exact
    { kept with
      bytes := fun sp x outside buffers =>
        ((failCapsule_hasRecord e noIndex t).otherBytes sp x buffers).trans (h.bytes sp x outside)
      rstate := by
        rw [failCapsule_status, flagsFailCapsule_rstate, if_neg notReading]
        exact kept.rstate
      crcSwapped := by
        rw [failCapsule_status, flagsFailCapsule_crcSwapped]
        exact kept.crcSwapped }

theorem execFinalize_frame {a : BitVec 24} (run : execFinalize a s = .next t) : FinalizeFrame s t := by
  obtain ⟨-, rfl⟩ | ⟨accepted, run⟩ := execFinalize_eq_next run
  · exact ⟨.reject _ s, rfl, rfl, rfl, rfl, rfl, rfl⟩
  have main := accepts_finalize.mp (commandAccepted_iff.mp accepted).1
  obtain ⟨e, rfl⟩ | ⟨s2, encrypted, run⟩ := run
  · exact (FrameRewritten.refl (acceptCommand s)).fail main e
  have after2 := frameRewritten_encryptPayload encrypted
  obtain ⟨e, rfl⟩ | ⟨s3, measured, run⟩ := run
  · exact after2.fail main e
  have after3 := after2.trans (frameRewritten_writeLength measured) (writeLength_keeps measured).2
  obtain ⟨e, rfl⟩ | ⟨s4, summed, rfl⟩ := run
  · exact after3.fail main e
  exact { (after3.trans (frameRewritten_writeCrc summed) (writeCrc_keeps summed).2).finalizeFrame with }

end

end Sys2Proof.Machine

open Sys2Proof Sys2Proof.Machine Sys2Proof.Safety

/-- Settles O56, from the frames of the five capsule commands. -/
theorem capsuleCommandFrames : Obligations.CapsuleCommandFrames := by
  intro a i s t run start outWritten same
  have kept {written : Space → Nat → Prop} (h : KeptOutside written s t) : same written :=
    ⟨h.host, h.cbufLen, h.crcValue, h.crcBytes, h.bytes⟩
  refine ⟨fun decode => ?decode, fun writer => ?writer, fun finalize => ?finalize⟩
  case decode =>
    subst decode
    obtain ⟨frameLen, h⟩ := execDecode_frame (a := a) run
    exact ⟨frameLen, kept h⟩
  case writer =>
    have frame : WriterFrame s t := by
      simp only [List.mem_cons, List.not_mem_nil, or_false] at writer
      obtain rfl | rfl | rfl := writer
      · exact execWriteFieldRaw_frame run
      · exact execWriteFieldEnc_frame run
      · exact execEncodePlan_frame (a := a) run
    have startsAt : (beginWriter s).frameLen.toNat = start := by
      rw [beginWriter_frameLen]
      exact apply_ite BitVec.toNat _ _ _
    have writes : writerWrites s t =
        fun sp x => (sp = .frame ∧ start ≤ x ∧ x < t.frameLen.toNat) ∨ outWritten sp x := by
      rw [← startsAt]
      rfl
    exact ⟨frame.tempLen, frame.rstate, frame.crcSwapped, writes ▸ kept frame.toKeptOutside⟩
  case finalize =>
    subst finalize
    have frame := execFinalize_frame (a := a) run
    exact ⟨frame.tempLen, frame.outCount, frame.outBytes, frame.planPc, frame.rstate, frame.crcSwapped,
      kept frame.toKeptOutside⟩

end

section
/-! O46: FINALIZE without a cipher. Its length step and its checksum step each write the bytes named by the configuration,
the second on the state the first has left; acceptance and completion touch the flags and the record only. -/

namespace Sys2Proof.Machine

open Sys2Proof.Safety

section

variable {s u v : State}

/-- FINALIZE step 1 without a cipher changes nothing (rule R247). -/
theorem encryptPayload_of_off (off : cipherOn s.regs = false) : encryptPayload s = .ok s := if_neg (by simp [off])

/-- The enables of `FinalizeSteps` have no cipher exactly where CIPHER_SLOT is negative (rule R16). -/
theorem cipherOn_of_steps {r : Regs} {len crc : Bool} (steps : FinalizeSteps r false len crc) : cipherOn r = false :=
  decide_eq_false fun on => Bool.false_ne_true (steps.cipher.mpr on)

/-- The length step from the registers: where the ranges resolve, it writes the low bytes of the count (rule R248). The
frame's bytes do not matter to the ranges, so any string of its length resolves them. -/
theorem writeLength_of_ranges {i j p q : Nat} (on : s.regs.lenCtrl.getLsbD 0 = true)
    (field : range s.frameLen.toNat s.regs.lenfStart.toInt s.regs.lenfEnd.toInt = .ok (i, j)) (low : 1 ≤ j - i)
    (high : j - i ≤ 8) (counted : range s.frameLen.toNat s.regs.lenrStart.toInt s.regs.lenrEnd.toInt = .ok (p, q)) :
    writeLength s = .ok (writeBytes s .frame i
      (if s.regs.lenCtrl.getLsbD 1 then (beN (q - p) (j - i)).reverse else beN (q - p) (j - i))) := by
  have size : (List.replicate s.frameLen.toNat (0 : Byte)).length = s.frameLen.toNat := List.length_replicate
  have resolved : lengthField s = .ok ⟨i, j, q - p⟩ :=
    lengthField_of_ranges size.symm (size.symm ▸ field) low high (size.symm ▸ counted)
  rw [writeLength_of_field on resolved, lengthBytes_eq high]
  rfl

/-- The two bytes of a checksum, written out (rule R124). -/
theorem crcRender_eq (c : BitVec 16) (le : Bool) :
    crcRender c le =
      if le then [c.extractLsb' 0 8, c.extractLsb' 8 8] else [c.extractLsb' 8 8, c.extractLsb' 0 8] := by
  rw [crcRender, beN_two]
  rfl

/-- The checksum step from the registers: it writes the checksum of the protected range at CRC_INDEX (rule R249). -/
theorem writeCrc_of_operands {params : Config.CrcParams} {i p q : Nat} {data : Bytes}
    (on : s.regs.crcCtrl.getLsbD 0 = true)
    (covered : range s.frameLen.toNat s.regs.crcrStart.toInt s.regs.crcrEnd.toInt = .ok (p, q))
    (index : idx s.frameLen.toNat s.regs.crcIndex.toInt = (i : Int)) (inside : i + 2 ≤ s.frameLen.toNat)
    (alg : Config.crcTable (s.regs.crcCtrl.extractLsb' 4 4) = some params)
    (read : readBytes s .frame p (q - p) = .ok data) :
    writeCrc s = .ok (writeBytes s .frame i
      (if s.regs.crcCtrl.getLsbD 1 then
        [(crc16P params data).extractLsb' 0 8, (crc16P params data).extractLsb' 8 8]
       else [(crc16P params data).extractLsb' 8 8, (crc16P params data).extractLsb' 0 8])) := by
  have enabled : crcEn s.regs = true := on
  have coveredReg : regRange s.frameLen.toNat s.regs.crcrStart s.regs.crcrEnd = .ok (p, q) := liftE_eq_ok.mpr covered
  have selected : crcSelect (crcAlg s.regs) = .ok params := crcSelect_of_some alg
  simp only [writeCrc, enabled, if_true, coveredReg, crcFieldIndex_of_inside index inside, selected, liftE_ok,
    res_ok_bind, read, res_pure_eq, crcRender_eq]
  rfl

/-- Completion after acceptance is the `finalized` of the statements (rules R250, R271). -/
theorem finalizeDone_acceptCommand (s : State) : finalizeDone (acceptCommand s) = finalized s := rfl

/-- Acceptance leaves memory alone, so a write before it is a write after it. -/
theorem writeBytes_acceptCommand (s : State) (sp : Space) (off : Nat) (b : Bytes) :
    writeBytes (acceptCommand s) sp off b = acceptCommand (writeBytes s sp off b) := rfl

/-- With no cipher, FINALIZE is its length step and then its checksum step (rule R246). -/
theorem exec_finalize_of_no_cipher {a : BitVec 24} (accepted : Accepted (.finalize a) s)
    (off : cipherOn s.regs = false) (measured : writeLength (acceptCommand s) = .ok (acceptCommand u))
    (summed : writeCrc (acceptCommand u) = .ok (acceptCommand v)) : exec (.finalize a) s = .next (finalized v) := by
  rw [exec_finalize_of_accepted accepted, encryptPayload_of_off (s := acceptCommand s) off, attempt_ok, measured,
    attempt_ok, summed, attempt_ok, finalizeDone_acceptCommand]

end

end Sys2Proof.Machine

open Sys2Proof Sys2Proof.Machine Sys2Proof.Safety

/-- Settles O46: on the accepted state each step is off (`writeLength_of_off`, `writeCrc_of_off`) or writes its bytes
(`writeLength_of_ranges`, `writeCrc_of_operands`); the checksum step reads the frame the length step has left. -/
theorem finalizeStoresLengthAndChecksum : Obligations.FinalizeStoresLengthAndChecksum := by
  intro a s accepted n lengthAt crcAt withLength withCrc
  have measured {i j p q : Nat} (on : s.regs.lenCtrl.getLsbD 0 = true) (resolves : lengthAt i j p q) :
      writeLength (acceptCommand s) = .ok (acceptCommand (withLength i j p q)) := by
    obtain ⟨field, low, high, counted⟩ := resolves
    rw [← writeBytes_acceptCommand]
    exact writeLength_of_ranges (s := acceptCommand s) on field low high counted
  refine ⟨fun steps => ?neither, fun i j p q steps resolves => ?length,
    fun params i p q data steps ⟨covered, index, inside⟩ alg read => ?checksum,
    fun params i j p q ci cp cq data steps resolves ⟨covered, index, inside⟩ alg read => ?both⟩
  case neither =>
    exact exec_finalize_of_no_cipher accepted (cipherOn_of_steps steps) (writeLength_of_off steps.len)
      (writeCrc_of_off steps.crc)
  case length =>
    exact exec_finalize_of_no_cipher accepted (cipherOn_of_steps steps) (measured steps.len resolves)
      (writeCrc_of_off steps.crc)
  case checksum =>
    have readAccepted : readBytes (acceptCommand s) .frame p (q - p) = .ok data :=
      (readBytes_congr_mem (acceptCommand_mem s) _ _ _).trans read
    exact exec_finalize_of_no_cipher accepted (cipherOn_of_steps steps) (writeLength_of_off steps.len)
      (writeCrc_of_operands (s := acceptCommand s) steps.crc covered index inside alg readAccepted)
  case both =>
    have readMeasured : readBytes (acceptCommand (withLength i j p q)) .frame cp (cq - cp) = .ok data :=
      (readBytes_congr_mem (acceptCommand_mem _) _ _ _).trans read
    exact exec_finalize_of_no_cipher accepted (cipherOn_of_steps steps) (measured steps.len resolves)
      (writeCrc_of_operands (s := acceptCommand (withLength i j p q)) steps.crc covered index inside alg readMeasured)

end

section
/-! O17, O18: the two capsule commands without operands, each one update of the accepted state (rules R266, R267). -/

namespace Sys2Proof.Machine

open Sys2Proof.Safety

/-- NOP accepted sets and clears its two flags; BUSY rises and falls within the command (rules R266, R271). -/
theorem exec_nop_of_accepted {a : BitVec 24} {s : State} (h : Accepted (.nop a) s) :
    exec (.nop a) s = .next { s with status := { s.status with cmdRej := false, done := true } } := by
  have ran : exec (.nop a) s = .next (completeCommand { s with status := flagsAcceptNop s.status }) :=
    if_pos (commandAccepted_of_accepted (by simp [acceptedStates, accepts]) h)
  have busyBack : flagsComplete (flagsAcceptNop s.status) = { s.status with cmdRej := false, done := true } := by
    simp [flagsComplete, flagsAcceptNop, h.busy]
  rw [ran, completeCommand, busyBack]

theorem exec_newCapsule_of_accepted {a : BitVec 24} {s : State} (h : Accepted (.newCapsule a) s) :
    exec (.newCapsule a) s = .next (freshCapsule s) :=
  if_pos (commandAccepted_of_accepted (by simp [acceptedStates, accepts]) h)

end Sys2Proof.Machine

open Sys2Proof Sys2Proof.Machine Sys2Proof.Safety

/-- Settles O17, by `exec_nop_of_accepted`. -/
theorem nopKeepsTheErrorRecord : Obligations.NopKeepsTheErrorRecord := fun _ _ accepted => exec_nop_of_accepted accepted

/-- Settles O18: the state is `freshCapsule`, whose fields are read off. -/
theorem newCapsuleIsFresh : Obligations.NewCapsuleIsFresh := by
  intro a s accepted
  exact ⟨freshCapsule s, exec_newCapsule_of_accepted accepted, rfl, rfl, rfl, rfl, rfl, rfl, rfl, rfl, rfl, rfl, rfl, rfl,
    ⟨rfl, rfl, rfl, rfl⟩⟩

end

section
/-! O16: a plan taken apart. The plans of DECODE and of ENCODE_PLAN are one kind of run, with another body for each
descriptor (`PlanBody`): some descriptors are folded, and then either the next one fails the capsule or the plan is at
its end. -/

namespace Sys2Proof.Machine

open Sys2Proof.Safety

/-- `body` is what a command running in the main state `main` does with one descriptor (rules R219, R244). -/
structure PlanBody (main : MainState) (body : State → Kind → FType → Desc → Res State) : Prop where
  runs : ∀ {k ft d s}, s.status.busy = true → s.status.main = main → runDescriptor k ft d s =
    attempt (body s k ft d) (fun e => failCapsule e (descIndex s) s) fun s1 => .next (advance s1)
  keeps : ∀ {k ft d s t}, body s k ft d = .ok t → SameCommand s t ∧ t.planPc = s.planPc

theorem planBody_extractField : PlanBody .reading extractField where
  runs := runDescriptor_reading
  keeps h := ⟨(extractField_appendedTo h).1.toSameCommand, (extractField_appendedTo h).1.planPc⟩

theorem planBody_emitField : PlanBody .encoding emitField where
  runs := runDescriptor_encoding
  keeps h := emitField_sameCommand h

/-- A plan is under way in the main state `main`, with `left` descriptors still to be executed. -/
structure UnderPlan (main : MainState) (s : State) (left : Nat) : Prop where
  busy : s.status.busy = true
  main : s.status.main = main
  fromPlan : s.fromWd = false
  pc : s.planPc.toNat + left = s.regs.planLen.toNat

section

variable {main : MainState} {body : State → Kind → FType → Desc → Res State} {s t : State} {n : Nat}

/-- An error under a descriptor of the plan is recorded with PLAN_PC as its index (rules R14, R285). -/
theorem UnderPlan.descIndex (h : UnderPlan main s n) : descIndex s = s.planPc := if_neg (by simp [h.fromPlan])

/-- The descriptor count goes down by one as PLAN_PC goes up by one. -/
theorem UnderPlan.next (h : UnderPlan main s (n + 1)) (same : SameCommand s t) (pc : t.planPc = s.planPc) :
    UnderPlan main { t with planPc := t.planPc + 1 } n where
  busy := same.status ▸ h.busy
  main := same.status ▸ h.main
  fromPlan := same.fromWd ▸ h.fromPlan
  pc := by
    have here := h.pc
    have bound := s.regs.planLen.isLt
    have step : (s.planPc + 1).toNat = s.planPc.toNat + 1 := by
      rw [BitVec.toNat_add]
      exact Nat.mod_eq_of_lt (by simp; omega)
    simp only [pc, same.regs, step]
    omega

/-- What one step below PLAN_LEN does: the descriptor at PLAN_PC fails the capsule, or its body takes effect and PLAN_PC
is counted up. -/
theorem UnderPlan.seqStep_eq_next (h : UnderPlan main s (n + 1)) (rule : PlanBody main body)
    (step : seqStep exec s = .next t) :
    (∃ e, t = failCapsule e s.planPc s) ∨
      ∃ w k ft d s1, fetchPlan s s.planPc.toNat = .ok w ∧
        (decodeWords (descWordList w)).toOption.bind Instr.descriptor? = some (k, ft, d) ∧
        body s k ft d = .ok s1 ∧ t = { s1 with planPc := s1.planPc + 1 } := by
  have here := h.pc
  have fails {e : Err} (failed : t = failCapsule e (Machine.descIndex s) s) : ∃ e, t = failCapsule e s.planPc s :=
    ⟨e, h.descIndex ▸ failed⟩
  obtain ⟨-, -, ⟨write, -⟩ | ⟨-, -, w, fetched, ran⟩ | ⟨-, -, e, -, failed⟩ | ⟨-, ended, -⟩⟩ :=
    Machine.seqStep_eq_next step
  case inl => exact absurd (h.fromPlan.symm.trans write) Bool.false_ne_true
  case inr.inr.inl => exact .inl (fails failed)
  case inr.inr.inr => omega
  case inr.inl =>
    obtain ⟨e, -, failed⟩ | ⟨i, k, ft, d, decoded, isDescriptor, runs⟩ := runWords_eq w s
    · rw [failed] at ran
      injection ran with ran
      exact .inl (fails ran.symm)
    · rw [runs, rule.runs h.busy h.main] at ran
      obtain ⟨s1, done, next⟩ | ⟨e, -, failed⟩ := attempt_eq_next ran
      · obtain ⟨same, -⟩ := rule.keeps done
        rw [advance_of_plan (same.fromWd.trans h.fromPlan)] at next
        injection next with next
        exact .inr ⟨w, k, ft, d, s1, fetched, by rw [decoded]; exact isDescriptor, done, next.symm⟩
      · exact .inl (fails failed)

/-- Where a run of a plan stands: `done` of its `n` descriptors folded without an error, which leaves `u`; then the next
one failed, or there was none and the command was ended. -/
structure PlanRun (main : MainState) (body : State → Kind → FType → Desc → Res State) (s : State) (n done : Nat)
    (u t : State) : Prop where
  folded : planFold body done s = .ok u
  same : SameCommand s u
  pc : u.planPc.toNat = s.planPc.toNat + done
  ends : (done < n ∧ ∃ e, t = failCapsule e u.planPc u) ∨ (done = n ∧ endOfPlan u = .next t)

/-- The key fact, by induction on the descriptors still to be executed: a run one step longer than its plan ends under
one of the descriptors, or behind the last one. -/
theorem UnderPlan.planRun (h : UnderPlan main s n) (rule : PlanBody main body)
    (run : runSeq exec (n + 1) s = .next t) : ∃ done u, PlanRun main body s n done u t := by
  induction n generalizing s with
  | zero =>
    have plan : main = .reading ∨ main = .encoding := by
      rw [runSeq_one h.busy] at run
      obtain ⟨-, modes, -⟩ := Machine.seqStep_eq_next run
      exact h.main ▸ modes
    rw [runSeq_one h.busy, seqStep_at_end h.busy h.fromPlan h.pc.symm.le (h.main ▸ plan)] at run
    exact ⟨0, s, rfl, .refl s, rfl, .inr ⟨rfl, run⟩⟩
  | succ n ih =>
    rw [runSeq, if_pos h.busy] at run
    split at run
    case h_2 => cases run
    case h_3 => cases run
    case h_1 v step =>
      obtain ⟨e, rfl⟩ | ⟨w, k, ft, d, s1, fetched, decoded, done, rfl⟩ := h.seqStep_eq_next rule step
      · rw [runSeq_of_not_busy (by simp)] at run
        injection run with run
        exact ⟨0, s, rfl, .refl s, rfl, .inl ⟨n.succ_pos, e, run.symm⟩⟩
      · obtain ⟨same, pc⟩ := rule.keeps done
        have after := h.next same pc
        obtain ⟨m, u, folded, rest, pcAfter, ends⟩ := ih after run
        have first : SameCommand s { s1 with planPc := s1.planPc + 1 } := { same with }
        have counted : s.planPc.toNat + (n + 1) = { s1 with planPc := s1.planPc + 1 }.planPc.toNat + n :=
          h.pc.trans ((congrArg (fun r => r.planLen.toNat) same.regs).symm.trans after.pc.symm)
        refine ⟨m + 1, u, ?_, first.trans rest, by omega, ?_⟩
        · rw [planFold, fetched, res_ok_bind, decoded]
          simp only [done, res_ok_bind]
          exact folded
        · obtain ⟨below, failed⟩ | ⟨atEnd, ended⟩ := ends
          · exact .inl ⟨by omega, failed⟩
          · exact .inr ⟨by omega, ended⟩

/-- The end of a plan records no error with an index: DECODE's checks have none (rule R14), and ENCODE_PLAN completes. -/
theorem endOfPlan_failed_index (run : endOfPlan s = .next t) (failed : t.status.main = .failed) :
    t.err.index = noIndex := by
  unfold endOfPlan at run
  split at run
  · obtain ⟨e, rfl⟩ | ⟨swap, -, -, ⟨e, rfl⟩ | rfl⟩ := finishDecode_eq_next run
    · rfl
    · rfl
    · simp at failed
  · injection run with run
    subst run
    simp at failed

/-- `t` failed under descriptor PLAN_PC = ERR_INDEX of a plan of `len`, the ones before it done from `s` and that one
without effect (rules R285, R291). -/
structure FailedUnderPlan (body : State → Kind → FType → Desc → Res State) (s : State) (len : Nat) (t u : State) :
    Prop where
  index : t.planPc = t.err.index
  below : t.planPc.toNat < len
  folded : planFold body t.planPc.toNat s = .ok u
  outCount : t.outCount = u.outCount
  outBytes : t.outBytes = u.outBytes
  frameLen : t.frameLen = u.frameLen
  bytes : ∀ sp x, ¬ InErrorBuffers t sp x → readByte t sp x = readByte u sp x

/-- A whole plan that fails with an index fails under the descriptor at PLAN_PC. -/
theorem UnderPlan.failed (h : UnderPlan main s n) (rule : PlanBody main body) (start : s.planPc = 0)
    (run : runSeq exec (n + 1) s = .next t) (failed : t.status.main = .failed) (index : t.err.index ≠ noIndex) :
    ∃ u, FailedUnderPlan body s n t u := by
  obtain ⟨done, u, folded, -, pc, ⟨below, e, rfl⟩ | ⟨-, ended⟩⟩ := h.planRun rule run
  · have reached : u.planPc.toNat = done := by simpa [start] using pc
    subst reached
    exact ⟨u, rfl, below, folded, rfl, rfl, rfl, (failCapsule_hasRecord e u.planPc u).otherBytes⟩
  · exact absurd (endOfPlan_failed_index ended failed) index

end

/-! ## The two plan commands -/

/-- An accepted command is not refused: of what it can answer the rest is left (rule R269). -/
theorem answer_of_accepted {i : Instr} {c : CommandRow} {s : State} {refusal answer : Prop}
    (row : ∀ m ∈ acceptedStates i, accepts c m = true) (h : Accepted i s)
    (answers : (commandAccepted c s = false ∧ refusal) ∨ (commandAccepted c s = true ∧ answer)) : answer := by
  obtain ⟨refused, -⟩ | ⟨-, h⟩ := answers
  · exact absurd (refused.symm.trans (commandAccepted_of_accepted row h)) Bool.false_ne_true
  · exact h

/-- DECODE at its first descriptor: TEMP filled, PLAN_PC 0 (rules R216, R218). -/
theorem underPlan_tempFilled (s : State) (b : Bytes) :
    UnderPlan .reading (tempFilled b (setReader .extractFields (beginDecode s))) s.regs.planLen.toNat :=
  ⟨rfl, rfl, rfl, Nat.zero_add _⟩

/-- ENCODE_PLAN at its first descriptor (rule R244). -/
theorem underPlan_beginWriter (s : State) :
    UnderPlan .encoding { beginWriter s with planPc := 0 } s.regs.planLen.toNat :=
  ⟨rfl, rfl, rfl, Nat.zero_add _⟩

end Sys2Proof.Machine

open Sys2Proof Sys2Proof.Machine Sys2Proof.Safety

/-- Settles O16: an error with an index arose in the run of the plan, since those before it have none, and there
`UnderPlan.failed` says under which descriptor. -/
theorem planErrorsArePrecise : Obligations.PlanErrorsArePrecise := by
  intro a s t failed index
  refine ⟨fun accepted run => ?decode, fun accepted run => ?encodePlan⟩
  case decode =>
    obtain ⟨e, rfl⟩ | ⟨-, ⟨e, rfl⟩ | ⟨b, -, loaded, run⟩⟩ :=
      answer_of_accepted (by simp [acceptedStates, accepts]) accepted (execDecode_eq_next (a := a) run)
    · exact absurd rfl index
    · exact absurd rfl index
    · obtain ⟨u, h⟩ := (underPlan_tempFilled s b).failed planBody_extractField rfl run failed index
      exact ⟨h.index, h.below, _, u, loaded, h.folded, h.outCount, h.outBytes, h.bytes⟩
  case encodePlan =>
    obtain ⟨e, rfl⟩ | ⟨-, run⟩ :=
      answer_of_accepted (by simp [acceptedStates, accepts]) accepted (execEncodePlan_eq_next (a := a) run)
    · exact absurd rfl index
    · obtain ⟨u, h⟩ := (underPlan_beginWriter s).failed planBody_emitField rfl run failed index
      exact ⟨h.index, h.below, u, h.folded, h.outCount, h.outBytes, h.frameLen, h.bytes⟩

end

section
/-! O49, O50: acceptance, refusal, and the main state. Every command but NOP clears the error record on acceptance and
ends completed or failed: `Unraised` while no error has been taken, `Ended` after it. A plan ends because its run is one
step longer than the plan (`UnderPlan.planRun`). -/

namespace Sys2Proof.Machine

open Sys2Proof.Safety

/-- A command other than NOP has been accepted and has taken no error (rule R271). -/
structure Unraised (s : State) : Prop where
  cmdRej : s.status.cmdRej = false
  err : s.status.err = false
  record : s.err = ErrRecord.none

/-- A command other than NOP has ended: BUSY 0, DONE 1, CMD_REJ 0, MAIN by whether it raised, and no record where it did
not (rules R270, R271, R290, R292). -/
structure Ended (raised completed : MainState) (t : State) : Prop where
  busy : t.status.busy = false
  done : t.status.done = true
  cmdRej : t.status.cmdRej = false
  main : t.status.main = if t.status.err then raised else completed
  record : t.status.err = false → t.err = ErrRecord.none

section

variable {s t : State} {m : MainState}

/-! ## From acceptance to the end -/

theorem unraised_acceptCommand (s : State) : Unraised (acceptCommand s) := ⟨rfl, rfl, rfl⟩

theorem unraised_beginWriter (s : State) : Unraised (beginWriter s) := ⟨rfl, rfl, rfl⟩

theorem unraised_beginDecode (s : State) : Unraised (beginDecode s) := ⟨rfl, rfl, rfl⟩

theorem Unraised.of_sameCommand (h : Unraised s) (same : SameCommand s t) : Unraised t where
  cmdRej := same.status ▸ h.cmdRej
  err := same.status ▸ h.err
  record := same.err ▸ h.record

theorem Unraised.setReader (h : Unraised s) (r : ReaderState) : Unraised (setReader r s) := { h with }

theorem Unraised.setCrcSwapped (h : Unraised s) (b : Bool) : Unraised (setCrcSwapped b s) := { h with }

theorem Unraised.setCrcResult (h : Unraised s) (c : BitVec 16) (b : Bytes) : Unraised (setCrcResult c b s) :=
  { h with }

theorem Unraised.cbufFilled (h : Unraised s) (b : Bytes) : Unraised (cbufFilled b s) := { h with }

theorem Unraised.failCapsule (h : Unraised s) (e : Err) (i : Word) : Ended .failed m (failCapsule e i s) where
  busy := flagsFailCapsule_busy s.status
  done := flagsFailCapsule_done s.status
  cmdRej := (flagsFailCapsule_cmdRej s.status).trans h.cmdRej
  main := by simp
  record := by simp

theorem Unraised.failEngine (h : Unraised s) (e : Err) : Ended s.status.main m (failEngine e s) where
  busy := rfl
  done := rfl
  cmdRej := h.cmdRej
  main := rfl
  record noError := by cases noError

/-- Completion in the main state `m`, whatever else of STATUS it sets. -/
theorem Unraised.ended {raised : MainState} (h : Unraised s) (busy : t.status.busy = false)
    (done : t.status.done = true) (cmdRej : t.status.cmdRej = s.status.cmdRej) (err : t.status.err = s.status.err)
    (main : t.status.main = m) (record : t.err = s.err) : Ended raised m t where
  busy := busy
  done := done
  cmdRej := cmdRej.trans h.cmdRej
  main := by rw [main, err, h.err, if_neg Bool.false_ne_true]
  record _ := record.trans h.record

theorem Unraised.completeCommand (h : Unraised s) : Ended m s.status.main (completeCommand s) :=
  h.ended rfl rfl rfl rfl rfl rfl

theorem Unraised.completeWriter (h : Unraised s) : Ended m .accum (completeWriter s) :=
  h.ended rfl rfl rfl rfl rfl rfl

theorem Unraised.readerDone (h : Unraised s) : Ended m .done (readerDone s) := h.ended rfl rfl rfl rfl rfl rfl

theorem Unraised.finalizeDone (h : Unraised s) : Ended m .done (finalizeDone s) := h.ended rfl rfl rfl rfl rfl rfl

/-! ## The plan -/

/-- The main state in which a plan that raised nothing ends: Done for DECODE, Accum for a writer (rule R270). -/
def planEnd (main : MainState) : MainState := if main = .reading then .done else .accum

theorem Unraised.finishDecode (h : Unraised s) (run : finishDecode s = .next t) : Ended .failed .done t := by
  obtain ⟨e, rfl⟩ | ⟨swap, -, -, ⟨e, rfl⟩ | rfl⟩ := finishDecode_eq_next run
  · exact (h.setReader _).failCapsule e _
  · exact (((h.setReader _).setCrcSwapped swap).setReader _).failCapsule e _
  · exact (((h.setReader _).setCrcSwapped swap).setReader _).readerDone

theorem Unraised.endOfPlan (h : Unraised s) (run : endOfPlan s = .next t) :
    Ended .failed (planEnd s.status.main) t := by
  unfold Machine.endOfPlan at run
  unfold planEnd
  split at run
  case isTrue reading =>
    rw [if_pos reading]
    exact h.finishDecode run
  case isFalse writing =>
    rw [if_neg writing]
    injection run with run
    exact run ▸ h.completeWriter

/-- A run of a whole plan ends its command. -/
theorem Unraised.plan {body : State → Kind → FType → Desc → Res State} {n : Nat} (h : Unraised s)
    (plan : UnderPlan m s n) (rule : PlanBody m body) (run : runSeq exec (n + 1) s = .next t) :
    Ended .failed (planEnd m) t := by
  obtain ⟨done, u, -, same, -, ⟨-, e, rfl⟩ | ⟨-, ended⟩⟩ := plan.planRun rule run
  · exact (h.of_sameCommand same).failCapsule e _
  · have main : u.status.main = m := same.status ▸ plan.main
    exact main ▸ (h.of_sameCommand same).endOfPlan ended

/-- The run of the write descriptor ends its command (rule R242). -/
theorem ended_of_writeFieldReady (run : runSeq exec 1 (writeFieldReady s) = .next t) : Ended .failed .accum t := by
  have ready : Unraised (writeFieldReady s) := ⟨rfl, rfl, rfl⟩
  rw [runSeq_one rfl, seqStep_at_descriptor (atDescriptor_writeFieldReady s)] at run
  obtain ⟨e, -, failed⟩ | ⟨i, k, ft, d, -, -, runs⟩ := runWords_eq s.regs.wd (writeFieldReady s)
  · rw [failed] at run
    injection run with run
    exact run ▸ ready.failCapsule _ _
  · rw [runs, runDescriptor_encoding rfl rfl] at run
    obtain ⟨u, emitted, next⟩ | ⟨e, -, rfl⟩ := attempt_eq_next run
    · obtain ⟨same, -⟩ := emitField_sameCommand emitted
      have fromWd : u.fromWd = true := same.fromWd
      rw [advance, if_pos fromWd] at next
      injection next with next
      exact next ▸ (ready.of_sameCommand same).completeWriter
    · exact ready.failCapsule e _

/-! ## Every command but NOP -/

theorem FrameRewritten.sameCommand (h : FrameRewritten s t) : SameCommand s t := by
  rw [h.same]
  exact ⟨rfl, rfl, rfl, rfl⟩

theorem ended_decode {a : BitVec 24} (accepted : Accepted (.decode a) s) (run : exec (.decode a) s = .next t) :
    Ended .failed .done t := by
  have begun := unraised_beginDecode s
  obtain ⟨e, rfl⟩ | ⟨-, ⟨e, rfl⟩ | ⟨b, -, -, run⟩⟩ :=
    answer_of_accepted (by simp [acceptedStates, accepts]) accepted (execDecode_eq_next (a := a) run)
  · exact begun.failCapsule e _
  · exact (begun.setReader _).failCapsule e _
  · have filled : Unraised (tempFilled b (setReader .extractFields (beginDecode s))) := ⟨rfl, rfl, rfl⟩
    exact filled.plan (underPlan_tempFilled s b) planBody_extractField run

theorem ended_writeFieldRaw (accepted : Accepted .writeFieldRaw s) (run : exec .writeFieldRaw s = .next t) :
    Ended .failed .accum t := by
  have begun := unraised_beginWriter s
  obtain ⟨e, rfl⟩ | ⟨u, written, rfl⟩ :=
    answer_of_accepted (by simp [acceptedStates, accepts]) accepted (execWriteFieldRaw_eq_next run)
  · exact begun.failCapsule e _
  · obtain ⟨b, rf, -, -, -, -, rfl⟩ := rawField_eq_ok written
    have appended : Unraised (frameAppended b (outAppended rf (beginWriter s))) := ⟨rfl, rfl, rfl⟩
    exact appended.completeWriter

theorem ended_writeFieldEnc (accepted : Accepted .writeFieldEnc s) (run : exec .writeFieldEnc s = .next t) :
    Ended .failed .accum t := by
  obtain ⟨e, rfl⟩ | ⟨-, run⟩ :=
    answer_of_accepted (by simp [acceptedStates, accepts]) accepted (execWriteFieldEnc_eq_next run)
  · exact (unraised_beginWriter s).failCapsule e _
  · exact ended_of_writeFieldReady run

theorem ended_encodePlan {a : BitVec 24} (accepted : Accepted (.encodePlan a) s)
    (run : exec (.encodePlan a) s = .next t) : Ended .failed .accum t := by
  have begun : Unraised { beginWriter s with planPc := 0 } := ⟨rfl, rfl, rfl⟩
  obtain ⟨e, rfl⟩ | ⟨-, run⟩ :=
    answer_of_accepted (by simp [acceptedStates, accepts]) accepted (execEncodePlan_eq_next (a := a) run)
  · exact begun.failCapsule e _
  · exact begun.plan (underPlan_beginWriter s) planBody_emitField run

theorem ended_finalize {a : BitVec 24} (accepted : Accepted (.finalize a) s) (run : exec (.finalize a) s = .next t) :
    Ended .failed .done t := by
  have begun := unraised_acceptCommand s
  obtain ⟨e, rfl⟩ | ⟨s2, encrypted, run⟩ :=
    answer_of_accepted (by simp [acceptedStates, accepts]) accepted (execFinalize_eq_next (a := a) run)
  · exact begun.failCapsule e _
  have after2 := begun.of_sameCommand (frameRewritten_encryptPayload encrypted).sameCommand
  obtain ⟨e, rfl⟩ | ⟨s3, measured, run⟩ := run
  · exact after2.failCapsule e _
  have after3 := after2.of_sameCommand (frameRewritten_writeLength measured).sameCommand
  obtain ⟨e, rfl⟩ | ⟨s4, summed, rfl⟩ := run
  · exact after3.failCapsule e _
  exact (after3.of_sameCommand (frameRewritten_writeCrc summed).sameCommand).finalizeDone

theorem ended_crcCalc {a : BitVec 24} (accepted : Accepted (.crcCalc a) s) (run : exec (.crcCalc a) s = .next t) :
    Ended s.status.main s.status.main t := by
  have begun := unraised_acceptCommand s
  obtain ⟨e, rfl⟩ | ⟨c, -, rfl⟩ :=
    answer_of_accepted (by simp [acceptedStates, accepts]) accepted (execCrcCalc_eq_next (a := a) run)
  · exact begun.failEngine e
  · exact (begun.setCrcResult c _).completeCommand

theorem ended_crcCompare {a : BitVec 24} (accepted : Accepted (.crcCompare a) s)
    (run : exec (.crcCompare a) s = .next t) : Ended s.status.main s.status.main t := by
  have begun := (unraised_acceptCommand s).setCrcSwapped false
  obtain ⟨e, rfl⟩ | ⟨c, -, ⟨e, rfl⟩ | ⟨swapped, rfl⟩⟩ :=
    answer_of_accepted (by simp [acceptedStates, accepts]) accepted (execCrcCompare_eq_next (a := a) run)
  · exact begun.failEngine e
  · exact (begun.setCrcResult c _).failEngine e
  · exact ((begun.setCrcResult c _).setCrcSwapped swapped).completeCommand

/-- ENCRYPT and DECRYPT, which are one operation on CBUF in two directions. -/
theorem ended_cipherCommand {dec : Bool} (accepted : commandAccepted .cipher s = true)
    (run : cipherCommand dec s = .next t) : Ended s.status.main s.status.main t := by
  have begun := unraised_acceptCommand s
  obtain ⟨refused, -⟩ | ⟨-, ⟨e, rfl⟩ | ⟨r, -, -, rfl⟩⟩ := cipherCommand_eq_next run
  · exact absurd (refused.symm.trans accepted) Bool.false_ne_true
  · exact begun.failEngine e
  · exact (begun.cbufFilled r).completeCommand

theorem ended_newCapsule {a : BitVec 24} (accepted : Accepted (.newCapsule a) s)
    (run : exec (.newCapsule a) s = .next t) : Ended .idle .idle t := by
  rw [exec_newCapsule_of_accepted accepted] at run
  injection run with run
  subst run
  exact ⟨rfl, rfl, rfl, rfl, fun _ => rfl⟩

/-- The main states in which a command ends, where it raises and where it does not (rule R270); for a descriptor, which
is no command, the state it began in. -/
def endStates (i : Instr) (before : MainState) : MainState × MainState :=
  match i with
  | .newCapsule _ => (.idle, .idle)
  | .decode _ => (.failed, .done)
  | .writeFieldRaw => (.failed, .accum)
  | .writeFieldEnc => (.failed, .accum)
  | .encodePlan _ => (.failed, .accum)
  | .finalize _ => (.failed, .done)
  | _ => (before, before)

/-- Every accepted command but NOP ends as R270 and R271 say. -/
theorem ended_of_accepted {i : Instr} (accepted : Accepted i s) (notNop : ∀ a, i ≠ .nop a)
    (run : exec i s = .next t) : Ended (endStates i s.status.main).1 (endStates i s.status.main).2 t := by
  cases i
  case nop a => exact absurd rfl (notNop a)
  case newCapsule a => exact ended_newCapsule accepted run
  case decode a => exact ended_decode accepted run
  case writeFieldRaw => exact ended_writeFieldRaw accepted run
  case writeFieldEnc => exact ended_writeFieldEnc accepted run
  case encodePlan a => exact ended_encodePlan accepted run
  case finalize a => exact ended_finalize accepted run
  case crcCalc a => exact ended_crcCalc accepted run
  case crcCompare a => exact ended_crcCompare accepted run
  case encrypt a =>
    exact ended_cipherCommand (commandAccepted_of_accepted (by simp [acceptedStates, accepts]) accepted) run
  case decrypt a =>
    exact ended_cipherCommand (commandAccepted_of_accepted (by simp [acceptedStates, accepts]) accepted) run
  all_goals exact absurd accepted.main List.not_mem_nil

/-! ## Refusal (rules R268, R269) -/

/-- In a main state without an A in its row a command is refused. -/
theorem exec_of_not_mem {i : Instr} (command : i.isDescriptor = false)
    (main : s.status.main ∈ [MainState.idle, .accum, .done, .failed]) (h : s.status.main ∉ acceptedStates i) :
    exec i s = .next (rejectCommand s) := by
  have outside {c : CommandRow} (row : ∀ m, accepts c m = true → m ∈ acceptedStates i) :
      ¬ commandAccepted c s = true := fun accepted => h (row _ (commandAccepted_iff.mp accepted).1)
  cases i
  case nop a => exact absurd main h
  case newCapsule a => exact absurd main h
  case decode a => exact if_neg (outside (by simp [acceptedStates, accepts_decode]))
  case writeFieldRaw => exact if_neg (outside (by simp [acceptedStates, accepts_writeField]))
  case writeFieldEnc => exact if_neg (outside (by simp [acceptedStates, accepts_writeField]))
  case encodePlan a => exact if_neg (outside (by simp [acceptedStates, accepts_encodePlan]))
  case finalize a => exact if_neg (outside (by simp [acceptedStates, accepts_finalize]))
  case crcCalc a => exact if_neg (outside (by simp [acceptedStates, accepts_crc]))
  case crcCompare a => exact if_neg (outside (by simp [acceptedStates, accepts_crc]))
  case encrypt a => exact if_neg (outside (by simp [acceptedStates, accepts_cipher]))
  case decrypt a => exact if_neg (outside (by simp [acceptedStates, accepts_cipher]))
  all_goals cases command

end

end Sys2Proof.Machine

open Sys2Proof Sys2Proof.Machine Sys2Proof.Safety

/-- Settles O49: NOP by `exec_nop_of_accepted`, every other accepted command by `ended_of_accepted`, and a refused one by
`exec_of_not_mem`. -/
theorem acceptanceMatrix : Obligations.AcceptanceMatrix := by
  intro i s command busy main
  refine ⟨fun row t run => ?accepted, fun row => exec_of_not_mem command main row⟩
  case accepted =>
    have accepted : Accepted i s := ⟨busy, row⟩
    by_cases nop : ∃ a, i = .nop a
    · obtain ⟨a, rfl⟩ := nop
      rw [exec_nop_of_accepted accepted] at run
      injection run with run
      subst run
      exact ⟨busy, rfl, rfl, fun _ notNop => absurd rfl (notNop a), fun _ _ => ⟨rfl, rfl⟩⟩
    · have notNop : ∀ a, i ≠ .nop a := fun a h => nop ⟨a, h⟩
      have ended := ended_of_accepted accepted notNop run
      exact ⟨ended.busy, ended.done, ended.cmdRej, fun noError _ => ended.record noError,
        fun a h => absurd h (notNop a)⟩

/-- Settles O50: NOP by `exec_nop_of_accepted`, every other command by `ended_of_accepted`. -/
theorem mainStateTransitions : Obligations.MainStateTransitions := by
  intro i s t accepted run
  by_cases nop : ∃ a, i = .nop a
  · obtain ⟨a, rfl⟩ := nop
    rw [exec_nop_of_accepted accepted] at run
    injection run with run
    subst run
    rfl
  · have main := (ended_of_accepted accepted (fun a h => nop ⟨a, h⟩) run).main
    cases i with
    | decode | writeFieldRaw | writeFieldEnc | encodePlan | finalize => exact main
    | _ => exact main.trans (ite_self _)

end
